-- ==== Sys2Proof/Word.lean ====
section
/-!
DEFINITION. The word types of the WT4216: what the manual treats as bits or as a wrapping count.
-/

namespace Sys2Proof

/-- One word of the register window (R175, R177). -/
abbrev Word := BitVec 16

/-- One byte shifted in on MOSI, or a code carried in eight bits (R175, R182). -/
abbrev Byte := BitVec 8

/-- A time: a 48-bit count of ticks that wraps modulo 2^48 (R47, Conventions). -/
abbrev Time := BitVec 48

/-- The levels present together on IN0..IN7; bit k is line k (R139). -/
abbrev Pins := BitVec 8

/-- An address of the register window, 0x00..0x3F (R175). -/
abbrev Addr := BitVec 6

end Sys2Proof
end

