-- ==== Sys2Proof/Syntax.lean ====
section
/-!
DEFINITION. The commands of the block: one constructor of `Instr` for each row of the opcode table.
An operand is what the event brings from outside: a word written, a pin level, the choice of which waiting
request is taken (assumption log 1, 2, 3).
-/

namespace Sys2Proof

/-- Which part of a host command happens. The manual lets other events fall between the acceptance of a
command, the moment its owning block takes it, and its completion (R181, R187), so each part can be given
on its own; `whole` is all of it with nothing between (assumption log 3). -/
inductive CmdStep where
  /-- The three parts below, one directly after the other. -/
  | whole
  /-- The COMMAND write is served: accepted in IDLE, refused with REJ otherwise (R181, R182). -/
  | write
  /-- The owning block takes the request of the command in progress (R187). -/
  | take
  /-- The engine writes RESULT, returns to IDLE and sets DONE (R183). -/
  | complete
deriving DecidableEq, Repr

/-- Which part of a fall of HALTn happens: the fall is recognised, and the Halt Controller then takes the
halt event (R165, R171); `whole` is both at once. -/
inductive FallStep where
  | whole
  | recognise
  | take
deriving DecidableEq, Repr

/-- Which waiting trigger event the Schedule Store takes next: the oldest waiting cue (R95), or the one
waiting on an input source; the chip fixes no order between them (R94). -/
inductive TriggerPick where
  | cue
  | input (k : Fin 8)
deriving DecidableEq, Repr

/-- The block whose oldest waiting record offer the Event Queue takes next (R149). -/
inductive Offerer where
  | store
  | inputs
  | halt
deriving DecidableEq, Repr

/-- The commands and events of the WT4216, one constructor per row of the opcode table, in its order. -/
inductive Instr where
  | append (p : CmdStep)
  | discard (p : CmdStep)
  | commit (p : CmdStep)
  | commitStart
  | mergeCompletion
  /-- `w` is the word written to CONTROL: bit 1 set, bit 0 clear (R185). -/
  | abort (w : Word)
  | cancel (p : CmdStep)
  | query (p : CmdStep)
  | suspend (p : CmdStep)
  | resume (p : CmdStep)
  | cancelGroup (p : CmdStep)
  | setGroup (p : CmdStep)
  /-- `pins` are the input levels at the moment of START (R142). -/
  | start (p : CmdStep) (pins : Pins)
  | stop (p : CmdStep)
  /-- `sync` is the level present on SYNC when ARM-SYNC is taken (R54). -/
  | armSync (p : CmdStep) (sync : Bool)
  | setTime (p : CmdStep)
  | setTrim (p : CmdStep)
  | fireCue (p : CmdStep)
  | configOut (p : CmdStep)
  | configIn (p : CmdStep)
  | halt (p : CmdStep)
  | release (p : CmdStep)
  /-- `w` is the word written to COMMAND; its low byte names no command (R182). -/
  | badcmd (w : Word)
  /-- `w` is the word written to CONTROL, bit 0 set; `pins` are the input levels at the reset (R148, R185). -/
  | softReset (w : Word) (pins : Pins)
  /-- The levels on HALTn, CSn and the input pins when RESETn is released (R148, R174, R188). -/
  | powerOnReset (haltnHigh csnHigh : Bool) (pins : Pins)
  | haltEvent (p : FallStep)
  | haltnRise
  | haltGroupRequest
  /-- A rise of SYNC; `pins` are the input levels at that moment (R54, R142). -/
  | syncEdge (pins : Pins)
  | tickEvent
  | dispatch
  | triggerEvent (pick : TriggerPick)
  | delivery
  | runDown
  | pulseEnd
  /-- `pins` are the levels read at the start of the work (R139). -/
  | sample (pins : Pins)
  | confirmation (pins : Pins)
  | recordOffer (b : Offerer)
  /-- Whatever word is written, the head record is removed (R155). -/
  | pop (w : Word)
  | outDirect (w : Word)
  | irqFlags (w : Word)
  | irqEnable (w : Word)
  | thresh (w : Word)
  | time0
  | registerWrite (a : Addr) (w : Word)
  | resetnAsserted
  | headerByte (b : Byte)
  | frameEnd
  | syncFall
deriving DecidableEq, Repr

end Sys2Proof
end

