-- ==== Sys2Proof/Decode.lean ====
section
/-!
DEFINITION. The commands that a word of the opcode table's bits spells. The table gives no row any bits (its
reader counts no row with a fixed bit or a field), so no word spells a command; a block has no other decoder.
-/

namespace Sys2Proof

/-- No row of the table gives bits, so every word is refused (DESIGN CHOICE, assumption log 22). -/
def decodeTableWord (_nbits _w : Nat) : Option Instr := none

end Sys2Proof
end

