-- ==== Sys2Proof/Config.lean ====
section
/-!
DEFINITION. The numbers the manual fixes for the part. Nothing in this model is a free value of an
implementation: what the manual leaves open is an order of events or a pin level, and both are given by
the commands themselves (assumption log 1 and 2).
-/

namespace Sys2Proof.Config

/-- The largest number of entries one dispatch fires or skips (R25). -/
abbrev dispatchBudget : Nat := 8

/-- The largest number of records of the staging list (R71). -/
abbrev stagingLimit : Nat := 16

/-- The number of records up to which an ordinary record may bring the queue (R152). -/
abbrev queueRoom : Nat := 63

/-- The largest value of a count that is carried in sixteen bits (R4, R151). -/
abbrev countLimit : Nat := 65535

/-- The largest lateness a LATE record carries (R151). -/
abbrev latenessLimit : Nat := 2 ^ 32 - 1

/-- The value of IDENT (R177). -/
abbrev ident : Word := 0x4216

/-- Power-on divider (R65). -/
abbrev powerOnDivider : Word := 100

/-- The codes of the commands of section 11.4. -/
def commandCodes : List Byte :=
  [0x01, 0x02, 0x03, 0x10, 0x11, 0x20, 0x21, 0x22, 0x23, 0x30, 0x31, 0x32, 0x33, 0x34, 0x40, 0x50,
    0x51, 0x60, 0x61]

end Sys2Proof.Config
end

