-- ==== Sys2Proof/Machine/State.lean ====
section
/-!
DEFINITION. The state of the WT4216, block by block as the manual owns it, and its power-on value.
The programmed fields of a slot, its runtime fields and its place are one thing here: each collection holds
its entries with the runtime fields that R3 gives them there, so the place a slot lies in IS its state (R5).
-/

namespace Sys2Proof.Machine

/-! ## Entries (chapter 1) -/

/-- A trigger source (R89). -/
inductive Source where
  | input (k : Fin 8)
  | cue (n : Fin 4)
deriving DecidableEq, Repr

/-- The kind of an entry with the fields that its kind makes present (R1, fields 1 to 7). -/
inductive Action where
  | set (line : Fin 16)
  | clear (line : Fin 16)
  | toggle (line : Fin 16)
  | pulse (line : Fin 16) (level : Bool) (width : BitVec 16)
  | pattern (mask levels : BitVec 16)
  | cue (n : Fin 4)
  | mark
deriving DecidableEq, Repr

/-- The timing form with the fields it makes present (R1, fields 8 to 14): AT, AFTER, ON. -/
inductive Timing where
  | atTime (due : Time)
  | afterDelay (delay : BitVec 48)
  | onTrigger (source : Source) (count : BitVec 8) (offset : BitVec 32) (rehold : Bool)
deriving DecidableEq, Repr

/-- Late policy (R1, field 17). -/
inductive LatePolicy where
  | fire
  | skip
deriving DecidableEq, Repr

/-- Report field (R1, field 21; R41). -/
inductive Report where
  | none
  | each
  | last
deriving DecidableEq, Repr

/-- The programmed fields of an entry (R1). `runs` is 0 where the field is absent. -/
structure Entry where
  action : Action
  timing : Timing
  period : BitVec 32
  runs : BitVec 16
  policy : LatePolicy
  tolerance : BitVec 8
  group : Fin 16
  tag : BitVec 8
  report : Report
deriving DecidableEq, Repr

/-- A handle: a slot and the generation it had at merge completion (R11). -/
structure Handle where
  slot : Fin 128
  gen : BitVec 4
deriving DecidableEq, Repr

/-- What a slot keeps of its entry in every live state (R3): programmed fields, runs left, firings.
`runsLeft` is 0 where R3 gives the field no value. -/
structure Live where
  slot : Fin 128
  entry : Entry
  runsLeft : Nat
  firings : Nat
deriving DecidableEq, Repr

/-- A PENDING slot. Its placement order is its position in the agenda (R19, R3). -/
structure PendingEntry where
  live : Live
  due : Time
deriving DecidableEq, Repr

/-- A HELD slot (R90). -/
structure HeldEntry where
  live : Live
  countdown : Nat
deriving DecidableEq, Repr

/-- A PARKED slot (R111). -/
structure ParkedEntry where
  live : Live
  remaining : Nat
deriving DecidableEq, Repr

/-! ## Schedule Store (chapters 1, 2, 5, 6) -/

/-- Halt action of a group (R108). -/
inductive HaltAction where
  | keep
  | cancel
  | suspend
deriving DecidableEq, Repr

/-- A group record (R108). -/
structure GroupRecord where
  haltAction : HaltAction
  suspended : Bool
deriving DecidableEq, Repr

/-- The Schedule Store. Each list has its head first; the held lists stand in the source order IN0..IN7,
CUE0..CUE3 (R116), the parked sets by group number. -/
structure Store where
  gens : Vector (BitVec 4) 128
  free : List (Fin 128)
  reserved : List (Fin 128)
  agenda : List PendingEntry
  held : Vector (List HeldEntry) 12
  parked : Vector (List ParkedEntry) 16
  groups : Vector GroupRecord 16
deriving DecidableEq, Repr

/-! ## Timebase (chapter 3) -/

/-- Divider and fraction (R50). -/
structure Trim where
  divider : Word
  fraction : BitVec 16
deriving DecidableEq, Repr

/-- The timebase state (R52). ARMED keeps the SYNC level last seen, true for high (R54); RUNNING keeps the
length in REFCLK cycles of the tick in progress, fixed at its boundary (R50). -/
inductive Clock where
  | stopped
  | armed (sync : Bool)
  | running (length : Nat)
deriving DecidableEq, Repr

/-- The Timebase (R47, R50, R63). -/
structure Timebase where
  clock : Clock
  time : Time
  trim : Trim
  pendingTrim : Option Trim
  acc : BitVec 16
  snapshot : Time
deriving DecidableEq, Repr

/-! ## Command Engine (chapters 4, 11) -/

/-- The composer: 21 fields with the widths of R179. It is storage and can hold refused values (R66). -/
structure Composer where
  kind : BitVec 3
  line : BitVec 4
  pulseLevel : BitVec 1
  pulseWidth : BitVec 16
  mask : BitVec 16
  pattern : BitVec 16
  cue : BitVec 2
  form : BitVec 2
  due : BitVec 48
  delay : BitVec 48
  source : BitVec 4
  count : BitVec 8
  offset : BitVec 32
  rehold : BitVec 1
  period : BitVec 32
  runs : BitVec 16
  policy : BitVec 1
  tolerance : BitVec 8
  group : BitVec 4
  tag : BitVec 8
  report : BitVec 2
deriving DecidableEq, Repr

/-- ARG0..ARG3, as registers and as the argument record of a command (R182). -/
structure Args where
  a0 : Word
  a1 : Word
  a2 : Word
  a3 : Word
deriving DecidableEq, Repr

/-- Result codes in the order of their numbers 0..14 (R183). -/
inductive ResultCode where
  | ok
  | badCmd
  | badArg
  | badField
  | stageFull
  | empty
  | noRoom
  | range
  | stale
  | notStopped
  | wrongState
  | haltActive
  | aborted
  | halted
  | reset
deriving DecidableEq, Repr

/-- What a command answers: its code and the words RESULT1..RESULT6, 0 where R184 gives none. -/
structure Reply where
  code : ResultCode
  w1 : Word := 0
  w2 : Word := 0
  w3 : Word := 0
  w4 : Word := 0
  w5 : Word := 0
  w6 : Word := 0
deriving DecidableEq, Repr

/-- How far the command in progress has come while the engine is BUSY: accepted, with the number of halt group
requests that were on their way when it was written and still are (R112); a COMMIT whose commit-start request waits
at the Schedule Store (R74); taken, its completion waiting (R181, R187). -/
inductive Stage where
  | accepted (haltsAhead : Nat)
  | atStore
  | answered (r : Reply)
deriving DecidableEq, Repr

/-- Engine state (R181), with the command in progress and its argument record (R182). -/
inductive Engine where
  | idle
  | busy (command : Byte) (args : Args) (stage : Stage)
  | committing (args : Args)
deriving DecidableEq, Repr

/-- The halt group requests on their way that were handed out before the accepted command was written (R112;
DEDUCED, assumption log 28). -/
def Engine.haltsAhead (e : Engine) : Nat :=
  match e with
  | .busy _ _ (.accepted n) => n
  | _ => 0

/-- The Schedule Store has taken the oldest halt group request: one fewer stands ahead of the accepted command. -/
def Engine.haltTaken (e : Engine) : Engine :=
  match e with
  | .busy c a (.accepted n) => .busy c a (.accepted (n - 1))
  | _ => e

/-- RESULT0..RESULT6: the code byte of the command a result belongs to, and its reply (R183). -/
structure Result where
  command : Byte
  reply : Reply
deriving DecidableEq, Repr

/-- The Command Engine with the registers it owns (R66, R71, R84, R178, R182, R183). -/
structure CommandEngine where
  engine : Engine
  args : Args
  result : Result
  composer : Composer
  staging : List Entry
  handles : List Handle
  hsel : BitVec 8
deriving DecidableEq, Repr

/-! ## Output Unit (chapter 7) -/

/-- Owner of a line's level (R122). -/
inductive LineMode where
  | direct
  | agenda
deriving DecidableEq, Repr

/-- The fields a line holds while PULSING (R122). -/
structure Pulse where
  remaining : Nat
  returnLevel : Bool
  fresh : Bool
deriving DecidableEq, Repr

/-- An output line record (R122). It is PULSING when `pulse` holds a pulse, STEADY otherwise. `ending`: the run-down
of this tick has counted the pulse's last tick, and the line is still to return (R123, R131; DEDUCED, assumption
log 27). -/
structure LineRecord where
  mode : LineMode
  level : Bool
  pulse : Option Pulse
  safeLevel : Bool
  haltMember : Bool
  masked : Bool
  ending : Bool
deriving DecidableEq, Repr

/-- The Output Unit (R122); `forced` is "the halt forcing is in force" (R125). -/
structure OutputUnit where
  lines : Vector LineRecord 16
  direct : BitVec 16
  lastTick : Option Time
  forced : Bool
deriving DecidableEq, Repr

/-- A line effect (R28). -/
inductive Effect where
  | set (line : Fin 16)
  | clear (line : Fin 16)
  | toggle (line : Fin 16)
  | pulse (line : Fin 16) (level : Bool) (width : BitVec 16)
  | pattern (mask levels : BitVec 16)
deriving DecidableEq, Repr

/-- The effects of one dispatch, stamped with its tick, in firing order (R127). -/
structure Delivery where
  stamp : Time
  effects : List Effect
deriving DecidableEq, Repr

/-! ## Input Unit (chapter 8) -/

/-- Edge select (R138). -/
inductive EdgeSelect where
  | none
  | rising
  | falling
  | both
deriving DecidableEq, Repr

/-- Capture mode (R138). -/
inductive CaptureMode where
  | off
  | edge
  | span
deriving DecidableEq, Repr

/-- An input line record (R138). `candidate` is the first-seen tick of a held candidate, whose level is
always the opposite of the accepted level; `spanStart` is the start of an open span. -/
structure InputRecord where
  edgeSelect : EdgeSelect
  capture : CaptureMode
  activeLevel : Bool
  filter : Fin 16
  accepted : Bool
  candidate : Option Time
  spanStart : Option Time
  missed : Bool
deriving DecidableEq, Repr

/-- The Input Unit (R138). -/
structure InputUnit where
  lines : Vector InputRecord 8
deriving DecidableEq, Repr

/-- A capture record as the Input Unit offers it, with the line's missed flag (R143, R144). -/
inductive Capture where
  | edge (line : Fin 8) (level : Bool) (time : Time) (missed : Bool)
  | span (line : Fin 8) (active : Bool) (start width : Time) (missed : Bool)
deriving DecidableEq, Repr

/-! ## Event Queue (chapter 9) -/

/-- Cause of a halt (R164). -/
inductive HaltCause where
  | pin
  | command
deriving DecidableEq, Repr

/-- Reason of a DONE record (R150). -/
inductive DoneReason where
  | finished
  | cancelled
  | halted
deriving DecidableEq, Repr

/-- The eight kinds of event record with their fields (R150). -/
inductive EventRecord where
  | fired (h : Handle) (group : Fin 16) (tag : BitVec 8) (due : Time) (masked : Bool)
  | late (h : Handle) (group : Fin 16) (tag : BitVec 8) (due : Time) (lateness : Nat) (masked : Bool)
  | skipped (h : Handle) (group : Fin 16) (tag : BitVec 8) (due : Time) (number : Nat)
  | done (h : Handle) (group : Fin 16) (tag : BitVec 8) (reason : DoneReason) (firings : Nat) (reheld : Bool)
  | edge (line : Fin 8) (level : Bool) (time : Time) (missed : Bool)
  | span (line : Fin 8) (active : Bool) (start width : Time) (missed : Bool)
  | halt (time : Time) (cause : HaltCause)
  | overflow (count : Nat)
deriving DecidableEq, Repr

/-- One bit for each interrupt flag, or its enable (R159, R161). -/
structure IrqBits where
  evq : Bool
  ovf : Bool
  done : Bool
  rej : Bool
  halt : Bool
deriving DecidableEq, Repr

/-- The Event Queue, oldest record first (R149, R157, R159, R161). -/
structure EventQueue where
  records : List EventRecord
  threshold : Nat
  flags : IrqBits
  enables : IrqBits
deriving DecidableEq, Repr

/-! ## Halt Controller and Host Port (chapters 10, 11) -/

/-- The Halt Controller: the latch with its cause (`none` while CLEAR, R164), the HALTn level last recognised
(R165), and how many recognised falls wait for their halt events to be taken (R165, R171). -/
structure HaltController where
  latch : Option HaltCause
  haltnHigh : Bool
  fallsOwed : Nat
deriving DecidableEq, Repr

/-- The host port's frame (R175): no header byte yet; a frame with its direction, auto-increment and current
address; or waiting to see CSn high before it takes a frame (R188). -/
inductive Port where
  | ready
  | frame (read autoInc : Bool) (addr : Addr)
  | waitHigh
deriving DecidableEq, Repr

/-- The Host Port, and whether RESETn is asserted (R176). -/
structure HostPort where
  port : Port
  inReset : Bool
deriving DecidableEq, Repr

/-! ## Requests handed out and not yet taken -/

/-- What one block has handed to another and the other has not yet taken: the tick event at each of its three
receivers (R51), cues and input trigger events at the Schedule Store (R30, R141), deliveries at the Output
Unit (R127), record offers at the Event Queue (R149), halt group requests at the Schedule Store, each with its
commit abandonment (R166), and a running-ends notice behind the Input Unit's tick work (R142). -/
structure Mail where
  storeTick : Option Time
  outputTick : Option Time
  inputTick : Option Time
  cues : List (Fin 4 × Time)
  inputTriggers : List (Fin 8 × Time)
  deliveries : List Delivery
  storeOffers : List EventRecord
  inputOffers : List Capture
  haltOffers : List EventRecord
  haltRequests : Nat
  endsNotice : Bool
deriving DecidableEq, Repr

/-! ## The whole machine -/

/-- The state of the WT4216 and the queue of commands that wait, first in first out. -/
structure State where
  tb : Timebase
  store : Store
  ce : CommandEngine
  ou : OutputUnit
  iu : InputUnit
  eq : EventQueue
  hc : HaltController
  hp : HostPort
  mail : Mail
  pending : List Instr
deriving DecidableEq, Repr

/-- Why the machine stops with a fault: never. No rule of the manual stops the chip, and every command has an
effect or leaves the state as it is, so this type has no constructor (DEDUCED, assumption log 23). -/
inductive Fault where
deriving DecidableEq, Repr

/-- Why a command has no meaning. -/
inductive Refusal where
  /-- Raised by an arm of `exec` whose command the model has not reached; safe. No arm raises it. -/
  | notModelled (mnemonic : String)
deriving DecidableEq, Repr

/-! ## Power-on values -/

/-- Power-on value of the pool, the collections and the group table (R13, R23, R90, R108). -/
def Store.reset : Store where
  gens := Vector.replicate 128 0
  free := List.finRange 128
  reserved := []
  agenda := []
  held := Vector.replicate 12 []
  parked := Vector.replicate 16 []
  groups := Vector.replicate 16 ⟨.keep, false⟩

/-- Power-on value of the Timebase (R65). -/
def Timebase.reset : Timebase where
  clock := .stopped
  time := 0
  trim := ⟨Config.powerOnDivider, 0⟩
  pendingTrim := none
  acc := 0
  snapshot := 0

/-- A composer with every field zero (R66). -/
def Composer.zero : Composer :=
  ⟨0, 0, 0, 0, 0, 0, 0, 0, 0, 0, 0, 0, 0, 0, 0, 0, 0, 0, 0, 0, 0⟩

/-- Power-on value of the Command Engine (R84, R186). -/
def CommandEngine.reset : CommandEngine where
  engine := .idle
  args := ⟨0, 0, 0, 0⟩
  result := ⟨0, ⟨.ok, 0, 0, 0, 0, 0, 0⟩⟩
  composer := Composer.zero
  staging := []
  handles := []
  hsel := 0

/-- Power-on value of the Output Unit (R137). -/
def OutputUnit.reset : OutputUnit where
  lines := Vector.replicate 16 ⟨.direct, false, none, false, false, false, false⟩
  direct := 0
  lastTick := none
  forced := false

/-- Power-on value of the Input Unit with `pins` on the input lines (R148). -/
def InputUnit.reset (pins : Pins) : InputUnit where
  lines := Vector.ofFn fun k : Fin 8 =>
    ⟨.none, .off, false, 0, pins.getLsbD k, none, none, false⟩

/-- No flag set (R162). -/
def IrqBits.zero : IrqBits := ⟨false, false, false, false, false⟩

/-- Power-on value of the Event Queue (R162). -/
def EventQueue.reset : EventQueue where
  records := []
  threshold := 1
  flags := IrqBits.zero
  enables := IrqBits.zero

/-- Nothing handed out. -/
def Mail.reset : Mail :=
  ⟨none, none, none, [], [], [], [], [], [], 0, false⟩

/-- The machine right after power-on reset with HALTn and CSn high and every input line low. The pin levels
are the environment's: DESIGN CHOICE (assumption log 5). -/
def State.reset : State where
  tb := Timebase.reset
  store := Store.reset
  ce := CommandEngine.reset
  ou := OutputUnit.reset
  iu := InputUnit.reset 0
  eq := EventQueue.reset
  hc := ⟨none, true, 0⟩
  hp := ⟨.ready, false⟩
  mail := Mail.reset
  pending := []

/-! ## One update per block -/

def State.withTb (s : State) (x : Timebase) : State := { s with tb := x }
def State.withStore (s : State) (x : Store) : State := { s with store := x }
def State.withCe (s : State) (x : CommandEngine) : State := { s with ce := x }
def State.withOu (s : State) (x : OutputUnit) : State := { s with ou := x }
def State.withIu (s : State) (x : InputUnit) : State := { s with iu := x }
def State.withEq (s : State) (x : EventQueue) : State := { s with eq := x }
def State.withHc (s : State) (x : HaltController) : State := { s with hc := x }
def State.withHp (s : State) (x : HostPort) : State := { s with hp := x }
def State.withMail (s : State) (x : Mail) : State := { s with mail := x }
def State.withPending (s : State) (x : List Instr) : State := { s with pending := x }

end Sys2Proof.Machine
end

