-- ==== Sys2Proof/Machine/Ops.lean ====
section
/-!
DEFINITION. The shared operations over time and over the Schedule Store: distances, placement, the held lists,
the parked sets, freeing, the group walks. Every command that moves an entry does it through these.
-/

namespace Sys2Proof.Machine

/-! ## Time (Conventions, R47) -/

/-- The signed difference of `t` from `now`, in −2^47..2^47−1 (Conventions). -/
def dist (now t : Time) : Int := (t - now).toInt

/-- `due` is at or before `T` (Conventions). -/
def dueBy (T due : Time) : Bool := dist T due ≤ 0

/-- The ticks left before `due`, 0 when it is at or before `now` (R110). -/
def remainingAt (now due : Time) : Nat := (dist now due).toNat

/-- The lateness at `T` of an entry due at `due`, used where `due` is at or before `T` (R27). -/
def latenessAt (T due : Time) : Nat := (T - due).toNat

/-- The time `n` ticks after `t`, modulo 2^48. -/
def later (t : Time) (n : Nat) : Time := t + BitVec.ofNat 48 n

/-- A count that holds at `limit` (R4, R151). -/
def holdAt (limit n : Nat) : Nat := min limit n

/-! ## Banks of records and words of levels -/

/-- Replace every record of a bank, each by its number and its content. -/
def mapBank {α : Type} {n : Nat} (v : Vector α n) (f : Fin n → α → α) : Vector α n :=
  Vector.ofFn fun i => f i v[i]

/-- A 16-bit word with bit `k` replaced. -/
def withBit (w : BitVec 16) (k : Fin 16) (b : Bool) : BitVec 16 :=
  BitVec.ofFnLE fun i => if i = k then b else w.getLsbD i

/-! ## Entries -/

/-- The place of a source in the source order IN0..IN7, CUE0..CUE3 (R116). -/
def Source.index : Source → Fin 12
  | .input k => ⟨k.val, by omega⟩
  | .cue n => ⟨8 + n.val, by omega⟩

/-- The entry is periodic with runs 1 or more, and so keeps runs left (R3, R35). -/
def Entry.limited (e : Entry) : Bool := e.period != 0 && e.runs != 0

/-- Runs left at merge completion and at each rehold (R3). -/
def Entry.fullRuns (e : Entry) : Nat := if e.limited then e.runs.toNat else 0

/-- The offset of an ON entry (R1). -/
def Entry.offset (e : Entry) : Nat :=
  match e.timing with
  | .onTrigger _ _ offset _ => offset.toNat
  | _ => 0

/-- Where a finishing entry returns: its source and trigger count, for an ON entry with rehold set (R37). -/
def Entry.rehold? (e : Entry) : Option (Source × Nat) :=
  match e.timing with
  | .onTrigger source count _ true => some (source, count.toNat)
  | _ => none

/-! ## The collections of the Schedule Store -/

/-- The entry a live slot holds, with the place it lies in (R5). -/
inductive Found where
  | held (h : HeldEntry)
  | pending (p : PendingEntry)
  | parked (q : ParkedEntry)
deriving DecidableEq, Repr

/-- What the slot keeps in every live state. -/
def Found.live : Found → Live
  | .held h => h.live
  | .pending p => p.live
  | .parked q => q.live

/-- All HELD entries, in the order of a group walk: source by source, each list from its head (R116). -/
def Store.heldEntries (st : Store) : List HeldEntry := st.held.toList.flatten

/-- All PARKED entries, set by set. -/
def Store.parkedEntries (st : Store) : List ParkedEntry := st.parked.toList.flatten

/-- The entry that lives in slot `k`, if any. -/
def Store.find? (st : Store) (k : Fin 128) : Option Found :=
  match st.agenda.find? (fun p => p.live.slot == k) with
  | some p => some (.pending p)
  | none =>
    match st.heldEntries.find? (fun h => h.live.slot == k) with
    | some h => some (.held h)
    | none =>
      match st.parkedEntries.find? (fun q => q.live.slot == k) with
      | some q => some (.parked q)
      | none => none

/-- The handle of the entry in slot `k` as it stands (R11). -/
def Store.handleOf (st : Store) (k : Fin 128) : Handle := ⟨k, st.gens[k]⟩

/-- The entry a handle names while the handle is live; `none` when it is stale (R11). -/
def Store.live? (st : Store) (h : Handle) : Option Found :=
  if st.gens[h.slot] = h.gen then st.find? h.slot else none

/-- The group's suspended flag (R108). -/
def Store.suspended (st : Store) (g : Fin 16) : Bool := st.groups[g].suspended

/-- Insert behind every entry whose distance is smaller or equal, before every one whose distance is greater
(R21). -/
def insertPending (now : Time) (x : PendingEntry) : List PendingEntry → List PendingEntry
  | [] => [x]
  | y :: ys =>
    if dist now y.due ≤ dist now x.due then y :: insertPending now x ys else x :: y :: ys

/-- A placement (R21). -/
def Store.place (st : Store) (now : Time) (x : PendingEntry) : Store :=
  { st with agenda := insertPending now x st.agenda }

/-- Placements one after another (R21). -/
def Store.placeAll (st : Store) (now : Time) : List PendingEntry → Store
  | [] => st
  | x :: xs => (st.place now x).placeAll now xs

/-- An entry joins the tail of the held list of `src` (R90). -/
def Store.joinHeld (st : Store) (src : Source) (h : HeldEntry) : Store :=
  { st with held := st.held.set src.index (st.held[src.index] ++ [h]) }

/-- An entry joins the tail of the parked set of group `g` (R110). -/
def Store.joinParked (st : Store) (g : Fin 16) (q : ParkedEntry) : Store :=
  { st with parked := st.parked.set g (st.parked[g] ++ [q]) }

/-- A slot is freed: it joins the tail of the free list and its generation advances (R7, R10). -/
def Store.freeSlot (st : Store) (k : Fin 128) : Store :=
  { st with gens := st.gens.set k (st.gens[k] + 1), free := st.free ++ [k] }

/-- The entry of slot `k` leaves the place where it lies; the others keep their order (R14). -/
def Store.takeOut (st : Store) (k : Fin 128) : Store :=
  { st with
    agenda := st.agenda.filter (fun p => p.live.slot != k)
    held := mapBank st.held fun _ l => l.filter (fun h => h.live.slot != k)
    parked := mapBank st.parked fun _ l => l.filter (fun q => q.live.slot != k) }

/-- The DONE record of an entry, with the handle it has while it lives; none for report NONE (R14, R40). -/
def Store.doneRecords (st : Store) (l : Live) (reason : DoneReason) (reheld : Bool) : List EventRecord :=
  match l.entry.report with
  | .none => []
  | _ => [.done (st.handleOf l.slot) l.entry.group l.entry.tag reason l.firings reheld]

/-! ## Reservation and merge (R8, R76, R81) -/

/-- The first `n` slots of the free list become the reserved set (R8). -/
def Store.reserve (st : Store) (n : Nat) : Store :=
  { st with reserved := st.free.take n, free := st.free.drop n }

/-- The reserved slots return to the head of the free list, generations kept (R8). -/
def Store.giveBack (st : Store) : Store :=
  { st with free := st.reserved ++ st.free, reserved := [] }

/-- A time within the RANGE window of `t0` (R75). -/
def inWindow (t0 due : Time) : Bool := -(2 ^ 32) ≤ dist t0 due && dist t0 due ≤ 2 ^ 46

/-- The staging index of the first AT record out of the window (R75). -/
def firstOutOfRange (t0 : Time) (batch : List Entry) : Option Nat :=
  batch.findIdx? fun e =>
    match e.timing with
    | .atTime due => !inWindow t0 due
    | _ => false

/-- One record of a batch goes live in its slot at completion (R80, R81). -/
def Store.goLive (st : Store) (tc : Time) (k : Fin 128) (e : Entry) : Store :=
  let l : Live := ⟨k, e, e.fullRuns, 0⟩
  match e.timing with
  | .atTime due =>
    if st.suspended e.group then st.joinParked e.group ⟨l, remainingAt tc due⟩
    else st.place tc ⟨l, due⟩
  | .afterDelay delay =>
    if st.suspended e.group then st.joinParked e.group ⟨l, delay.toNat⟩
    else st.place tc ⟨l, tc + delay⟩
  | .onTrigger source count _ _ => st.joinHeld source ⟨l, count.toNat⟩

/-- The records of a batch go live in staging order, each in its paired slot (R80). -/
def Store.goLiveAll (st : Store) (tc : Time) : List (Fin 128 × Entry) → Store
  | [] => st
  | x :: xs => (st.goLive tc x.1 x.2).goLiveAll tc xs

/-! ## Trigger events (R91, R92, R103) -/

/-- What a walk of a held list leaves and finds. -/
structure Walk where
  stay : List HeldEntry
  armed : List Live
  lowered : Nat
  passed : Nat
deriving DecidableEq, Repr

/-- Walk a held list from its head: pass over the entries of suspended groups, lower the countdown of the
others, and take out those that reach 0 (R92). -/
def walkHeld (suspended : Fin 16 → Bool) : List HeldEntry → Walk
  | [] => ⟨[], [], 0, 0⟩
  | h :: hs =>
    let w := walkHeld suspended hs
    if suspended h.live.entry.group then { w with stay := h :: w.stay, passed := w.passed + 1 }
    else if h.countdown - 1 = 0 then
      { w with armed := h.live :: w.armed, lowered := w.lowered + 1 }
    else { w with stay := { h with countdown := h.countdown - 1 } :: w.stay, lowered := w.lowered + 1 }

/-- The walk that a trigger event on `src` makes of its held list as it stands. -/
def Store.walk (st : Store) (src : Source) : Walk := walkHeld st.suspended st.held[src.index]

/-- A trigger event on `src` carrying `t`, taken whole (R91, R92). -/
def Store.trigger (st : Store) (now : Time) (src : Source) (t : Time) : Store :=
  let w := st.walk src
  Store.placeAll { st with held := st.held.set src.index w.stay } now
    (w.armed.map fun l => ⟨l, later t l.entry.offset⟩)

/-! ## Groups (R113, R114, R116, R118) -/

/-- The entry belongs to group `g` (R109). -/
def Live.inGroup (g : Fin 16) (l : Live) : Bool := l.entry.group == g

/-- Write the suspended flag of group `g`. -/
def Store.setSuspended (st : Store) (g : Fin 16) (b : Bool) : Store :=
  { st with groups := st.groups.set g { st.groups[g] with suspended := b } }

/-- The PENDING members of `g`, in agenda order. -/
def Store.pendingOf (st : Store) (g : Fin 16) : List PendingEntry :=
  st.agenda.filter fun p => p.live.inGroup g

/-- The HELD members of `g`, in walk order. -/
def Store.heldOf (st : Store) (g : Fin 16) : List HeldEntry :=
  st.heldEntries.filter fun h => h.live.inGroup g

/-- SUSPEND of group `g` (R113); no change when its flag is set already. -/
def Store.suspendGroup (st : Store) (now : Time) (g : Fin 16) : Store :=
  if st.suspended g then st
  else
    let parkedNow := (st.pendingOf g).map fun p => (⟨p.live, remainingAt now p.due⟩ : ParkedEntry)
    Store.setSuspended
      { st with
        agenda := st.agenda.filter fun p => !p.live.inGroup g
        parked := st.parked.set g (st.parked[g] ++ parkedNow) }
      g true

/-- RESUME of group `g` (R114); no change when its flag is clear. -/
def Store.resumeGroup (st : Store) (now : Time) (g : Fin 16) : Store :=
  if st.suspended g then
    Store.setSuspended
      (Store.placeAll { st with parked := st.parked.set g [] } now
        (st.parked[g].map fun q => ⟨q.live, later now q.remaining⟩))
      g false
  else st

/-- Free the slots of entries already taken out, one after another, and make their DONE records (R116). -/
def Store.freeLives (st : Store) (reason : DoneReason) : List Live → Store × List EventRecord
  | [] => (st, [])
  | l :: ls =>
    let r := (st.freeSlot l.slot).freeLives reason ls
    (r.1, st.doneRecords l reason false ++ r.2)

/-- The members of group `g` in walk order: PENDING, HELD, PARKED (R116). -/
def Store.membersOf (st : Store) (g : Fin 16) : List Live :=
  (st.pendingOf g).map (·.live) ++ (st.heldOf g).map (·.live) ++ st.parked[g].map (·.live)

/-- Every member of group `g` is freed, in walk order (R116, R118). -/
def Store.cancelGroup (st : Store) (reason : DoneReason) (g : Fin 16) : Store × List EventRecord :=
  Store.freeLives
    { st with
      agenda := st.agenda.filter fun p => !p.live.inGroup g
      held := mapBank st.held fun _ l => l.filter fun h => !h.live.inGroup g
      parked := st.parked.set g [] }
    reason (st.membersOf g)

/-- One group's halt action (R118). -/
def Store.haltGroup (st : Store) (now : Time) (g : Fin 16) : Store × List EventRecord :=
  match st.groups[g].haltAction with
  | .keep => (st, [])
  | .cancel => st.cancelGroup .halted g
  | .suspend => (st.suspendGroup now g, [])

/-- The halt actions of the listed groups, in order, with the DONE records they make (R118). -/
def Store.haltGroups (st : Store) (now : Time) : List (Fin 16) → Store × List EventRecord
  | [] => (st, [])
  | g :: gs =>
    let one := st.haltGroup now g
    let rest := one.1.haltGroups now gs
    (rest.1, one.2 ++ rest.2)

/-! ## Soft reset of the pool and the groups (R12, R108) -/

/-- The slot holds an entry. -/
def Store.isLive (st : Store) (k : Fin 128) : Bool := (st.find? k).isSome

/-- Soft reset of the Schedule Store. -/
def Store.softReset (st : Store) : Store where
  gens := mapBank st.gens fun k gen => if st.isLive k then gen + 1 else gen
  free := List.finRange 128
  reserved := []
  agenda := []
  held := Vector.replicate 12 []
  parked := Vector.replicate 16 []
  groups := mapBank st.groups fun _ g => { g with suspended := false }

/-- No entry waits on a due time or carries a remaining time: the agenda and every parked set are empty
(R58). -/
def Store.timeless (st : Store) : Bool := st.agenda.isEmpty && st.parkedEntries.isEmpty

end Sys2Proof.Machine
end

