-- ==== Sys2Proof/Machine/Flags.lean ====
section
/-!
DEFINITION. The Event Queue's own operations: the store rule, the interrupt flags and IRQn.
-/

namespace Sys2Proof.Machine

/-- Bits 0..4 are EVQ, OVF, DONE, REJ, HALT (R178). -/
def IrqBits.toWord (f : IrqBits) : Word :=
  BitVec.ofFnLE fun i : Fin 16 =>
    if i = 0 then f.evq else if i = 1 then f.ovf else if i = 2 then f.done else if i = 3 then f.rej
    else if i = 4 then f.halt else false

/-- The five bits of a written word (R178). -/
def IrqBits.ofWord (w : Word) : IrqBits :=
  ⟨w.getLsbD 0, w.getLsbD 1, w.getLsbD 2, w.getLsbD 3, w.getLsbD 4⟩

/-- Each flag whose bit is written as 1 is cleared (R160). -/
def IrqBits.clear (f : IrqBits) (w : Word) : IrqBits :=
  ⟨f.evq && !w.getLsbD 0, f.ovf && !w.getLsbD 1, f.done && !w.getLsbD 2, f.rej && !w.getLsbD 3,
    f.halt && !w.getLsbD 4⟩

/-- Some flag is set whose enable is set (R161). -/
def IrqBits.anyEnabled (f en : IrqBits) : Bool :=
  (f.evq && en.evq) || (f.ovf && en.ovf) || (f.done && en.done) || (f.rej && en.rej) || (f.halt && en.halt)

/-- IRQn is asserted (driven low). While RESETn is asserted it is released (R161). -/
def State.irqAsserted (s : State) : Bool := !s.hp.inReset && s.eq.flags.anyEnabled s.eq.enables

/-- A record joins the tail; EVQ is set when the count rises to the threshold (R152, R158). -/
def EventQueue.join (q : EventQueue) (r : EventRecord) : EventQueue :=
  { q with
    records := q.records ++ [r]
    flags := { q.flags with evq := q.flags.evq || q.records.length + 1 == q.threshold } }

/-- The count of the last record, when that is an OVERFLOW marker. -/
def EventQueue.lastMarker? (q : EventQueue) : Option Nat :=
  match q.records.getLast? with
  | some (.overflow n) => some n
  | _ => none

/-- The store rule: the queue after an offer, and whether the record was stored (R152). A queue of more than
63 records without a marker last, which no run reaches, takes nothing (DESIGN CHOICE, assumption log 24). -/
def EventQueue.offer (q : EventQueue) (r : EventRecord) : EventQueue × Bool :=
  if q.records.length < Config.queueRoom then (q.join r, true)
  else
    match q.lastMarker? with
    | some n =>
      ({ q with records := q.records.dropLast ++ [.overflow (holdAt Config.countLimit (n + 1))] }, false)
    | none =>
      if q.records.length = Config.queueRoom then
        let q' := q.join (.overflow 1)
        ({ q' with flags := { q'.flags with ovf := true } }, false)
      else (q, false)

/-- Soft reset of the Event Queue (R162). -/
def EventQueue.softReset (q : EventQueue) : EventQueue :=
  { q with records := [], flags := IrqBits.zero }

/-- A command completes (R159). -/
def EventQueue.raiseDone (q : EventQueue) : EventQueue := { q with flags := { q.flags with done := true } }

/-- A COMMAND write is refused (R159). -/
def EventQueue.raiseRej (q : EventQueue) : EventQueue := { q with flags := { q.flags with rej := true } }

/-- The latch changes from CLEAR to LATCHED (R159). -/
def EventQueue.raiseHalt (q : EventQueue) : EventQueue := { q with flags := { q.flags with halt := true } }

end Sys2Proof.Machine
end

