-- ==== Sys2Proof/Machine/Operands.lean ====
section
/-!
DEFINITION. The codes and layouts of chapter 11: composer fields, composer registers, the checks APPEND makes,
the record it copies, command arguments and result codes.
-/

namespace Sys2Proof.Machine

/-! ## Codes of the composer fields (R179) -/

/-- The source a 4-bit code names (R179); 12..15 name none. -/
def Source.ofCode (c : BitVec 4) : Option Source :=
  if h : c.toNat < 8 then some (.input ⟨c.toNat, h⟩)
  else if h : c.toNat - 8 < 4 then some (.cue ⟨c.toNat - 8, h⟩)
  else none

/-- The code of a source (R179). -/
def Source.code (s : Source) : BitVec 4 := BitVec.ofNat 4 s.index.val

/-- A 4-bit number as a line or group number. -/
def fin16 (c : BitVec 4) : Fin 16 := ⟨c.toNat, c.isLt⟩

/-- A line or group number in four bits. -/
def bits4 (k : Fin 16) : BitVec 4 := BitVec.ofNat 4 k.val

/-- One bit as a level. -/
def bit1 (b : BitVec 1) : Bool := b == 1

/-- A level as one bit. -/
def ofBit (b : Bool) : BitVec 1 := if b then 1 else 0

/-- A number in a 16-bit word. -/
def word (n : Nat) : Word := BitVec.ofNat 16 n

/-! ## What APPEND checks (R69) -/

/-- The kind addresses one line: SET, CLEAR, TOGGLE or PULSE. -/
def Composer.hasLine (c : Composer) : Bool := c.kind == 1 || c.kind == 2 || c.kind == 3 || c.kind == 4

/-- The timing form is ON. -/
def Composer.isOn (c : Composer) : Bool := c.form == 3

/-- The source is one of CUE0..CUE3. -/
def Composer.cueSource (c : Composer) : Bool :=
  match Source.ofCode c.source with
  | some (.cue _) => true
  | _ => false

/-- The rows of R69 in field-number order: the number, whether the field is present (R1), and whether its
value is refused. Fields too narrow to hold a refused value are never refused (R179). -/
def Composer.checks (c : Composer) : List (Nat × Bool × Bool) :=
  [ (1, true, c.kind == 0),
    (2, c.hasLine, false),
    (3, c.kind == 4, false),
    (4, c.kind == 4, c.pulseWidth == 0),
    (5, c.kind == 5, c.mask == 0),
    (6, c.kind == 5, false),
    (7, c.kind == 6, false),
    (8, true, c.form == 0),
    (9, c.form == 1, false),
    (10, c.form == 2, c.delay == 0 || decide (c.delay.toNat > 2 ^ 46)),
    (11, c.isOn, (Source.ofCode c.source).isNone),
    (12, c.isOn, c.count == 0),
    (13, c.isOn, c.cueSource && c.offset == 0),
    (14, c.isOn, false),
    (15, true, false),
    (16, c.period != 0, false),
    (17, true, false),
    (18, true, false),
    (19, true, false),
    (20, true, false),
    (21, true, c.report == 3) ]

/-- The number of the first present field that fails (R68, R69). -/
def Composer.firstBad (c : Composer) : Option Nat :=
  (c.checks.find? fun row => row.2.1 && row.2.2).map (·.1)

/-! ## The record APPEND copies (R70), and the composer QUERY loads (R17) -/

/-- The kind with its present fields. Code 0 is refused before a copy is made; it reads as MARK here
(DESIGN CHOICE, assumption log 19). -/
def Composer.action (c : Composer) : Action :=
  if c.kind = 1 then .set (fin16 c.line)
  else if c.kind = 2 then .clear (fin16 c.line)
  else if c.kind = 3 then .toggle (fin16 c.line)
  else if c.kind = 4 then .pulse (fin16 c.line) (bit1 c.pulseLevel) c.pulseWidth
  else if c.kind = 5 then .pattern c.mask c.pattern
  else if c.kind = 6 then .cue ⟨c.cue.toNat, c.cue.isLt⟩
  else .mark

/-- The timing form with its present fields. Codes that name nothing are refused before a copy is made; form
0 reads as AT and a source code 12..15 as IN0 here (DESIGN CHOICE, assumption log 19). -/
def Composer.timing (c : Composer) : Timing :=
  if c.form = 2 then .afterDelay c.delay
  else if c.form = 3 then
    .onTrigger ((Source.ofCode c.source).getD (.input 0)) c.count c.offset (bit1 c.rehold)
  else .atTime c.due

/-- The staging record: each present field with its value, absent fields left out (R70, R1). -/
def Composer.entry (c : Composer) : Entry where
  action := c.action
  timing := c.timing
  period := c.period
  runs := if c.period = 0 then 0 else c.runs
  policy := if c.policy = 0 then .fire else .skip
  tolerance := c.tolerance
  group := fin16 c.group
  tag := c.tag
  report := if c.report = 1 then .each else if c.report = 2 then .last else .none

/-- Load the fields that the kind makes present; the others stay as they are. -/
def Composer.loadAction (c : Composer) : Action → Composer
  | .set l => { c with kind := 1, line := bits4 l }
  | .clear l => { c with kind := 2, line := bits4 l }
  | .toggle l => { c with kind := 3, line := bits4 l }
  | .pulse l v w => { c with kind := 4, line := bits4 l, pulseLevel := ofBit v, pulseWidth := w }
  | .pattern m p => { c with kind := 5, mask := m, pattern := p }
  | .cue n => { c with kind := 6, cue := BitVec.ofNat 2 n.val }
  | .mark => { c with kind := 7 }

/-- Load the fields that the timing form makes present. -/
def Composer.loadTiming (c : Composer) : Timing → Composer
  | .atTime d => { c with form := 1, due := d }
  | .afterDelay d => { c with form := 2, delay := d }
  | .onTrigger s n o r =>
    { c with form := 3, source := s.code, count := n, offset := o, rehold := ofBit r }

/-- The composer after QUERY: present fields as in the entry, absent fields zero (R17). -/
def Composer.ofEntry (e : Entry) : Composer :=
  { (Composer.zero.loadAction e.action).loadTiming e.timing with
    period := e.period
    runs := if e.period = 0 then 0 else e.runs
    policy := match e.policy with | .fire => 0 | .skip => 1
    tolerance := e.tolerance
    group := bits4 e.group
    tag := e.tag
    report := match e.report with | .none => 0 | .each => 1 | .last => 2 }

/-! ## The composer registers CMP0..CMP16 (R179) -/

/-- A write replaces every field in the register; `n` is the register's number. -/
def Composer.write (c : Composer) (n : Nat) (w : Word) : Composer :=
  match n with
  | 0 =>
    { c with
      kind := w.extractLsb' 0 3, form := w.extractLsb' 3 2, policy := w.extractLsb' 5 1
      rehold := w.extractLsb' 6 1, pulseLevel := w.extractLsb' 7 1, line := w.extractLsb' 8 4
      group := w.extractLsb' 12 4 }
  | 1 => { c with tag := w.extractLsb' 0 8, tolerance := w.extractLsb' 8 8 }
  | 2 =>
    { c with
      count := w.extractLsb' 0 8, source := w.extractLsb' 8 4, cue := w.extractLsb' 12 2
      report := w.extractLsb' 14 2 }
  | 3 => { c with pulseWidth := w }
  | 4 => { c with mask := w }
  | 5 => { c with pattern := w }
  | 6 => { c with runs := w }
  | 7 => { c with period := c.period.extractLsb' 16 16 ++ w }
  | 8 => { c with period := w ++ c.period.extractLsb' 0 16 }
  | 9 => { c with offset := c.offset.extractLsb' 16 16 ++ w }
  | 10 => { c with offset := w ++ c.offset.extractLsb' 0 16 }
  | 11 => { c with due := c.due.extractLsb' 16 32 ++ w }
  | 12 => { c with due := c.due.extractLsb' 32 16 ++ w ++ c.due.extractLsb' 0 16 }
  | 13 => { c with due := w ++ c.due.extractLsb' 0 32 }
  | 14 => { c with delay := c.delay.extractLsb' 16 32 ++ w }
  | 15 => { c with delay := c.delay.extractLsb' 32 16 ++ w ++ c.delay.extractLsb' 0 16 }
  | 16 => { c with delay := w ++ c.delay.extractLsb' 0 32 }
  | _ => c

/-- A read returns the fields of the register as they stand (R66, R179). -/
def Composer.read (c : Composer) (n : Nat) : Word :=
  match n with
  | 0 => c.group ++ c.line ++ c.pulseLevel ++ c.rehold ++ c.policy ++ c.form ++ c.kind
  | 1 => c.tolerance ++ c.tag
  | 2 => c.report ++ c.cue ++ c.source ++ c.count
  | 3 => c.pulseWidth
  | 4 => c.mask
  | 5 => c.pattern
  | 6 => c.runs
  | 7 => c.period.extractLsb' 0 16
  | 8 => c.period.extractLsb' 16 16
  | 9 => c.offset.extractLsb' 0 16
  | 10 => c.offset.extractLsb' 16 16
  | 11 => c.due.extractLsb' 0 16
  | 12 => c.due.extractLsb' 16 16
  | 13 => c.due.extractLsb' 32 16
  | 14 => c.delay.extractLsb' 0 16
  | 15 => c.delay.extractLsb' 16 16
  | 16 => c.delay.extractLsb' 32 16
  | _ => 0

/-! ## Codes of section 11.4 and of the result words (R183, R184) -/

/-- The number of a result code (R183). -/
def ResultCode.toNat : ResultCode → Nat
  | .ok => 0
  | .badCmd => 1
  | .badArg => 2
  | .badField => 3
  | .stageFull => 4
  | .empty => 5
  | .noRoom => 6
  | .range => 7
  | .stale => 8
  | .notStopped => 9
  | .wrongState => 10
  | .haltActive => 11
  | .aborted => 12
  | .halted => 13
  | .reset => 14

/-- A handle as its number, slot × 16 + generation (R11). -/
def Handle.toWord (h : Handle) : Word := word (h.slot.val * 16 + h.gen.toNat)

/-- The handle an argument word names; none for 2048 or more (R14, R17). -/
def Handle.ofWord (w : Word) : Option Handle :=
  if h : w.toNat < 2048 then
    some ⟨⟨w.toNat / 16, by omega⟩, BitVec.ofNat 4 (w.toNat % 16)⟩
  else none

/-- A 16-bit argument judged as a number below 16 (R117, R125). -/
def argBelow16 (w : Word) : Option (Fin 16) := if h : w.toNat < 16 then some ⟨w.toNat, h⟩ else none

/-- A 16-bit argument judged as a number below 8 (R146). -/
def argBelow8 (w : Word) : Option (Fin 8) := if h : w.toNat < 8 then some ⟨w.toNat, h⟩ else none

/-- A 16-bit argument judged as a number below 4 (R97). -/
def argBelow4 (w : Word) : Option (Fin 4) := if h : w.toNat < 4 then some ⟨w.toNat, h⟩ else none

/-- A 16-bit argument judged as 0 or 1 (R125). -/
def argBit (w : Word) : Option Bool := if w = 0 then some false else if w = 1 then some true else none

/-- Codes of a halt action: 0 KEEP, 1 CANCEL, 2 SUSPEND. -/
def HaltAction.ofWord (w : Word) : Option HaltAction :=
  if w = 0 then some .keep else if w = 1 then some .cancel else if w = 2 then some .suspend else none

/-- The code of a halt action. -/
def HaltAction.code : HaltAction → Nat
  | .keep => 0
  | .cancel => 1
  | .suspend => 2

/-- Codes of a line mode: 0 DIRECT, 1 AGENDA. -/
def LineMode.ofWord (w : Word) : Option LineMode :=
  if w = 0 then some .direct else if w = 1 then some .agenda else none

/-- The code of a line mode. -/
def LineMode.code : LineMode → Nat
  | .direct => 0
  | .agenda => 1

/-- Codes of an edge select: 0 NONE, 1 RISING, 2 FALLING, 3 BOTH. -/
def EdgeSelect.ofWord (w : Word) : Option EdgeSelect :=
  if w = 0 then some .none else if w = 1 then some .rising else if w = 2 then some .falling
  else if w = 3 then some .both else none

/-- The code of an edge select. -/
def EdgeSelect.code : EdgeSelect → Nat
  | .none => 0
  | .rising => 1
  | .falling => 2
  | .both => 3

/-- Codes of a capture mode: 0 OFF, 1 EDGE, 2 SPAN. -/
def CaptureMode.ofByte (b : Byte) : Option CaptureMode :=
  if b = 0 then some .off else if b = 1 then some .edge else if b = 2 then some .span else none

/-- The code of a capture mode. -/
def CaptureMode.code : CaptureMode → Nat
  | .off => 0
  | .edge => 1
  | .span => 2

/-- The code of a halt cause: 1 PIN, 2 COMMAND (R178, R180, R184). -/
def HaltCause.code : HaltCause → Nat
  | .pin => 1
  | .command => 2

/-- The code of the state a live slot lies in: 1 HELD, 2 PENDING, 3 PARKED (R184). -/
def Found.stateCode : Found → Nat
  | .held _ => 1
  | .pending _ => 2
  | .parked _ => 3

/-- The time value of QUERY: current due, countdown or remaining (R17). -/
def Found.timeValue : Found → BitVec 48
  | .held h => BitVec.ofNat 48 h.countdown
  | .pending p => p.due
  | .parked q => BitVec.ofNat 48 q.remaining

/-- A Bool as one bit of a number. -/
def bitNat (b : Bool) : Nat := if b then 1 else 0

/-- CONFIG-OUT's RESULT1: mode, safe level, halt member held before the command (R184). -/
def LineRecord.configWord (l : LineRecord) : Word :=
  word (l.mode.code + 2 * bitNat l.safeLevel + 4 * bitNat l.haltMember)

/-- CONFIG-OUT's RESULT2: level and pulse state after the command (R184). -/
def LineRecord.stateWord (l : LineRecord) : Word := word (bitNat l.level + 2 * bitNat l.pulse.isSome)

/-- CONFIG-IN's RESULT1: edge select, capture mode, active level, filter held before the command (R184). -/
def InputRecord.configWord (l : InputRecord) : Word :=
  word (l.edgeSelect.code + 4 * l.capture.code + 16 * bitNat l.activeLevel + 256 * l.filter.val)

/-- CONFIG-IN's RESULT2: accepted level and missed flag after the command (R184). -/
def InputRecord.stateWord (l : InputRecord) : Word := word (bitNat l.accepted + 2 * bitNat l.missed)

end Sys2Proof.Machine
end

