-- ==== Sys2Proof/Machine/Engine.lean ====
section
/-!
DEFINITION. What every command shares: the host port's frames, the acceptance of a command, its taking by the
owning block, its completion and its abandonment, and the hand-outs between the blocks.
-/

namespace Sys2Proof.Machine

/-! ## Outcomes -/

/-- An event happens unless RESETn is asserted: while it is, nothing is taken (R176, R65, R174). -/
def unlessInReset (s : State) (f : State → State) : Host.Outcome State Fault Refusal :=
  .next (if s.hp.inReset then s else f s)

/-! ## The host port (R175, R176) -/

/-- The current address after a word of a frame (R175). -/
def nextAddr (autoInc : Bool) (a : Addr) : Addr := if autoInc then a + 1 else a

/-- The port after a write of the register at `a` is served. A frame in progress serves it at its current
address only; with no header byte taken the write stands for a one-word frame of its own (assumption log 6). -/
def Port.admitWrite (p : Port) (a : Addr) : Option Port :=
  match p with
  | .ready => some .ready
  | .frame read autoInc cur =>
    if !read && cur == a then some (.frame read autoInc (nextAddr autoInc a)) else none
  | .waitHigh => none

/-- Where the port stands after a read of the register at `a`: in an auto-increment read frame, after the words
up to that one (assumption log 6). -/
def Port.admitRead (p : Port) (a : Addr) : Option Port :=
  match p with
  | .ready => some .ready
  | .frame read autoInc cur =>
    if read && (autoInc || cur == a) then some (.frame read autoInc (nextAddr autoInc a)) else none
  | .waitHigh => none

/-- Serve a write of the register at `a`, when the port can carry it (R176). -/
def serveWrite (a : Addr) (f : State → State) (s : State) : State :=
  match s.hp.port.admitWrite a with
  | some p => f (s.withHp { s.hp with port := p })
  | none => s

/-! ## Hand-outs -/

/-- The Schedule Store offers records to the Event Queue (R149). -/
def offerStore (rs : List EventRecord) (s : State) : State :=
  s.withMail { s.mail with storeOffers := s.mail.storeOffers ++ rs }

/-- All the work for the last tick event has been taken in full at its three receivers, with the cues, input
trigger events and deliveries that came of it (R49, R127; DEDUCED, assumption log 25). -/
def Mail.tickWorkTaken (m : Mail) : Bool :=
  m.storeTick.isNone && m.outputTick.isNone && m.inputTick.isNone && m.cues.isEmpty &&
    m.inputTriggers.isEmpty && m.deliveries.isEmpty

/-- All that work has been taken, and every pulse that ends with the tick has ended (R49, R131; DEDUCED, assumption
logs 25, 27). -/
def State.tickWorkTaken (s : State) : Bool :=
  s.mail.tickWorkTaken && s.ou.lines.toList.all (!·.ending)

/-! ## Completion (R183, R159) -/

/-- All seven result registers are written, the engine returns to IDLE, DONE is set. -/
def complete (command : Byte) (r : Reply) (s : State) : State :=
  (s.withCe { s.ce with engine := .idle, result := ⟨command, r⟩ }).withEq s.eq.raiseDone

/-- The code of COMMIT. -/
def commitCode : Byte := 0x03

/-- Abandon the merge in flight, if there is one: the reserved slots return to the head of the free list and
RESULT shows `code` (R85, R86). -/
def abandon (code : ResultCode) (s : State) : State :=
  match s.ce.engine with
  | .committing _ =>
    complete commitCode { code := code } (s.withStore s.store.giveBack)
  | _ => s

/-! ## The three parts of a host command (R181, R182) -/

/-- What the owning block does when it takes a request: the new state and how far the command then is, or
`none` while it cannot take it yet. -/
abbrev Handler := Args → State → Option (State × Stage)

/-- The command completes with reply `r` and the state `s` (the effect already made). -/
def answer (r : Reply) (s : State) : Option (State × Stage) := some (s, .answered r)

/-- A COMMAND write carrying `code`: accepted in IDLE, behind the halt group requests handed out before it (R112;
DEDUCED, assumption log 28); refused with REJ otherwise (R181, R182). -/
def commandWrite (code : Byte) (s : State) : State :=
  match s.ce.engine with
  | .idle => s.withCe { s.ce with engine := .busy code s.ce.args (.accepted s.mail.haltRequests) }
  | _ => s.withEq s.eq.raiseRej

/-- The owning block takes the request of the command `code` in progress. -/
def commandTake (code : Byte) (h : Handler) (s : State) : State :=
  match s.ce.engine with
  | .busy c a (.accepted _) =>
    if c = code then
      match h a s with
      | some (s', stage) => s'.withCe { s'.ce with engine := .busy c a stage }
      | none => s
    else s
  | _ => s

/-- The completion of the command `code` in progress (R183). -/
def commandComplete (code : Byte) (s : State) : State :=
  match s.ce.engine with
  | .busy c _ (.answered r) => if c = code then complete c r s else s
  | _ => s

/-- A COMMAND write with the taking and the completion directly behind it, when it is accepted. -/
def commandWhole (code : Byte) (h : Handler) (s : State) : State :=
  match s.ce.engine with
  | .idle => commandComplete code (commandTake code h (commandWrite code s))
  | _ => commandWrite code s

/-- The part `p` of the host command `code` with the handler `h`. -/
def runCommand (code : Byte) (h : Handler) (p : CmdStep) (s : State) : State :=
  match p with
  | .whole => serveWrite 0x07 (commandWhole code h) s
  | .write => serveWrite 0x07 (commandWrite code) s
  | .take => commandTake code h s
  | .complete => commandComplete code s

end Sys2Proof.Machine
end

