-- ==== Sys2Proof/Machine/Lines.lean ====
section
/-!
DEFINITION. Output lines (chapter 7): effects, pulses, the run-down of a line, the halt forcing and its lifting,
what the pins show, CONFIG-OUT, deliveries and direct writes.
-/

namespace Sys2Proof.Machine

/-! ## One line -/

/-- The line takes no effect and shows the masked flag: DIRECT, or masked by the halt (R29, R127). -/
def LineRecord.closed (l : LineRecord) : Bool := l.mode = .direct || l.masked

/-- The line addresses of an effect (R127). -/
def Effect.addresses (e : Effect) (k : Fin 16) : Bool :=
  match e with
  | .set l => l == k
  | .clear l => l == k
  | .toggle l => l == k
  | .pulse l _ _ => l == k
  | .pattern mask _ => mask.getLsbD k

/-- A run-down would end the line's pulse (R131), or has counted its last tick. -/
def LineRecord.aboutToEnd (l : LineRecord) : Bool :=
  match l.pulse with
  | some p => l.ending || !p.fresh && p.remaining - 1 == 0
  | none => false

/-- The line's pulse ends at `T`: the run-down of `T` has counted its last tick, or would, and the tick event carrying
`T` is not yet taken (R132). -/
def LineRecord.endsAt (l : LineRecord) (lastTick : Option Time) (T : Time) : Bool :=
  l.ending || l.aboutToEnd && lastTick != some T

/-- The line's pulse ends with a return to its return level (R131). -/
def LineRecord.returned (l : LineRecord) : LineRecord :=
  match l.pulse with
  | some p => { l with level := p.returnLevel, pulse := none, ending := false }
  | none => { l with ending := false }

/-- A pulse that ends at `T` is made to end before an effect stamped `T` is applied (R132). -/
def LineRecord.settled (l : LineRecord) (lastTick : Option Time) (T : Time) : LineRecord :=
  if l.endsAt lastTick T then l.returned else l

/-- An effect that line `k` takes, on the settled record (R128, R129). -/
def LineRecord.take (l : LineRecord) (lastTick : Option Time) (T : Time) (k : Fin 16) (e : Effect) :
    LineRecord :=
  match e with
  | .set _ => { l with level := true, pulse := none, ending := false }
  | .clear _ => { l with level := false, pulse := none, ending := false }
  | .toggle _ => { l with level := !l.level, pulse := none, ending := false }
  | .pulse _ level width =>
    let back := match l.pulse with | some p => p.returnLevel | none => l.level
    { l with level := level, pulse := some ⟨width.toNat, back, lastTick != some T⟩, ending := false }
  | .pattern _ levels => { l with level := levels.getLsbD k, pulse := none, ending := false }

/-- What one effect stamped `T` does to line `k` (R127). -/
def LineRecord.effect (l : LineRecord) (lastTick : Option Time) (T : Time) (k : Fin 16) (e : Effect) :
    LineRecord :=
  if e.addresses k && !l.closed then (l.settled lastTick T).take lastTick T k e else l

/-- The pulse of a line after a run-down that does not end it: the fresh mark is cleared, or the remaining
width falls by one (R131). -/
def Pulse.counted (p : Pulse) : Pulse :=
  if p.fresh then { p with fresh := false } else { p with remaining := p.remaining - 1 }

/-- The run-down of one line (R131). When the pulse of an open line ends while an effect of the tick may come
(`awaited`), its last tick is counted and the line is left to return at the pulse's end, or to take the effect (R123,
R132; DEDUCED, assumption log 27). -/
def LineRecord.runDown (awaited : Bool) (l : LineRecord) : LineRecord :=
  if l.aboutToEnd && !(awaited && !l.closed) then l.returned
  else { l with pulse := l.pulse.map Pulse.counted, ending := l.aboutToEnd }

/-- The halt forcing of one line (R134). -/
def LineRecord.forced (l : LineRecord) : LineRecord :=
  if l.haltMember then { l with level := l.safeLevel, pulse := none, masked := true, ending := false } else l

/-- CONFIG-OUT of one line (R125, step 3). A change of mode ends a pulse at the line's present level, also one whose
last tick a run-down has counted (R126; DEDUCED, assumption log 30). -/
def LineRecord.configured (l : LineRecord) (mode : LineMode) (safe member : Bool) : LineRecord :=
  { l with
    mode := mode
    pulse := if mode = l.mode then l.pulse else none
    ending := if mode = l.mode then l.ending else false
    safeLevel := safe
    haltMember := member }

/-! ## The unit -/

/-- One effect of a delivery stamped `T`, judged line by line (R127). -/
def OutputUnit.effect (u : OutputUnit) (T : Time) (e : Effect) : OutputUnit :=
  { u with lines := mapBank u.lines fun k l => l.effect u.lastTick T k e }

/-- The effects of a delivery in firing order (R127, R130). -/
def OutputUnit.deliver (u : OutputUnit) (T : Time) : List Effect → OutputUnit
  | [] => u
  | e :: es => (u.effect T e).deliver T es

/-- The run-down for the tick event carrying `T`, while effects of `T` may come for the lines `awaited` (R131). -/
def OutputUnit.runDown (u : OutputUnit) (T : Time) (awaited : Fin 16 → Bool) : OutputUnit :=
  { u with lines := mapBank u.lines (fun k l => l.runDown (awaited k)), lastTick := some T }

/-- The pulses whose last tick has been counted end, on every line for which no effect may come (R123, R131). -/
def OutputUnit.endPulses (u : OutputUnit) (awaited : Fin 16 → Bool) : OutputUnit :=
  { u with lines := mapBank u.lines fun k l => if l.ending && !awaited k then l.returned else l }

/-- Each DIRECT line that is not masked takes its bit of the word written (R124). -/
def OutputUnit.directWrite (u : OutputUnit) (w : BitVec 16) : OutputUnit :=
  { u with
    direct := w
    lines := mapBank u.lines fun k l =>
      if l.mode = .direct && !l.masked then { l with level := w.getLsbD k } else l }

/-- The halt forcing (R134). -/
def OutputUnit.force (u : OutputUnit) : OutputUnit :=
  { u with lines := mapBank u.lines (fun _ l => l.forced), forced := true }

/-- The lifting (R135). -/
def OutputUnit.lift (u : OutputUnit) : OutputUnit :=
  { u with lines := mapBank u.lines (fun _ l => { l with masked := false }), forced := false }

/-- CONFIG-OUT of line `k` (R125). -/
def OutputUnit.configure (u : OutputUnit) (k : Fin 16) (mode : LineMode) (safe member : Bool) : OutputUnit :=
  { u with
    lines := u.lines.set k (u.lines[k].configured mode safe member)
    direct :=
      if mode = .direct ∧ u.lines[k].mode ≠ .direct then withBit u.direct k u.lines[k].level
      else u.direct }

/-- Soft reset of the Output Unit (R137). -/
def OutputUnit.softReset (u : OutputUnit) : OutputUnit :=
  { u with
    lines :=
      mapBank u.lines fun _ l =>
        { l with level := l.safeLevel, pulse := none, masked := false, ending := false }
    direct := BitVec.ofFnLE fun k : Fin 16 => u.lines[k].safeLevel
    forced := false }

/-- An effect of the tick whose work is under way may still come for line `k`: the dispatch is not taken yet, or a
delivery that waits has an effect for the line (R132). -/
def State.effectToCome (s : State) (k : Fin 16) : Bool :=
  s.mail.storeTick.isSome || s.mail.deliveries.any fun d => d.effects.any (·.addresses k)

/-- The level a pin drives; 0 while RESETn is asserted (R123, R137). -/
def State.outPin (s : State) (k : Fin 16) : Bool := !s.hp.inReset && s.ou.lines[k].level

/-! ## Commands -/

/-- CONFIG-OUT (R125). -/
def configOutTake : Handler := fun a s =>
  match argBelow16 a.a0, LineMode.ofWord a.a1, argBit a.a2 with
  | some k, some mode, some safe =>
    if s.ou.forced then answer { code := .wrongState } s
    else
      let u := s.ou.configure k mode safe (a.a3.getLsbD 0)
      answer { code := .ok, w1 := s.ou.lines[k].configWord, w2 := u.lines[k].stateWord } (s.withOu u)
  | _, _, _ => answer { code := .badArg } s

/-- The Output Unit takes the oldest delivery that waits; with none waiting there is no event (R127). -/
def delivery (s : State) : State :=
  match s.mail.deliveries with
  | [] => s
  | d :: rest =>
    (s.withOu (s.ou.deliver d.stamp d.effects)).withMail { s.mail with deliveries := rest }

/-- CONFIG_OUT (R125). -/
def execConfigOut (p : CmdStep) (s : State) : Host.Outcome State Fault Refusal :=
  unlessInReset s (runCommand 0x50 configOutTake p)

/-- DELIVERY (R127). -/
def execDelivery (s : State) : Host.Outcome State Fault Refusal := unlessInReset s delivery

/-- OUT_DIRECT (R124). -/
def execOutDirect (w : Word) (s : State) : Host.Outcome State Fault Refusal :=
  unlessInReset s (serveWrite 0x12 fun s => s.withOu (s.ou.directWrite w))

end Sys2Proof.Machine
end

