-- ==== Sys2Proof/Machine/Agenda.lean ====
section
/-!
DEFINITION. The dispatch of a tick (chapter 2), and trigger events at the Schedule Store (chapter 5):
DISPATCH, TRIGGER_EVENT, FIRE-CUE.
-/

namespace Sys2Proof.Machine

/-! ## What a dispatch makes of one entry's occurrences (R27, R31 to R36) -/

/-- The occurrences a dispatch accounts for: the due time of the one fired, if any; whether it fired late;
the first due and the number of those skipped or passed over, if any; how many were accounted for; and the due
time of the next one on the grid. -/
structure Account where
  fired : Option Time
  late : Bool
  skipped : Option (Time × Nat)
  used : Nat
  next : Time
deriving DecidableEq, Repr

/-- A number of occurrences limited by the runs that are left (R35). -/
def capRuns (limited : Bool) (left n : Nat) : Nat := if limited then min n left else n

/-- The occurrence `k` periods after `due` (R34). -/
def occurrence (due : Time) (period k : Nat) : Time := later due (k * period)

/-- On time: the one occurrence fires (R27). -/
def accountOnTime (due : Time) (period : Nat) : Account :=
  ⟨some due, false, none, 1, occurrence due period 1⟩

/-- Late under FIRE: the occurrence fires, and those due at or before the tick are passed over
(R31, R32). -/
def accountLateFire (due : Time) (period lateness : Nat) (limited : Bool) (left : Nat) : Account :=
  let k := if period = 0 then 0 else capRuns limited (left - 1) (lateness / period)
  ⟨some due, true, if k = 0 then none else some (occurrence due period 1, k), 1 + k,
    occurrence due period (1 + k)⟩

/-- The number of occurrences due earlier than T − tolerance, ceil((L − tol) / period) (R33). -/
def overdueCount (period lateness tolerance : Nat) : Nat := (lateness - tolerance + (period - 1)) / period

/-- Late under SKIP: a one-shot entry is skipped (R31); a periodic one skips what is due earlier than
T − tolerance, and fires the first occurrence left if that is due and runs are not exhausted (R33, R35). -/
def accountLateSkip (due : Time) (period lateness tolerance : Nat) (limited : Bool) (left : Nat) : Account :=
  if period = 0 then ⟨none, false, some (due, 1), 1, due⟩
  else
    let s := capRuns limited left (overdueCount period lateness tolerance)
    let d := occurrence due period s
    if limited && left ≤ s then ⟨none, false, some (due, s), s, d⟩
    else if s * period ≤ lateness then
      ⟨some d, false, some (due, s), s + 1, occurrence due period (s + 1)⟩
    else ⟨none, false, some (due, s), s, d⟩

/-- What the dispatch of `T` accounts for of the entry `p` (R27). -/
def accountFor (T : Time) (p : PendingEntry) : Account :=
  let e := p.live.entry
  let lateness := latenessAt T p.due
  if lateness ≤ e.tolerance.toNat then accountOnTime p.due e.period.toNat
  else
    match e.policy with
    | .fire => accountLateFire p.due e.period.toNat lateness e.limited p.live.runsLeft
    | .skip =>
      accountLateSkip p.due e.period.toNat lateness e.tolerance.toNat e.limited p.live.runsLeft

/-- The entry finishes in the dispatch: one-shot, or its runs are exhausted (R37). -/
def finishes (l : Live) (a : Account) : Bool :=
  l.entry.period == 0 || (l.entry.limited && decide (l.runsLeft ≤ a.used))

/-- The runtime fields after the accounting (R4, R35). -/
def Live.accounted (l : Live) (a : Account) : Live :=
  { l with
    runsLeft := if l.entry.limited then l.runsLeft - a.used else l.runsLeft
    firings := if a.fired.isSome then holdAt Config.countLimit (l.firings + 1) else l.firings }

/-! ## What a firing sends (R28, R29) -/

/-- The effect a firing sends, if its kind sends one (R28). -/
def Action.effect? : Action → Option Effect
  | .set l => some (.set l)
  | .clear l => some (.clear l)
  | .toggle l => some (.toggle l)
  | .pulse l v w => some (.pulse l v w)
  | .pattern m p => some (.pattern m p)
  | .cue _ => none
  | .mark => none

/-- The cue a firing raises (R30). -/
def Action.cue? : Action → Option (Fin 4)
  | .cue n => some n
  | _ => none

/-- The masked flag: some addressed line is DIRECT or masked as the dispatch reads it (R29). -/
def maskedFlag (lines : Vector LineRecord 16) (a : Action) : Bool :=
  match a.effect? with
  | none => false
  | some e => (List.finRange 16).any fun k => e.addresses k && lines[k].closed

/-! ## Records (R40, R41, R42, R151) -/

/-- The FIRED or LATE record of the occurrence fired. -/
def firingRecords (T : Time) (h : Handle) (e : Entry) (masked : Bool) (a : Account) : List EventRecord :=
  match a.fired with
  | none => []
  | some d =>
    if a.late then
      [.late h e.group e.tag d (holdAt Config.latenessLimit (latenessAt T d)) masked]
    else [.fired h e.group e.tag d masked]

/-- The SKIPPED record of the occurrences skipped or passed over. -/
def skipRecords (h : Handle) (e : Entry) (a : Account) : List EventRecord :=
  match a.skipped with
  | none => []
  | some (d, n) => [.skipped h e.group e.tag d (holdAt Config.countLimit n)]

/-- The records of one entry before its DONE record: a pass-over follows the late firing, a skip comes before
the firing (R41). -/
def occurrenceRecords (T : Time) (h : Handle) (e : Entry) (masked : Bool) (a : Account) :
    List EventRecord :=
  match e.report with
  | .each =>
    if a.late then firingRecords T h e masked a ++ skipRecords h e a
    else skipRecords h e a ++ firingRecords T h e masked a
  | _ => []

/-! ## One entry, and the whole dispatch -/

/-- What a dispatch has done so far: the store, and what it hands out in firing order. -/
structure Dispatched where
  store : Store
  effects : List Effect
  cues : List (Fin 4)
  records : List EventRecord
deriving DecidableEq, Repr

/-- The place the entry goes to after its accounting: placed again, reheld, or freed (R36, R38, R39). -/
def Store.settleEntry (st : Store) (T : Time) (l : Live) (a : Account) : Store :=
  if finishes l a then
    match l.entry.rehold? with
    | some (source, count) =>
      st.joinHeld source ⟨{ l.accounted a with runsLeft := l.entry.fullRuns }, count⟩
    | none => st.freeSlot l.slot
  else st.place T ⟨l.accounted a, a.next⟩

/-- The DONE record of an entry that finishes (R40). -/
def finishRecords (st : Store) (l : Live) (a : Account) : List EventRecord :=
  if finishes l a then st.doneRecords (l.accounted a) .finished l.entry.rehold?.isSome else []

/-- The dispatch of `T` handles one entry already taken out of the agenda (R24). -/
def serveEntry (T : Time) (lines : Vector LineRecord 16) (d : Dispatched) (p : PendingEntry) : Dispatched :=
  let a := accountFor T p
  let e := p.live.entry
  let h := d.store.handleOf p.live.slot
  { store := d.store.settleEntry T p.live a
    effects := d.effects ++ (if a.fired.isSome then e.action.effect?.toList else [])
    cues := d.cues ++ (if a.fired.isSome then e.action.cue?.toList else [])
    records :=
      d.records ++ occurrenceRecords T h e (maskedFlag lines e.action) a ++
        finishRecords d.store p.live a }

/-- The entries the dispatch of `T` takes: those due at or before `T` from the head, at most the budget
(R24, R25). None that it places itself is among them (R26). -/
def takenBy (T : Time) (agenda : List PendingEntry) : List PendingEntry :=
  (agenda.takeWhile fun p => dueBy T p.due).take Config.dispatchBudget

/-- The dispatch of `T` at the Schedule Store (R24). -/
def Store.dispatch (st : Store) (T : Time) (lines : Vector LineRecord 16) : Dispatched :=
  (takenBy T st.agenda).foldl (serveEntry T lines)
    ⟨{ st with agenda := st.agenda.drop (takenBy T st.agenda).length }, [], [], []⟩

/-- The delivery of a dispatch; none when it fired no effect (R127). -/
def deliveryOf (T : Time) (effects : List Effect) : List Delivery :=
  if effects.isEmpty then [] else [⟨T, effects⟩]

/-- The Schedule Store takes the tick event that waits; with none waiting there is no event (R24, R41,
R43). -/
def dispatch (s : State) : State :=
  match s.mail.storeTick with
  | none => s
  | some T =>
    let d := s.store.dispatch T s.ou.lines
    (s.withStore d.store).withMail
      { s.mail with
        storeTick := none
        cues := s.mail.cues ++ d.cues.map fun n => (n, T)
        deliveries := s.mail.deliveries ++ deliveryOf T d.effects
        storeOffers := s.mail.storeOffers ++ d.records }

/-! ## Trigger events (R91 to R97) -/

/-- The Schedule Store takes the trigger event picked: the oldest waiting cue, or the one waiting on an input
source. With no such event waiting there is none (R94, R95). It may be taken ahead of a halt group request that
waits, also with the latch set (R104, R105, R166; DESIGN CHOICE, assumption log 31). -/
def triggerEvent (pick : TriggerPick) (s : State) : State :=
  match pick with
  | .cue =>
    match s.mail.cues with
    | [] => s
    | (n, t) :: rest =>
      (s.withStore (s.store.trigger s.tb.time (.cue n) t)).withMail { s.mail with cues := rest }
  | .input k =>
    match s.mail.inputTriggers.find? (fun x => x.1 == k) with
    | none => s
    | some (_, t) =>
      (s.withStore (s.store.trigger s.tb.time (.input k) t)).withMail
        { s.mail with inputTriggers := s.mail.inputTriggers.eraseP fun x => x.1 == k }

/-- FIRE-CUE n (R97). Like a trigger event it may be taken ahead of a halt group request that waits, also when it is
written with the latch set (R104, R105, R166; DESIGN CHOICE, assumption log 31). -/
def fireCueTake : Handler := fun a s =>
  match argBelow4 a.a0 with
  | none => answer { code := .badArg } s
  | some n =>
    let w := s.store.walk (.cue n)
    answer { code := .ok, w1 := word w.lowered, w2 := word w.armed.length, w3 := word w.passed }
      (s.withStore (s.store.trigger s.tb.time (.cue n) s.tb.time))

/-- DISPATCH (R24). -/
def execDispatch (s : State) : Host.Outcome State Fault Refusal := unlessInReset s dispatch

/-- TRIGGER_EVENT (R92). -/
def execTriggerEvent (pick : TriggerPick) (s : State) : Host.Outcome State Fault Refusal :=
  unlessInReset s (triggerEvent pick)

/-- FIRE_CUE (R97). -/
def execFireCue (p : CmdStep) (s : State) : Host.Outcome State Fault Refusal :=
  unlessInReset s (runCommand 0x40 fireCueTake p)

end Sys2Proof.Machine
end

