-- ==== Sys2Proof/Machine/Inputs.lean ====
section
/-!
DEFINITION. Input lines (chapter 8): the filter, what a confirmation hands out, the timebase's notices,
CONFIG-IN, and the work for a tick event.
-/

namespace Sys2Proof.Machine

/-! ## One line (R140, R141) -/

/-- The edge select accepts a change to `v` (R141). -/
def EdgeSelect.accepts (e : EdgeSelect) (v : Bool) : Bool :=
  match e with
  | .none => false
  | .rising => v
  | .falling => !v
  | .both => true

/-- The first-seen tick of the change that a sample `v` at tick `T` confirms, if it confirms one (R140). -/
def InputRecord.confirms? (r : InputRecord) (T : Time) (v : Bool) : Option Time :=
  if v = r.accepted then none
  else
    match r.candidate with
    | none => if r.filter = 0 then some T else none
    | some t0 => if latenessAt T t0 < r.filter.val then none else some t0

/-- The record after a confirmed change to `v` first seen at `t0` (R141). -/
def InputRecord.confirm (r : InputRecord) (v : Bool) (t0 : Time) : InputRecord :=
  { r with
    accepted := v
    candidate := none
    spanStart := if r.capture = .span && v == r.activeLevel then some t0 else none }

/-- The record after the sample `v` of tick `T` (R140). -/
def InputRecord.sampled (r : InputRecord) (T : Time) (v : Bool) : InputRecord :=
  if v = r.accepted then { r with candidate := none }
  else
    match r.confirms? T v with
    | some t0 => r.confirm v t0
    | none => { r with candidate := some (r.candidate.getD T) }

/-- The capture record a confirmed change of line `k` offers (R141, R143, R144). -/
def InputRecord.capture? (r : InputRecord) (k : Fin 8) (v : Bool) (t0 : Time) : Option Capture :=
  match r.capture with
  | .off => none
  | .edge => some (.edge k v t0 r.missed)
  | .span =>
    if v = r.activeLevel then none
    else r.spanStart.map fun start => .span k r.activeLevel start (t0 - start) r.missed

/-- Candidate and span are dropped without trace (R142, R146). -/
def InputRecord.dropped (r : InputRecord) : InputRecord := { r with candidate := none, spanStart := none }

/-! ## The unit -/

/-- The lines after the samples of tick `T` (R139). -/
def InputUnit.sampled (u : InputUnit) (T : Time) (pins : Pins) : InputUnit :=
  ⟨mapBank u.lines fun k r => r.sampled T (pins.getLsbD k)⟩

/-- The lines that confirm a change in the work for `T`, in line order, each with its first-seen tick. -/
def InputUnit.confirmed (u : InputUnit) (T : Time) (pins : Pins) : List (Fin 8 × Time) :=
  (List.finRange 8).filterMap fun k =>
    (u.lines[k].confirms? T (pins.getLsbD k)).map fun t0 => (k, t0)

/-- The trigger events the work for `T` sends (R141). -/
def InputUnit.triggers (u : InputUnit) (T : Time) (pins : Pins) : List (Fin 8 × Time) :=
  (u.confirmed T pins).filter fun x => u.lines[x.1].edgeSelect.accepts (pins.getLsbD x.1)

/-- The capture records the work for `T` offers, in line order (R141). -/
def InputUnit.captures (u : InputUnit) (T : Time) (pins : Pins) : List Capture :=
  (u.confirmed T pins).filterMap fun x => u.lines[x.1].capture? x.1 (pins.getLsbD x.1) x.2

/-- What a running-ends notice leaves (R142). -/
def InputUnit.ended (u : InputUnit) : InputUnit := ⟨mapBank u.lines fun _ r => r.dropped⟩

/-- What a running-begins notice leaves, with `pins` on the lines (R142). -/
def InputUnit.begun (u : InputUnit) (pins : Pins) : InputUnit :=
  ⟨mapBank u.lines fun k r => { r.dropped with accepted := pins.getLsbD k }⟩

/-- The Input Unit's work for the tick event carrying `T`, taken whole (R139), with the running-ends notice
that waited behind it. -/
def inputWork (T : Time) (pins : Pins) (s : State) : State :=
  (s.withIu (if s.mail.endsNotice then (s.iu.sampled T pins).ended else s.iu.sampled T pins)).withMail
    { s.mail with
      inputTick := none
      inputTriggers := s.mail.inputTriggers ++ s.iu.triggers T pins
      inputOffers := s.mail.inputOffers ++ s.iu.captures T pins
      endsNotice := false }

/-- The timebase gives the running-ends notice. Behind tick work not yet taken it waits: that work is taken in
full, and the notice then drops what it left (R142; DEDUCED, assumption log 12). -/
def endRunning (s : State) : State :=
  if s.mail.inputTick.isSome then s.withMail { s.mail with endsNotice := true }
  else s.withIu s.iu.ended

/-- The work for the tick event that waits; with none waiting there is no event. -/
def sample (pins : Pins) (s : State) : State :=
  match s.mail.inputTick with
  | some T => inputWork T pins s
  | none => s

/-- The work for the tick event that waits, when its samples confirm a change (R141); otherwise there is no
such event (assumption log 7). -/
def confirmation (pins : Pins) (s : State) : State :=
  match s.mail.inputTick with
  | some T => if (s.iu.confirmed T pins).isEmpty then s else inputWork T pins s
  | none => s

/-- The timebase gives the running-begins notice, with `pins` on the lines at that moment. Work of the last tick
event before the count stopped that still waits is taken ahead of it, since the first sample after running
begins is that of the first tick event (R142; DEDUCED, assumption log 12). -/
def inputsBegin (pins : Pins) (s : State) : State :=
  (sample pins s).withIu ((sample pins s).iu.begun pins)

/-- CONFIG-IN (R146). -/
def configInTake : Handler := fun a s =>
  match argBelow8 a.a0, EdgeSelect.ofWord a.a1, CaptureMode.ofByte (a.a2.extractLsb' 0 8),
    argBit (a.a2 >>> 8), argBelow16 a.a3 with
  | some k, some edgeSelect, some capture, some activeLevel, some filter =>
    let r := s.iu.lines[k]
    let r' : InputRecord :=
      { r.dropped with
        edgeSelect := edgeSelect, capture := capture, activeLevel := activeLevel, filter := filter }
    answer { code := .ok, w1 := r.configWord, w2 := r'.stateWord } (s.withIu ⟨s.iu.lines.set k r'⟩)
  | _, _, _, _, _ => answer { code := .badArg } s

/-- Soft reset of the input records: levels re-taken from the pins (R148). -/
def InputUnit.softReset (u : InputUnit) (pins : Pins) : InputUnit :=
  ⟨mapBank u.lines fun k r => { r.dropped with accepted := pins.getLsbD k, missed := false }⟩

/-- CONFIG-IN (R146). -/
def execConfigIn (p : CmdStep) (s : State) : Host.Outcome State Fault Refusal :=
  unlessInReset s (runCommand 0x51 configInTake p)

/-- SAMPLE (R139). -/
def execSample (pins : Pins) (s : State) : Host.Outcome State Fault Refusal := unlessInReset s (sample pins)

/-- CONFIRMATION (R141). -/
def execConfirmation (pins : Pins) (s : State) : Host.Outcome State Fault Refusal :=
  unlessInReset s (confirmation pins)

end Sys2Proof.Machine
end

