-- ==== Sys2Proof/WellFormed.lean ====
section
/-!
DEFINITION. Which terms of `Instr` denote an event of the block. The operand types carry most of it; the
checks below say which written words belong to which row. A term that fails its check denotes no event, and
its meaning leaves the state unchanged (assumption log 4).
-/

namespace Sys2Proof

/-- The low byte of a COMMAND word names a command of section 11.4 (R182). -/
def namesCommand (w : Word) : Bool := Config.commandCodes.contains (w.extractLsb' 0 8)

/-- A CONTROL word that is an ABORT: ABORT set and SRST clear (R185). -/
def isAbortWord (w : Word) : Bool := w.getLsbD 1 && !w.getLsbD 0

/-- A CONTROL word that is a soft reset: SRST set (R185). -/
def isSoftResetWord (w : Word) : Bool := w.getLsbD 0

/-- A write of `w` to `a` has a row of its own in the table: COMMAND, OUT_DIRECT, IRQ_FLAGS, IRQ_ENABLE, POP
and THRESH always, CONTROL when SRST or ABORT is set. -/
def hasOwnRow (a : Addr) (w : Word) : Bool :=
  a == 0x07 || a == 0x12 || a == 0x15 || a == 0x16 || a == 0x34 || a == 0x36 ||
    (a == 0x02 && (isAbortWord w || isSoftResetWord w))

/-- The command denotes an event of the block. -/
def Instr.wellFormed : Instr → Bool
  | .badcmd w => !namesCommand w
  | .abort w => isAbortWord w
  | .softReset w _ => isSoftResetWord w
  | .registerWrite a w => !hasOwnRow a w
  | _ => true

end Sys2Proof
end

