-- ==== Sys2Proof/Machine/Staging.lean ====
section
/-!
DEFINITION. Staging and commit (chapter 4): APPEND, DISCARD, COMMIT, the commit-start request, merge completion
and ABORT.
-/

namespace Sys2Proof.Machine

/-- APPEND: field checks, room check, copy to the tail (R68, R69, R70). -/
def appendTake : Handler := fun _ s =>
  match s.ce.composer.firstBad with
  | some n => answer { code := .badField, w1 := word n } s
  | none =>
    if Config.stagingLimit ≤ s.ce.staging.length then answer { code := .stageFull, w1 := word 16 } s
    else
      answer { code := .ok, w1 := word s.ce.staging.length, w2 := word (s.ce.staging.length + 1) }
        (s.withCe { s.ce with staging := s.ce.staging ++ [s.ce.composer.entry] })

/-- DISCARD: the staging list is emptied (R72). -/
def discardTake : Handler := fun _ s =>
  answer { code := .ok, w1 := word s.ce.staging.length } (s.withCe { s.ce with staging := [] })

/-- COMMIT at the engine: EMPTY, or the commit-start request is passed to the Schedule Store (R74). -/
def commitTake : Handler := fun _ s =>
  if s.ce.staging.isEmpty then answer { code := .empty } s else some (s, .atStore)

/-- The commit-start request taken at the Schedule Store, with the argument record `a` of its COMMIT: RANGE,
NOROOM, or reservation (R75, R76, R77). -/
def commitStartTaken (a : Args) (s : State) : State :=
  match firstOutOfRange s.tb.time s.ce.staging with
  | some i => complete commitCode { code := .range, w1 := word i } s
  | none =>
    if s.store.free.length < s.ce.staging.length then
      complete commitCode
        { code := .noRoom, w1 := word s.store.free.length, w2 := word s.ce.staging.length } s
    else
      (s.withStore (s.store.reserve s.ce.staging.length)).withCe { s.ce with engine := .committing a }

/-- The Schedule Store takes the commit-start request that waits. Behind a halt group request it waits: that
halt found no merge to abandon, and its group actions come before the merge begins (R79, R86, R120; DEDUCED,
assumption log 9). With no such request waiting there is no event. -/
def commitStart (s : State) : State :=
  match s.ce.engine with
  | .busy _ a .atStore => if s.mail.haltRequests = 0 then commitStartTaken a s else s
  | _ => s

/-- The handles of the batch in flight, in staging order (R80, R84). -/
def batchHandles (s : State) : List Handle := s.store.reserved.map s.store.handleOf

/-- The Schedule Store at merge completion: every record live in its paired slot, the reserved set empty
(R80). -/
def batchLive (s : State) : Store :=
  { s.store.goLiveAll s.tb.time (s.store.reserved.zip s.ce.staging) with reserved := [] }

/-- Merge completion, while a merge is in flight (R80, R82). -/
def mergeCompletion (s : State) : State :=
  match s.ce.engine with
  | .committing _ =>
    complete commitCode
      { code := .ok
        w1 := word s.ce.staging.length
        w2 := match batchHandles s with | h :: _ => h.toWord | [] => 0 }
      ((s.withStore (batchLive s)).withCe { s.ce with staging := [], handles := batchHandles s })
  | _ => s

/-- A CONTROL write with ABORT set and SRST clear (R85, R185). -/
def abortWrite (w : Word) (s : State) : State :=
  if isAbortWord w then serveWrite 0x02 (abandon .aborted) s else s

/-- APPEND (R68). -/
def execAppend (p : CmdStep) (s : State) : Host.Outcome State Fault Refusal :=
  unlessInReset s (runCommand 0x01 appendTake p)

/-- DISCARD (R72). -/
def execDiscard (p : CmdStep) (s : State) : Host.Outcome State Fault Refusal :=
  unlessInReset s (runCommand 0x02 discardTake p)

/-- COMMIT (R74). -/
def execCommit (p : CmdStep) (s : State) : Host.Outcome State Fault Refusal :=
  unlessInReset s (runCommand 0x03 commitTake p)

/-- COMMIT_START (R76). -/
def execCommitStart (s : State) : Host.Outcome State Fault Refusal := unlessInReset s commitStart

/-- MERGE_COMPLETION (R80). -/
def execMergeCompletion (s : State) : Host.Outcome State Fault Refusal := unlessInReset s mergeCompletion

/-- ABORT (R85). -/
def execAbort (w : Word) (s : State) : Host.Outcome State Fault Refusal := unlessInReset s (abortWrite w)

end Sys2Proof.Machine
end

