-- ==== Sys2Proof/Machine/Window.lean ====
section
/-!
DEFINITION. The host port and the register window (chapter 11): header byte, end of frame, the writes that have
no row of their own, a COMMAND write that names no command, and what a read of each register returns.
-/

namespace Sys2Proof.Machine

/-! ## Frames (R175, R188) -/

/-- The header byte fixes direction, auto-increment and the current address; it is taken in a frame that has
none yet (R175). -/
def headerByte (b : Byte) (s : State) : State :=
  match s.hp.port with
  | .ready =>
    s.withHp { s.hp with port := .frame (b.getLsbD 7) (b.getLsbD 6) (b.extractLsb' 0 6) }
  | _ => s

/-- A rise of CSn ends the frame; the port then takes frames again (R175, R188). -/
def frameEnd (s : State) : State := s.withHp { s.hp with port := .ready }

/-! ## Writes without a row of their own (R176, R177, R178, R179) -/

/-- The Command Engine's registers after a write of `w` to `a`: the composer, ARG0..ARG3 and HSEL store it;
every other address of this row ignores it. -/
def CommandEngine.writeReg (ce : CommandEngine) (a : Addr) (w : Word) : CommandEngine :=
  if a = 0x03 then { ce with args := { ce.args with a0 := w } }
  else if a = 0x04 then { ce with args := { ce.args with a1 := w } }
  else if a = 0x05 then { ce with args := { ce.args with a2 := w } }
  else if a = 0x06 then { ce with args := { ce.args with a3 := w } }
  else if a = 0x10 then { ce with hsel := w.extractLsb' 0 8 }
  else if 0x20 ≤ a.toNat ∧ a.toNat ≤ 0x30 then
    { ce with composer := ce.composer.write (a.toNat - 0x20) w }
  else ce

/-- An APPEND whose COMMAND write has been served is taken, if it still waits; nothing otherwise. -/
def waitingAppend (s : State) : State := commandTake 0x01 appendTake s

/-- What is taken before a write to `a` is stored: an APPEND that waits is taken ahead of a composer write, so
that no write served after its COMMAND write is in the copy (R67, assumption log 26). -/
def beforeWrite (a : Addr) (s : State) : State :=
  if 0x20 ≤ a.toNat ∧ a.toNat ≤ 0x30 then waitingAppend s else s

/-- A write of `w` to `a`, for the addresses and words that have no row of their own. -/
def registerWrite (a : Addr) (w : Word) (s : State) : State :=
  if hasOwnRow a w then s
  else
    serveWrite a
      (fun s => (beforeWrite a s).withCe ((beforeWrite a s).ce.writeReg a w)) s

/-- A COMMAND write whose code names no command: BADCMD at once in IDLE, REJ otherwise (R181, R182). -/
def badCommand (w : Word) (s : State) : State :=
  if namesCommand w then s
  else
    serveWrite 0x07
      (fun s =>
        match s.ce.engine with
        | .idle => complete (w.extractLsb' 0 8) { code := .badCmd } s
        | _ => s.withEq s.eq.raiseRej) s

/-! ## What a read returns (R177, R178, R180, R183) -/

/-- The code of a record kind (R180). -/
def EventRecord.kindCode : EventRecord → Nat
  | .fired .. => 1
  | .late .. => 2
  | .skipped .. => 3
  | .done .. => 4
  | .edge .. => 5
  | .span .. => 6
  | .halt .. => 7
  | .overflow .. => 8

/-- The code of a DONE reason (R180). -/
def DoneReason.code : DoneReason → Nat
  | .finished => 1
  | .cancelled => 2
  | .halted => 3

/-- EVW0: kind, flag bits 4 and 5, bits 7..6, tag (R180). -/
def EventRecord.word0 (r : EventRecord) : Word :=
  match r with
  | .fired _ _ tag _ m => word (r.kindCode + 16 * bitNat m + 256 * tag.toNat)
  | .late _ _ tag _ _ m => word (r.kindCode + 16 * bitNat m + 256 * tag.toNat)
  | .skipped _ _ tag _ _ => word (r.kindCode + 256 * tag.toNat)
  | .done _ _ tag reason _ reheld =>
    word (r.kindCode + 16 * bitNat reheld + 64 * reason.code + 256 * tag.toNat)
  | .edge _ v _ m => word (r.kindCode + 16 * bitNat m + 32 * bitNat v)
  | .span _ a _ _ m => word (r.kindCode + 16 * bitNat m + 32 * bitNat a)
  | .halt _ cause => word (r.kindCode + 64 * cause.code)
  | .overflow _ => word r.kindCode

/-- The time of EVW1..EVW3 (R180). -/
def EventRecord.timeField : EventRecord → BitVec 48
  | .fired _ _ _ due _ => due
  | .late _ _ _ due _ _ => due
  | .skipped _ _ _ due _ => due
  | .done .. => 0
  | .edge _ _ t _ => t
  | .span _ _ t _ _ => t
  | .halt t _ => t
  | .overflow _ => 0

/-- The quantity of EVW4..EVW6 (R180). -/
def EventRecord.quantity : EventRecord → BitVec 48
  | .fired .. => 0
  | .late _ _ _ _ n _ => BitVec.ofNat 48 n
  | .skipped _ _ _ _ n => BitVec.ofNat 48 n
  | .done _ _ _ _ n _ => BitVec.ofNat 48 n
  | .edge .. => 0
  | .span _ _ _ w _ => w
  | .halt .. => 0
  | .overflow n => BitVec.ofNat 48 n

/-- EVW7: handle and group, or line (R180). -/
def EventRecord.word7 : EventRecord → Word
  | .fired h g _ _ _ => h.toWord + word (4096 * g.val)
  | .late h g _ _ _ _ => h.toWord + word (4096 * g.val)
  | .skipped h g _ _ _ => h.toWord + word (4096 * g.val)
  | .done h g _ _ _ _ => h.toWord + word (4096 * g.val)
  | .edge k _ _ _ => word k.val
  | .span k _ _ _ _ => word k.val
  | .halt .. => 0
  | .overflow _ => 0

/-- Word `n` of the event window for the record at the head (R154, R180). -/
def EventRecord.window (r : EventRecord) (n : Nat) : Word :=
  match n with
  | 0 => r.word0
  | 1 => r.timeField.extractLsb' 0 16
  | 2 => r.timeField.extractLsb' 16 16
  | 3 => r.timeField.extractLsb' 32 16
  | 4 => r.quantity.extractLsb' 0 16
  | 5 => r.quantity.extractLsb' 16 16
  | 6 => r.quantity.extractLsb' 32 16
  | 7 => r.word7
  | _ => 0

/-- The engine state in STATUS (R178). -/
def Engine.code : Engine → Nat
  | .idle => 0
  | .busy .. => 1
  | .committing _ => 2

/-- The timebase state in STATUS (R178). -/
def Clock.code : Clock → Nat
  | .stopped => 0
  | .armed _ => 1
  | .running _ => 2

/-- STATUS (R178). -/
def State.status (s : State) : Word :=
  word (s.ce.engine.code + 4 * s.ce.staging.length + 128 * s.tb.clock.code +
    512 * bitNat s.tb.pendingTrim.isSome + 1024 * bitNat s.hc.latch.isSome +
    2048 * (match s.hc.latch with | some c => c.code | none => 0) + 8192 * bitNat s.hc.haltnHigh)

/-- HANDLE: the handle at the index in HSEL, 0xFFFF at or above the count (R84, R178). -/
def CommandEngine.handleAt (ce : CommandEngine) : Word :=
  match ce.handles[ce.hsel.toNat]? with
  | some h => h.toWord
  | none => 0xFFFF

/-- RESULT0..RESULT6 (R183). -/
def Result.read (r : Result) (n : Nat) : Word :=
  match n with
  | 0 => word (r.reply.code.toNat + 256 * r.command.toNat)
  | 1 => r.reply.w1
  | 2 => r.reply.w2
  | 3 => r.reply.w3
  | 4 => r.reply.w4
  | 5 => r.reply.w5
  | 6 => r.reply.w6
  | _ => 0

/-- The word a read of address `a` returns (R177; assumption log 21). Reads change nothing, but for TIME0, which
takes the snapshot and returns the low word of what it took (R176, R63). -/
def State.readReg (s : State) (a : Addr) : Word :=
  let n := a.toNat
  if n = 0x00 then Config.ident
  else if n = 0x01 then s.status
  else if n = 0x03 then s.ce.args.a0
  else if n = 0x04 then s.ce.args.a1
  else if n = 0x05 then s.ce.args.a2
  else if n = 0x06 then s.ce.args.a3
  else if 0x08 ≤ n ∧ n ≤ 0x0E then s.ce.result.read (n - 0x08)
  else if n = 0x0F then word (s.store.free.length + 256 * s.store.agenda.length)
  else if n = 0x10 then word (s.ce.hsel.toNat + 256 * s.ce.handles.length)
  else if n = 0x11 then s.ce.handleAt
  else if n = 0x12 then s.ou.direct
  else if n = 0x13 then BitVec.ofFnLE fun k : Fin 16 => s.ou.lines[k].level
  else if n = 0x14 then
    (BitVec.ofFnLE fun k : Fin 8 => s.iu.lines[k].missed) ++
      (BitVec.ofFnLE fun k : Fin 8 => s.iu.lines[k].accepted)
  else if n = 0x15 then s.eq.flags.toWord
  else if n = 0x16 then s.eq.enables.toWord
  else if n = 0x17 then s.tb.time.extractLsb' 0 16
  else if n = 0x18 then s.tb.snapshot.extractLsb' 16 16
  else if n = 0x19 then s.tb.snapshot.extractLsb' 32 16
  else if 0x20 ≤ n ∧ n ≤ 0x30 then s.ce.composer.read (n - 0x20)
  else if n = 0x35 then word s.eq.records.length
  else if n = 0x36 then word s.eq.threshold
  else if 0x38 ≤ n then
    match s.eq.records with
    | r :: _ => r.window (n - 0x38)
    | [] => 0
  else 0

/-! ## The words of a read frame (R175, R176) -/

/-- The state after a read of the register at `a` is served: unchanged, but for TIME0, which takes the snapshot
(R176, R63). -/
def State.afterRead (s : State) (a : Addr) : State :=
  if a = 0x17 then s.withTb { s.tb with snapshot := s.tb.time } else s

/-- The next word of a read frame: the word shifted out from the current address as it stands, and the state
after it, with the current address advanced (R175, R176). Outside a read frame no word is read. -/
def State.readWord? (s : State) : Option (Word × State) :=
  match s.hp.port with
  | .frame true autoInc a =>
    some (s.readReg a, (s.afterRead a).withHp { s.hp with port := .frame true autoInc (nextAddr autoInc a) })
  | _ => none

/-- The next `n` words of a read frame, in the order shifted out, and the state after them. -/
def State.readWords : Nat → State → List Word × State
  | 0, s => ([], s)
  | n + 1, s =>
    match s.readWord? with
    | some (w, s') => (w :: (s'.readWords n).1, (s'.readWords n).2)
    | none => ([], s)

/-! ## Commands -/

/-- BADCMD (R182). -/
def execBadcmd (w : Word) (s : State) : Host.Outcome State Fault Refusal := unlessInReset s (badCommand w)

/-- REGISTER_WRITE (R176). -/
def execRegisterWrite (a : Addr) (w : Word) (s : State) : Host.Outcome State Fault Refusal :=
  unlessInReset s (registerWrite a w)

/-- HEADER_BYTE (R175). -/
def execHeaderByte (b : Byte) (s : State) : Host.Outcome State Fault Refusal :=
  unlessInReset s (headerByte b)

/-- FRAME_END: the rise of CSn is a level of a pin, and the port sees it while RESETn is asserted too
(R175, R188). -/
def execFrameEnd (s : State) : Host.Outcome State Fault Refusal := .next (frameEnd s)

end Sys2Proof.Machine
end

