-- ==== Sys2Proof/Machine/Clock.lean ====
section
/-!
DEFINITION. The timebase (chapter 3): START, STOP, ARM-SYNC, SET-TIME, SET-TRIM, the edges of SYNC, the tick
event and the time snapshot.
-/

namespace Sys2Proof.Machine

/-- A tick boundary: the pending trim is applied, the accumulator adds F, the length of the tick now
beginning is fixed (R50). -/
def Timebase.boundary (tb : Timebase) : Timebase :=
  let trim := tb.pendingTrim.getD tb.trim
  let sum := tb.acc.toNat + trim.fraction.toNat
  { tb with
    trim := trim
    pendingTrim := none
    acc := BitVec.ofNat 16 sum
    clock := .running (if 65536 ≤ sum then trim.divider.toNat + 1 else trim.divider.toNat) }

/-- The timebase stops: the pending trim becomes current, the tick in progress or the SYNC reference is
dropped (R56). -/
def Timebase.stop (tb : Timebase) : Timebase :=
  { tb with clock := .stopped, trim := tb.pendingTrim.getD tb.trim, pendingTrim := none }

/-- The timebase begins to run: a tick boundary, and the running-begins notice (R53, R54). -/
def beginRunning (pins : Pins) (s : State) : State :=
  inputsBegin pins (s.withTb s.tb.boundary)

/-- START (R53). -/
def startTake (pins : Pins) : Handler := fun _ s =>
  match s.tb.clock with
  | .stopped => answer { code := .ok } (beginRunning pins s)
  | _ => answer { code := .wrongState } s

/-- STOP (R56). -/
def stopTake : Handler := fun _ s =>
  match s.tb.clock with
  | .stopped => answer { code := .ok } s
  | _ => answer { code := .ok } (endRunning (s.withTb s.tb.stop))

/-- ARM-SYNC (R54). -/
def armSyncTake (sync : Bool) : Handler := fun _ s =>
  match s.tb.clock with
  | .stopped => answer { code := .ok } (s.withTb { s.tb with clock := .armed sync })
  | .armed _ => answer { code := .ok } s
  | .running _ => answer { code := .wrongState } s

/-- SET-TIME (R58). In STOPPED it waits until the work of the last tick has been taken, so that no trigger
event, run-down or sample of the old count comes after it (R58, R106, R133; assumption log 8). -/
def setTimeTake : Handler := fun a s =>
  match s.tb.clock with
  | .stopped =>
    if s.tickWorkTaken then
      if s.store.timeless then
        answer { code := .ok }
          ((s.withTb { s.tb with time := a.a2 ++ a.a1 ++ a.a0 }).withOu { s.ou with lastTick := none })
      else answer { code := .wrongState } s
    else none
  | _ => answer { code := .notStopped } s

/-- SET-TRIM (R60, R61). -/
def setTrimTake : Handler := fun a s =>
  if a.a0.toNat < 16 ∨ 4095 < a.a0.toNat then answer { code := .badArg } s
  else
    match s.tb.clock with
    | .stopped => answer { code := .ok } (s.withTb { s.tb with trim := ⟨a.a0, a.a1⟩ })
    | _ => answer { code := .ok } (s.withTb { s.tb with pendingTrim := some ⟨a.a0, a.a1⟩ })

/-- A rise of SYNC: starts an ARMED timebase that has last seen SYNC low (R54). -/
def syncEdge (pins : Pins) (s : State) : State :=
  match s.tb.clock with
  | .armed false => beginRunning pins s
  | _ => s

/-- A fall of SYNC, seen by an ARMED timebase (R54). -/
def syncFall (s : State) : State :=
  match s.tb.clock with
  | .armed _ => s.withTb { s.tb with clock := .armed false }
  | _ => s

/-- The end of the tick in progress, once the work of the last tick event has been taken; until then the
tick's end waits (R47, R49, R51). -/
def tickEvent (s : State) : State :=
  match s.tb.clock with
  | .running _ =>
    if s.tickWorkTaken then
      let T := later s.tb.time 1
      (s.withTb (Timebase.boundary { s.tb with time := T })).withMail
        { s.mail with storeTick := some T, outputTick := some T, inputTick := some T }
    else s
  | _ => s

/-- A read of TIME0 takes the snapshot (R63). With no frame in progress it is a frame of its own (assumption log
6); in a read frame that can still reach TIME0 it is the words up to that one, the words before it changing
nothing but the current address (R175, R176). -/
def time0Read (s : State) : State :=
  match s.hp.port with
  | .ready => s.afterRead 0x17
  | .frame true autoInc a =>
    if autoInc || a == 0x17 then (s.readWords ((0x17 - a).toNat + 1)).2 else s
  | _ => s

/-- START (R53). -/
def execStart (p : CmdStep) (pins : Pins) (s : State) : Host.Outcome State Fault Refusal :=
  unlessInReset s (runCommand 0x30 (startTake pins) p)

/-- STOP (R56). -/
def execStop (p : CmdStep) (s : State) : Host.Outcome State Fault Refusal :=
  unlessInReset s (runCommand 0x31 stopTake p)

/-- ARM-SYNC (R54). -/
def execArmSync (p : CmdStep) (sync : Bool) (s : State) : Host.Outcome State Fault Refusal :=
  unlessInReset s (runCommand 0x32 (armSyncTake sync) p)

/-- SET-TIME (R58). -/
def execSetTime (p : CmdStep) (s : State) : Host.Outcome State Fault Refusal :=
  unlessInReset s (runCommand 0x33 setTimeTake p)

/-- SET-TRIM (R60). -/
def execSetTrim (p : CmdStep) (s : State) : Host.Outcome State Fault Refusal :=
  unlessInReset s (runCommand 0x34 setTrimTake p)

/-- SYNC_EDGE (R54). -/
def execSyncEdge (pins : Pins) (s : State) : Host.Outcome State Fault Refusal :=
  unlessInReset s (syncEdge pins)

/-- SYNC_FALL (R54). -/
def execSyncFall (s : State) : Host.Outcome State Fault Refusal := unlessInReset s syncFall

/-- TICK_EVENT (R51). -/
def execTickEvent (s : State) : Host.Outcome State Fault Refusal := unlessInReset s tickEvent

/-- TIME0 (R63). -/
def execTime0 (s : State) : Host.Outcome State Fault Refusal := unlessInReset s time0Read

end Sys2Proof.Machine
end

