-- ==== Sys2Proof/Machine/Events.lean ====
section
/-!
DEFINITION. The Event Queue's events (chapter 9): record offers, POP, and the writes of IRQ_FLAGS, IRQ_ENABLE
and THRESH.
-/

namespace Sys2Proof.Machine

/-- The line of a capture record. -/
def Capture.line : Capture → Fin 8
  | .edge k _ _ _ => k
  | .span k _ _ _ _ => k

/-- The record that the queue stores for a capture record (R143, R144). -/
def Capture.toRecord : Capture → EventRecord
  | .edge k v t missed => .edge k v t missed
  | .span k a t w missed => .span k a t w missed

/-- A capture record of line `k` that waits behind one that has just been answered carries the flag as the
answer left it (R145; DEDUCED, assumption log 14). -/
def Capture.reflagged (k : Fin 8) (missed : Bool) (c : Capture) : Capture :=
  match c with
  | .edge j v t m => .edge j v t (if j = k then missed else m)
  | .span j a t w m => .span j a t w (if j = k then missed else m)

/-- The missed flag after the answer: cleared by a stored record, set by a lost one (R145). -/
def InputUnit.answered (u : InputUnit) (k : Fin 8) (stored : Bool) : InputUnit :=
  ⟨u.lines.set k { u.lines[k] with missed := !stored }⟩

/-- The Event Queue takes the oldest offer of a block; with none waiting there is no event (R149, R152,
R153). -/
def recordOffer (b : Offerer) (s : State) : State :=
  match b with
  | .store =>
    match s.mail.storeOffers with
    | [] => s
    | r :: rest => (s.withEq (s.eq.offer r).1).withMail { s.mail with storeOffers := rest }
  | .halt =>
    match s.mail.haltOffers with
    | [] => s
    | r :: rest => (s.withEq (s.eq.offer r).1).withMail { s.mail with haltOffers := rest }
  | .inputs =>
    match s.mail.inputOffers with
    | [] => s
    | c :: rest =>
      let o := s.eq.offer c.toRecord
      ((s.withEq o.1).withIu (s.iu.answered c.line o.2)).withMail
        { s.mail with inputOffers := rest.map (Capture.reflagged c.line !o.2) }

/-- The head record is removed (R155). -/
def EventQueue.pop (q : EventQueue) : EventQueue := { q with records := q.records.drop 1 }

/-- A written threshold: a value 1..64 replaces it, any other is ignored (R157; the whole word counts: DEDUCED,
assumption log 16). -/
def EventQueue.setThreshold (q : EventQueue) (w : Word) : EventQueue :=
  if 1 ≤ w.toNat ∧ w.toNat ≤ 64 then { q with threshold := w.toNat } else q

/-- RECORD_OFFER (R152). -/
def execRecordOffer (b : Offerer) (s : State) : Host.Outcome State Fault Refusal :=
  unlessInReset s (recordOffer b)

/-- POP: the word written does not matter (R155). -/
def execPop (_w : Word) (s : State) : Host.Outcome State Fault Refusal :=
  unlessInReset s (serveWrite 0x34 fun s => s.withEq s.eq.pop)

/-- IRQ_FLAGS (R160). -/
def execIrqFlags (w : Word) (s : State) : Host.Outcome State Fault Refusal :=
  unlessInReset s (serveWrite 0x15 fun s => s.withEq { s.eq with flags := s.eq.flags.clear w })

/-- IRQ_ENABLE (R161). -/
def execIrqEnable (w : Word) (s : State) : Host.Outcome State Fault Refusal :=
  unlessInReset s (serveWrite 0x16 fun s => s.withEq { s.eq with enables := IrqBits.ofWord w })

/-- THRESH (R157). -/
def execThresh (w : Word) (s : State) : Host.Outcome State Fault Refusal :=
  unlessInReset s (serveWrite 0x36 fun s => s.withEq (s.eq.setThreshold w))

end Sys2Proof.Machine
end

