-- ==== Sys2Proof/Machine/Groups.lean ====
section
/-!
DEFINITION. Groups (chapter 6): SUSPEND, RESUME, CANCEL-GROUP, SET-GROUP and the halt group request.
-/

namespace Sys2Proof.Machine

/-- SUSPEND g (R113, R117). -/
def suspendTake : Handler := fun a s =>
  match argBelow16 a.a0 with
  | none => answer { code := .badArg } s
  | some g =>
    if s.store.suspended g then answer { code := .ok } s
    else
      answer
        { code := .ok, w1 := word (s.store.pendingOf g).length, w2 := word (s.store.heldOf g).length }
        (s.withStore (s.store.suspendGroup s.tb.time g))

/-- RESUME g (R114, R117). -/
def resumeTake : Handler := fun a s =>
  match argBelow16 a.a0 with
  | none => answer { code := .badArg } s
  | some g =>
    if s.store.suspended g then
      answer { code := .ok, w1 := word s.store.parked[g].length }
        (s.withStore (s.store.resumeGroup s.tb.time g))
    else answer { code := .ok } s

/-- CANCEL-GROUP g (R116, R117). -/
def cancelGroupTake : Handler := fun a s =>
  match argBelow16 a.a0 with
  | none => answer { code := .badArg } s
  | some g =>
    answer
      { code := .ok
        w1 := word (s.store.membersOf g).length
        w2 := word (s.store.pendingOf g).length
        w3 := word (s.store.heldOf g).length
        w4 := word s.store.parked[g].length }
      (offerStore (s.store.cancelGroup .cancelled g).2
        (s.withStore (s.store.cancelGroup .cancelled g).1))

/-- SET-GROUP g, action (R112, R117). One written after a halt event is taken behind the halt group request of that
halt, so that it changes nothing for it; one written before may be taken on either side of the request (R119;
DEDUCED, assumption log 28). -/
def setGroupTake : Handler := fun a s =>
  match argBelow16 a.a0, HaltAction.ofWord a.a1 with
  | some g, some action =>
    if s.ce.engine.haltsAhead = 0 then
      answer
        { code := .ok
          w1 := word s.store.groups[g].haltAction.code
          w2 := word (bitNat (s.store.suspended g)) }
        (s.withStore
          { s.store with
            groups := s.store.groups.set g { s.store.groups[g] with haltAction := action } })
    else none
  | _, _ => answer { code := .badArg } s

/-- The halt actions of all groups in number order, read at the current time, with their DONE records
offered (R118). -/
def applyHaltActions (s : State) : State :=
  offerStore (s.store.haltGroups s.tb.time (List.finRange 16)).2
    (s.withStore (s.store.haltGroups s.tb.time (List.finRange 16)).1)

/-- The Schedule Store takes a halt group request that waits with its commit abandonment, as one step
(R118, R166, R86): a halt that acts on groups abandons the merge that is in flight (R79). The halt actions are
read as they stand now. With none waiting there is no event. -/
def haltGroupRequest (s : State) : State :=
  match s.mail.haltRequests with
  | 0 => s
  | n + 1 =>
    abandon .halted
      (applyHaltActions
        ((s.withMail { s.mail with haltRequests := n }).withCe { s.ce with engine := s.ce.engine.haltTaken }))

/-- SUSPEND (R113). -/
def execSuspend (p : CmdStep) (s : State) : Host.Outcome State Fault Refusal :=
  unlessInReset s (runCommand 0x20 suspendTake p)

/-- RESUME (R114). -/
def execResume (p : CmdStep) (s : State) : Host.Outcome State Fault Refusal :=
  unlessInReset s (runCommand 0x21 resumeTake p)

/-- CANCEL-GROUP (R116). -/
def execCancelGroup (p : CmdStep) (s : State) : Host.Outcome State Fault Refusal :=
  unlessInReset s (runCommand 0x22 cancelGroupTake p)

/-- SET-GROUP (R112). -/
def execSetGroup (p : CmdStep) (s : State) : Host.Outcome State Fault Refusal :=
  unlessInReset s (runCommand 0x23 setGroupTake p)

/-- HALT_GROUP_REQUEST (R118). -/
def execHaltGroupRequest (s : State) : Host.Outcome State Fault Refusal := unlessInReset s haltGroupRequest

end Sys2Proof.Machine
end

