-- ==== Sys2Proof/Machine/HaltCtl.lean ====
section
/-!
DEFINITION. Halt and release (chapter 10): the halt event, the HALT and RELEASE commands, the rise of HALTn.
-/

namespace Sys2Proof.Machine

/-- The latch is set with `cause` and the lines are forced, in one step; the HALT flag is set (R166, R159). -/
def latchHalt (cause : HaltCause) (s : State) : State :=
  ((s.withHc { s.hc with latch := some cause }).withOu s.ou.force).withEq s.eq.raiseHalt

/-- A halt event: with the latch CLEAR it latches, forces, and hands out the HALT record and the halt group
request with its commit abandonment (R166). With the latch LATCHED it has no effect (R167). -/
def haltEventTaken (cause : HaltCause) (s : State) : State :=
  match s.hc.latch with
  | some _ => s
  | none =>
    (latchHalt cause s).withMail
      { s.mail with
        haltOffers := s.mail.haltOffers ++ [.halt s.tb.time cause]
        haltRequests := s.mail.haltRequests + 1 }

/-- HALT (R168). -/
def haltTake : Handler := fun _ s =>
  answer { code := .ok, w1 := word (bitNat s.hc.latch.isSome) } (haltEventTaken .command s)

/-- RELEASE (R171). -/
def releaseTake : Handler := fun _ s =>
  if !s.hc.haltnHigh then answer { code := .haltActive } s
  else
    match s.hc.latch with
    | none => answer { code := .wrongState } s
    | some cause =>
      answer { code := .ok, w1 := word cause.code }
        ((s.withHc { s.hc with latch := none }).withOu s.ou.lift)

/-- A fall of HALTn is recognised: the level is low, and its halt event is to be taken (R165). With the level
low already there is no fall. -/
def recogniseFall (s : State) : State :=
  if s.hc.haltnHigh then s.withHc { s.hc with haltnHigh := false, fallsOwed := s.hc.fallsOwed + 1 }
  else s

/-- The Halt Controller takes the halt event of a recognised fall, cause PIN; each recognised fall is a halt
event of its own (R165, R166, R167). -/
def takeFall (s : State) : State :=
  match s.hc.fallsOwed with
  | 0 => s
  | n + 1 => haltEventTaken .pin (s.withHc { s.hc with fallsOwed := n })

/-- The parts of a fall of HALTn. -/
def haltEvent (p : FallStep) (s : State) : State :=
  match p with
  | .whole => if s.hc.haltnHigh then takeFall (recogniseFall s) else s
  | .recognise => recogniseFall s
  | .take => takeFall s

/-- A rise of HALTn is recognised: the level changes and nothing else (R165). It may come ahead of the halt event still
to be taken for the fall before it, and so may a RELEASE behind it (DESIGN CHOICE, assumption log 32). -/
def haltnRise (s : State) : State := s.withHc { s.hc with haltnHigh := true }

/-- HALT (R168). -/
def execHalt (p : CmdStep) (s : State) : Host.Outcome State Fault Refusal :=
  unlessInReset s (runCommand 0x60 haltTake p)

/-- RELEASE (R171). -/
def execRelease (p : CmdStep) (s : State) : Host.Outcome State Fault Refusal :=
  unlessInReset s (runCommand 0x61 releaseTake p)

/-- HALT_EVENT (R166). -/
def execHaltEvent (p : FallStep) (s : State) : Host.Outcome State Fault Refusal :=
  unlessInReset s (haltEvent p)

/-- HALTN_RISE (R165). -/
def execHaltnRise (s : State) : Host.Outcome State Fault Refusal := unlessInReset s haltnRise

end Sys2Proof.Machine
end

