-- ==== Sys2Proof/Machine/Resets.lean ====
section
/-!
DEFINITION. The resets: soft reset with its re-latch, the assertion of RESETn and its release.
-/

namespace Sys2Proof.Machine

/-- The re-latch that a reset taken with HALTn low makes in its own step: latch, forcing, the halt group
request on the store as the reset left it, and the HALT record stored in the emptied queue (R173, R174;
DEDUCED, assumption log 13). -/
def relatch (s : State) : State :=
  if s.hc.haltnHigh then s
  else
    let s' := applyHaltActions (latchHalt .pin s)
    s'.withEq (s'.eq.offer (.halt s'.tb.time .pin)).1

/-- The code of the command a soft reset ends, 0 when the engine is IDLE (R183). -/
def endedCommand (e : Engine) : Byte :=
  match e with
  | .idle => 0
  | .busy c _ _ => c
  | .committing _ => commitCode

/-- Soft reset of the Command Engine: composer and ARG0..ARG3 are kept (R87, R186). -/
def CommandEngine.softReset (ce : CommandEngine) : CommandEngine :=
  { ce with
    engine := .idle
    result := ⟨endedCommand ce.engine, { code := .reset }⟩
    staging := []
    handles := []
    hsel := 0 }

/-- The soft-reset values of every block, before a re-latch. The timebase is kept (R64), and what was handed out
before the reset is taken after it (R64, R137, R148, R163). A halt group request, a running-ends notice behind tick
work and a recognised fall that wait are kept too, which no rule names (DESIGN CHOICE, assumption log 10). -/
def softResetValues (pins : Pins) (s : State) : State :=
  { s with
    store := s.store.softReset
    ce := s.ce.softReset
    ou := s.ou.softReset
    iu := s.iu.softReset pins
    eq := s.eq.softReset
    hc := { s.hc with latch := none } }

/-- A CONTROL write with SRST set: one step over every block (R185). -/
def softReset (w : Word) (pins : Pins) (s : State) : State :=
  if isSoftResetWord w then serveWrite 0x02 (fun s => relatch (softResetValues pins s)) s else s

/-- The release of RESETn: every block takes its power-on value in one step, with the pin levels present then
(R188, R148, R174; taken in every state: DESIGN CHOICE, assumption log 18). -/
def powerOnReset (haltnHigh csnHigh : Bool) (pins : Pins) (s : State) : State :=
  relatch
    { State.reset with
      iu := InputUnit.reset pins
      hc := ⟨none, haltnHigh, 0⟩
      hp := ⟨if csnHigh then .ready else .waitHigh, false⟩
      pending := s.pending }

/-- RESETn is asserted: a frame in progress is abandoned, and nothing is taken until the release (R176). -/
def resetnAsserted (s : State) : State :=
  s.withHp
    ⟨match s.hp.port with
      | .ready => .ready
      | _ => .waitHigh, true⟩

/-- SOFT_RESET (R185). -/
def execSoftReset (w : Word) (pins : Pins) (s : State) : Host.Outcome State Fault Refusal :=
  unlessInReset s (softReset w pins)

/-- POWER_ON_RESET (R188). -/
def execPowerOnReset (haltnHigh csnHigh : Bool) (pins : Pins) (s : State) :
    Host.Outcome State Fault Refusal :=
  .next (powerOnReset haltnHigh csnHigh pins s)

/-- RESETN_ASSERTED (R176). -/
def execResetnAsserted (s : State) : Host.Outcome State Fault Refusal := .next (resetnAsserted s)

end Sys2Proof.Machine
end

