-- ==== Sys2Proof/Machine/RunDown.lean ====
section
/-!
DEFINITION. The Output Unit's own work for a tick event (chapter 7): the run-down and the ends of pulses.
-/

namespace Sys2Proof.Machine

/-- The run-down for the tick event carrying `T`, taken whole, before or after the dispatch of `T` and its delivery
(R131, R51). -/
def runDownWork (T : Time) (s : State) : State :=
  (s.withOu (s.ou.runDown T s.effectToCome)).withMail { s.mail with outputTick := none }

/-- The run-down for the tick event that waits; with none waiting there is no event (R131). -/
def runDown (s : State) : State :=
  match s.mail.outputTick with
  | some T => runDownWork T s
  | none => s

/-- The end of a pulse (R131): the run-down that waits, when it ends the pulse of some line, and the return of the
lines whose pulse's last tick a run-down has counted, as soon as no effect of the tick can come for them (R123, R132;
assumption logs 7, 27, 29). -/
def pulseEnd (s : State) : State :=
  let s := if s.ou.lines.toList.any (·.aboutToEnd) then runDown s else s
  s.withOu (s.ou.endPulses s.effectToCome)

/-- RUN_DOWN (R131). -/
def execRunDown (s : State) : Host.Outcome State Fault Refusal := unlessInReset s runDown

/-- PULSE_END (R131). -/
def execPulseEnd (s : State) : Host.Outcome State Fault Refusal := unlessInReset s pulseEnd

end Sys2Proof.Machine
end

