-- ==== Sys2Proof/Machine/Slots.lean ====
section
/-!
DEFINITION. Commands on one entry (chapter 1): CANCEL and QUERY.
-/

namespace Sys2Proof.Machine

/-- The store with the entry `f` removed from where it lies and its slot freed (R14, steps 3 and 4). -/
def cancelStore (st : Store) (f : Found) : Store := (st.takeOut f.live.slot).freeSlot f.live.slot

/-- CANCEL h (R14). -/
def cancelTake : Handler := fun a s =>
  match Handle.ofWord a.a0 with
  | none => answer { code := .badArg } s
  | some h =>
    match s.store.live? h with
    | none => answer { code := .stale } s
    | some f =>
      answer { code := .ok, w1 := word f.stateCode, w2 := word f.live.firings }
        (offerStore (s.store.doneRecords f.live .cancelled false) (s.withStore (cancelStore s.store f)))

/-- The reply of a QUERY of the live entry `f` with handle `h` (R17, R184). -/
def queryReply (h : Handle) (f : Found) : Reply where
  code := .ok
  w1 := h.toWord + word (f.stateCode * 4096)
  w2 := f.timeValue.extractLsb' 0 16
  w3 := f.timeValue.extractLsb' 16 16
  w4 := f.timeValue.extractLsb' 32 16
  w5 := word f.live.runsLeft
  w6 := word f.live.firings

/-- QUERY h (R17). -/
def queryTake : Handler := fun a s =>
  match Handle.ofWord a.a0 with
  | none => answer { code := .badArg } s
  | some h =>
    match s.store.live? h with
    | none => answer { code := .stale } s
    | some f =>
      answer (queryReply h f) (s.withCe { s.ce with composer := Composer.ofEntry f.live.entry })

/-- CANCEL (R14). -/
def execCancel (p : CmdStep) (s : State) : Host.Outcome State Fault Refusal :=
  unlessInReset s (runCommand 0x10 cancelTake p)

/-- QUERY (R17). -/
def execQuery (p : CmdStep) (s : State) : Host.Outcome State Fault Refusal :=
  unlessInReset s (runCommand 0x11 queryTake p)

end Sys2Proof.Machine
end

