-- ==== Sys2Proof/Machine/Dispatch.lean ====
section
/-! DEFINITION. One arm for each command, each a direct call of its meaning. -/

namespace Sys2Proof.Machine

def exec (i : Instr) (s : State) : Host.Outcome State Fault Refusal :=
  match i with
  | .append p => Sys2Proof.Machine.execAppend p s
  | .discard p => Sys2Proof.Machine.execDiscard p s
  | .commit p => Sys2Proof.Machine.execCommit p s
  | .commitStart => Sys2Proof.Machine.execCommitStart s
  | .mergeCompletion => Sys2Proof.Machine.execMergeCompletion s
  | .abort w => Sys2Proof.Machine.execAbort w s
  | .cancel p => Sys2Proof.Machine.execCancel p s
  | .query p => Sys2Proof.Machine.execQuery p s
  | .suspend p => Sys2Proof.Machine.execSuspend p s
  | .resume p => Sys2Proof.Machine.execResume p s
  | .cancelGroup p => Sys2Proof.Machine.execCancelGroup p s
  | .setGroup p => Sys2Proof.Machine.execSetGroup p s
  | .start p pins => Sys2Proof.Machine.execStart p pins s
  | .stop p => Sys2Proof.Machine.execStop p s
  | .armSync p sync => Sys2Proof.Machine.execArmSync p sync s
  | .setTime p => Sys2Proof.Machine.execSetTime p s
  | .setTrim p => Sys2Proof.Machine.execSetTrim p s
  | .fireCue p => Sys2Proof.Machine.execFireCue p s
  | .configOut p => Sys2Proof.Machine.execConfigOut p s
  | .configIn p => Sys2Proof.Machine.execConfigIn p s
  | .halt p => Sys2Proof.Machine.execHalt p s
  | .release p => Sys2Proof.Machine.execRelease p s
  | .badcmd w => Sys2Proof.Machine.execBadcmd w s
  | .softReset w pins => Sys2Proof.Machine.execSoftReset w pins s
  | .powerOnReset haltnHigh csnHigh pins => Sys2Proof.Machine.execPowerOnReset haltnHigh csnHigh pins s
  | .haltEvent p => Sys2Proof.Machine.execHaltEvent p s
  | .haltnRise => Sys2Proof.Machine.execHaltnRise s
  | .haltGroupRequest => Sys2Proof.Machine.execHaltGroupRequest s
  | .syncEdge pins => Sys2Proof.Machine.execSyncEdge pins s
  | .tickEvent => Sys2Proof.Machine.execTickEvent s
  | .dispatch => Sys2Proof.Machine.execDispatch s
  | .triggerEvent pick => Sys2Proof.Machine.execTriggerEvent pick s
  | .delivery => Sys2Proof.Machine.execDelivery s
  | .runDown => Sys2Proof.Machine.execRunDown s
  | .pulseEnd => Sys2Proof.Machine.execPulseEnd s
  | .sample pins => Sys2Proof.Machine.execSample pins s
  | .confirmation pins => Sys2Proof.Machine.execConfirmation pins s
  | .recordOffer b => Sys2Proof.Machine.execRecordOffer b s
  | .pop w => Sys2Proof.Machine.execPop w s
  | .outDirect w => Sys2Proof.Machine.execOutDirect w s
  | .irqFlags w => Sys2Proof.Machine.execIrqFlags w s
  | .irqEnable w => Sys2Proof.Machine.execIrqEnable w s
  | .thresh w => Sys2Proof.Machine.execThresh w s
  | .time0 => Sys2Proof.Machine.execTime0 s
  | .registerWrite a w => Sys2Proof.Machine.execRegisterWrite a w s
  | .resetnAsserted => Sys2Proof.Machine.execResetnAsserted s
  | .headerByte b => Sys2Proof.Machine.execHeaderByte b s
  | .frameEnd => Sys2Proof.Machine.execFrameEnd s
  | .syncFall => Sys2Proof.Machine.execSyncFall s

end Sys2Proof.Machine
end

