-- ==== Sys2Proof/Safety.lean ====
section
/-!
DEFINITION. What the manual says is always so, as predicates of a state: where each slot lies, what each
collection holds, the shape of the event queue, the lines under a halt, the batch in flight.
-/

namespace Sys2Proof.Safety

open Sys2Proof.Machine

/-! ## The pool (R5, R7, R9) -/

/-- How many times slot `k` is listed over all the places a slot can lie in. -/
def occupancy (st : Store) (k : Fin 128) : Nat :=
  st.free.count k + st.reserved.count k + (st.agenda.map (·.live.slot)).count k +
    (st.heldEntries.map (·.live.slot)).count k + (st.parkedEntries.map (·.live.slot)).count k

/-- Every slot lies in exactly one place (R5). -/
def PoolWhole (st : Store) : Prop := ∀ k, occupancy st k = 1

/-- The reserved set is empty unless a merge is in flight, and then it has one slot for each staged record
(R77, R78). -/
def BatchPaired (s : State) : Prop :=
  match s.ce.engine with
  | .committing _ => s.store.reserved.length = s.ce.staging.length
  | _ => s.store.reserved = []

/-- The pool and the batch together: no slot is lost or duplicated at any moment. -/
def SlotsWhole (s : State) : Prop := PoolWhole s.store ∧ BatchPaired s

/-! ## The collections (R90, R110, note after R23) -/

/-- Every HELD entry lies in the list of its own source (R90). -/
def HeldPlaced (st : Store) : Prop :=
  ∀ (i : Fin 12), ∀ h ∈ st.held[i], ∃ source count offset rehold,
    h.live.entry.timing = .onTrigger source count offset rehold ∧ source.index = i

/-- Every PARKED entry lies in the set of its own group, and that group is suspended (R110). -/
def ParkedPlaced (st : Store) : Prop :=
  ∀ (g : Fin 16), ∀ q ∈ st.parked[g], q.live.entry.group = g ∧ st.suspended g = true

/-- No PENDING entry belongs to a suspended group (note after R23). -/
def AgendaUnsuspended (st : Store) : Prop := ∀ p ∈ st.agenda, st.suspended p.live.entry.group = false

/-- Every entry lies where its group and its timing form put it. -/
def EntriesPlaced (st : Store) : Prop := HeldPlaced st ∧ ParkedPlaced st ∧ AgendaUnsuspended st

/-- The agenda is ordered by signed distance from `now`, the smallest at the head (R19). -/
def Ordered (now : Time) (agenda : List PendingEntry) : Prop :=
  agenda.Pairwise fun x y => dist now x.due ≤ dist now y.due

/-- The agenda is ordered from the current time, and a tick event that waits at the Schedule Store carries that
time (R19, R49). -/
def AgendaSound (s : State) : Prop :=
  Ordered s.tb.time s.store.agenda ∧ ∀ T, s.mail.storeTick = some T → T = s.tb.time

/-- No pending entry is overdue by as much as the signed range holds (R20). -/
def AgendaInRange (s : State) : Prop := ∀ x ∈ s.store.agenda, -(2 ^ 47) < dist s.tb.time x.due

/-! ## The event queue (R152) -/

/-- The record is an OVERFLOW marker. -/
def isMarker : EventRecord → Bool
  | .overflow _ => true
  | _ => false

/-- No two markers are adjacent. -/
def MarkersApart (records : List EventRecord) : Prop :=
  records.IsChain fun x y => ¬ (isMarker x = true ∧ isMarker y = true)

/-- At most 64 records, only a marker as the 64th, no two markers adjacent (R152). -/
def QueueBounded (q : EventQueue) : Prop :=
  q.records.length ≤ 64 ∧
    (q.records.length = 64 → ∃ n, q.records.getLast? = some (.overflow n)) ∧ MarkersApart q.records

/-- A record that a block offers: never a marker (R152). -/
def OffersPlain (m : Mail) : Prop :=
  (∀ r ∈ m.storeOffers, isMarker r = false) ∧ (∀ r ∈ m.haltOffers, isMarker r = false)

/-- The queue keeps its shape, and nothing on its way to it is a marker. -/
def QueueSound (s : State) : Prop := QueueBounded s.eq ∧ OffersPlain s.mail

/-! ## The lines (R122, R164, R169) -/

/-- A DIRECT line and a masked line are STEADY; a masked line is a halt member at its safe level (R122). -/
def LineSound (l : LineRecord) : Prop :=
  (l.closed = true → l.pulse = none) ∧
    (l.masked = true → l.haltMember = true ∧ l.level = l.safeLevel)

/-- While the latch is set every line of the halt set is masked and at its safe level (R169); the forcing is
in force exactly while the latch is set, and no line is masked otherwise. -/
def HaltSound (s : State) : Prop :=
  s.ou.forced = s.hc.latch.isSome ∧
    ∀ k : Fin 16,
      LineSound s.ou.lines[k] ∧
        (s.ou.forced = true → s.ou.lines[k].haltMember = true →
          s.ou.lines[k].masked = true ∧ s.ou.lines[k].level = s.ou.lines[k].safeLevel) ∧
        (s.ou.forced = false → s.ou.lines[k].masked = false)

/-! ## The ends of pulses (R123, R131, R132) -/

/-- A pulse whose last tick has been counted runs on a line in AGENDA mode that is not masked, and the run-down of the
tick has been taken. -/
def PulsesSound (s : State) : Prop :=
  ∀ k : Fin 16, s.ou.lines[k].ending = true →
    s.ou.lines[k].closed = false ∧ s.ou.lines[k].pulse ≠ none ∧ s.mail.outputTick = none

/-! ## Registers with a stated range (R157, R71, R84) -/

/-- The batch is paired with its slots, the staging and handle lists hold at most 16, and the threshold is
1..64 (R73, R71, R84, R157). -/
def CountsBounded (s : State) : Prop :=
  BatchPaired s ∧ s.ce.staging.length ≤ 16 ∧ s.ce.handles.length ≤ 16 ∧
    1 ≤ s.eq.threshold ∧ s.eq.threshold ≤ 64

end Sys2Proof.Safety
end

