-- ==== Sys2Proof/Certificates/Slice0/Obligations.lean ====
section
/-!
DEFINITION. The statements about the model. A next state is written as a record update of the state before, so
that everything it does not name is unchanged (the frame). `Sys2Proof.Stated` holds the words they share.
-/

open Sys2Proof Sys2Proof.Machine Sys2Proof.Safety

namespace Sys2Proof.Stated

/-- RESETn is released, and the port can carry a write of the register at `a`, after which it stands at `p`
(R175, R176). -/
def ServesWrite (s : State) (a : Addr) (p : Port) : Prop :=
  s.hp.inReset = false ∧ s.hp.port.admitWrite a = some p

/-- A COMMAND write is served and the engine is IDLE, so the command is accepted (R181). -/
def TakesCommand (s : State) (p : Port) : Prop := ServesWrite s 0x07 p ∧ s.ce.engine = .idle

/-- The port stands at `p`. -/
def atPort (s : State) (p : Port) : State := { s with hp := { s.hp with port := p } }

/-- A completion: the engine is IDLE, RESULT shows the command and the reply, DONE is set; the port stands at
`p` (R183, R159). -/
def finish (s : State) (p : Port) (command : Byte) (r : Reply) : State :=
  { s with
    hp := { s.hp with port := p }
    ce := { s.ce with engine := .idle, result := ⟨command, r⟩ }
    eq := { s.eq with flags := { s.eq.flags with done := true } } }

/-- The host commands with their codes (section 11.4), as functions of the part. -/
def hostCommands (pins : Pins) (sync : Bool) : List (Byte × (CmdStep → Instr)) :=
  [ (0x01, .append), (0x02, .discard), (0x03, .commit), (0x10, .cancel), (0x11, .query),
    (0x20, .suspend), (0x21, .resume), (0x22, .cancelGroup), (0x23, .setGroup),
    (0x30, fun p => .start p pins), (0x31, .stop), (0x32, fun p => .armSync p sync), (0x33, .setTime),
    (0x34, .setTrim), (0x40, .fireCue), (0x50, .configOut), (0x51, .configIn), (0x60, .halt),
    (0x61, .release) ]

/-- One outcome after another. -/
def thenDo (o : Host.Outcome State Fault Refusal) (f : State → Host.Outcome State Fault Refusal) :
    Host.Outcome State Fault Refusal :=
  match o with
  | .next s => f s
  | .fault r => .fault r
  | .refused r => .refused r

/-- The Input Unit's lines after a running-begins notice: levels from the pins, nothing held (R142). -/
def begun (u : InputUnit) (pins : Pins) : InputUnit :=
  ⟨mapBank u.lines fun k r =>
    { r with accepted := pins.getLsbD k, candidate := none, spanStart := none }⟩

/-- The Input Unit's lines after a running-ends notice: nothing held (R142). -/
def ended (u : InputUnit) : InputUnit :=
  ⟨mapBank u.lines fun _ r => { r with candidate := none, spanStart := none }⟩

/-- An effect of the tick whose work is under way may still come for line `k`: the dispatch is still to be taken, or
a delivery that waits has an effect for the line. -/
def EffectMayCome (s : State) (k : Fin 16) : Prop :=
  s.mail.storeTick ≠ none ∨ ∃ d ∈ s.mail.deliveries, ∃ e ∈ d.effects, e.addresses k = true

/-- The run-down of one line in a tick with no effect for it, and the end of its pulse when that is left behind. -/
def lineTick (awaited : Bool) (l : LineRecord) : LineRecord :=
  if (l.runDown awaited).ending then (l.runDown awaited).returned else l.runDown awaited

/-- The line addresses of the effect that a firing of this kind sends (R28, R29). -/
def Addresses (a : Action) (k : Fin 16) : Prop :=
  match a with
  | .set l | .clear l | .toggle l | .pulse l _ _ => l = k
  | .pattern mask _ => mask.getLsbD k = true
  | .cue _ | .mark => False

end Sys2Proof.Stated

open Sys2Proof.Stated

/-! ## The machine as a whole -/

/-- The step takes the command at the front of the queue and runs it on the rest; an empty queue idles (the
queue is the model's form and the idling its choice, assumption log 22 and 11). -/
def Obligations.StepTakesFrontCommand : Prop :=
  (∀ (c : Instr) (rest : List Instr) (s : State), s.pending = c :: rest →
      step s = exec c { s with pending := rest }) ∧
    ∀ s : State, s.pending = [] → step s = .next s

/-- No command touches the queue of waiting commands, which is the model's form: commands are put into it from
outside (DESIGN CHOICE, assumption log 22). -/
def Obligations.ExecLeavesQueueAlone : Prop :=
  ∀ (c : Instr) (s t : State), exec c s = .next t → t.pending = s.pending

/-- The state after reset meets every invariant stated below. The levels that `State.reset` takes on HALTn, CSn
and the input pins are the model's choice (DESIGN CHOICE, assumption log 5). -/
def Obligations.InvariantsHoldAtReset : Prop :=
  SlotsWhole State.reset ∧ EntriesPlaced State.reset.store ∧ AgendaSound State.reset ∧ QueueSound State.reset ∧
    HaltSound State.reset ∧ PulsesSound State.reset ∧ CountsBounded State.reset

/-- R5: after every step each slot lies in exactly one place, and slots are reserved only for the batch being
committed, one for each record (R77, R78). -/
def Obligations.StepKeepsSlotsWhole : Prop :=
  ∀ s t : State, SlotsWhole s → step s = .next t → SlotsWhole t

/-- R90, R110 and the note after R23: after every step a held entry lies in the list of its source, a parked
one in the set of its suspended group, and no pending entry belongs to a suspended group. -/
def Obligations.StepKeepsEntriesPlaced : Prop :=
  ∀ s t : State, EntriesPlaced s.store → step s = .next t → EntriesPlaced t.store

/-- R19, R49: after every step the agenda is ordered by signed distance from the current time, and a tick event
that waits at the Schedule Store carries that time. The premise on the distances is the range of R20. -/
def Obligations.StepKeepsAgendaOrdered : Prop :=
  ∀ s t : State, AgendaSound s → AgendaInRange s → step s = .next t → AgendaSound t

/-- R152: the queue never holds more than 64 records, only a marker can be the 64th, and no two markers are
adjacent. -/
def Obligations.StepKeepsQueueSound : Prop :=
  ∀ s t : State, QueueSound s → step s = .next t → QueueSound t

/-- R169, R122: while the latch is set every line of the halt set is masked at its safe level; a DIRECT or
masked line holds no pulse. -/
def Obligations.StepKeepsHaltSound : Prop :=
  ∀ s t : State, HaltSound s → step s = .next t → HaltSound t

/-- R71, R84, R157: the staging and handle lists never exceed 16, the threshold stays 1..64. -/
def Obligations.StepKeepsCountsBounded : Prop :=
  ∀ s t : State, CountsBounded s → step s = .next t → CountsBounded t

/-- R10, R12, R8: but for power-on reset, a slot's generation advances by one exactly when the slot goes from
holding an entry to the free list, and is kept in every other case. -/
def Obligations.GenerationAdvancesOnFreeing : Prop :=
  ∀ (c : Instr) (s t : State), SlotsWhole s → exec c s = .next t →
    (∀ h f p, c ≠ .powerOnReset h f p) → ∀ k : Fin 128,
      t.store.gens[k] =
        if (s.store.find? k).isSome ∧ k ∈ t.store.free then s.store.gens[k] + 1 else s.store.gens[k]

/-- R2: an entry that lives in a slot before and after a command has the same programmed fields. -/
def Obligations.LiveEntryKeepsItsFields : Prop :=
  ∀ (c : Instr) (s t : State), SlotsWhole s → exec c s = .next t →
    ∀ (k : Fin 128) (f f' : Found), s.store.find? k = some f → t.store.find? k = some f' →
      f'.live.entry = f.live.entry

/-- R48: the time changes only by one at a tick event in RUNNING, by SET-TIME in STOPPED (to its three
argument words), and by power-on, which sets it to 0. -/
def Obligations.TimeChangesOnlyAsStated : Prop :=
  ∀ (c : Instr) (s t : State), exec c s = .next t →
    (∀ h f p, c = .powerOnReset h f p → t.tb.time = 0) ∧
      (t.tb.time ≠ s.tb.time →
        (c = .tickEvent ∧ (∃ n, s.tb.clock = .running n) ∧ t.tb.time = s.tb.time + 1) ∨
        (s.tb.clock = .stopped ∧ ∃ a : Args, t.tb.time = a.a2 ++ a.a1 ++ a.a0 ∧
          ((c = .setTime .whole ∧ a = s.ce.args) ∨
            (c = .setTime .take ∧ ∃ n, s.ce.engine = .busy 0x33 a (.accepted n)))) ∨
        ∃ h f p, c = .powerOnReset h f p)

/-- R164, R166, R171, R173: the latch is set only by a halt event, the HALT command or a reset, and cleared
only by RELEASE or a reset; while it stays set its cause does not change but by a reset. -/
def Obligations.LatchChangesOnlyByItsOwnEvents : Prop :=
  ∀ (c : Instr) (s t : State), exec c s = .next t → t.hc.latch ≠ s.hc.latch →
    (s.hc.latch = none ∧ ((∃ p, c = .haltEvent p) ∨ ∃ p, c = .halt p)) ∨
      (t.hc.latch = none ∧ s.hc.haltnHigh = true ∧ ∃ p, c = .release p) ∨
      (∃ w p, c = .softReset w p) ∨ ∃ h f p, c = .powerOnReset h f p

/-- R108: a group's halt action is written by SET-GROUP and power-on alone; its suspended flag by SUSPEND,
RESUME, the halt group request and the resets alone. R79, R120: while a merge stays in flight no group's flag
changes, so the flags that completion reads are those of the commit start. -/
def Obligations.GroupRecordsChangeOnlyByTheirCommands : Prop :=
  ∀ (c : Instr) (s t : State), exec c s = .next t → (∀ h f p, c ≠ .powerOnReset h f p) →
    ∀ g : Fin 16,
      (t.store.groups[g].haltAction ≠ s.store.groups[g].haltAction → ∃ p, c = .setGroup p) ∧
        (t.store.groups[g].suspended ≠ s.store.groups[g].suspended →
          (∃ p, c = .suspend p) ∨ (∃ p, c = .resume p) ∨ c = .haltGroupRequest ∨
            ∃ w p, c = .softReset w p) ∧
        (∀ a b, s.ce.engine = .committing a → t.ce.engine = .committing b →
          t.store.groups[g].suspended = s.store.groups[g].suspended)

/-- R159, R160, R162: a set interrupt flag is cleared by a write of IRQ_FLAGS or by a reset alone. -/
def Obligations.FlagsClearedOnlyByHostOrReset : Prop :=
  ∀ (c : Instr) (s t : State), exec c s = .next t →
    (∀ w, c ≠ .irqFlags w) → (∀ w p, c ≠ .softReset w p) → (∀ h f p, c ≠ .powerOnReset h f p) →
      (s.eq.flags.evq = true → t.eq.flags.evq = true) ∧
        (s.eq.flags.ovf = true → t.eq.flags.ovf = true) ∧
        (s.eq.flags.done = true → t.eq.flags.done = true) ∧
        (s.eq.flags.rej = true → t.eq.flags.rej = true) ∧
        (s.eq.flags.halt = true → t.eq.flags.halt = true)

/-- R138, R148, R170: halts, group commands, dispatches and host writes do not reach the Input Unit; its records
change by its own commands, the timebase's notices, the answer to a capture record and the resets alone. -/
def Obligations.InputUnitIsolated : Prop :=
  ∀ (c : Instr) (s t : State), exec c s = .next t → t.iu ≠ s.iu →
    (∃ p pins, c = .start p pins) ∨ (∃ p, c = .stop p) ∨ (∃ pins, c = .syncEdge pins) ∨
      (∃ pins, c = .sample pins) ∨ (∃ pins, c = .confirmation pins) ∨ (∃ p, c = .configIn p) ∨
      c = .recordOffer .inputs ∨ (∃ w p, c = .softReset w p) ∨ ∃ h f p, c = .powerOnReset h f p

/-- R176, R161, R137: while RESETn is asserted no event but its release (and a rise of CSn) changes the chip,
every output pin drives 0 and IRQn is released. That internal events are not taken either is the model's
choice (assumption log 17). -/
def Obligations.NothingTakenWhileResetAsserted : Prop :=
  ∀ s : State, s.hp.inReset = true →
    (∀ c : Instr, (∀ h f p, c ≠ .powerOnReset h f p) → c ≠ .resetnAsserted → c ≠ .frameEnd →
      exec c s = .next s) ∧ (∀ k : Fin 16, s.outPin k = false) ∧ s.irqAsserted = false

/-! ## Host commands: acceptance, parts, completion (chapter 11) -/

/-- R181, R182: a COMMAND write is accepted in IDLE with a copy of ARG0..ARG3 (and the count of the halt group
requests on their way, which SET-GROUP uses: DEDUCED, assumption log 28), and refused in BUSY and COMMITTING with
REJ set and nothing else changed. A write the port cannot carry changes nothing (the model's choice, assumption log
4 and 6). -/
def Obligations.CommandWriteAcceptedOrRefused : Prop :=
  ∀ (pins : Pins) (sync : Bool), ∀ x ∈ hostCommands pins sync, ∀ (s : State),
    (∀ p, TakesCommand s p →
      exec (x.2 .write) s =
        .next
          { atPort s p with
            ce := { s.ce with engine := .busy x.1 s.ce.args (.accepted s.mail.haltRequests) } }) ∧
      (∀ p, ServesWrite s 0x07 p → s.ce.engine ≠ .idle → ∀ part, part = .write ∨ part = .whole →
        exec (x.2 part) s =
          .next { atPort s p with eq := { s.eq with flags := { s.eq.flags with rej := true } } }) ∧
      (s.hp.port.admitWrite 0x07 = none → ∀ part, part = .write ∨ part = .whole →
        exec (x.2 part) s = .next s)

/-- R183, R187: the completion of the command in progress writes all of RESULT, returns the engine to IDLE and
sets DONE. A command accepted whole is its three parts one after the other: the parts are the model's form
(DEDUCED, assumption log 3). -/
def Obligations.CommandIsItsThreeParts : Prop :=
  ∀ (pins : Pins) (sync : Bool), ∀ x ∈ hostCommands pins sync, ∀ (s : State),
    (∀ a r, s.hp.inReset = false → s.ce.engine = .busy x.1 a (.answered r) →
      exec (x.2 .complete) s = .next (finish s s.hp.port x.1 r)) ∧
      (∀ p, TakesCommand s p →
        exec (x.2 .whole) s =
          thenDo (thenDo (exec (x.2 .write) s) (exec (x.2 .take))) (exec (x.2 .complete)))

/-! ## Staging and commit (chapter 4) -/

/-- R68: APPEND completes with BADFIELD and the field's number, with STAGEFULL and 16, or with OK, the new
record at the tail of the staging list. R69, with the widths of R179: that number is the one of the first present
field, in field-number order, that holds a refused value. -/
def Obligations.AppendOutcomes : Prop :=
  (∀ (s : State) (p : Port), TakesCommand s p →
    (∀ n, s.ce.composer.firstBad = some n →
      exec (.append .whole) s = .next (finish s p 0x01 { code := .badField, w1 := word n })) ∧
      (s.ce.composer.firstBad = none → 16 ≤ s.ce.staging.length →
        exec (.append .whole) s = .next (finish s p 0x01 { code := .stageFull, w1 := 16 })) ∧
      (s.ce.composer.firstBad = none → s.ce.staging.length < 16 →
        exec (.append .whole) s =
          .next
            (finish
              { s with ce := { s.ce with staging := s.ce.staging ++ [s.ce.composer.entry] } } p 0x01
              { code := .ok, w1 := word s.ce.staging.length, w2 := word (s.ce.staging.length + 1) }))) ∧
  ∀ c : Composer,
    c.firstBad =
      if c.kind = 0 then some 1
      else if c.kind = 4 ∧ c.pulseWidth = 0 then some 4
      else if c.kind = 5 ∧ c.mask = 0 then some 5
      else if c.form = 0 then some 8
      else if c.form = 2 ∧ (c.delay = 0 ∨ 2 ^ 46 < c.delay.toNat) then some 10
      else if c.form = 3 ∧ 12 ≤ c.source.toNat then some 11
      else if c.form = 3 ∧ c.count = 0 then some 12
      else if c.form = 3 ∧ 8 ≤ c.source.toNat ∧ c.offset = 0 then some 13
      else if c.report = 3 then some 21
      else none

/-- R70, R17, R1: an entry made from an accepted composer, loaded back by QUERY, gives that composer with its
absent fields zero, which is accepted again and makes the same entry; and every entry whose runs field is 0 where
it is absent comes back from the composer QUERY loads. R179, R66: a composer register reads back the word written,
and the other sixteen read as before. -/
def Obligations.ComposerRoundTrips : Prop :=
  (∀ c : Composer, c.firstBad = none →
      (Composer.ofEntry c.entry).firstBad = none ∧ (Composer.ofEntry c.entry).entry = c.entry ∧
      Composer.ofEntry c.entry =
        { c with
          line := if 1 ≤ c.kind.toNat ∧ c.kind.toNat ≤ 4 then c.line else 0
          pulseLevel := if c.kind = 4 then c.pulseLevel else 0
          pulseWidth := if c.kind = 4 then c.pulseWidth else 0
          mask := if c.kind = 5 then c.mask else 0
          pattern := if c.kind = 5 then c.pattern else 0
          cue := if c.kind = 6 then c.cue else 0
          due := if c.form = 1 then c.due else 0
          delay := if c.form = 2 then c.delay else 0
          source := if c.form = 3 then c.source else 0
          count := if c.form = 3 then c.count else 0
          offset := if c.form = 3 then c.offset else 0
          rehold := if c.form = 3 then c.rehold else 0
          runs := if c.period = 0 then 0 else c.runs }) ∧
  (∀ e : Entry, (e.period = 0 → e.runs = 0) → (Composer.ofEntry e).entry = e) ∧
  (∀ (c : Composer) (n m : Nat) (w : Word), n ≤ 16 → m ≤ 16 →
      (c.write n w).read m = if m = n then w else c.read m)

/-- R72, R74: DISCARD empties the staging list and reports its length; COMMIT of an empty list completes with EMPTY,
and otherwise leaves the engine BUSY with the commit-start request at the Schedule Store. -/
def Obligations.DiscardAndCommitOutcomes : Prop :=
  (∀ (s : State) (p : Port), TakesCommand s p →
      exec (.discard .whole) s =
        .next
          (finish { s with ce := { s.ce with staging := [] } } p 0x02
            { code := .ok, w1 := word s.ce.staging.length })) ∧
  (∀ (s : State) (p : Port), TakesCommand s p →
      (s.ce.staging = [] →
        exec (.commit .whole) s = .next (finish s p 0x03 { code := .empty })) ∧
        (s.ce.staging ≠ [] →
          exec (.commit .whole) s =
            .next { atPort s p with ce := { s.ce with engine := .busy 0x03 s.ce.args .atStore } }))

/-- R75, R76, R77: the commit-start request completes the COMMIT with RANGE or NOROOM, or reserves the first n
slots of the free list and puts the engine into COMMITTING; the range check reports the first AT record whose due
time lies outside −2^32..2^46 of the time it is taken. R79, R86: behind a halt group request the commit-start
request waits (DEDUCED, assumption log 9). -/
def Obligations.CommitStartAndRangeCheck : Prop :=
  (∀ (s : State) (c : Byte) (a : Args), s.hp.inReset = false → s.ce.engine = .busy c a .atStore →
      (s.mail.haltRequests ≠ 0 → exec .commitStart s = .next s) ∧
      (s.mail.haltRequests = 0 →
        (∀ i, firstOutOfRange s.tb.time s.ce.staging = some i →
          exec .commitStart s = .next (finish s s.hp.port 0x03 { code := .range, w1 := word i })) ∧
          (firstOutOfRange s.tb.time s.ce.staging = none →
            s.store.free.length < s.ce.staging.length →
            exec .commitStart s =
              .next
                (finish s s.hp.port 0x03
                  { code := .noRoom
                    w1 := word s.store.free.length
                    w2 := word s.ce.staging.length })) ∧
          (firstOutOfRange s.tb.time s.ce.staging = none →
            s.ce.staging.length ≤ s.store.free.length →
            exec .commitStart s =
              .next
                { s with
                  store :=
                    { s.store with
                      reserved := s.store.free.take s.ce.staging.length
                      free := s.store.free.drop s.ce.staging.length }
                  ce := { s.ce with engine := .committing a } }))) ∧
  (∀ (t0 : Time) (batch : List Entry) (i : Nat),
      firstOutOfRange t0 batch = some i ↔
        ∃ h : i < batch.length,
          (∃ due, batch[i].timing = .atTime due ∧ (dist t0 due < -(2 ^ 32) ∨ 2 ^ 46 < dist t0 due)) ∧
            ∀ (j : Nat) (hj : j < i) (due : Time), batch[j].timing = .atTime due →
              -(2 ^ 32) ≤ dist t0 due ∧ dist t0 due ≤ 2 ^ 46)

/-- R80, R82, R84: at merge completion every record goes live in its paired slot, the handle list is that of
the batch, the staging list is empty, RESULT is OK with n and the first handle; the lines, the inputs and the
timebase are unchanged. The records go live one after another in staging order. R81, R3: where one record goes, by
its timing form and its group's suspended flag; firings 0, runs left the runs field of a periodic record with runs
1 or more. -/
def Obligations.MergeCompletionOutcome : Prop :=
  (∀ (s : State) (a : Args), s.hp.inReset = false → s.ce.engine = .committing a →
    exec .mergeCompletion s =
      .next
        (finish
          { s with
            store :=
              { (s.store.reserved.zip s.ce.staging).foldl
                  (fun st x => st.goLive s.tb.time x.1 x.2) s.store with
                reserved := [] }
            ce :=
              { s.ce with
                staging := []
                handles := s.store.reserved.map fun k => ⟨k, s.store.gens[k]⟩ } }
          s.hp.port 0x03
          { code := .ok
            w1 := word s.ce.staging.length
            w2 :=
              match s.store.reserved with
              | k :: _ => Handle.toWord ⟨k, s.store.gens[k]⟩
              | [] => 0 })) ∧
  ∀ (st : Store) (tc : Time) (k : Fin 128) (e : Entry) (l : Live),
    l = ⟨k, e, if e.period ≠ 0 ∧ e.runs ≠ 0 then e.runs.toNat else 0, 0⟩ →
    (∀ due, e.timing = .atTime due →
      (st.suspended e.group = false →
        st.goLive tc k e = { st with agenda := insertPending tc ⟨l, due⟩ st.agenda }) ∧
      (st.suspended e.group = true →
        st.goLive tc k e =
          { st with
            parked := st.parked.set e.group (st.parked[e.group] ++ [⟨l, (dist tc due).toNat⟩]) })) ∧
    (∀ delay, e.timing = .afterDelay delay →
      (st.suspended e.group = false →
        st.goLive tc k e = { st with agenda := insertPending tc ⟨l, tc + delay⟩ st.agenda }) ∧
      (st.suspended e.group = true →
        st.goLive tc k e =
          { st with
            parked := st.parked.set e.group (st.parked[e.group] ++ [⟨l, delay.toNat⟩]) })) ∧
    (∀ source count offset rehold, e.timing = .onTrigger source count offset rehold →
      st.goLive tc k e =
        { st with
          held := st.held.set source.index (st.held[source.index] ++ [⟨l, count.toNat⟩]) })

/-- R85, R8, R185: ABORT in COMMITTING returns the reserved slots to the head of the free list in order,
generations kept, keeps the staging list and shows ABORTED; in IDLE and BUSY it has no effect. -/
def Obligations.AbortOutcomes : Prop :=
  ∀ (s : State) (p : Port) (w : Word), ServesWrite s 0x02 p → w.getLsbD 1 = true → w.getLsbD 0 = false →
    (∀ a, s.ce.engine = .committing a →
      exec (.abort w) s =
        .next
          (finish
            { s with
              store := { s.store with free := s.store.reserved ++ s.store.free, reserved := [] } }
            p 0x03 { code := .aborted })) ∧
      ((∀ a, s.ce.engine ≠ .committing a) → exec (.abort w) s = .next (atPort s p))

/-! ## Entries (chapter 1) -/

/-- R14: CANCEL completes with BADARG, with STALE, or with OK: the entry leaves the place where it lies, its slot
joins the tail of the free list with its generation advanced, and a DONE record is offered if its report field
asks for one. -/
def Obligations.CancelOutcomes : Prop :=
  ∀ (s : State) (p : Port), TakesCommand s p →
    (2048 ≤ s.ce.args.a0.toNat →
      exec (.cancel .whole) s = .next (finish s p 0x10 { code := .badArg })) ∧
      (∀ h, Handle.ofWord s.ce.args.a0 = some h → s.store.live? h = none →
        exec (.cancel .whole) s = .next (finish s p 0x10 { code := .stale })) ∧
      (∀ h f, Handle.ofWord s.ce.args.a0 = some h → s.store.live? h = some f →
        exec (.cancel .whole) s =
          .next
            (finish
              { s with
                store :=
                  { s.store with
                    agenda := s.store.agenda.filter fun x => x.live.slot != f.live.slot
                    held := mapBank s.store.held fun _ l => l.filter fun x => x.live.slot != f.live.slot
                    parked :=
                      mapBank s.store.parked fun _ l => l.filter fun x => x.live.slot != f.live.slot
                    gens := s.store.gens.set f.live.slot (s.store.gens[f.live.slot] + 1)
                    free := s.store.free ++ [f.live.slot] }
                mail :=
                  { s.mail with
                    storeOffers :=
                      s.mail.storeOffers ++
                        if f.live.entry.report = .none then []
                        else
                          [.done ⟨f.live.slot, s.store.gens[f.live.slot]⟩ f.live.entry.group
                            f.live.entry.tag .cancelled f.live.firings false] } }
              p 0x10 { code := .ok, w1 := word f.stateCode, w2 := word f.live.firings }))

/-- R17: QUERY completes with BADARG, with STALE, or with OK: the composer holds the entry's fields, the entry
is unchanged, and the result words carry the handle, the state, the time value, runs left and firings. -/
def Obligations.QueryOutcomes : Prop :=
  ∀ (s : State) (p : Port), TakesCommand s p →
    (2048 ≤ s.ce.args.a0.toNat →
      exec (.query .whole) s = .next (finish s p 0x11 { code := .badArg })) ∧
      (∀ h, Handle.ofWord s.ce.args.a0 = some h → s.store.live? h = none →
        exec (.query .whole) s = .next (finish s p 0x11 { code := .stale })) ∧
      (∀ h f, Handle.ofWord s.ce.args.a0 = some h → s.store.live? h = some f →
        exec (.query .whole) s =
          .next
            (finish { s with ce := { s.ce with composer := Composer.ofEntry f.live.entry } } p 0x11
              { code := .ok
                w1 := h.toWord + word (f.stateCode * 4096)
                w2 := f.timeValue.extractLsb' 0 16
                w3 := f.timeValue.extractLsb' 16 16
                w4 := f.timeValue.extractLsb' 32 16
                w5 := word f.live.runsLeft
                w6 := word f.live.firings }))

/-! ## Groups (chapter 6) -/

/-- R113, R114, R117: SUSPEND moves the pending members to the parked set with their distances and sets the
flag; RESUME places the parked members at now plus their remaining times and clears it; a group already so is
left alone with counts of 0; a group number above 15 is BADARG. -/
def Obligations.SuspendAndResumeOutcomes : Prop :=
  ∀ (s : State) (p : Port), TakesCommand s p →
    (16 ≤ s.ce.args.a0.toNat →
      exec (.suspend .whole) s = .next (finish s p 0x20 { code := .badArg }) ∧
        exec (.resume .whole) s = .next (finish s p 0x21 { code := .badArg })) ∧
    (∀ g : Fin 16, s.ce.args.a0.toNat = g.val →
      (s.store.suspended g = true →
        exec (.suspend .whole) s = .next (finish s p 0x20 { code := .ok })) ∧
      (s.store.suspended g = false →
        exec (.suspend .whole) s =
          .next
            (finish
              { s with
                store :=
                  { s.store with
                    agenda := s.store.agenda.filter fun x => !x.live.inGroup g
                    parked :=
                      s.store.parked.set g
                        (s.store.parked[g] ++
                          (s.store.agenda.filter fun x => x.live.inGroup g).map fun x =>
                            ⟨x.live, (dist s.tb.time x.due).toNat⟩)
                    groups := s.store.groups.set g { s.store.groups[g] with suspended := true } } }
              p 0x20
              { code := .ok
                w1 := word (s.store.agenda.filter fun x => x.live.inGroup g).length
                w2 := word (s.store.heldEntries.filter fun x => x.live.inGroup g).length })) ∧
      (s.store.suspended g = false →
        exec (.resume .whole) s = .next (finish s p 0x21 { code := .ok })) ∧
      (s.store.suspended g = true →
        exec (.resume .whole) s =
          .next
            (finish
              { s with
                store :=
                  { s.store with
                    agenda :=
                      (s.store.parked[g]).foldl
                        (fun agenda q =>
                          insertPending s.tb.time
                            ⟨q.live, s.tb.time + BitVec.ofNat 48 q.remaining⟩ agenda)
                        s.store.agenda
                    parked := s.store.parked.set g []
                    groups := s.store.groups.set g { s.store.groups[g] with suspended := false } } }
              p 0x21 { code := .ok, w1 := word s.store.parked[g].length })))

/-- R111, R114: a pending member that is not overdue keeps its distance from the present across a SUSPEND and a
later RESUME of its group, whatever the time between. -/
def Obligations.SuspensionKeepsDistance : Prop :=
  ∀ (st : Store) (g : Fin 16) (now later : Time) (x : PendingEntry),
    st.suspended g = false → x ∈ st.agenda → x.live.inGroup g = true → 0 ≤ dist now x.due →
      ∃ y ∈ ((st.suspendGroup now g).resumeGroup later g).agenda,
        y.live = x.live ∧ dist later y.due = dist now x.due

/-- R116, R112, R117: CANCEL-GROUP reports its four counts, offers the DONE records of the walk and leaves the
store as the walk leaves it (what the walk leaves and offers is `GroupCancelFreesEveryMember`); SET-GROUP writes
the halt action alone and reports the action before and the flag. R112, R119: a SET-GROUP written while halt group
requests are on their way waits behind them, the engine BUSY, and one written before them is taken at any time
(DEDUCED, assumption log 28). -/
def Obligations.CancelGroupAndSetGroupOutcomes : Prop :=
  (∀ (s : State) (p : Port), TakesCommand s p →
    (16 ≤ s.ce.args.a0.toNat →
      exec (.cancelGroup .whole) s = .next (finish s p 0x22 { code := .badArg })) ∧
    (16 ≤ s.ce.args.a0.toNat ∨ 3 ≤ s.ce.args.a1.toNat →
      exec (.setGroup .whole) s = .next (finish s p 0x23 { code := .badArg })) ∧
    (∀ g : Fin 16, s.ce.args.a0.toNat = g.val →
      exec (.cancelGroup .whole) s =
        .next
          (finish
            { s with
              store := (s.store.cancelGroup .cancelled g).1
              mail :=
                { s.mail with
                  storeOffers := s.mail.storeOffers ++ (s.store.cancelGroup .cancelled g).2 } }
            p 0x22
            { code := .ok
              w1 :=
                word
                  ((s.store.agenda.filter fun x => x.live.inGroup g).length +
                    (s.store.heldEntries.filter fun x => x.live.inGroup g).length +
                    s.store.parked[g].length)
              w2 := word (s.store.agenda.filter fun x => x.live.inGroup g).length
              w3 := word (s.store.heldEntries.filter fun x => x.live.inGroup g).length
              w4 := word s.store.parked[g].length }) ∧
      ∀ action, HaltAction.ofWord s.ce.args.a1 = some action →
        (s.mail.haltRequests = 0 →
          exec (.setGroup .whole) s =
            .next
              (finish
                { s with
                  store :=
                    { s.store with
                      groups := s.store.groups.set g { s.store.groups[g] with haltAction := action } } }
                p 0x23
                { code := .ok
                  w1 := word s.store.groups[g].haltAction.code
                  w2 := if s.store.suspended g then 1 else 0 })) ∧
        (s.mail.haltRequests ≠ 0 →
          exec (.setGroup .whole) s =
            .next
              { atPort s p with
                ce := { s.ce with engine := .busy 0x23 s.ce.args (.accepted s.mail.haltRequests) } }))) ∧
  (∀ (s : State) (a : Args) (n : Nat) (g : Fin 16) (action : HaltAction), s.hp.inReset = false →
    s.ce.engine = .busy 0x23 a (.accepted n) → a.a0.toNat = g.val → HaltAction.ofWord a.a1 = some action →
    (n ≠ 0 → exec (.setGroup .take) s = .next s) ∧
    (n = 0 →
      exec (.setGroup .take) s =
        .next
          { s with
            ce :=
              { s.ce with
                engine :=
                  .busy 0x23 a
                    (.answered
                      { code := .ok
                        w1 := word s.store.groups[g].haltAction.code
                        w2 := if s.store.suspended g then 1 else 0 }) }
            store :=
              { s.store with
                groups := s.store.groups.set g { s.store.groups[g] with haltAction := action } } }))

/-- R116, R7: after a group cancel no entry of the group lies anywhere, the entries of other groups keep their
places and order, and the freed slots stand at the tail of the free list in walk order: PENDING, HELD, PARKED, each
with its generation advanced. Each member whose report field is not NONE has a DONE record, in walk order, with
the handle it had while live, its group and tag, the reason, its firings and the reheld flag clear. -/
def Obligations.GroupCancelFreesEveryMember : Prop :=
  ∀ (st : Store) (reason : DoneReason) (g : Fin 16) (st' : Store) (members : List Live),
    PoolWhole st → ParkedPlaced st → (st.cancelGroup reason g).1 = st' →
    members =
      (st.agenda.filter fun x => x.live.inGroup g).map (·.live) ++
        (st.heldEntries.filter fun x => x.live.inGroup g).map (·.live) ++ (st.parked[g]).map (·.live) →
      st'.agenda = st.agenda.filter (fun x => !x.live.inGroup g) ∧
      (∀ i : Fin 12, st'.held[i] = st.held[i].filter fun x => !x.live.inGroup g) ∧
      (∀ i : Fin 16, st'.parked[i] = st.parked[i].filter fun x => !x.live.inGroup g) ∧
      st'.groups = st.groups ∧ st'.reserved = st.reserved ∧
      st'.free = st.free ++ members.map (·.slot) ∧
      (∀ k : Fin 128, st'.gens[k] = if k ∈ members.map (·.slot) then st.gens[k] + 1 else st.gens[k]) ∧
      (st.cancelGroup reason g).2 =
        (members.filter fun l => decide (l.entry.report ≠ .none)).map fun l =>
          .done ⟨l.slot, st.gens[l.slot]⟩ l.entry.group l.entry.tag reason l.firings false

/-! ## Timebase (chapter 3) -/

/-- R53, R54, R56, R142: START, STOP and ARM-SYNC in each timebase state, with the notice the Input Unit is given.
Where work of the last tick event still waits there, a running-ends notice waits behind it and a running-begins
notice takes it first, with the levels of that moment (DEDUCED, assumption log 12). -/
def Obligations.ClockCommandOutcomes : Prop :=
  ∀ (s : State) (p : Port) (pins : Pins) (sync : Bool), TakesCommand s p →
    (s.tb.clock = .stopped →
      (s.mail.inputTick = none →
        exec (.start .whole pins) s =
          .next (finish { s with tb := s.tb.boundary, iu := begun s.iu pins } p 0x30 { code := .ok })) ∧
      (∀ T, s.mail.inputTick = some T →
        exec (.start .whole pins) s =
          .next
            (finish
              { s with
                tb := s.tb.boundary
                iu := begun s.iu pins
                mail :=
                  { s.mail with
                    inputTick := none
                    inputTriggers := s.mail.inputTriggers ++ s.iu.triggers T pins
                    inputOffers := s.mail.inputOffers ++ s.iu.captures T pins
                    endsNotice := false } }
              p 0x30 { code := .ok })) ∧
      exec (.stop .whole) s = .next (finish s p 0x31 { code := .ok }) ∧
      exec (.armSync .whole sync) s =
        .next (finish { s with tb := { s.tb with clock := .armed sync } } p 0x32 { code := .ok })) ∧
    (s.tb.clock ≠ .stopped →
      exec (.start .whole pins) s = .next (finish s p 0x30 { code := .wrongState }) ∧
      (s.mail.inputTick = none →
        exec (.stop .whole) s =
          .next
            (finish
              { s with
                tb :=
                  { s.tb with
                    clock := .stopped
                    trim := s.tb.pendingTrim.getD s.tb.trim
                    pendingTrim := none }
                iu := ended s.iu }
              p 0x31 { code := .ok })) ∧
      (s.mail.inputTick ≠ none →
        exec (.stop .whole) s =
          .next
            (finish
              { s with
                tb :=
                  { s.tb with
                    clock := .stopped
                    trim := s.tb.pendingTrim.getD s.tb.trim
                    pendingTrim := none }
                mail := { s.mail with endsNotice := true } }
              p 0x31 { code := .ok }))) ∧
    (∀ b, s.tb.clock = .armed b →
      exec (.armSync .whole sync) s = .next (finish s p 0x32 { code := .ok })) ∧
    (∀ n, s.tb.clock = .running n →
      exec (.armSync .whole sync) s = .next (finish s p 0x32 { code := .wrongState }))

/-- R58, R60, R61: SET-TIME and SET-TRIM. SET-TIME waits, the engine BUSY, while work of the last tick is still
to be taken (assumption log 8). -/
def Obligations.SetTimeAndSetTrimOutcomes : Prop :=
  ∀ (s : State) (p : Port), TakesCommand s p →
    (s.tb.clock ≠ .stopped →
      exec (.setTime .whole) s = .next (finish s p 0x33 { code := .notStopped })) ∧
    (s.tb.clock = .stopped → s.tickWorkTaken = false →
      exec (.setTime .whole) s =
        .next
          { atPort s p with
            ce := { s.ce with engine := .busy 0x33 s.ce.args (.accepted s.mail.haltRequests) } }) ∧
    (s.tb.clock = .stopped → s.tickWorkTaken = true →
      (s.store.agenda ≠ [] ∨ s.store.parkedEntries ≠ [] →
        exec (.setTime .whole) s = .next (finish s p 0x33 { code := .wrongState })) ∧
      (s.store.agenda = [] → s.store.parkedEntries = [] →
        exec (.setTime .whole) s =
          .next
            (finish
              { s with
                tb := { s.tb with time := s.ce.args.a2 ++ s.ce.args.a1 ++ s.ce.args.a0 }
                ou := { s.ou with lastTick := none } }
              p 0x33 { code := .ok }))) ∧
    (s.ce.args.a0.toNat < 16 ∨ 4095 < s.ce.args.a0.toNat →
      exec (.setTrim .whole) s = .next (finish s p 0x34 { code := .badArg })) ∧
    (16 ≤ s.ce.args.a0.toNat → s.ce.args.a0.toNat ≤ 4095 →
      (s.tb.clock = .stopped →
        exec (.setTrim .whole) s =
          .next
            (finish { s with tb := { s.tb with trim := ⟨s.ce.args.a0, s.ce.args.a1⟩ } } p 0x34
              { code := .ok })) ∧
      (s.tb.clock ≠ .stopped →
        exec (.setTrim .whole) s =
          .next
            (finish
              { s with tb := { s.tb with pendingTrim := some ⟨s.ce.args.a0, s.ce.args.a1⟩ } } p 0x34
              { code := .ok })))

/-- R47, R51, R49: at the end of a tick in RUNNING the time advances by one and the tick event is delivered to the
three receivers; while work of the last tick is still to be taken the end waits (which work that is: DEDUCED,
assumption log 25); in STOPPED and ARMED there is no tick event. R54, R142: a rise of SYNC starts an ARMED timebase
that last saw SYNC low, the Input Unit taking the work that waits first (DEDUCED, assumption log 12), and does
nothing in any other case; a fall makes an ARMED timebase see SYNC low and does nothing otherwise. -/
def Obligations.TickAndSyncOutcomes : Prop :=
  (∀ s : State, s.hp.inReset = false →
      (∀ n, s.tb.clock = .running n → s.tickWorkTaken = true →
        exec .tickEvent s =
          .next
            { s with
              tb := Timebase.boundary { s.tb with time := s.tb.time + 1 }
              mail :=
                { s.mail with
                  storeTick := some (s.tb.time + 1)
                  outputTick := some (s.tb.time + 1)
                  inputTick := some (s.tb.time + 1) } }) ∧
      (∀ n, s.tb.clock = .running n → s.tickWorkTaken = false → exec .tickEvent s = .next s) ∧
      ((∀ n, s.tb.clock ≠ .running n) → exec .tickEvent s = .next s)) ∧
  (∀ (s : State) (pins : Pins), s.hp.inReset = false →
      (s.tb.clock = .armed false →
        (s.mail.inputTick = none →
          exec (.syncEdge pins) s = .next { s with tb := s.tb.boundary, iu := begun s.iu pins }) ∧
        (∀ T, s.mail.inputTick = some T →
          exec (.syncEdge pins) s =
            .next
              { s with
                tb := s.tb.boundary
                iu := begun s.iu pins
                mail :=
                  { s.mail with
                    inputTick := none
                    inputTriggers := s.mail.inputTriggers ++ s.iu.triggers T pins
                    inputOffers := s.mail.inputOffers ++ s.iu.captures T pins
                    endsNotice := false } })) ∧
      (s.tb.clock ≠ .armed false → exec (.syncEdge pins) s = .next s) ∧
      (∀ b, s.tb.clock = .armed b →
        exec .syncFall s = .next { s with tb := { s.tb with clock := .armed false } }) ∧
      ((∀ b, s.tb.clock ≠ .armed b) → exec .syncFall s = .next s))

/-- R50: at a boundary the pending trim is applied first, the accumulator adds F, and the tick lasts D cycles,
or D + 1 when the addition passes 65535. -/
def Obligations.BoundaryFixesTickLength : Prop :=
  ∀ (tb : Timebase) (trim : Trim), trim = tb.pendingTrim.getD tb.trim →
    ∃ carry : Nat,
      tb.boundary.acc.toNat + 65536 * carry = tb.acc.toNat + trim.fraction.toNat ∧
        tb.boundary.clock = .running (trim.divider.toNat + carry) ∧ carry ≤ 1 ∧
        tb.boundary.trim = trim ∧ tb.boundary.pendingTrim = none ∧ tb.boundary.time = tb.time ∧
        tb.boundary.snapshot = tb.snapshot

/-- R63: a read of TIME0 returns the low word and copies all 48 bits; TIME1 and TIME2 read the copy, which keeps
its value until the next such read; writes to the three registers are ignored; power-on sets the copy to 0 and
soft reset keeps it. That a read of TIME0, and a write, with no frame in progress is a frame of its own, and that
TIME0 in an auto-increment read frame that stands at another address is all the words up to it, is DESIGN CHOICE
(assumption log 6); that the word a read returns is the function `State.readReg` of the state is DESIGN CHOICE
(assumption log 21). -/
def Obligations.TimeReadThroughSnapshot : Prop :=
  (∀ (s : State) (p : Port), s.hp.inReset = false → s.hp.port.admitRead 0x17 = some p →
    exec .time0 s = .next { atPort s p with tb := { s.tb with snapshot := s.tb.time } }) ∧
  (∀ s : State, s.readReg 0x17 = s.tb.time.extractLsb' 0 16 ∧
    s.readReg 0x18 = s.tb.snapshot.extractLsb' 16 16 ∧
    s.readReg 0x19 = s.tb.snapshot.extractLsb' 32 16) ∧
  (∀ (c : Instr) (s t : State), exec c s = .next t → c ≠ .time0 →
    ((∀ h f p, c ≠ .powerOnReset h f p) → t.tb.snapshot = s.tb.snapshot) ∧
      ∀ h f p, c = .powerOnReset h f p → t.tb.snapshot = 0) ∧
  ∀ (s : State) (p : Port) (a : Addr) (w : Word), a = 0x17 ∨ a = 0x18 ∨ a = 0x19 →
    ServesWrite s a p → exec (.registerWrite a w) s = .next (atPort s p)

/-! ## The agenda and dispatch (chapter 2) -/

/-- R24, R41, R43, R30: the dispatch of the tick event that waits leaves the store as the entries it takes leave
it (one entry after another, each as `DispatchServesOneEntry` states), and hands out their cues, effects and
records; the lines, the inputs, the queue and the timebase are unchanged by it. With no tick event waiting nothing
happens (the model's choice, assumption log 4). R25: the entries taken stand at the head, each due at or before T,
at most eight, and the dispatch stops early only at the end of the agenda or at an entry due after T. -/
def Obligations.DispatchOutcomes : Prop :=
  (∀ s : State, s.hp.inReset = false →
    (∀ T d, s.mail.storeTick = some T →
      d =
        (takenBy T s.store.agenda).foldl (serveEntry T s.ou.lines)
          ⟨{ s.store with agenda := s.store.agenda.drop (takenBy T s.store.agenda).length }, [], [], []⟩ →
      exec .dispatch s =
        .next
          { s with
            store := d.store
            mail :=
              { s.mail with
                storeTick := none
                cues := s.mail.cues ++ d.cues.map fun n => (n, T)
                deliveries := s.mail.deliveries ++ if d.effects = [] then [] else [⟨T, d.effects⟩]
                storeOffers := s.mail.storeOffers ++ d.records } }) ∧
    (s.mail.storeTick = none → exec .dispatch s = .next s)) ∧
  ∀ (T : Time) (agenda : List PendingEntry),
    takenBy T agenda = agenda.take (takenBy T agenda).length ∧
      (∀ x ∈ takenBy T agenda, dist T x.due ≤ 0) ∧ (takenBy T agenda).length ≤ 8 ∧
      ((takenBy T agenda).length < 8 →
        ∀ x, agenda[(takenBy T agenda).length]? = some x → 0 < dist T x.due)

/-- R28, R29, R4, R36 to R42: what the dispatch of T does with one entry it takes, whose occurrences it accounts
for as `LateOccurrenceAccounting` states. A firing sends the effect of its kind or raises its cue; the entry is
placed again at its next occurrence, reheld with its count and runs, or freed; its records come in order, with
the masked flag as the lines stand. -/
def Obligations.DispatchServesOneEntry : Prop :=
  ∀ (T : Time) (lines : Vector LineRecord 16) (d n : Dispatched) (p : PendingEntry) (a : Account) (e : Entry)
    (h : Handle) (l : Live) (masked reheld : Bool) (done : List EventRecord),
    n = serveEntry T lines d p → a = accountFor T p → e = p.live.entry →
    h = ⟨p.live.slot, d.store.gens[p.live.slot]⟩ →
    l =
      { p.live with
        runsLeft := if e.period ≠ 0 ∧ e.runs ≠ 0 then p.live.runsLeft - a.used else p.live.runsLeft
        firings := if a.fired = none then p.live.firings else min 65535 (p.live.firings + 1) } →
    (masked = true ↔ ∃ k : Fin 16, Addresses e.action k ∧ (lines[k].mode = .direct ∨ lines[k].masked = true)) →
    (reheld = true ↔ ∃ source count offset, e.timing = .onTrigger source count offset true) →
    done =
      (if (e.period = 0 ∨ (e.runs ≠ 0 ∧ p.live.runsLeft ≤ a.used)) ∧ e.report ≠ .none then
        [.done h e.group e.tag .finished l.firings reheld]
      else []) →
    -- what a firing sends
    (a.fired = none → n.effects = d.effects ∧ n.cues = d.cues) ∧
    (a.fired ≠ none →
      (∀ k, e.action = .set k → n.effects = d.effects ++ [.set k] ∧ n.cues = d.cues) ∧
      (∀ k, e.action = .clear k → n.effects = d.effects ++ [.clear k] ∧ n.cues = d.cues) ∧
      (∀ k, e.action = .toggle k → n.effects = d.effects ++ [.toggle k] ∧ n.cues = d.cues) ∧
      (∀ k v w, e.action = .pulse k v w → n.effects = d.effects ++ [.pulse k v w] ∧ n.cues = d.cues) ∧
      (∀ m v, e.action = .pattern m v → n.effects = d.effects ++ [.pattern m v] ∧ n.cues = d.cues) ∧
      (∀ c, e.action = .cue c → n.effects = d.effects ∧ n.cues = d.cues ++ [c]) ∧
      (e.action = .mark → n.effects = d.effects ∧ n.cues = d.cues)) ∧
    -- where the entry goes
    (e.period ≠ 0 → (e.runs = 0 ∨ a.used < p.live.runsLeft) →
      n.store = { d.store with agenda := insertPending T ⟨l, a.next⟩ d.store.agenda }) ∧
    (e.period = 0 ∨ (e.runs ≠ 0 ∧ p.live.runsLeft ≤ a.used) →
      (∀ source count offset, e.timing = .onTrigger source count offset true →
        n.store =
          { d.store with
            held :=
              d.store.held.set source.index
                (d.store.held[source.index] ++
                  [⟨{ l with runsLeft := if e.period ≠ 0 ∧ e.runs ≠ 0 then e.runs.toNat else 0 },
                    count.toNat⟩]) }) ∧
      (reheld = false →
        n.store =
          { d.store with
            gens := d.store.gens.set p.live.slot (d.store.gens[p.live.slot] + 1)
            free := d.store.free ++ [p.live.slot] })) ∧
    -- its records
    (e.report ≠ .each → n.records = d.records ++ done) ∧
    (e.report = .each →
      (∀ due, a.fired = some due → a.late = false → a.skipped = none →
        n.records = d.records ++ [.fired h e.group e.tag due masked] ++ done) ∧
      (∀ due first c, a.fired = some due → a.late = false → a.skipped = some (first, c) →
        n.records =
          d.records ++
            [.skipped h e.group e.tag first (min 65535 c), .fired h e.group e.tag due masked] ++ done) ∧
      (∀ due, a.fired = some due → a.late = true → a.skipped = none →
        n.records =
          d.records ++ [.late h e.group e.tag due (min (2 ^ 32 - 1) (T - due).toNat) masked] ++ done) ∧
      (∀ due first c, a.fired = some due → a.late = true → a.skipped = some (first, c) →
        n.records =
          d.records ++
            [.late h e.group e.tag due (min (2 ^ 32 - 1) (T - due).toNat) masked,
              .skipped h e.group e.tag first (min 65535 c)] ++ done) ∧
      (∀ first c, a.fired = none → a.skipped = some (first, c) →
        n.records = d.records ++ [.skipped h e.group e.tag first (min 65535 c)] ++ done))

/-- R27, R31 to R36: which occurrences the dispatch of T accounts for of an entry it takes, by its lateness, policy,
period and runs left: those a late FIRE passes over are exactly the later ones due at or before T, those a late
SKIP skips exactly the ones due earlier than T − tolerance, in both cases within the runs left; which one fires,
how many are used up, and which comes next on the grid. A periodic entry fired late under FIRE, with runs to
spare, re-arms after T and by at most one period. -/
def Obligations.LateOccurrenceAccounting : Prop :=
  (∀ (T : Time) (x : PendingEntry) (e : Entry) (L P tol left : Nat) (limited : Prop) (a : Account),
      e = x.live.entry → L = (T - x.due).toNat → P = e.period.toNat → tol = e.tolerance.toNat →
      left = x.live.runsLeft → (limited ↔ e.period ≠ 0 ∧ e.runs ≠ 0) → a = accountFor T x →
      (L ≤ tol → a = ⟨some x.due, false, none, 1, x.due + BitVec.ofNat 48 P⟩) ∧
      (tol < L → e.policy = .fire →
        a.fired = some x.due ∧ a.late = true ∧
        (P = 0 → a.skipped = none ∧ a.used = 1) ∧
        (0 < P → ∃ passed : Nat,
          (∀ k, 1 ≤ k → (k ≤ passed ↔ k * P ≤ L ∧ (limited → k < left))) ∧
          (passed = 0 → a.skipped = none) ∧
          (0 < passed → a.skipped = some (x.due + BitVec.ofNat 48 P, passed)) ∧
          a.used = 1 + passed ∧ a.next = x.due + BitVec.ofNat 48 ((1 + passed) * P))) ∧
      (tol < L → e.policy = .skip →
        a.late = false ∧
        (P = 0 → a.fired = none ∧ a.skipped = some (x.due, 1) ∧ a.used = 1) ∧
        (0 < P → ∃ skipped : Nat,
          (∀ k, k < skipped ↔ k * P + tol < L ∧ (limited → k < left)) ∧
          a.skipped = some (x.due, skipped) ∧
          (skipped * P ≤ L → (limited → skipped < left) →
            a.fired = some (x.due + BitVec.ofNat 48 (skipped * P)) ∧ a.used = skipped + 1 ∧
              a.next = x.due + BitVec.ofNat 48 ((skipped + 1) * P)) ∧
          (L < skipped * P → (limited → skipped < left) →
            a.fired = none ∧ a.used = skipped ∧ a.next = x.due + BitVec.ofNat 48 (skipped * P)) ∧
          (limited → left ≤ skipped → a.fired = none ∧ a.used = skipped)))) ∧
  (∀ (T : Time) (x : PendingEntry), dist T x.due ≤ 0 → x.live.entry.policy = .fire →
      x.live.entry.period ≠ 0 → x.live.entry.tolerance.toNat < latenessAt T x.due →
      finishes x.live (accountFor T x) = false →
        0 < dist T (accountFor T x).next ∧
          dist T (accountFor T x).next ≤ x.live.entry.period.toNat)

/-- R21, R19: into an ordered agenda a placement goes behind every entry whose distance is smaller or equal and
before every one whose distance is greater, and the agenda stays ordered; a tick leaves the order as it is, for
entries inside the signed range of R20. -/
def Obligations.AgendaKeepsItsOrder : Prop :=
  (∀ (now : Time) (x : PendingEntry) (agenda : List PendingEntry), Ordered now agenda →
      Ordered now (insertPending now x agenda) ∧
        ∃ front back, agenda = front ++ back ∧ insertPending now x agenda = front ++ x :: back ∧
          (∀ y ∈ front, dist now y.due ≤ dist now x.due) ∧ ∀ y ∈ back, dist now x.due < dist now y.due) ∧
  (∀ (now : Time) (agenda : List PendingEntry), Ordered now agenda →
      (∀ x ∈ agenda, -(2 ^ 47) < dist now x.due) → Ordered (now + 1) agenda)

/-! ## Triggers (chapter 5) -/

/-- R91, R95, R97: a trigger event that waits is taken on its source with the tick it carries; FIRE-CUE takes one
with the current time and reports what it counted, armed and passed over, or BADARG above 3. With no such event
waiting nothing happens (the model's choice, assumption log 4). That this is so also ahead of a halt group request
that waits is DESIGN CHOICE (assumption log 31). -/
def Obligations.TriggerOutcomes : Prop :=
  ∀ s : State, s.hp.inReset = false →
    (∀ n t rest, s.mail.cues = (n, t) :: rest →
      exec (.triggerEvent .cue) s =
        .next
          { s with
            store := s.store.trigger s.tb.time (.cue n) t
            mail := { s.mail with cues := rest } }) ∧
    (s.mail.cues = [] → exec (.triggerEvent .cue) s = .next s) ∧
    (∀ k t before after, s.mail.inputTriggers = before ++ (k, t) :: after →
      (∀ x ∈ before, x.1 ≠ k) →
      exec (.triggerEvent (.input k)) s =
        .next
          { s with
            store := s.store.trigger s.tb.time (.input k) t
            mail := { s.mail with inputTriggers := before ++ after } }) ∧
    (∀ k, (∀ x ∈ s.mail.inputTriggers, x.1 ≠ k) → exec (.triggerEvent (.input k)) s = .next s) ∧
    (∀ p, TakesCommand s p →
      (4 ≤ s.ce.args.a0.toNat →
        exec (.fireCue .whole) s = .next (finish s p 0x40 { code := .badArg })) ∧
      ∀ n : Fin 4, s.ce.args.a0.toNat = n.val →
        exec (.fireCue .whole) s =
          .next
            (finish { s with store := s.store.trigger s.tb.time (.cue n) s.tb.time } p 0x40
              { code := .ok
                w1 := word (s.store.walk (.cue n)).lowered
                w2 := word (s.store.walk (.cue n)).armed.length
                w3 := word (s.store.walk (.cue n)).passed }))

/-- R92, R93, R103: the walk of a held list leaves the entries of suspended groups as they are, lowers the others
and arms exactly those whose countdown reaches 0, each entry counted once; a trigger event places the armed entries
one after another at t plus their offsets, leaves the rest of the list, and changes no other collection. -/
def Obligations.TriggerEventWalk : Prop :=
  (∀ (suspended : Fin 16 → Bool) (l : List HeldEntry),
      (walkHeld suspended l).stay =
          (l.filter fun h => suspended h.live.entry.group || decide (1 < h.countdown)).map (fun h =>
            if suspended h.live.entry.group then h else { h with countdown := h.countdown - 1 }) ∧
        (walkHeld suspended l).armed =
          (l.filter fun h => !suspended h.live.entry.group && decide (h.countdown ≤ 1)).map (·.live) ∧
        (walkHeld suspended l).passed = l.countP (fun h => suspended h.live.entry.group) ∧
        (walkHeld suspended l).lowered + (walkHeld suspended l).passed = l.length) ∧
  (∀ (st : Store) (now t : Time) (source : Source),
      st.trigger now source t =
        { st with
          held := st.held.set source.index (walkHeld st.suspended st.held[source.index]).stay
          agenda :=
            (walkHeld st.suspended st.held[source.index]).armed.foldl
              (fun agenda l => insertPending now ⟨l, t + BitVec.ofNat 48 l.entry.offset⟩ agenda)
              st.agenda })

/-! ## Output lines (chapter 7) -/

/-- R125: CONFIG-OUT completes with BADARG, with WRONGSTATE while the forcing is in force, or with OK: the line
takes mode, safe level and membership, keeps its level, loses its pulse when the mode changes, and its direct
bit follows when it becomes DIRECT. That a pulse whose last tick a run-down has counted is still in progress at the
change is DEDUCED (assumption log 30). -/
def Obligations.ConfigOutOutcomes : Prop :=
  ∀ (s : State) (p : Port), TakesCommand s p →
    (16 ≤ s.ce.args.a0.toNat ∨ 2 ≤ s.ce.args.a1.toNat ∨ 2 ≤ s.ce.args.a2.toNat →
      exec (.configOut .whole) s = .next (finish s p 0x50 { code := .badArg })) ∧
    (∀ (k : Fin 16) (mode : LineMode) (safe : Bool) (l : LineRecord), s.ce.args.a0.toNat = k.val →
      LineMode.ofWord s.ce.args.a1 = some mode → argBit s.ce.args.a2 = some safe →
      (s.ou.forced = true →
        exec (.configOut .whole) s = .next (finish s p 0x50 { code := .wrongState })) ∧
      (s.ou.forced = false →
        l =
          { s.ou.lines[k] with
            mode := mode
            pulse := if mode = s.ou.lines[k].mode then s.ou.lines[k].pulse else none
            ending := if mode = s.ou.lines[k].mode then s.ou.lines[k].ending else false
            safeLevel := safe
            haltMember := s.ce.args.a3.getLsbD 0 } →
        exec (.configOut .whole) s =
          .next
            (finish
              { s with
                ou :=
                  { s.ou with
                    lines := s.ou.lines.set k l
                    direct :=
                      if mode = .direct ∧ s.ou.lines[k].mode ≠ .direct then
                        withBit s.ou.direct k s.ou.lines[k].level
                      else s.ou.direct } }
              p 0x50
              { code := .ok
                w1 :=
                  word
                    (s.ou.lines[k].mode.code + 2 * bitNat s.ou.lines[k].safeLevel +
                      4 * bitNat s.ou.lines[k].haltMember)
                w2 := word (bitNat l.level + 2 * bitNat l.pulse.isSome) })))

/-- R127, R131, R124: the oldest delivery is applied effect by effect and leaves the mail; the run-down of the tick
that waits is taken on every line, whatever else of the tick waits; an event for which nothing waits changes nothing
(the model's choice, assumption log 4); a direct write replaces the direct word and moves each DIRECT unmasked line.
PULSE_END is the run-down in a tick that ends a pulse (assumption log 7), and otherwise ends the pulses whose last
tick has been counted, on the lines for which no effect of the tick can come (DESIGN CHOICE, assumption log 29).
R127, R128, R129, R132: an effect is judged line by line; a line that is DIRECT, masked or not addressed keeps its
record; on the others a pulse that ends at T is made to end first, SET, CLEAR, TOGGLE and PATTERN give the level and
end the pulse, and PULSE starts or restarts one. R131: a run-down clears a set fresh mark, or lowers the remaining
width, or returns the line and ends its pulse; on an open line for which an effect of the tick may come it counts
the pulse's last tick and leaves the line to return at the pulse's end (DEDUCED, assumption log 27). -/
def Obligations.LineEventOutcomes : Prop :=
  (∀ s : State, s.hp.inReset = false →
    (∀ d rest, s.mail.deliveries = d :: rest →
      exec .delivery s =
        .next
          { s with
            ou := s.ou.deliver d.stamp d.effects
            mail := { s.mail with deliveries := rest } }) ∧
    (s.mail.deliveries = [] → exec .delivery s = .next s) ∧
    (∀ awaited : Fin 16 → Bool, (∀ k, awaited k = true ↔ EffectMayCome s k) →
      (∀ T t, s.mail.outputTick = some T →
        t =
          { s with
            ou :=
              { s.ou with
                lines := mapBank s.ou.lines fun k l => l.runDown (awaited k)
                lastTick := some T }
            mail := { s.mail with outputTick := none } } →
        exec .runDown s = .next t ∧
          ((∃ k : Fin 16, ∃ x, s.ou.lines[k].pulse = some x ∧
              (s.ou.lines[k].ending = true ∨ x.fresh = false ∧ x.remaining ≤ 1)) →
            exec .pulseEnd s = .next t)) ∧
      (s.mail.outputTick = none ∨
          (∀ k : Fin 16, ∀ x, s.ou.lines[k].pulse = some x →
            s.ou.lines[k].ending = false ∧ (x.fresh = true ∨ 1 < x.remaining)) →
        exec .pulseEnd s =
          .next
            { s with
              ou :=
                { s.ou with
                  lines := mapBank s.ou.lines fun k l => if l.ending && !awaited k then l.returned else l } })) ∧
    (s.mail.outputTick = none → exec .runDown s = .next s) ∧
    (∀ p w, s.hp.port.admitWrite 0x12 = some p →
      exec (.outDirect w) s =
        .next
          { atPort s p with
            ou :=
              { s.ou with
                direct := w
                lines :=
                  mapBank s.ou.lines fun k l =>
                    if l.mode = .direct && !l.masked then { l with level := w.getLsbD k } else l } })) ∧
  (∀ (u : OutputUnit) (T : Time) (e : Effect) (es : List Effect),
      u.deliver T [] = u ∧
        u.deliver T (e :: es) =
          OutputUnit.deliver { u with lines := mapBank u.lines fun k l => l.effect u.lastTick T k e } T es) ∧
  (∀ (l : LineRecord) (awaited : Bool),
      (l.pulse = none → l.runDown awaited = { l with ending := false } ∧ l.returned = { l with ending := false }) ∧
      (∀ x, l.pulse = some x →
        l.returned = { l with level := x.returnLevel, pulse := none, ending := false } ∧
        (x.fresh = true → l.ending = false →
          l.runDown awaited = { l with pulse := some { x with fresh := false } }) ∧
        (x.fresh = false → 1 < x.remaining → l.ending = false →
          l.runDown awaited = { l with pulse := some { x with remaining := x.remaining - 1 } }) ∧
        (l.ending = true ∨ x.fresh = false ∧ x.remaining ≤ 1 →
          (awaited = false ∨ l.mode = .direct ∨ l.masked = true → l.runDown awaited = l.returned) ∧
          (awaited = true → l.mode = .agenda → l.masked = false →
            l.runDown awaited = { l with pulse := some x.counted, ending := true })))) ∧
  (∀ (l b : LineRecord) (last : Option Time) (T : Time) (k : Fin 16),
      (∀ e, l.mode = .direct ∨ l.masked = true → l.effect last T k e = l) ∧
      (∀ j v w, j ≠ k →
        l.effect last T k (.set j) = l ∧ l.effect last T k (.clear j) = l ∧
          l.effect last T k (.toggle j) = l ∧ l.effect last T k (.pulse j v w) = l) ∧
      (∀ mask levels : BitVec 16, mask.getLsbD k = false → l.effect last T k (.pattern mask levels) = l) ∧
      (l.mode = .agenda → l.masked = false →
        (∀ x, l.pulse = some x → l.ending = true ∨ x.fresh = false ∧ x.remaining ≤ 1 ∧ last ≠ some T →
          b = { l with level := x.returnLevel, pulse := none }) →
        ((∀ x, l.pulse = some x → ¬ (l.ending = true ∨ x.fresh = false ∧ x.remaining ≤ 1 ∧ last ≠ some T)) →
          b = l) →
        l.effect last T k (.set k) = { b with level := true, pulse := none, ending := false } ∧
        l.effect last T k (.clear k) = { b with level := false, pulse := none, ending := false } ∧
        l.effect last T k (.toggle k) = { b with level := !b.level, pulse := none, ending := false } ∧
        (∀ mask levels : BitVec 16, mask.getLsbD k = true →
          l.effect last T k (.pattern mask levels) =
            { b with level := levels.getLsbD k, pulse := none, ending := false }) ∧
        ∀ (v : Bool) (w : BitVec 16),
          (b.pulse = none →
            l.effect last T k (.pulse k v w) =
              { b with level := v, pulse := some ⟨w.toNat, b.level, decide (last ≠ some T)⟩, ending := false }) ∧
          ∀ x, b.pulse = some x →
            l.effect last T k (.pulse k v w) =
              { b with
                level := v, pulse := some ⟨w.toNat, x.returnLevel, decide (last ≠ some T)⟩, ending := false }))

/-- R51, R131, R132: the run-down of T leaves the same state whether the delivery of T comes before it or after it,
and whether the dispatch of T does, with the end of a pulse taken behind that dispatch (that PULSE_END is that step
is DESIGN CHOICE, assumption log 29). R123, R132 (DEDUCED, assumption log 27): the pin of a line that the delivery
addresses shows the final level once: it moves with the delivery, not with the run-down, in either order; a dispatch
moves no pin; with the run-down, and with PULSE_END (log 29), the pin of an open line for which an effect of T may
come stays, and with the run-down every other line is run down whole. -/
def Obligations.TickWorkInEitherOrder : Prop :=
  (∀ (u : OutputUnit) (T : Time) (effects : List Effect), u.lastTick ≠ some T →
      (u.deliver T effects).runDown T (fun _ => false) =
        (u.runDown T fun k => effects.any (·.addresses k)).deliver T effects) ∧
  (∀ (s r rd e er : State) (T : Time) (d : Delivery), s.hp.inReset = false →
      s.mail.storeTick = none → s.mail.outputTick = some T → s.ou.lastTick ≠ some T →
      s.mail.deliveries = [d] → d.stamp = T →
      exec .runDown s = .next r → exec .delivery r = .next rd →
      exec .delivery s = .next e → exec .runDown e = .next er →
        rd = er ∧
        ∀ k : Fin 16, (∃ x ∈ d.effects, x.addresses k = true) → s.ou.lines[k].mode = .agenda →
          s.ou.lines[k].masked = false →
            r.outPin k = s.outPin k ∧ er.outPin k = e.outPin k ∧ rd.outPin k = e.outPin k) ∧
  (∀ (s r rd rp d dr : State) (T : Time), s.hp.inReset = false → s.mail.storeTick = some T →
      s.mail.outputTick = some T → exec .runDown s = .next r → exec .dispatch r = .next rd →
      exec .pulseEnd rd = .next rp → exec .dispatch s = .next d → exec .runDown d = .next dr →
        rp = dr ∧ ∀ k : Fin 16, rd.outPin k = r.outPin k) ∧
  (∀ (s r : State) (T : Time) (k : Fin 16), s.hp.inReset = false → s.mail.outputTick = some T →
      exec .runDown s = .next r →
      (EffectMayCome s k → s.ou.lines[k].mode = .agenda → s.ou.lines[k].masked = false →
        r.outPin k = s.outPin k) ∧
      (¬ EffectMayCome s k → r.ou.lines[k] = s.ou.lines[k].runDown false)) ∧
  (∀ (s r : State) (k : Fin 16), s.ou.lines[k].mode = .agenda → s.ou.lines[k].masked = false →
      exec .runDown s = .next r ∨ exec .pulseEnd s = .next r → r.outPin k ≠ s.outPin k →
        ¬ EffectMayCome s k)

/-- R123: each pin drives the level of its line record while RESETn is released, and 0 while it is asserted (R137); a
level changes only at a delivery, a run-down or the end of a pulse in it, a direct write, a halt forcing or a reset,
and a pin also at the assertion of RESETn. A pulse whose last tick has been counted runs on an open line behind the
run-down of the tick, and every step keeps that (DEDUCED, assumption log 27); when PULSE_END may be taken is DESIGN
CHOICE (assumption log 29). -/
def Obligations.PinsMoveOnlyAsStated : Prop :=
  (∀ s t : State, PulsesSound s → step s = .next t → PulsesSound t) ∧
  (∀ (s : State) (k : Fin 16), s.outPin k = (!s.hp.inReset && s.ou.lines[k].level)) ∧
  (∀ (c : Instr) (s t : State) (k : Fin 16), exec c s = .next t →
    (t.ou.lines[k].level ≠ s.ou.lines[k].level →
      c = .delivery ∨ c = .runDown ∨ c = .pulseEnd ∨ (∃ w, c = .outDirect w) ∨ (∃ p, c = .haltEvent p) ∨
        (∃ p, c = .halt p) ∨ (∃ w p, c = .softReset w p) ∨ (∃ h f p, c = .powerOnReset h f p)) ∧
    (t.outPin k ≠ s.outPin k →
      t.ou.lines[k].level ≠ s.ou.lines[k].level ∨ (∃ h f p, c = .powerOnReset h f p) ∨
        c = .resetnAsserted ∧ t.outPin k = false))

/-- R131: a pulse of width w started by an effect stamped T on an open line stays at the pulse level through
the run-downs of T to T + w − 1 and is back at its return level with that of T + w, in either order of the
delivery and the run-down of T. Here `line` is the record after both, `n` counts the run-downs after it, each with the
end of the pulse in it, and `b` says whether an effect may come for the line at a run-down: the pulse's end is then a
step behind the run-down of T + w (DEDUCED, assumption log 27). -/
def Obligations.PulseHoldsItsWidth : Prop :=
  ∀ (l line : LineRecord) (last : Option Time) (T : Time) (k : Fin 16) (v : Bool) (w : BitVec 16) (b : Bool),
    l.closed = false → l.pulse = none → last ≠ some T → w ≠ 0 →
    (line = (l.effect last T k (.pulse k v w)).runDown b ∨
      line = (l.runDown b).effect (some T) T k (.pulse k v w)) →
      ∀ n : Nat,
        (n < w.toNat → ((lineTick b)^[n] line).level = v ∧ ((lineTick b)^[n] line).pulse.isSome = true) ∧
        (n = w.toNat → ((lineTick b)^[n] line).level = l.level ∧ ((lineTick b)^[n] line).pulse = none)

/-! ## Input lines (chapter 8) -/

/-- R139, R141, R142: the work for the tick event that waits, with the trigger events and capture records it
hands out and the running-ends notice that waited behind it (DEDUCED, assumption log 12); CONFIRMATION is that work
in a tick that confirms a change (assumption log 7); with no tick event waiting nothing happens (the model's choice,
assumption log 4). R140, R141, R143, R144: which samples confirm a change; the record after it; and, in line order, a
trigger event for each change the edge select accepts and the EDGE or SPAN record the capture mode asks for, with
the missed flag as it stands in that work. -/
def Obligations.InputWorkOutcomes : Prop :=
  (∀ (s : State) (pins : Pins), s.hp.inReset = false →
    (∀ T t, s.mail.inputTick = some T →
      t =
        { s with
          iu :=
            if s.mail.endsNotice then ended ⟨mapBank s.iu.lines fun k r => r.sampled T (pins.getLsbD k)⟩
            else ⟨mapBank s.iu.lines fun k r => r.sampled T (pins.getLsbD k)⟩
          mail :=
            { s.mail with
              inputTick := none
              inputTriggers := s.mail.inputTriggers ++ s.iu.triggers T pins
              inputOffers := s.mail.inputOffers ++ s.iu.captures T pins
              endsNotice := false } } →
      exec (.sample pins) s = .next t ∧
        ((∃ k : Fin 8, (s.iu.lines[k].confirms? T (pins.getLsbD k)).isSome = true) →
          exec (.confirmation pins) s = .next t) ∧
        ((∀ k : Fin 8, s.iu.lines[k].confirms? T (pins.getLsbD k) = none) →
          exec (.confirmation pins) s = .next s)) ∧
    (s.mail.inputTick = none →
      exec (.sample pins) s = .next s ∧ exec (.confirmation pins) s = .next s)) ∧
  (∀ (r : InputRecord) (T t0 : Time) (v : Bool),
      (r.confirms? T v = some t0 ↔
        v ≠ r.accepted ∧
          ((r.candidate = none ∧ r.filter = 0 ∧ t0 = T) ∨
            (r.candidate = some t0 ∧ r.filter.val ≤ (T - t0).toNat))) ∧
      (v = r.accepted → r.sampled T v = { r with candidate := none }) ∧
      (v ≠ r.accepted → r.confirms? T v = none →
        r.sampled T v = { r with candidate := some (r.candidate.getD T) }) ∧
      (r.confirms? T v = some t0 →
        r.sampled T v =
          { r with
            accepted := v
            candidate := none
            spanStart := if r.capture = .span ∧ v = r.activeLevel then some t0 else none })) ∧
  (∀ (u : InputUnit) (T : Time) (pins : Pins),
      (u.triggers T pins).Pairwise (fun x y => x.1 < y.1) ∧
      (∀ (k : Fin 8) (t0 : Time), (k, t0) ∈ u.triggers T pins ↔
        u.lines[k].confirms? T (pins.getLsbD k) = some t0 ∧
          (u.lines[k].edgeSelect = .both ∨
            (u.lines[k].edgeSelect = .rising ∧ pins.getLsbD k = true) ∨
            (u.lines[k].edgeSelect = .falling ∧ pins.getLsbD k = false))) ∧
      (u.captures T pins).Pairwise (fun x y => x.line < y.line) ∧
      (∀ c : Capture, c ∈ u.captures T pins ↔
        ∃ (k : Fin 8) (t0 : Time), u.lines[k].confirms? T (pins.getLsbD k) = some t0 ∧
          ((u.lines[k].capture = .edge ∧ c = .edge k (pins.getLsbD k) t0 u.lines[k].missed) ∨
            (u.lines[k].capture = .span ∧ pins.getLsbD k ≠ u.lines[k].activeLevel ∧
              ∃ start, u.lines[k].spanStart = some start ∧
                c = .span k u.lines[k].activeLevel start (t0 - start) u.lines[k].missed))))

/-- R140: a change seen at T0 is confirmed with the sample of T0 + F and not before, when every sample of T0 to
T0 + F shows the changed level; until then the accepted level stands and the first-seen tick is T0. -/
def Obligations.FilterConfirmsAfterFullRun : Prop :=
  ∀ (r : InputRecord) (T0 : Time) (v : Bool) (n : Nat), r.candidate = none → v ≠ r.accepted →
    ∀ q : InputRecord,
      q = (List.range (n + 1)).foldl (fun x i => x.sampled (T0 + BitVec.ofNat 48 i) v) r →
      (n < r.filter.val → q.accepted = r.accepted ∧ q.candidate = some T0) ∧
        (n = r.filter.val → q.accepted = v ∧ q.candidate = none)

/-- R146: CONFIG-IN completes with BADARG or with OK: the four values are written, candidate and span dropped,
accepted level and missed flag kept, and the values before reported. -/
def Obligations.ConfigInOutcomes : Prop :=
  ∀ (s : State) (p : Port), TakesCommand s p →
    (8 ≤ s.ce.args.a0.toNat ∨ 4 ≤ s.ce.args.a1.toNat ∨ 3 ≤ (s.ce.args.a2.extractLsb' 0 8).toNat ∨
        2 ≤ (s.ce.args.a2.extractLsb' 8 8).toNat ∨ 16 ≤ s.ce.args.a3.toNat →
      exec (.configIn .whole) s = .next (finish s p 0x51 { code := .badArg })) ∧
    (∀ (k : Fin 8) (edgeSelect : EdgeSelect) (capture : CaptureMode) (active : Bool) (filter : Fin 16)
        (r : InputRecord),
      s.ce.args.a0.toNat = k.val → EdgeSelect.ofWord s.ce.args.a1 = some edgeSelect →
      CaptureMode.ofByte (s.ce.args.a2.extractLsb' 0 8) = some capture →
      (s.ce.args.a2.extractLsb' 8 8).toNat = bitNat active → s.ce.args.a3.toNat = filter.val →
      r = s.iu.lines[k] →
      exec (.configIn .whole) s =
        .next
          (finish
            { s with
              iu :=
                ⟨s.iu.lines.set k
                  { r with
                    edgeSelect := edgeSelect
                    capture := capture
                    activeLevel := active
                    filter := filter
                    candidate := none
                    spanStart := none }⟩ }
            p 0x51
            { code := .ok
              w1 :=
                word (r.edgeSelect.code + 4 * r.capture.code + 16 * bitNat r.activeLevel +
                  256 * r.filter.val)
              w2 := word (bitNat r.accepted + 2 * bitNat r.missed) }))

/-! ## The event queue (chapter 9) -/

/-- R152, R153, R158, R159: the three cases of the store rule with its answers, the EVQ flag at the threshold and OVF
at the creation of a marker. R149, R145: the Event Queue takes the oldest offer of a block by that rule; the answer
to a capture record clears the line's missed flag when it is stored and sets it when it is lost, also in the records
of the line that wait behind it (DEDUCED, assumption log 14). With no offer waiting nothing happens (the model's
choice, assumption log 4). -/
def Obligations.RecordOfferOutcomes : Prop :=
  (∀ (q : EventQueue) (r : EventRecord),
      (∀ older n, q.records = older ++ [.overflow n] → 63 ≤ q.records.length →
        q.offer r = ({ q with records := older ++ [.overflow (min 65535 (n + 1))] }, false)) ∧
      (q.records.length < 63 →
        q.offer r =
          ({ q with
              records := q.records ++ [r]
              flags :=
                { q.flags with
                  evq := q.flags.evq || decide (q.records.length + 1 = q.threshold) } }, true)) ∧
      (q.records.length = 63 → (∀ older n, q.records ≠ older ++ [.overflow n]) →
        q.offer r =
          ({ q with
              records := q.records ++ [.overflow 1]
              flags :=
                { q.flags with
                  evq := q.flags.evq || decide (64 = q.threshold)
                  ovf := true } }, false))) ∧
  (∀ s : State, s.hp.inReset = false →
      (∀ r rest, s.mail.storeOffers = r :: rest →
        exec (.recordOffer .store) s =
          .next { s with eq := (s.eq.offer r).1, mail := { s.mail with storeOffers := rest } }) ∧
      (∀ r rest, s.mail.haltOffers = r :: rest →
        exec (.recordOffer .halt) s =
          .next { s with eq := (s.eq.offer r).1, mail := { s.mail with haltOffers := rest } }) ∧
      (∀ c rest k r, s.mail.inputOffers = c :: rest →
        ((∃ v t m, c = .edge k v t m ∧ r = .edge k v t m) ∨
          ∃ v t w m, c = .span k v t w m ∧ r = .span k v t w m) →
        exec (.recordOffer .inputs) s =
          .next
            { s with
              eq := (s.eq.offer r).1
              iu := ⟨s.iu.lines.set k { s.iu.lines[k] with missed := !(s.eq.offer r).2 }⟩
              mail :=
                { s.mail with
                  inputOffers :=
                    rest.map fun c =>
                      match c with
                      | .edge j v t m => .edge j v t (if j = k then !(s.eq.offer r).2 else m)
                      | .span j v t w m => .span j v t w (if j = k then !(s.eq.offer r).2 else m) } }) ∧
      (s.mail.storeOffers = [] → exec (.recordOffer .store) s = .next s) ∧
      (s.mail.haltOffers = [] → exec (.recordOffer .halt) s = .next s) ∧
      (s.mail.inputOffers = [] → exec (.recordOffer .inputs) s = .next s))

/-- R155: POP removes the head record whatever is written, in every state of the other blocks, clears no flag,
and does nothing to an empty queue; a frame that writes POP n times with auto-increment off pops n records;
the register reads 0. -/
def Obligations.PopRemovesHead : Prop :=
  (∀ (s : State) (p : Port) (w : Word), ServesWrite s 0x34 p →
    exec (.pop w) s = .next { atPort s p with eq := { s.eq with records := s.eq.records.tail } }) ∧
  (∀ (s : State) (ws : List Word), s.hp = ⟨.frame false false 0x34, false⟩ →
    ws.foldl (fun o w => thenDo o (exec (.pop w))) (.next s) =
      .next { s with eq := { s.eq with records := s.eq.records.drop ws.length } }) ∧
  ∀ s : State, s.readReg 0x34 = 0

/-- R157: a write of THRESH with a value 1..64 replaces the threshold, any other is ignored; that the value is the
whole 16-bit word is the model's reading (DEDUCED, assumption log 16); the queue and the flags are unchanged, THRESH
shows the threshold, and writes to COUNT are ignored. R160, R161, R178: a write of IRQ_FLAGS clears the flags written
as 1 and leaves the others; a write of IRQ_ENABLE sets the enables; both registers read back; IRQn is asserted
exactly while RESETn is released and some flag is set with its enable. -/
def Obligations.ThresholdAndInterruptRegisters : Prop :=
  (∀ (s : State) (p : Port) (w : Word), ServesWrite s 0x36 p →
    (1 ≤ w.toNat → w.toNat ≤ 64 →
      exec (.thresh w) s = .next { atPort s p with eq := { s.eq with threshold := w.toNat } }) ∧
    (w = 0 ∨ 64 < w.toNat → exec (.thresh w) s = .next (atPort s p))) ∧
  (∀ s : State, s.eq.threshold ≤ 64 → (s.readReg 0x36).toNat = s.eq.threshold) ∧
  (∀ (s : State) (p : Port) (w : Word), ServesWrite s 0x35 p →
    exec (.registerWrite 0x35 w) s = .next (atPort s p)) ∧
  (∀ (s : State) (p : Port) (w : Word), ServesWrite s 0x15 p →
    exec (.irqFlags w) s =
      .next
        { atPort s p with
          eq :=
            { s.eq with
              flags :=
                ⟨s.eq.flags.evq && !w.getLsbD 0, s.eq.flags.ovf && !w.getLsbD 1,
                  s.eq.flags.done && !w.getLsbD 2, s.eq.flags.rej && !w.getLsbD 3,
                  s.eq.flags.halt && !w.getLsbD 4⟩ } }) ∧
  (∀ (s : State) (p : Port) (w : Word), ServesWrite s 0x16 p →
    exec (.irqEnable w) s =
      .next
        { atPort s p with
          eq :=
            { s.eq with
              enables :=
                ⟨w.getLsbD 0, w.getLsbD 1, w.getLsbD 2, w.getLsbD 3, w.getLsbD 4⟩ } }) ∧
  (∀ s : State, IrqBits.ofWord (s.readReg 0x15) = s.eq.flags ∧
    IrqBits.ofWord (s.readReg 0x16) = s.eq.enables) ∧
  ∀ s : State, s.irqAsserted = true ↔
    s.hp.inReset = false ∧
      ((s.eq.flags.evq = true ∧ s.eq.enables.evq = true) ∨
        (s.eq.flags.ovf = true ∧ s.eq.enables.ovf = true) ∨
        (s.eq.flags.done = true ∧ s.eq.enables.done = true) ∨
        (s.eq.flags.rej = true ∧ s.eq.enables.rej = true) ∨
        (s.eq.flags.halt = true ∧ s.eq.enables.halt = true))

/-! ## Halt and release (chapter 10) -/

/-- R165, R166, R167, R168: each recognised fall of HALTn is a halt event of its own, taken at once or later, and a
rise changes the level alone, also while the event of the fall before it is still to be taken (DESIGN CHOICE,
assumption log 32). A fall recognised with HALTn already low, and the taking of a halt event when no fall
is owed, are no events and change nothing (DESIGN CHOICE, assumption log 4). A halt event or HALT command with the
latch CLEAR sets the latch and forces the lines in one step (R134: each halt member goes to its safe level, STEADY
and masked, the others are not touched), sets the HALT flag in that step (DEDUCED, assumption log 13) and hands out
the record and the group request; with the latch LATCHED it does nothing else. R171, R135: RELEASE completes with
HALTACTIVE while HALTn is asserted, else with WRONGSTATE while the latch is CLEAR, else it clears the latch, clears
every mask, keeps every level and reports the cause. -/
def Obligations.HaltAndReleaseOutcomes : Prop :=
  (∀ (s : State) (forced : OutputUnit), s.hp.inReset = false →
      forced =
        { s.ou with
          lines :=
            mapBank s.ou.lines fun _ l =>
              if l.haltMember then
                { l with level := l.safeLevel, pulse := none, masked := true, ending := false }
              else l
          forced := true } →
      (s.hc.haltnHigh = true →
        exec (.haltEvent .recognise) s =
          .next { s with hc := ⟨s.hc.latch, false, s.hc.fallsOwed + 1⟩ } ∧
        exec (.haltEvent .whole) s =
          thenDo (exec (.haltEvent .recognise) s) (exec (.haltEvent .take))) ∧
      (s.hc.haltnHigh = false →
        exec (.haltEvent .recognise) s = .next s ∧ exec (.haltEvent .whole) s = .next s) ∧
      (s.hc.fallsOwed = 0 → exec (.haltEvent .take) s = .next s) ∧
      (∀ n, s.hc.fallsOwed = n + 1 →
        (s.hc.latch = none →
          exec (.haltEvent .take) s =
            .next
              { s with
                hc := ⟨some .pin, s.hc.haltnHigh, n⟩
                ou := forced
                eq := { s.eq with flags := { s.eq.flags with halt := true } }
                mail :=
                  { s.mail with
                    haltOffers := s.mail.haltOffers ++ [.halt s.tb.time .pin]
                    haltRequests := s.mail.haltRequests + 1 } }) ∧
        ∀ c, s.hc.latch = some c →
          exec (.haltEvent .take) s = .next { s with hc := ⟨some c, s.hc.haltnHigh, n⟩ }) ∧
      (exec .haltnRise s = .next { s with hc := { s.hc with haltnHigh := true } }) ∧
      (∀ p, TakesCommand s p →
        (∀ c, s.hc.latch = some c →
          exec (.halt .whole) s = .next (finish s p 0x60 { code := .ok, w1 := 1 })) ∧
        (s.hc.latch = none →
          exec (.halt .whole) s =
            .next
              (finish
                { s with
                  hc := { s.hc with latch := some .command }
                  ou := forced
                  eq := { s.eq with flags := { s.eq.flags with halt := true } }
                  mail :=
                    { s.mail with
                      haltOffers := s.mail.haltOffers ++ [.halt s.tb.time .command]
                      haltRequests := s.mail.haltRequests + 1 } }
                p 0x60 { code := .ok })))) ∧
  (∀ (s : State) (p : Port), TakesCommand s p →
      (s.hc.haltnHigh = false →
        exec (.release .whole) s = .next (finish s p 0x61 { code := .haltActive })) ∧
      (s.hc.haltnHigh = true → s.hc.latch = none →
        exec (.release .whole) s = .next (finish s p 0x61 { code := .wrongState })) ∧
      (∀ c, s.hc.haltnHigh = true → s.hc.latch = some c →
        exec (.release .whole) s =
          .next
            (finish
              { s with
                hc := { s.hc with latch := none }
                ou :=
                  { s.ou with
                    lines := mapBank s.ou.lines fun _ l => { l with masked := false }
                    forced := false } }
              p 0x61 { code := .ok, w1 := word c.code })))

/-- R118, R166, R86, R79: a halt group request applies the halt actions in group number order, each as it stands
then, offers their DONE records, and abandons with HALTED the merge that is in flight when it is taken (DEDUCED,
assumption log 9). R112: a command written after the halt event has one request fewer ahead of it (DEDUCED,
assumption log 28). With none waiting nothing happens (the model's choice, assumption log 4). R118, R113, R116: KEEP
does nothing, CANCEL is the group cancel with reason HALTED, SUSPEND parks the pending members with their distances
and sets the flag of a group that is not suspended yet. -/
def Obligations.HaltGroupRequestOutcomes : Prop :=
  (∀ s : State, s.hp.inReset = false →
    (s.mail.haltRequests = 0 → exec .haltGroupRequest s = .next s) ∧
    (∀ n st records, s.mail.haltRequests = n + 1 →
      s.store.haltGroups s.tb.time (List.finRange 16) = (st, records) →
      ((∀ a, s.ce.engine ≠ .committing a) →
        exec .haltGroupRequest s =
          .next
            { s with
              ce :=
                { s.ce with
                  engine :=
                    match s.ce.engine with
                    | .busy c a (.accepted m) => .busy c a (.accepted (m - 1))
                    | e => e }
              store := st
              mail :=
                { s.mail with
                  haltRequests := n
                  storeOffers := s.mail.storeOffers ++ records } }) ∧
      (∀ a, s.ce.engine = .committing a →
        exec .haltGroupRequest s =
          .next
            (finish
              { s with
                store := { st with free := st.reserved ++ st.free, reserved := [] }
                mail :=
                  { s.mail with
                    haltRequests := n
                    storeOffers := s.mail.storeOffers ++ records } }
              s.hp.port 0x03 { code := .halted })))) ∧
  (∀ (st : Store) (now : Time) (g : Fin 16) (gs : List (Fin 16)),
      st.haltGroups now [] = (st, []) ∧
      (st.groups[g].haltAction = .keep → st.haltGroups now (g :: gs) = st.haltGroups now gs) ∧
      (∀ st' records, st.groups[g].haltAction = .cancel → st.cancelGroup .halted g = (st', records) →
        st.haltGroups now (g :: gs) =
          ((st'.haltGroups now gs).1, records ++ (st'.haltGroups now gs).2)) ∧
      (st.groups[g].haltAction = .suspend → st.suspended g = true →
        st.haltGroups now (g :: gs) = st.haltGroups now gs) ∧
      (∀ st' : Store, st.groups[g].haltAction = .suspend → st.suspended g = false →
        st' =
          { st with
            agenda := st.agenda.filter fun x => !x.live.inGroup g
            parked :=
              st.parked.set g
                (st.parked[g] ++
                  (st.agenda.filter fun x => x.live.inGroup g).map fun x =>
                    ⟨x.live, (dist now x.due).toNat⟩)
            groups := st.groups.set g { st.groups[g] with suspended := true } } →
        st.haltGroups now (g :: gs) = st'.haltGroups now gs))

/-! ## Resets (chapters 1 to 11) -/

/-- R185, R186, R173, R12, R108, R137, R148, R162, R64: the soft reset of every block in one step. With HALTn high
the latch is CLEAR; with HALTn low it is set again with cause PIN, the halt members are forced, the groups whose
action is SUSPEND are suspended, and the HALT record is the one record of the queue: that the group request and the
storing of the record are part of the same step is the model's reading (DEDUCED, assumption log 13). What was handed
out before is kept (assumption log 10). -/
def Obligations.SoftResetOutcomes : Prop :=
  ∀ (s : State) (p : Port) (w : Word) (pins : Pins), ServesWrite s 0x02 p → w.getLsbD 0 = true →
    ∃ t, exec (.softReset w pins) s = .next t ∧
      t.tb = s.tb ∧ t.hp = { s.hp with port := p } ∧ t.pending = s.pending ∧
      t.mail = s.mail ∧
      t.ce =
        { s.ce with
          engine := .idle
          result :=
            ⟨match s.ce.engine with | .idle => 0 | .busy c _ _ => c | .committing _ => 0x03,
              { code := .reset }⟩
          staging := []
          handles := []
          hsel := 0 } ∧
      t.store.free = List.finRange 128 ∧ t.store.reserved = [] ∧ t.store.agenda = [] ∧
      (∀ i : Fin 12, t.store.held[i] = []) ∧ (∀ g : Fin 16, t.store.parked[g] = []) ∧
      (∀ k : Fin 128, t.store.gens[k] =
        if (s.store.find? k).isSome then s.store.gens[k] + 1 else s.store.gens[k]) ∧
      (∀ g : Fin 16, t.store.groups[g].haltAction = s.store.groups[g].haltAction ∧
        (t.store.groups[g].suspended = true ↔
          s.hc.haltnHigh = false ∧ s.store.groups[g].haltAction = .suspend)) ∧
      (∀ k : Fin 16, t.ou.lines[k] =
        { s.ou.lines[k] with
          level := s.ou.lines[k].safeLevel
          pulse := none
          masked := !s.hc.haltnHigh && s.ou.lines[k].haltMember
          ending := false }) ∧
      (∀ k : Fin 16, t.ou.direct.getLsbD k = s.ou.lines[k].safeLevel) ∧
      t.ou.lastTick = s.ou.lastTick ∧ t.ou.forced = !s.hc.haltnHigh ∧
      (∀ k : Fin 8, t.iu.lines[k] =
        { s.iu.lines[k] with
          accepted := pins.getLsbD k, candidate := none, spanStart := none, missed := false }) ∧
      t.eq.records = (if s.hc.haltnHigh then [] else [.halt s.tb.time .pin]) ∧
      t.eq.flags =
        ⟨!s.hc.haltnHigh && decide (s.eq.threshold = 1), false, false, false, !s.hc.haltnHigh⟩ ∧
      t.eq.threshold = s.eq.threshold ∧ t.eq.enables = s.eq.enables ∧
      t.hc = { s.hc with latch := if s.hc.haltnHigh then none else some .pin }

/-- R188, R174, R176: at the release of RESETn every block has its power-on value, the input levels are those of
the pins, and with HALTn low the latch is set with cause PIN, the HALT record of time 0 is the head of the
queue and the HALT flag is set; the port waits for CSn high if it is low. That the release is taken in every state
and drops what was handed out is the model's choice (assumption log 18). The assertion abandons a frame and puts the
chip in reset. -/
def Obligations.PowerOnResetOutcomes : Prop :=
  ∀ (s : State) (csn : Bool) (pins : Pins),
    exec (.powerOnReset true csn pins) s =
      .next
        { State.reset with
          iu := InputUnit.reset pins
          hp := ⟨if csn then .ready else .waitHigh, false⟩
          pending := s.pending } ∧
    exec (.powerOnReset false csn pins) s =
      .next
        { State.reset with
          iu := InputUnit.reset pins
          hp := ⟨if csn then .ready else .waitHigh, false⟩
          pending := s.pending
          hc := ⟨some .pin, false, 0⟩
          ou := { OutputUnit.reset with forced := true }
          eq :=
            { EventQueue.reset with
              records := [.halt 0 .pin]
              flags := ⟨true, false, false, false, true⟩ } } ∧
    exec .resetnAsserted s =
      .next { s with hp := ⟨if s.hp.port = .ready then .ready else .waitHigh, true⟩ }

/-! ## The host port and the register window (chapter 11) -/

/-- R175, R176, R188: the header byte fixes direction, auto-increment and address of a frame that has none; a rise
of CSn ends the frame and lets the port take frames again; in a write frame a word goes to the current address alone,
which then advances by one modulo 64 when the auto-increment bit is set and stays otherwise; a read frame and a port
that waits for CSn high carry no write. A header byte inside a frame in progress changes nothing (DESIGN CHOICE,
assumption log 4). A read frame shifts out the word of the current address as it stands, which
then advances in the same way; the read changes nothing else but for TIME0, which takes the snapshot. That TIME0
in such a frame is the words up to that one is DESIGN CHOICE (assumption log 6), and that outside a read frame there
is no word is DESIGN CHOICE (assumption log 21). -/
def Obligations.PortFrames : Prop :=
  (∀ (s : State) (b : Byte),
      (s.hp.inReset = false → s.hp.port = .ready →
        exec (.headerByte b) s =
          .next (atPort s (.frame (b.getLsbD 7) (b.getLsbD 6) (b.extractLsb' 0 6)))) ∧
      (s.hp.inReset = false → s.hp.port ≠ .ready → exec (.headerByte b) s = .next s) ∧
      exec .frameEnd s = .next (atPort s .ready)) ∧
  (∀ (a cur : Addr) (autoInc : Bool),
      (Port.frame false autoInc a).admitWrite a =
          some (.frame false autoInc (if autoInc then a + 1 else a)) ∧
        (a ≠ cur → (Port.frame false autoInc cur).admitWrite a = none) ∧
        (Port.frame true autoInc cur).admitWrite a = none ∧ Port.waitHigh.admitWrite a = none ∧
        (Port.frame false autoInc cur).admitRead a = none ∧ Port.waitHigh.admitRead a = none) ∧
  (∀ (s : State) (autoInc : Bool) (a : Addr), s.hp.port = .frame true autoInc a →
      (a ≠ 0x17 →
        s.readWord? =
          some (s.readReg a, atPort s (.frame true autoInc (if autoInc then a + 1 else a)))) ∧
      (a = 0x17 →
        s.readWord? =
          some (s.tb.time.extractLsb' 0 16,
            { atPort s (.frame true autoInc (if autoInc then a + 1 else a)) with
              tb := { s.tb with snapshot := s.tb.time } })) ∧
      (s.hp.inReset = false → autoInc = true ∨ a = 0x17 →
        exec .time0 s = .next (s.readWords ((0x17 - a).toNat + 1)).2)) ∧
  (∀ s : State, (∀ autoInc a, s.hp.port ≠ .frame true autoInc a) → s.readWord? = none)

/-- R176, R177, R178, R179, R66: a write without a row of its own is stored in ARG0..ARG3, in HSEL (low byte) or in
the composer register at its address, in every engine state, and is ignored at every other address. R67: an APPEND
accepted before a composer write is taken ahead of it, so the write is not in the copy (DEDUCED, assumption log 26).
R182, R181: a COMMAND write whose code names no command completes at once with BADCMD in IDLE, and is refused with
REJ otherwise; the command byte of RESULT0 is the code written (assumption log 20). -/
def Obligations.RegisterAndBadCommandWrites : Prop :=
  (∀ (s : State) (p : Port) (a : Addr) (w : Word), ServesWrite s a p → hasOwnRow a w = false →
      ∃ ce, exec (.registerWrite a w) s = .next { atPort s p with ce := ce } ∧
        (a = 0x03 → ce = { s.ce with args := { s.ce.args with a0 := w } }) ∧
        (a = 0x04 → ce = { s.ce with args := { s.ce.args with a1 := w } }) ∧
        (a = 0x05 → ce = { s.ce with args := { s.ce.args with a2 := w } }) ∧
        (a = 0x06 → ce = { s.ce with args := { s.ce.args with a3 := w } }) ∧
        (a = 0x10 → ce = { s.ce with hsel := w.extractLsb' 0 8 }) ∧
        (∀ n, n ≤ 16 → a.toNat = 0x20 + n →
          (∀ t, exec (.append .take) s = .next t →
            ce = { t.ce with composer := s.ce.composer.write n w }) ∧
          ((∀ args n, s.ce.engine ≠ .busy 0x01 args (.accepted n)) →
            ce = { s.ce with composer := s.ce.composer.write n w })) ∧
        (a.toNat < 3 ∨ (6 < a.toNat ∧ a.toNat < 0x10) ∨ (0x10 < a.toNat ∧ a.toNat < 0x20) ∨
          0x30 < a.toNat → ce = s.ce)) ∧
  (∀ (s : State) (p : Port) (w : Word), ServesWrite s 0x07 p → namesCommand w = false →
      (s.ce.engine = .idle →
        exec (.badcmd w) s = .next (finish s p (w.extractLsb' 0 8) { code := .badCmd })) ∧
      (s.ce.engine ≠ .idle →
        exec (.badcmd w) s =
          .next { atPort s p with eq := { s.eq with flags := { s.eq.flags with rej := true } } }))

/-- R177, R178, R180, R183, R84, R123, R154: what reads of the window return: IDENT; the fields of STATUS; POOL;
RESULT; HSEL and HANDLE; the direct word, the levels of the lines and the input levels with their missed flags;
COUNT; the event window for each kind of record at the head and for an empty queue; 0 where no register can be read.
That a read is the function `State.readReg` is the model's form (assumption log 21). -/
def Obligations.RegisterReads : Prop :=
  (∀ s : State, s.readReg 0x00 = 0x4216 ∧
      (s.ce.staging.length ≤ 16 →
        ((s.readReg 0x01).extractLsb' 0 2).toNat =
          (match s.ce.engine with | .idle => 0 | .busy .. => 1 | .committing _ => 2) ∧
        ((s.readReg 0x01).extractLsb' 2 5).toNat = s.ce.staging.length ∧
        ((s.readReg 0x01).extractLsb' 7 2).toNat =
          (match s.tb.clock with | .stopped => 0 | .armed _ => 1 | .running _ => 2) ∧
        (s.readReg 0x01).getLsbD 9 = s.tb.pendingTrim.isSome ∧
        (s.readReg 0x01).getLsbD 10 = s.hc.latch.isSome ∧
        ((s.readReg 0x01).extractLsb' 11 2).toNat =
          (match s.hc.latch with | none => 0 | some .pin => 1 | some .command => 2) ∧
        (s.readReg 0x01).getLsbD 13 = s.hc.haltnHigh ∧ (s.readReg 0x01).extractLsb' 14 2 = 0) ∧
      s.readReg 0x03 = s.ce.args.a0 ∧ s.readReg 0x04 = s.ce.args.a1 ∧ s.readReg 0x05 = s.ce.args.a2 ∧
      s.readReg 0x06 = s.ce.args.a3 ∧
      (s.readReg 0x08).toNat = s.ce.result.reply.code.toNat + 256 * s.ce.result.command.toNat ∧
      s.readReg 0x09 = s.ce.result.reply.w1 ∧ s.readReg 0x0A = s.ce.result.reply.w2 ∧
      s.readReg 0x0B = s.ce.result.reply.w3 ∧ s.readReg 0x0C = s.ce.result.reply.w4 ∧
      s.readReg 0x0D = s.ce.result.reply.w5 ∧ s.readReg 0x0E = s.ce.result.reply.w6 ∧
      (s.store.free.length < 256 → s.store.agenda.length < 256 →
        (s.readReg 0x0F).toNat = s.store.free.length + 256 * s.store.agenda.length) ∧
      (s.ce.handles.length ≤ 16 →
        (s.readReg 0x10).toNat = s.ce.hsel.toNat + 256 * s.ce.handles.length) ∧
      (∀ h, s.ce.handles[s.ce.hsel.toNat]? = some h →
        (s.readReg 0x11).toNat = h.slot.val * 16 + h.gen.toNat) ∧
      (s.ce.handles.length ≤ s.ce.hsel.toNat → s.readReg 0x11 = 0xFFFF) ∧
      s.readReg 0x12 = s.ou.direct ∧
      (∀ k : Fin 16, (s.readReg 0x13).getLsbD k = s.ou.lines[k].level) ∧
      (∀ k : Fin 8, (s.readReg 0x14).getLsbD k = s.iu.lines[k].accepted ∧
        (s.readReg 0x14).getLsbD (8 + k.val) = s.iu.lines[k].missed) ∧
      (s.eq.records.length ≤ 64 → (s.readReg 0x35).toNat = s.eq.records.length) ∧
      (∀ n, n ≤ 16 → ∀ a : Addr, a.toNat = 0x20 + n → s.readReg a = s.ce.composer.read n) ∧
      (∀ a : Addr, a = 0x02 ∨ a = 0x07 ∨ a = 0x34 ∨ a = 0x37 ∨ (0x1A ≤ a.toNat ∧ a.toNat ≤ 0x1F) ∨
        (0x31 ≤ a.toNat ∧ a.toNat ≤ 0x33) → s.readReg a = 0) ∧
      (s.eq.records = [] → ∀ a : Addr, 0x38 ≤ a.toNat → s.readReg a = 0)) ∧
  (∀ (s : State) (r : EventRecord) (rest : List EventRecord) (w : Nat → Word), s.eq.records = r :: rest →
      (∀ n, n < 8 → w n = s.readReg (BitVec.ofNat 6 (0x38 + n))) →
      (∀ h g tag due m, r = .fired h g tag due m →
        (w 0).toNat = 1 + 16 * bitNat m + 256 * tag.toNat ∧ w 3 ++ w 2 ++ w 1 = due ∧
          w 6 ++ w 5 ++ w 4 = (0 : BitVec 48) ∧ (w 7).toNat = h.slot.val * 16 + h.gen.toNat + 4096 * g.val) ∧
      (∀ h g tag due n m, r = .late h g tag due n m →
        (w 0).toNat = 2 + 16 * bitNat m + 256 * tag.toNat ∧ w 3 ++ w 2 ++ w 1 = due ∧
          w 6 ++ w 5 ++ w 4 = BitVec.ofNat 48 n ∧
          (w 7).toNat = h.slot.val * 16 + h.gen.toNat + 4096 * g.val) ∧
      (∀ h g tag due n, r = .skipped h g tag due n →
        (w 0).toNat = 3 + 256 * tag.toNat ∧ w 3 ++ w 2 ++ w 1 = due ∧
          w 6 ++ w 5 ++ w 4 = BitVec.ofNat 48 n ∧
          (w 7).toNat = h.slot.val * 16 + h.gen.toNat + 4096 * g.val) ∧
      (∀ h g tag reason n reheld, r = .done h g tag reason n reheld →
        (w 0).toNat =
            4 + 16 * bitNat reheld +
              64 * (match reason with | .finished => 1 | .cancelled => 2 | .halted => 3) + 256 * tag.toNat ∧
          w 3 ++ w 2 ++ w 1 = (0 : BitVec 48) ∧ w 6 ++ w 5 ++ w 4 = BitVec.ofNat 48 n ∧
          (w 7).toNat = h.slot.val * 16 + h.gen.toNat + 4096 * g.val) ∧
      (∀ k v t m, r = .edge k v t m →
        (w 0).toNat = 5 + 16 * bitNat m + 32 * bitNat v ∧ w 3 ++ w 2 ++ w 1 = t ∧
          w 6 ++ w 5 ++ w 4 = (0 : BitVec 48) ∧ (w 7).toNat = k.val) ∧
      (∀ k v t width m, r = .span k v t width m →
        (w 0).toNat = 6 + 16 * bitNat m + 32 * bitNat v ∧ w 3 ++ w 2 ++ w 1 = t ∧
          w 6 ++ w 5 ++ w 4 = width ∧ (w 7).toNat = k.val) ∧
      (∀ t cause, r = .halt t cause →
        (w 0).toNat = 7 + 64 * (match cause with | .pin => 1 | .command => 2) ∧ w 3 ++ w 2 ++ w 1 = t ∧
          w 6 ++ w 5 ++ w 4 = (0 : BitVec 48) ∧ w 7 = 0) ∧
      (∀ n, r = .overflow n →
        w 0 = 8 ∧ w 3 ++ w 2 ++ w 1 = (0 : BitVec 48) ∧ w 6 ++ w 5 ++ w 4 = BitVec.ofNat 48 n ∧ w 7 = 0))
end

