-- ==== Sys2Proof/Laws/Banks.lean ====
section
/-!
SUPPORT. Banks of records and words of levels: what a replacement leaves at each number.
-/

namespace Sys2Proof.Machine

@[simp] theorem getElem_mapBank {α : Type} {n : Nat} (v : Vector α n) (f : Fin n → α → α) (i : Nat)
    (h : i < n) : (mapBank v f)[i] = f ⟨i, h⟩ v[i] := by
  simp [mapBank]

/-- `mapBank` at a number of the bank. -/
theorem getElem_fin_mapBank {α : Type} {n : Nat} (v : Vector α n) (f : Fin n → α → α)
    (i : Fin n) : (mapBank v f)[i] = f i v[i] := by
  simp [mapBank]

/-- Two banks with the same records are the same bank. -/
theorem bank_ext {α : Type} {n : Nat} {v w : Vector α n} (h : ∀ i : Fin n, v[i] = w[i]) : v = w := by
  apply Vector.ext
  intro i hi
  exact h ⟨i, hi⟩

/-- A bank after the replacement of one record. -/
theorem getElem_fin_set {α : Type} {n : Nat} (v : Vector α n) (k i : Fin n) (x : α) :
    (v.set k x)[i] = if i = k then x else v[i] := by
  rcases i with ⟨i, hi⟩
  rcases k with ⟨k, hk⟩
  simp [Vector.getElem_set, Fin.ext_iff, eq_comm]

@[simp] theorem getLsbD_withBit (w : BitVec 16) (k i : Fin 16) (b : Bool) :
    (withBit w k b).getLsbD i = if i = k then b else w.getLsbD i := by
  simp [withBit]

end Sys2Proof.Machine
end

