-- ==== Sys2Proof/Laws/Queue.lean ====
section
/-!
SUPPORT. The Event Queue: what an offer can do, and what it never touches.
-/

namespace Sys2Proof.Machine

/-- The count of a marker that stands last, and only then. -/
theorem EventQueue.lastMarker?_eq_some {q : EventQueue} {n : Nat} :
    q.lastMarker? = some n ↔ q.records.getLast? = some (.overflow n) := by
  unfold EventQueue.lastMarker?
  split
  · rename_i m h
    simp [h]
  · rename_i h
    constructor
    · intro h'; cases h'
    · intro h'; exact absurd h' (h n)

/-- Everything an offer can do: store the record, count it in the last marker, create a marker, or nothing. -/
theorem EventQueue.offer_cases (q : EventQueue) (r : EventRecord) :
    (q.records.length < 63 ∧ q.offer r = (q.join r, true)) ∨
      (63 ≤ q.records.length ∧ ∃ n, q.records.getLast? = some (.overflow n) ∧
        q.offer r =
          ({ q with records := q.records.dropLast ++ [.overflow (holdAt 65535 (n + 1))] }, false)) ∨
      (q.records.length = 63 ∧ (∀ n, q.records.getLast? ≠ some (.overflow n)) ∧
        q.offer r =
          ({ q with
              records := q.records ++ [.overflow 1]
              flags := { (q.join (.overflow 1)).flags with ovf := true } }, false)) ∨
      (63 < q.records.length ∧ (∀ n, q.records.getLast? ≠ some (.overflow n)) ∧
        q.offer r = (q, false)) := by
  unfold EventQueue.offer
  by_cases h : q.records.length < 63
  · exact .inl ⟨h, by simp [h]⟩
  · have h' : ¬ q.records.length < Config.queueRoom := h
    right
    rw [if_neg h']
    cases hm : q.lastMarker? with
    | some n => exact .inl ⟨by omega, n, EventQueue.lastMarker?_eq_some.mp hm, rfl⟩
    | none =>
      right
      have hn : ∀ n, q.records.getLast? ≠ some (.overflow n) := by
        intro n hn
        rw [EventQueue.lastMarker?_eq_some.mpr hn] at hm
        cases hm
      by_cases h2 : q.records.length = Config.queueRoom
      · refine .inl ⟨h2, hn, ?_⟩
        simp only [if_pos h2]
        rfl
      · refine .inr ⟨?_, hn, by simp [h2]⟩
        have : q.records.length ≠ 63 := h2
        omega

/-- An offer never touches the threshold or the enables, and clears no flag. -/
theorem EventQueue.offer_frame (q : EventQueue) (r : EventRecord) :
    (q.offer r).1.threshold = q.threshold ∧ (q.offer r).1.enables = q.enables ∧
      (q.offer r).1.flags.done = q.flags.done ∧ (q.offer r).1.flags.rej = q.flags.rej ∧
      (q.offer r).1.flags.halt = q.flags.halt ∧
      (q.flags.evq = true → (q.offer r).1.flags.evq = true) ∧
      (q.flags.ovf = true → (q.offer r).1.flags.ovf = true) := by
  obtain ⟨-, e⟩ | ⟨-, n, -, e⟩ | ⟨-, -, e⟩ | ⟨-, -, e⟩ := q.offer_cases r <;> rw [e] <;>
    simp +contextual [EventQueue.join]

@[simp] theorem EventQueue.raiseDone_records (q : EventQueue) : q.raiseDone.records = q.records := rfl
@[simp] theorem EventQueue.raiseRej_records (q : EventQueue) : q.raiseRej.records = q.records := rfl
@[simp] theorem EventQueue.raiseHalt_records (q : EventQueue) : q.raiseHalt.records = q.records := rfl
@[simp] theorem EventQueue.pop_records (q : EventQueue) : q.pop.records = q.records.drop 1 := rfl
@[simp] theorem EventQueue.raiseDone_threshold (q : EventQueue) : q.raiseDone.threshold = q.threshold := rfl
@[simp] theorem EventQueue.raiseRej_threshold (q : EventQueue) : q.raiseRej.threshold = q.threshold := rfl
@[simp] theorem EventQueue.raiseHalt_threshold (q : EventQueue) : q.raiseHalt.threshold = q.threshold := rfl
@[simp] theorem EventQueue.pop_threshold (q : EventQueue) : q.pop.threshold = q.threshold := rfl

end Sys2Proof.Machine
end

