-- ==== Sys2Proof/Laws/State.lean ====
section
/-!
SUPPORT. What each update of a block changes, one lemma for each field, so that no proof unfolds an update.
-/

namespace Sys2Proof.Machine

variable (s : State)

/-! ## `withTb` -/

@[simp] theorem State.withTb_tb (x : Timebase) : (s.withTb x).tb = x := rfl
@[simp] theorem State.withTb_store (x : Timebase) : (s.withTb x).store = s.store := rfl
@[simp] theorem State.withTb_ce (x : Timebase) : (s.withTb x).ce = s.ce := rfl
@[simp] theorem State.withTb_ou (x : Timebase) : (s.withTb x).ou = s.ou := rfl
@[simp] theorem State.withTb_iu (x : Timebase) : (s.withTb x).iu = s.iu := rfl
@[simp] theorem State.withTb_eq (x : Timebase) : (s.withTb x).eq = s.eq := rfl
@[simp] theorem State.withTb_hc (x : Timebase) : (s.withTb x).hc = s.hc := rfl
@[simp] theorem State.withTb_hp (x : Timebase) : (s.withTb x).hp = s.hp := rfl
@[simp] theorem State.withTb_mail (x : Timebase) : (s.withTb x).mail = s.mail := rfl
@[simp] theorem State.withTb_pending (x : Timebase) : (s.withTb x).pending = s.pending := rfl
@[simp] theorem State.withTb_self : s.withTb s.tb = s := rfl
@[simp] theorem State.withTb_withTb (x y : Timebase) :
    (s.withTb x).withTb y = s.withTb y := rfl

/-! ## `withStore` -/

@[simp] theorem State.withStore_tb (x : Store) : (s.withStore x).tb = s.tb := rfl
@[simp] theorem State.withStore_store (x : Store) : (s.withStore x).store = x := rfl
@[simp] theorem State.withStore_ce (x : Store) : (s.withStore x).ce = s.ce := rfl
@[simp] theorem State.withStore_ou (x : Store) : (s.withStore x).ou = s.ou := rfl
@[simp] theorem State.withStore_iu (x : Store) : (s.withStore x).iu = s.iu := rfl
@[simp] theorem State.withStore_eq (x : Store) : (s.withStore x).eq = s.eq := rfl
@[simp] theorem State.withStore_hc (x : Store) : (s.withStore x).hc = s.hc := rfl
@[simp] theorem State.withStore_hp (x : Store) : (s.withStore x).hp = s.hp := rfl
@[simp] theorem State.withStore_mail (x : Store) : (s.withStore x).mail = s.mail := rfl
@[simp] theorem State.withStore_pending (x : Store) : (s.withStore x).pending = s.pending := rfl
@[simp] theorem State.withStore_self : s.withStore s.store = s := rfl
@[simp] theorem State.withStore_withStore (x y : Store) :
    (s.withStore x).withStore y = s.withStore y := rfl

/-! ## `withCe` -/

@[simp] theorem State.withCe_tb (x : CommandEngine) : (s.withCe x).tb = s.tb := rfl
@[simp] theorem State.withCe_store (x : CommandEngine) : (s.withCe x).store = s.store := rfl
@[simp] theorem State.withCe_ce (x : CommandEngine) : (s.withCe x).ce = x := rfl
@[simp] theorem State.withCe_ou (x : CommandEngine) : (s.withCe x).ou = s.ou := rfl
@[simp] theorem State.withCe_iu (x : CommandEngine) : (s.withCe x).iu = s.iu := rfl
@[simp] theorem State.withCe_eq (x : CommandEngine) : (s.withCe x).eq = s.eq := rfl
@[simp] theorem State.withCe_hc (x : CommandEngine) : (s.withCe x).hc = s.hc := rfl
@[simp] theorem State.withCe_hp (x : CommandEngine) : (s.withCe x).hp = s.hp := rfl
@[simp] theorem State.withCe_mail (x : CommandEngine) : (s.withCe x).mail = s.mail := rfl
@[simp] theorem State.withCe_pending (x : CommandEngine) : (s.withCe x).pending = s.pending := rfl
@[simp] theorem State.withCe_self : s.withCe s.ce = s := rfl
@[simp] theorem State.withCe_withCe (x y : CommandEngine) :
    (s.withCe x).withCe y = s.withCe y := rfl

/-! ## `withOu` -/

@[simp] theorem State.withOu_tb (x : OutputUnit) : (s.withOu x).tb = s.tb := rfl
@[simp] theorem State.withOu_store (x : OutputUnit) : (s.withOu x).store = s.store := rfl
@[simp] theorem State.withOu_ce (x : OutputUnit) : (s.withOu x).ce = s.ce := rfl
@[simp] theorem State.withOu_ou (x : OutputUnit) : (s.withOu x).ou = x := rfl
@[simp] theorem State.withOu_iu (x : OutputUnit) : (s.withOu x).iu = s.iu := rfl
@[simp] theorem State.withOu_eq (x : OutputUnit) : (s.withOu x).eq = s.eq := rfl
@[simp] theorem State.withOu_hc (x : OutputUnit) : (s.withOu x).hc = s.hc := rfl
@[simp] theorem State.withOu_hp (x : OutputUnit) : (s.withOu x).hp = s.hp := rfl
@[simp] theorem State.withOu_mail (x : OutputUnit) : (s.withOu x).mail = s.mail := rfl
@[simp] theorem State.withOu_pending (x : OutputUnit) : (s.withOu x).pending = s.pending := rfl
@[simp] theorem State.withOu_self : s.withOu s.ou = s := rfl
@[simp] theorem State.withOu_withOu (x y : OutputUnit) :
    (s.withOu x).withOu y = s.withOu y := rfl

/-! ## `withIu` -/

@[simp] theorem State.withIu_tb (x : InputUnit) : (s.withIu x).tb = s.tb := rfl
@[simp] theorem State.withIu_store (x : InputUnit) : (s.withIu x).store = s.store := rfl
@[simp] theorem State.withIu_ce (x : InputUnit) : (s.withIu x).ce = s.ce := rfl
@[simp] theorem State.withIu_ou (x : InputUnit) : (s.withIu x).ou = s.ou := rfl
@[simp] theorem State.withIu_iu (x : InputUnit) : (s.withIu x).iu = x := rfl
@[simp] theorem State.withIu_eq (x : InputUnit) : (s.withIu x).eq = s.eq := rfl
@[simp] theorem State.withIu_hc (x : InputUnit) : (s.withIu x).hc = s.hc := rfl
@[simp] theorem State.withIu_hp (x : InputUnit) : (s.withIu x).hp = s.hp := rfl
@[simp] theorem State.withIu_mail (x : InputUnit) : (s.withIu x).mail = s.mail := rfl
@[simp] theorem State.withIu_pending (x : InputUnit) : (s.withIu x).pending = s.pending := rfl
@[simp] theorem State.withIu_self : s.withIu s.iu = s := rfl
@[simp] theorem State.withIu_withIu (x y : InputUnit) :
    (s.withIu x).withIu y = s.withIu y := rfl

/-! ## `withEq` -/

@[simp] theorem State.withEq_tb (x : EventQueue) : (s.withEq x).tb = s.tb := rfl
@[simp] theorem State.withEq_store (x : EventQueue) : (s.withEq x).store = s.store := rfl
@[simp] theorem State.withEq_ce (x : EventQueue) : (s.withEq x).ce = s.ce := rfl
@[simp] theorem State.withEq_ou (x : EventQueue) : (s.withEq x).ou = s.ou := rfl
@[simp] theorem State.withEq_iu (x : EventQueue) : (s.withEq x).iu = s.iu := rfl
@[simp] theorem State.withEq_eq (x : EventQueue) : (s.withEq x).eq = x := rfl
@[simp] theorem State.withEq_hc (x : EventQueue) : (s.withEq x).hc = s.hc := rfl
@[simp] theorem State.withEq_hp (x : EventQueue) : (s.withEq x).hp = s.hp := rfl
@[simp] theorem State.withEq_mail (x : EventQueue) : (s.withEq x).mail = s.mail := rfl
@[simp] theorem State.withEq_pending (x : EventQueue) : (s.withEq x).pending = s.pending := rfl
@[simp] theorem State.withEq_self : s.withEq s.eq = s := rfl
@[simp] theorem State.withEq_withEq (x y : EventQueue) :
    (s.withEq x).withEq y = s.withEq y := rfl

/-! ## `withHc` -/

@[simp] theorem State.withHc_tb (x : HaltController) : (s.withHc x).tb = s.tb := rfl
@[simp] theorem State.withHc_store (x : HaltController) : (s.withHc x).store = s.store := rfl
@[simp] theorem State.withHc_ce (x : HaltController) : (s.withHc x).ce = s.ce := rfl
@[simp] theorem State.withHc_ou (x : HaltController) : (s.withHc x).ou = s.ou := rfl
@[simp] theorem State.withHc_iu (x : HaltController) : (s.withHc x).iu = s.iu := rfl
@[simp] theorem State.withHc_eq (x : HaltController) : (s.withHc x).eq = s.eq := rfl
@[simp] theorem State.withHc_hc (x : HaltController) : (s.withHc x).hc = x := rfl
@[simp] theorem State.withHc_hp (x : HaltController) : (s.withHc x).hp = s.hp := rfl
@[simp] theorem State.withHc_mail (x : HaltController) : (s.withHc x).mail = s.mail := rfl
@[simp] theorem State.withHc_pending (x : HaltController) : (s.withHc x).pending = s.pending := rfl
@[simp] theorem State.withHc_self : s.withHc s.hc = s := rfl
@[simp] theorem State.withHc_withHc (x y : HaltController) :
    (s.withHc x).withHc y = s.withHc y := rfl

/-! ## `withHp` -/

@[simp] theorem State.withHp_tb (x : HostPort) : (s.withHp x).tb = s.tb := rfl
@[simp] theorem State.withHp_store (x : HostPort) : (s.withHp x).store = s.store := rfl
@[simp] theorem State.withHp_ce (x : HostPort) : (s.withHp x).ce = s.ce := rfl
@[simp] theorem State.withHp_ou (x : HostPort) : (s.withHp x).ou = s.ou := rfl
@[simp] theorem State.withHp_iu (x : HostPort) : (s.withHp x).iu = s.iu := rfl
@[simp] theorem State.withHp_eq (x : HostPort) : (s.withHp x).eq = s.eq := rfl
@[simp] theorem State.withHp_hc (x : HostPort) : (s.withHp x).hc = s.hc := rfl
@[simp] theorem State.withHp_hp (x : HostPort) : (s.withHp x).hp = x := rfl
@[simp] theorem State.withHp_mail (x : HostPort) : (s.withHp x).mail = s.mail := rfl
@[simp] theorem State.withHp_pending (x : HostPort) : (s.withHp x).pending = s.pending := rfl
@[simp] theorem State.withHp_self : s.withHp s.hp = s := rfl
@[simp] theorem State.withHp_withHp (x y : HostPort) :
    (s.withHp x).withHp y = s.withHp y := rfl

/-! ## `withMail` -/

@[simp] theorem State.withMail_tb (x : Mail) : (s.withMail x).tb = s.tb := rfl
@[simp] theorem State.withMail_store (x : Mail) : (s.withMail x).store = s.store := rfl
@[simp] theorem State.withMail_ce (x : Mail) : (s.withMail x).ce = s.ce := rfl
@[simp] theorem State.withMail_ou (x : Mail) : (s.withMail x).ou = s.ou := rfl
@[simp] theorem State.withMail_iu (x : Mail) : (s.withMail x).iu = s.iu := rfl
@[simp] theorem State.withMail_eq (x : Mail) : (s.withMail x).eq = s.eq := rfl
@[simp] theorem State.withMail_hc (x : Mail) : (s.withMail x).hc = s.hc := rfl
@[simp] theorem State.withMail_hp (x : Mail) : (s.withMail x).hp = s.hp := rfl
@[simp] theorem State.withMail_mail (x : Mail) : (s.withMail x).mail = x := rfl
@[simp] theorem State.withMail_pending (x : Mail) : (s.withMail x).pending = s.pending := rfl
@[simp] theorem State.withMail_self : s.withMail s.mail = s := rfl
@[simp] theorem State.withMail_withMail (x y : Mail) :
    (s.withMail x).withMail y = s.withMail y := rfl

/-! ## `withPending` -/

@[simp] theorem State.withPending_tb (x : List Instr) : (s.withPending x).tb = s.tb := rfl
@[simp] theorem State.withPending_store (x : List Instr) : (s.withPending x).store = s.store := rfl
@[simp] theorem State.withPending_ce (x : List Instr) : (s.withPending x).ce = s.ce := rfl
@[simp] theorem State.withPending_ou (x : List Instr) : (s.withPending x).ou = s.ou := rfl
@[simp] theorem State.withPending_iu (x : List Instr) : (s.withPending x).iu = s.iu := rfl
@[simp] theorem State.withPending_eq (x : List Instr) : (s.withPending x).eq = s.eq := rfl
@[simp] theorem State.withPending_hc (x : List Instr) : (s.withPending x).hc = s.hc := rfl
@[simp] theorem State.withPending_hp (x : List Instr) : (s.withPending x).hp = s.hp := rfl
@[simp] theorem State.withPending_mail (x : List Instr) : (s.withPending x).mail = s.mail := rfl
@[simp] theorem State.withPending_pending (x : List Instr) : (s.withPending x).pending = x := rfl
@[simp] theorem State.withPending_self : s.withPending s.pending = s := rfl
@[simp] theorem State.withPending_withPending (x y : List Instr) :
    (s.withPending x).withPending y = s.withPending y := rfl

end Sys2Proof.Machine
end

