-- ==== Sys2Proof/Laws/Store.lean ====
section
/-!
SUPPORT. The shared operations over the Schedule Store: for each, everything it can change, and what it does to
the entries as a whole.
-/

namespace Sys2Proof.Machine

/-! ## Banks of lists -/

/-- Replacing one list of a bank exchanges its entries and no others. -/
theorem flatten_set_perm {α : Type} {n : Nat} (v : Vector (List α) n) (i : Fin n) (l : List α) :
    ((v.set i l).toList.flatten ++ v[i]).Perm (v.toList.flatten ++ l) := by
  rcases i with ⟨i, hi⟩
  have hl : i < v.toList.length := by simpa using hi
  have e1 : (v.set i l).toList = v.toList.set i l := by simp [Vector.toList_set]
  have e2 : v[i] = v.toList[i] := by simp
  have key : ∀ (L : List (List α)) (j : Nat) (hj : j < L.length),
      ((L.set j l).flatten ++ L[j]).Perm (L.flatten ++ l) := by
    intro L
    induction L with
    | nil => intro j hj; simp at hj
    | cons x xs ih =>
      intro j hj
      cases j with
      | zero =>
        simp only [List.set_cons_zero, List.flatten_cons, List.getElem_cons_zero]
        refine List.perm_append_comm.trans ?_
        rw [List.append_assoc]
        exact List.perm_append_comm.append_left x
      | succ j =>
        simp only [List.set_cons_succ, List.flatten_cons, List.getElem_cons_succ, List.append_assoc]
        exact (ih j (by simpa using hj)).append_left x
  show ((v.set i l).toList.flatten ++ v[i]).Perm _
  rw [e1, e2]
  exact key _ _ hl

/-- Entries added behind one list of a bank. -/
theorem flatten_set_append_perm {α : Type} {n : Nat} (v : Vector (List α) n) (i : Fin n) (l : List α) :
    (v.set i (v[i] ++ l)).toList.flatten.Perm (v.toList.flatten ++ l) := by
  have h := flatten_set_perm v i (v[i] ++ l)
  have h' : ((v.set i (v[i] ++ l)).toList.flatten ++ v[i]).Perm ((v.toList.flatten ++ l) ++ v[i]) :=
    h.trans (by
      rw [List.append_assoc]
      exact List.perm_append_comm.append_left _)
  exact (List.perm_append_right_iff _).mp h'

/-- Filtering every list of a bank filters its entries. -/
theorem flatten_mapBank_filter {α : Type} {n : Nat} (v : Vector (List α) n) (p : α → Bool) :
    (mapBank v fun _ l => l.filter p).toList.flatten = v.toList.flatten.filter p := by
  rw [List.filter_flatten]
  congr 1
  apply List.ext_getElem
  · simp
  · intro i h1 h2
    simp

/-- An entry of a bank lies in one of its lists. -/
theorem mem_flatten_bank {α : Type} {n : Nat} (v : Vector (List α) n) (x : α) :
    x ∈ v.toList.flatten ↔ ∃ i : Fin n, x ∈ v[i] := by
  constructor
  · intro h
    obtain ⟨l, hl, hx⟩ := List.mem_flatten.mp h
    obtain ⟨i, hi, rfl⟩ := List.getElem_of_mem hl
    exact ⟨⟨i, by simpa using hi⟩, by simpa using hx⟩
  · rintro ⟨⟨i, hi⟩, hx⟩
    refine List.mem_flatten.mpr ⟨v[i], ?_, hx⟩
    exact List.mem_iff_getElem.mpr ⟨i, by simpa using hi, by simp⟩

/-! ## Placement (R21) -/

theorem insertPending_perm (now : Time) (x : PendingEntry) (l : List PendingEntry) :
    (insertPending now x l).Perm (x :: l) := by
  induction l with
  | nil => exact .refl _
  | cons y ys ih =>
    simp only [insertPending]
    split
    · exact (ih.cons y).trans (.swap x y ys)
    · exact .refl _

@[simp] theorem mem_insertPending (now : Time) (x y : PendingEntry) (l : List PendingEntry) :
    y ∈ insertPending now x l ↔ y = x ∨ y ∈ l := by
  rw [(insertPending_perm now x l).mem_iff, List.mem_cons]

/-- Placements one after another change the agenda alone. -/
theorem Store.placeAll_eq (now : Time) (xs : List PendingEntry) (st : Store) :
    st.placeAll now xs =
      { st with agenda := xs.foldl (fun agenda x => insertPending now x agenda) st.agenda } := by
  induction xs generalizing st with
  | nil => rfl
  | cons x xs ih => rw [Store.placeAll, ih]; rfl

theorem foldl_insertPending_perm {β : Type} (now : Time) (f : β → PendingEntry) (xs : List β)
    (l : List PendingEntry) :
    (xs.foldl (fun agenda x => insertPending now (f x) agenda) l).Perm (xs.map f ++ l) := by
  induction xs generalizing l with
  | nil => exact .refl _
  | cons x xs ih =>
    simp only [List.foldl_cons, List.map_cons, List.cons_append]
    refine (ih _).trans ?_
    refine ((insertPending_perm now (f x) l).append_left (xs.map f)).trans ?_
    exact List.perm_middle

/-- Nothing is lost or duplicated by placements. -/
theorem Store.placeAll_agenda_perm (now : Time) (xs : List PendingEntry) (st : Store) :
    (st.placeAll now xs).agenda.Perm (xs ++ st.agenda) := by
  rw [Store.placeAll_eq]
  simpa using foldl_insertPending_perm now id xs st.agenda

section Fields

variable (st : Store) (now : Time)

@[simp] theorem Store.place_gens (x : PendingEntry) : (st.place now x).gens = st.gens := rfl
@[simp] theorem Store.place_free (x : PendingEntry) : (st.place now x).free = st.free := rfl
@[simp] theorem Store.place_reserved (x : PendingEntry) : (st.place now x).reserved = st.reserved := rfl
@[simp] theorem Store.place_held (x : PendingEntry) : (st.place now x).held = st.held := rfl
@[simp] theorem Store.place_parked (x : PendingEntry) : (st.place now x).parked = st.parked := rfl
@[simp] theorem Store.place_groups (x : PendingEntry) : (st.place now x).groups = st.groups := rfl
@[simp] theorem Store.place_agenda (x : PendingEntry) :
    (st.place now x).agenda = insertPending now x st.agenda := rfl

@[simp] theorem Store.placeAll_gens (xs : List PendingEntry) : (st.placeAll now xs).gens = st.gens := by
  rw [Store.placeAll_eq]
@[simp] theorem Store.placeAll_free (xs : List PendingEntry) : (st.placeAll now xs).free = st.free := by
  rw [Store.placeAll_eq]
@[simp] theorem Store.placeAll_reserved (xs : List PendingEntry) :
    (st.placeAll now xs).reserved = st.reserved := by rw [Store.placeAll_eq]
@[simp] theorem Store.placeAll_held (xs : List PendingEntry) : (st.placeAll now xs).held = st.held := by
  rw [Store.placeAll_eq]
@[simp] theorem Store.placeAll_parked (xs : List PendingEntry) :
    (st.placeAll now xs).parked = st.parked := by rw [Store.placeAll_eq]
@[simp] theorem Store.placeAll_groups (xs : List PendingEntry) :
    (st.placeAll now xs).groups = st.groups := by rw [Store.placeAll_eq]

@[simp] theorem Store.joinHeld_gens (src : Source) (h : HeldEntry) :
    (st.joinHeld src h).gens = st.gens := rfl
@[simp] theorem Store.joinHeld_free (src : Source) (h : HeldEntry) :
    (st.joinHeld src h).free = st.free := rfl
@[simp] theorem Store.joinHeld_reserved (src : Source) (h : HeldEntry) :
    (st.joinHeld src h).reserved = st.reserved := rfl
@[simp] theorem Store.joinHeld_agenda (src : Source) (h : HeldEntry) :
    (st.joinHeld src h).agenda = st.agenda := rfl
@[simp] theorem Store.joinHeld_parked (src : Source) (h : HeldEntry) :
    (st.joinHeld src h).parked = st.parked := rfl
@[simp] theorem Store.joinHeld_groups (src : Source) (h : HeldEntry) :
    (st.joinHeld src h).groups = st.groups := rfl
@[simp] theorem Store.joinHeld_held (src : Source) (h : HeldEntry) :
    (st.joinHeld src h).held = st.held.set src.index (st.held[src.index] ++ [h]) := rfl

@[simp] theorem Store.joinParked_gens (g : Fin 16) (q : ParkedEntry) :
    (st.joinParked g q).gens = st.gens := rfl
@[simp] theorem Store.joinParked_free (g : Fin 16) (q : ParkedEntry) :
    (st.joinParked g q).free = st.free := rfl
@[simp] theorem Store.joinParked_reserved (g : Fin 16) (q : ParkedEntry) :
    (st.joinParked g q).reserved = st.reserved := rfl
@[simp] theorem Store.joinParked_agenda (g : Fin 16) (q : ParkedEntry) :
    (st.joinParked g q).agenda = st.agenda := rfl
@[simp] theorem Store.joinParked_held (g : Fin 16) (q : ParkedEntry) :
    (st.joinParked g q).held = st.held := rfl
@[simp] theorem Store.joinParked_groups (g : Fin 16) (q : ParkedEntry) :
    (st.joinParked g q).groups = st.groups := rfl
@[simp] theorem Store.joinParked_parked (g : Fin 16) (q : ParkedEntry) :
    (st.joinParked g q).parked = st.parked.set g (st.parked[g] ++ [q]) := rfl

@[simp] theorem Store.freeSlot_gens (k : Fin 128) :
    (st.freeSlot k).gens = st.gens.set k (st.gens[k] + 1) := rfl
@[simp] theorem Store.freeSlot_free (k : Fin 128) : (st.freeSlot k).free = st.free ++ [k] := rfl
@[simp] theorem Store.freeSlot_reserved (k : Fin 128) : (st.freeSlot k).reserved = st.reserved := rfl
@[simp] theorem Store.freeSlot_agenda (k : Fin 128) : (st.freeSlot k).agenda = st.agenda := rfl
@[simp] theorem Store.freeSlot_held (k : Fin 128) : (st.freeSlot k).held = st.held := rfl
@[simp] theorem Store.freeSlot_parked (k : Fin 128) : (st.freeSlot k).parked = st.parked := rfl
@[simp] theorem Store.freeSlot_groups (k : Fin 128) : (st.freeSlot k).groups = st.groups := rfl

@[simp] theorem Store.takeOut_gens (k : Fin 128) : (st.takeOut k).gens = st.gens := rfl
@[simp] theorem Store.takeOut_free (k : Fin 128) : (st.takeOut k).free = st.free := rfl
@[simp] theorem Store.takeOut_reserved (k : Fin 128) : (st.takeOut k).reserved = st.reserved := rfl
@[simp] theorem Store.takeOut_groups (k : Fin 128) : (st.takeOut k).groups = st.groups := rfl
@[simp] theorem Store.takeOut_agenda (k : Fin 128) :
    (st.takeOut k).agenda = st.agenda.filter (fun p => p.live.slot != k) := rfl
@[simp] theorem Store.takeOut_heldEntries (k : Fin 128) :
    (st.takeOut k).heldEntries = st.heldEntries.filter (fun h => h.live.slot != k) :=
  flatten_mapBank_filter _ _
@[simp] theorem Store.takeOut_parkedEntries (k : Fin 128) :
    (st.takeOut k).parkedEntries = st.parkedEntries.filter (fun q => q.live.slot != k) :=
  flatten_mapBank_filter _ _

@[simp] theorem Store.setSuspended_gens (g : Fin 16) (b : Bool) :
    (st.setSuspended g b).gens = st.gens := rfl
@[simp] theorem Store.setSuspended_free (g : Fin 16) (b : Bool) :
    (st.setSuspended g b).free = st.free := rfl
@[simp] theorem Store.setSuspended_reserved (g : Fin 16) (b : Bool) :
    (st.setSuspended g b).reserved = st.reserved := rfl
@[simp] theorem Store.setSuspended_agenda (g : Fin 16) (b : Bool) :
    (st.setSuspended g b).agenda = st.agenda := rfl
@[simp] theorem Store.setSuspended_held (g : Fin 16) (b : Bool) :
    (st.setSuspended g b).held = st.held := rfl
@[simp] theorem Store.setSuspended_parked (g : Fin 16) (b : Bool) :
    (st.setSuspended g b).parked = st.parked := rfl

/-- Writing one suspended flag leaves the others. -/
@[simp] theorem Store.suspended_setSuspended (g i : Fin 16) (b : Bool) :
    (st.setSuspended g b).suspended i = if i = g then b else st.suspended i := by
  simp only [Store.suspended, Store.setSuspended]
  rw [getElem_fin_set]
  split <;> simp_all

/-- Writing a suspended flag keeps every halt action. -/
@[simp] theorem Store.haltAction_setSuspended (g i : Fin 16) (b : Bool) :
    (st.setSuspended g b).groups[i].haltAction = st.groups[i].haltAction := by
  simp only [Store.setSuspended]
  rw [getElem_fin_set]
  split <;> simp_all

end Fields

theorem Store.joinHeld_heldEntries_perm (st : Store) (src : Source) (h : HeldEntry) :
    (st.joinHeld src h).heldEntries.Perm (st.heldEntries ++ [h]) :=
  flatten_set_append_perm _ _ _

theorem Store.joinParked_parkedEntries_perm (st : Store) (g : Fin 16) (q : ParkedEntry) :
    (st.joinParked g q).parkedEntries.Perm (st.parkedEntries ++ [q]) :=
  flatten_set_append_perm _ _ _

/-! ## Finding an entry -/

theorem Store.mem_heldEntries (st : Store) (h : HeldEntry) :
    h ∈ st.heldEntries ↔ ∃ i : Fin 12, h ∈ st.held[i] := mem_flatten_bank _ _

theorem Store.mem_parkedEntries (st : Store) (q : ParkedEntry) :
    q ∈ st.parkedEntries ↔ ∃ g : Fin 16, q ∈ st.parked[g] := mem_flatten_bank _ _

/-- What a search by slot answers. -/
theorem Store.find?_cases (st : Store) (k : Fin 128) :
    (∃ p ∈ st.agenda, p.live.slot = k ∧ st.find? k = some (.pending p)) ∨
      (∃ h ∈ st.heldEntries, h.live.slot = k ∧ st.find? k = some (.held h)) ∨
      (∃ q ∈ st.parkedEntries, q.live.slot = k ∧ st.find? k = some (.parked q)) ∨
      ((∀ p ∈ st.agenda, p.live.slot ≠ k) ∧ (∀ h ∈ st.heldEntries, h.live.slot ≠ k) ∧
        (∀ q ∈ st.parkedEntries, q.live.slot ≠ k) ∧ st.find? k = none) := by
  unfold Store.find?
  cases h1 : st.agenda.find? (fun p => p.live.slot == k) with
  | some p =>
    exact .inl ⟨p, List.mem_of_find?_eq_some h1, by simpa using List.find?_some h1, rfl⟩
  | none =>
    cases h2 : st.heldEntries.find? (fun p => p.live.slot == k) with
    | some p =>
      exact .inr (.inl ⟨p, List.mem_of_find?_eq_some h2, by simpa using List.find?_some h2, rfl⟩)
    | none =>
      cases h3 : st.parkedEntries.find? (fun p => p.live.slot == k) with
      | some p =>
        exact .inr (.inr (.inl
          ⟨p, List.mem_of_find?_eq_some h3, by simpa using List.find?_some h3, rfl⟩))
      | none =>
        refine .inr (.inr (.inr ⟨?_, ?_, ?_, rfl⟩))
        · simpa using h1
        · simpa using h2
        · simpa using h3

/-- The entry found lies in the slot that was searched for. -/
theorem Store.slot_of_find? {st : Store} {k : Fin 128} {f : Found} (h : st.find? k = some f) :
    f.live.slot = k := by
  obtain ⟨p, -, hp, e⟩ | ⟨p, -, hp, e⟩ | ⟨p, -, hp, e⟩ | ⟨-, -, -, e⟩ := st.find?_cases k <;>
    rw [e] at h <;> cases h <;> exact hp

/-- A live handle names the entry in its slot, with the slot's generation (R11). -/
theorem Store.live?_eq_some {st : Store} {h : Handle} {f : Found} :
    st.live? h = some f ↔ st.gens[h.slot] = h.gen ∧ st.find? h.slot = some f := by
  simp [Store.live?]

/-! ## Freeing one after another (R116) -/

/-- The slots join the tail of the free list in order; the collections are not touched. -/
theorem Store.freeLives_store (reason : DoneReason) (ls : List Live) (st : Store) :
    ∃ gens, (st.freeLives reason ls).1 = { st with gens := gens, free := st.free ++ ls.map (·.slot) } ∧
      ∀ k : Fin 128, gens[k] = st.gens[k] + BitVec.ofNat 4 ((ls.map (·.slot)).count k) := by
  induction ls generalizing st with
  | nil => exact ⟨st.gens, by simp [Store.freeLives], by simp⟩
  | cons l ls ih =>
    obtain ⟨gens, h1, h2⟩ := ih (st.freeSlot l.slot)
    refine ⟨gens, ?_, ?_⟩
    · rw [Store.freeLives]
      simp [h1]
    · intro k
      rw [h2 k, Store.freeSlot_gens, getElem_fin_set, List.map_cons, List.count_cons]
      by_cases hk : k = l.slot
      · subst hk
        simp only [if_true, beq_self_eq_true]
        apply BitVec.eq_of_toNat_eq
        simp [BitVec.toNat_add, BitVec.toNat_ofNat]
        omega
      · have : (l.slot == k) = false := by simpa using fun h => hk h.symm
        simp [hk, this]

/-- Each record is the DONE record of a freed entry with the handle of its slot as it then stands. -/
theorem Store.freeLives_records (reason : DoneReason) (ls : List Live) (st : Store) :
    ∀ r ∈ (st.freeLives reason ls).2, ∃ l ∈ ls, ∃ st' : Store, r ∈ st'.doneRecords l reason false := by
  induction ls generalizing st with
  | nil => simp [Store.freeLives]
  | cons l ls ih =>
    intro r hr
    simp only [Store.freeLives, List.mem_append] at hr
    obtain hr | hr := hr
    · exact ⟨l, by simp, st, hr⟩
    · obtain ⟨l', h1, h2⟩ := ih _ r hr
      exact ⟨l', by simp [h1], h2⟩

/-- What a DONE record of an entry is. -/
theorem Store.mem_doneRecords {st : Store} {l : Live} {reason : DoneReason} {reheld : Bool}
    {r : EventRecord} (h : r ∈ st.doneRecords l reason reheld) :
    r = .done (st.handleOf l.slot) l.entry.group l.entry.tag reason l.firings reheld ∧
      l.entry.report ≠ .none := by
  cases hr : l.entry.report <;> simp_all [Store.doneRecords]

/-! ## Trigger events (R92) -/

/-- Every entry of the list stays or is armed, and none does both. -/
theorem walkHeld_perm (suspended : Fin 16 → Bool) (l : List HeldEntry) :
    ((walkHeld suspended l).stay.map (·.live) ++ (walkHeld suspended l).armed).Perm (l.map (·.live)) := by
  induction l with
  | nil => exact .refl _
  | cons h hs ih =>
    simp only [walkHeld]
    split
    · simpa using ih
    · split
      · simpa using List.perm_middle.trans (ih.cons h.live)
      · simpa using ih

@[simp] theorem Store.trigger_gens (st : Store) (now : Time) (src : Source) (t : Time) :
    (st.trigger now src t).gens = st.gens := by simp [Store.trigger]
@[simp] theorem Store.trigger_free (st : Store) (now : Time) (src : Source) (t : Time) :
    (st.trigger now src t).free = st.free := by simp [Store.trigger]
@[simp] theorem Store.trigger_reserved (st : Store) (now : Time) (src : Source) (t : Time) :
    (st.trigger now src t).reserved = st.reserved := by simp [Store.trigger]
@[simp] theorem Store.trigger_parked (st : Store) (now : Time) (src : Source) (t : Time) :
    (st.trigger now src t).parked = st.parked := by simp [Store.trigger]
@[simp] theorem Store.trigger_groups (st : Store) (now : Time) (src : Source) (t : Time) :
    (st.trigger now src t).groups = st.groups := by simp [Store.trigger]
@[simp] theorem Store.trigger_held (st : Store) (now : Time) (src : Source) (t : Time) :
    (st.trigger now src t).held = st.held.set src.index (st.walk src).stay := by simp [Store.trigger]

/-! ## Group walks (R113, R114, R118) -/

theorem Store.suspendGroup_suspended {st : Store} {g : Fin 16} (now : Time) (h : st.suspended g = true) :
    st.suspendGroup now g = st := by simp [Store.suspendGroup, h]

theorem Store.resumeGroup_running {st : Store} {g : Fin 16} (now : Time) (h : st.suspended g = false) :
    st.resumeGroup now g = st := by simp [Store.resumeGroup, h]

/-- Suspending a group touches the agenda, that group's parked set and its flag. -/
theorem Store.suspendGroup_frame (st : Store) (now : Time) (g : Fin 16) :
    (st.suspendGroup now g).gens = st.gens ∧ (st.suspendGroup now g).free = st.free ∧
      (st.suspendGroup now g).reserved = st.reserved ∧ (st.suspendGroup now g).held = st.held := by
  unfold Store.suspendGroup
  split <;> simp

/-- Resuming a group touches the agenda, that group's parked set and its flag. -/
theorem Store.resumeGroup_frame (st : Store) (now : Time) (g : Fin 16) :
    (st.resumeGroup now g).gens = st.gens ∧ (st.resumeGroup now g).free = st.free ∧
      (st.resumeGroup now g).reserved = st.reserved ∧ (st.resumeGroup now g).held = st.held := by
  unfold Store.resumeGroup
  split <;> simp

/-- A property of stores that each kind of halt action keeps is kept by the walk over the groups. -/
theorem Store.haltGroups_keeps {P : Store → Prop} (now : Time)
    (cancel : ∀ st g, P st → P (st.cancelGroup .halted g).1)
    (suspend : ∀ st g, P st → P (st.suspendGroup now g)) (gs : List (Fin 16)) (st : Store) (h : P st) :
    P (st.haltGroups now gs).1 := by
  induction gs generalizing st with
  | nil => exact h
  | cons g gs ih =>
    simp only [Store.haltGroups]
    apply ih
    unfold Store.haltGroup
    split
    · exact h
    · exact cancel st g h
    · exact suspend st g h

/-- Every record of the walk comes from the cancel of one group. -/
theorem Store.haltGroups_records (now : Time) (gs : List (Fin 16)) (st : Store) :
    ∀ r ∈ (st.haltGroups now gs).2, ∃ g ∈ gs, ∃ st' : Store, r ∈ (st'.cancelGroup .halted g).2 := by
  induction gs generalizing st with
  | nil => simp [Store.haltGroups]
  | cons g gs ih =>
    intro r hr
    simp only [Store.haltGroups, List.mem_append] at hr
    obtain hr | hr := hr
    · refine ⟨g, by simp, st, ?_⟩
      unfold Store.haltGroup at hr
      split at hr <;> simp_all
    · obtain ⟨g', h1, h2⟩ := ih _ r hr
      exact ⟨g', by simp [h1], h2⟩

/-! ## Going live (R81) -/

/-- A property of stores that a placement and the two joins keep is kept when a batch goes live. -/
theorem Store.goLiveAll_keeps {P : Store → Prop} (tc : Time)
    (one : ∀ st k e, P st → P (st.goLive tc k e)) (xs : List (Fin 128 × Entry)) (st : Store) (h : P st) :
    P (st.goLiveAll tc xs) := by
  induction xs generalizing st with
  | nil => exact h
  | cons x xs ih => exact ih _ (one st x.1 x.2 h)

/-- Going live touches one collection alone. -/
theorem Store.goLive_frame (st : Store) (tc : Time) (k : Fin 128) (e : Entry) :
    (st.goLive tc k e).gens = st.gens ∧ (st.goLive tc k e).free = st.free ∧
      (st.goLive tc k e).reserved = st.reserved ∧ (st.goLive tc k e).groups = st.groups := by
  unfold Store.goLive
  cases e.timing with
  | atTime due => dsimp only; split <;> simp
  | afterDelay delay => dsimp only; split <;> simp
  | onTrigger source count offset rehold => simp

end Sys2Proof.Machine
end

