-- ==== Sys2Proof/Laws/Blocks.lean ====
section
/-!
SUPPORT. The shared operations of the Timebase, the Input Unit, the Halt Controller and the dispatch: for each,
everything it can do.
-/

namespace Sys2Proof.Machine

/-! ## Timebase (R50, R56) -/

@[simp] theorem Timebase.boundary_time (tb : Timebase) : tb.boundary.time = tb.time := rfl
@[simp] theorem Timebase.boundary_snapshot (tb : Timebase) : tb.boundary.snapshot = tb.snapshot := rfl
@[simp] theorem Timebase.boundary_pendingTrim (tb : Timebase) : tb.boundary.pendingTrim = none := rfl
@[simp] theorem Timebase.stop_time (tb : Timebase) : tb.stop.time = tb.time := rfl
@[simp] theorem Timebase.stop_snapshot (tb : Timebase) : tb.stop.snapshot = tb.snapshot := rfl
@[simp] theorem Timebase.stop_clock (tb : Timebase) : tb.stop.clock = .stopped := rfl

/-- A boundary leaves the timebase RUNNING, whatever it was (R50). -/
theorem Timebase.boundary_running (tb : Timebase) : ∃ n, tb.boundary.clock = .running n := ⟨_, rfl⟩

/-! ## Input Unit (R139 to R142) -/

@[simp] theorem InputUnit.getElem_sampled (u : InputUnit) (T : Time) (pins : Pins) (i : Nat) (h : i < 8) :
    (u.sampled T pins).lines[i] = u.lines[i].sampled T (pins.getLsbD i) :=
  getElem_mapBank u.lines (fun k r => r.sampled T (pins.getLsbD k)) i h

/-- A sample never touches the configuration of a line or its missed flag. -/
theorem InputRecord.sampled_frame (r : InputRecord) (T : Time) (v : Bool) :
    (r.sampled T v).edgeSelect = r.edgeSelect ∧ (r.sampled T v).capture = r.capture ∧
      (r.sampled T v).activeLevel = r.activeLevel ∧ (r.sampled T v).filter = r.filter ∧
      (r.sampled T v).missed = r.missed := by
  unfold InputRecord.sampled
  split
  · simp
  · split <;> simp [InputRecord.confirm]

/-- What the running-ends notice does: it takes effect at once, or waits behind the tick work that is owed. -/
theorem endRunning_cases (s : State) :
    (s.mail.inputTick = none ∧ endRunning s = s.withIu s.iu.ended) ∨
      (s.mail.inputTick ≠ none ∧ endRunning s = s.withMail { s.mail with endsNotice := true }) := by
  cases h : s.mail.inputTick with
  | none => exact .inl ⟨rfl, by simp [endRunning, h]⟩
  | some T => exact .inr ⟨by simp, by simp [endRunning, h]⟩

/-- The Input Unit's event is its work for the tick event that waits, or nothing. -/
theorem sample_cases (pins : Pins) (s : State) :
    (s.mail.inputTick = none ∧ sample pins s = s) ∨
      ∃ T, s.mail.inputTick = some T ∧ sample pins s = inputWork T pins s := by
  cases h : s.mail.inputTick with
  | none => exact .inl ⟨rfl, by simp [sample, h]⟩
  | some T => exact .inr ⟨T, rfl, by simp [sample, h]⟩

/-- A running-begins notice leaves nothing of the samples before it: levels from the pins, nothing held. -/
theorem InputUnit.begun_sampled (u : InputUnit) (T : Time) (pins pins' : Pins) :
    (u.sampled T pins).begun pins' = u.begun pins' := by
  have h : ∀ k : Fin 8, ((u.sampled T pins).begun pins').lines[k] = (u.begun pins').lines[k] := by
    intro k
    obtain ⟨h1, h2, h3, h4, h5⟩ := u.lines[k].sampled_frame T (pins.getLsbD k)
    simp [InputUnit.begun, InputRecord.dropped] at *
    exact ⟨h1, h2, h3, h4, h5⟩
  have := bank_ext h
  cases hu : (u.sampled T pins).begun pins'
  cases hv : u.begun pins'
  simp_all

/-! ## Halt Controller (R166, R167, R173) -/

theorem haltEventTaken_latched {s : State} {c : HaltCause} (cause : HaltCause)
    (h : s.hc.latch = some c) : haltEventTaken cause s = s := by
  simp [haltEventTaken, h]

theorem haltEventTaken_clear {s : State} (cause : HaltCause) (h : s.hc.latch = none) :
    haltEventTaken cause s =
      (latchHalt cause s).withMail
        { s.mail with
          haltOffers := s.mail.haltOffers ++ [.halt s.tb.time cause]
          haltRequests := s.mail.haltRequests + 1 } := by
  simp [haltEventTaken, h]

theorem takeFall_none {s : State} (h : s.hc.fallsOwed = 0) : takeFall s = s := by simp [takeFall, h]

theorem takeFall_owed {s : State} {n : Nat} (h : s.hc.fallsOwed = n + 1) :
    takeFall s = haltEventTaken .pin (s.withHc { s.hc with fallsOwed := n }) := by simp [takeFall, h]

theorem relatch_high {s : State} (h : s.hc.haltnHigh = true) : relatch s = s := by
  simp [relatch, h]

/-- A reset taken with HALTn low: the latch, the forcing, the group request and the record, in one step. -/
theorem relatch_low {s : State} (h : s.hc.haltnHigh = false) :
    relatch s =
      (applyHaltActions (latchHalt .pin s)).withEq (s.eq.raiseHalt.offer (.halt s.tb.time .pin)).1 := by
  simp [relatch, h, applyHaltActions, latchHalt, offerStore]

/-! ## Dispatch (R36 to R41) -/

/-- Where an entry goes after its accounting: to its held list, to the free list, or back into the agenda. -/
theorem Store.settleEntry_cases (st : Store) (T : Time) (l : Live) (a : Account) :
    (∃ source count, l.entry.rehold? = some (source, count) ∧
        st.settleEntry T l a =
          st.joinHeld source ⟨{ l.accounted a with runsLeft := l.entry.fullRuns }, count⟩) ∨
      (l.entry.rehold? = none ∧ finishes l a = true ∧ st.settleEntry T l a = st.freeSlot l.slot) ∨
      (finishes l a = false ∧ st.settleEntry T l a = st.place T ⟨l.accounted a, a.next⟩) := by
  unfold Store.settleEntry
  cases hf : finishes l a
  · exact .inr (.inr ⟨rfl, rfl⟩)
  · cases hr : l.entry.rehold? with
    | none => exact .inr (.inl ⟨rfl, rfl, rfl⟩)
    | some x => exact .inl ⟨x.1, x.2, rfl, rfl⟩

/-- An entry that returns to a held list is an ON entry of that source (R37). -/
theorem Entry.rehold?_eq_some {e : Entry} {source : Source} {n : Nat} (h : e.rehold? = some (source, n)) :
    ∃ count offset, e.timing = .onTrigger source count offset true ∧ n = count.toNat := by
  unfold Entry.rehold? at h
  split at h
  · rename_i src count offset ht
    injection h with h
    injection h with h1 h2
    subst h1
    exact ⟨count, offset, ht, h2.symm⟩
  · cases h

@[simp] theorem Live.accounted_slot (l : Live) (a : Account) : (l.accounted a).slot = l.slot := rfl
@[simp] theorem Live.accounted_entry (l : Live) (a : Account) : (l.accounted a).entry = l.entry := rfl

/-- A property of what a dispatch has done is kept by the whole of it when each entry keeps it. -/
theorem Store.dispatch_keeps {P : Dispatched → Prop} (st : Store) (T : Time)
    (lines : Vector LineRecord 16)
    (start : P ⟨{ st with agenda := st.agenda.drop (takenBy T st.agenda).length }, [], [], []⟩)
    (one : ∀ d, ∀ p ∈ takenBy T st.agenda, P d → P (serveEntry T lines d p)) :
    P (st.dispatch T lines) := by
  have key : ∀ (ps : List PendingEntry), (∀ p ∈ ps, p ∈ takenBy T st.agenda) → ∀ d, P d →
      P (ps.foldl (serveEntry T lines) d) := by
    intro ps
    induction ps with
    | nil => intro _ d h; exact h
    | cons p ps ih =>
      intro hp d h
      exact ih (fun q hq => hp q (by simp [hq])) _ (one d p (hp p (by simp)) h)
  exact key _ (fun _ h => h) _ start

/-- What a dispatch takes stands at the head of the agenda. -/
theorem takenBy_append_drop (T : Time) (agenda : List PendingEntry) :
    takenBy T agenda ++ agenda.drop (takenBy T agenda).length = agenda := by
  have h : takenBy T agenda <+: agenda := (List.take_prefix _ _).trans (List.takeWhile_prefix _)
  conv_rhs => rw [← List.take_append_drop (takenBy T agenda).length agenda]
  rw [← List.prefix_iff_eq_take.mp h]

end Sys2Proof.Machine
end

