-- ==== Sys2Proof/Laws/Engine.lean ====
section
/-!
SUPPORT. The command engine and the host port: what each shared operation answers, case by case, and what a
whole host command keeps.
-/

namespace Sys2Proof.Machine

/-! ## Outcomes -/

theorem unlessInReset_released {s : State} (f : State → State) (h : s.hp.inReset = false) :
    unlessInReset s f = .next (f s) := by simp [unlessInReset, h]

theorem unlessInReset_asserted {s : State} (f : State → State) (h : s.hp.inReset = true) :
    unlessInReset s f = .next s := by simp [unlessInReset, h]

/-- Whatever is answered, it is the state itself or the event's effect on it. -/
theorem unlessInReset_eq {s t : State} {f : State → State} (h : unlessInReset s f = .next t) :
    t = s ∨ (s.hp.inReset = false ∧ t = f s) := by
  cases hr : s.hp.inReset
  · rw [unlessInReset_released f hr] at h
    injection h with h
    exact .inr ⟨rfl, h.symm⟩
  · rw [unlessInReset_asserted f hr] at h
    injection h with h
    exact .inl h.symm

/-! ## The port -/

theorem serveWrite_carried {s : State} {a : Addr} {p : Port} (f : State → State)
    (h : s.hp.port.admitWrite a = some p) :
    serveWrite a f s = f (s.withHp { s.hp with port := p }) := by simp [serveWrite, h]

theorem serveWrite_not_carried {s : State} {a : Addr} (f : State → State)
    (h : s.hp.port.admitWrite a = none) : serveWrite a f s = s := by simp [serveWrite, h]

/-- A write leaves the state as it is, or runs its effect behind a change of the port alone. -/
theorem serveWrite_cases (a : Addr) (f : State → State) (s : State) :
    serveWrite a f s = s ∨
      ∃ p, s.hp.port.admitWrite a = some p ∧
        serveWrite a f s = f (s.withHp { s.hp with port := p }) := by
  cases h : s.hp.port.admitWrite a with
  | none => exact .inl (serveWrite_not_carried f h)
  | some p => exact .inr ⟨p, rfl, serveWrite_carried f h⟩

/-! ## Hand-outs and completion, field by field -/

variable (rs : List EventRecord) (c : Byte) (r : Reply) (s : State)

@[simp] theorem offerStore_tb : (offerStore rs s).tb = s.tb := rfl
@[simp] theorem offerStore_store : (offerStore rs s).store = s.store := rfl
@[simp] theorem offerStore_ce : (offerStore rs s).ce = s.ce := rfl
@[simp] theorem offerStore_ou : (offerStore rs s).ou = s.ou := rfl
@[simp] theorem offerStore_iu : (offerStore rs s).iu = s.iu := rfl
@[simp] theorem offerStore_eq : (offerStore rs s).eq = s.eq := rfl
@[simp] theorem offerStore_hc : (offerStore rs s).hc = s.hc := rfl
@[simp] theorem offerStore_hp : (offerStore rs s).hp = s.hp := rfl
@[simp] theorem offerStore_pending : (offerStore rs s).pending = s.pending := rfl
@[simp] theorem offerStore_mail :
    (offerStore rs s).mail = { s.mail with storeOffers := s.mail.storeOffers ++ rs } := rfl

@[simp] theorem complete_tb : (complete c r s).tb = s.tb := rfl
@[simp] theorem complete_store : (complete c r s).store = s.store := rfl
@[simp] theorem complete_ou : (complete c r s).ou = s.ou := rfl
@[simp] theorem complete_iu : (complete c r s).iu = s.iu := rfl
@[simp] theorem complete_hc : (complete c r s).hc = s.hc := rfl
@[simp] theorem complete_hp : (complete c r s).hp = s.hp := rfl
@[simp] theorem complete_mail : (complete c r s).mail = s.mail := rfl
@[simp] theorem complete_pending : (complete c r s).pending = s.pending := rfl
@[simp] theorem complete_ce :
    (complete c r s).ce = { s.ce with engine := .idle, result := ⟨c, r⟩ } := rfl
@[simp] theorem complete_eq :
    (complete c r s).eq = { s.eq with flags := { s.eq.flags with done := true } } := rfl

/-- With a merge in flight, abandoning it gives its slots back and completes the COMMIT. -/
theorem abandon_committing {s : State} {a : Args} (code : ResultCode)
    (h : s.ce.engine = .committing a) :
    abandon code s =
      complete commitCode { code := code } (s.withStore s.store.giveBack) := by
  simp [abandon, h]

/-- With no merge in flight there is nothing to abandon. -/
theorem abandon_not_committing {s : State} (code : ResultCode) (h : ∀ a, s.ce.engine ≠ .committing a) :
    abandon code s = s := by
  cases he : s.ce.engine with
  | committing a => exact absurd he (h a)
  | idle => simp [abandon, he]
  | busy c a st => simp [abandon, he]

/-! ## The parts of a host command -/

theorem commandWrite_idle {s : State} (h : s.ce.engine = .idle) (code : Byte) :
    commandWrite code s = s.withCe { s.ce with engine := .busy code s.ce.args (.accepted s.mail.haltRequests) } := by
  simp [commandWrite, h]

theorem commandWrite_busy {s : State} (h : s.ce.engine ≠ .idle) (code : Byte) :
    commandWrite code s = s.withEq s.eq.raiseRej := by
  cases he : s.ce.engine with
  | idle => exact absurd he h
  | busy c a st => simp [commandWrite, he]
  | committing a => simp [commandWrite, he]

@[simp] theorem Engine.haltsAhead_accepted (a : Args) (n : Nat) :
    (Engine.busy c a (.accepted n)).haltsAhead = n := rfl
@[simp] theorem Engine.haltTaken_accepted (a : Args) (n : Nat) :
    (Engine.busy c a (.accepted n)).haltTaken = .busy c a (.accepted (n - 1)) := rfl
@[simp] theorem Engine.haltTaken_committing (a : Args) :
    (Engine.committing a).haltTaken = .committing a := rfl

/-- A taking of a halt group request neither ends a command in progress nor begins or ends a merge. -/
theorem Engine.haltTaken_eq (e : Engine) :
    e.haltTaken = e ∨ ∃ c a n, e = .busy c a (.accepted n) ∧ e.haltTaken = .busy c a (.accepted (n - 1)) := by
  unfold Engine.haltTaken
  split
  · exact .inr ⟨_, _, _, rfl, rfl⟩
  · exact .inl rfl

/-- A taking leaves the state as it is, or makes the handler's effect on the command in progress. -/
theorem commandTake_cases (code : Byte) (h : Handler) (s : State) :
    commandTake code h s = s ∨
      ∃ a n s' stage, s.ce.engine = .busy code a (.accepted n) ∧ h a s = some (s', stage) ∧
        commandTake code h s = s'.withCe { s'.ce with engine := .busy code a stage } := by
  cases he : s.ce.engine with
  | idle => left; simp [commandTake, he]
  | committing a => left; simp [commandTake, he]
  | busy c a st =>
    cases st with
    | atStore => left; simp [commandTake, he]
    | answered r => left; simp [commandTake, he]
    | accepted n =>
      by_cases hc : c = code
      · subst hc
        cases hh : h a s with
        | none => left; simp [commandTake, he, hh]
        | some x => right; exact ⟨a, n, x.1, x.2, rfl, hh, by simp [commandTake, he, hh]⟩
      · left; simp [commandTake, he, hc]

/-- A completion leaves the state as it is, or completes the command in progress. -/
theorem commandComplete_cases (code : Byte) (s : State) :
    commandComplete code s = s ∨
      ∃ a r, s.ce.engine = .busy code a (.answered r) ∧ commandComplete code s = complete code r s := by
  cases he : s.ce.engine with
  | idle => left; simp [commandComplete, he]
  | committing a => left; simp [commandComplete, he]
  | busy c a st =>
    cases st with
    | atStore => left; simp [commandComplete, he]
    | accepted n => left; simp [commandComplete, he]
    | answered r =>
      by_cases hc : c = code
      · subst hc; exact .inr ⟨a, r, rfl, by simp [commandComplete, he]⟩
      · left; simp [commandComplete, he, hc]

/-- A command taken whole in IDLE, when its owning block answers at once: the handler's effect on the accepted
command, and its completion. -/
theorem commandWhole_answered {s s' : State} {r : Reply} (code : Byte) {h : Handler}
    (hi : s.ce.engine = .idle)
    (hh : h s.ce.args (s.withCe { s.ce with engine := .busy code s.ce.args (.accepted s.mail.haltRequests) }) =
      some (s', .answered r)) :
    commandWhole code h s =
      complete code r (s'.withCe { s'.ce with engine := .busy code s.ce.args (.answered r) }) := by
  simp [commandWhole, hi, commandWrite, commandTake, commandComplete, hh]

/-- The parts of a host command at a port that carries the COMMAND write. -/
theorem runCommand_carried {s : State} {p : Port} (code : Byte) (h : Handler)
    (hp : s.hp.port.admitWrite 0x07 = some p) :
    runCommand code h .write s = commandWrite code (s.withHp { s.hp with port := p }) ∧
      runCommand code h .whole s = commandWhole code h (s.withHp { s.hp with port := p }) :=
  ⟨serveWrite_carried _ hp, serveWrite_carried _ hp⟩

/-- A port that cannot carry the COMMAND write leaves everything as it is. -/
theorem runCommand_not_carried {s : State} (code : Byte) (h : Handler)
    (hp : s.hp.port.admitWrite 0x07 = none) :
    runCommand code h .write s = s ∧ runCommand code h .whole s = s :=
  ⟨serveWrite_not_carried _ hp, serveWrite_not_carried _ hp⟩

/-- The state a handler of a whole command sees: the port moved on, the command accepted. -/
def State.accepted (s : State) (p : Port) (code : Byte) : State :=
  (s.withHp { s.hp with port := p }).withCe
    { s.ce with engine := .busy code s.ce.args (.accepted s.mail.haltRequests) }

@[simp] theorem State.accepted_tb (p : Port) (code : Byte) :
    (s.accepted p code).tb = s.tb := rfl
@[simp] theorem State.accepted_store (p : Port) (code : Byte) :
    (s.accepted p code).store = s.store := rfl
@[simp] theorem State.accepted_ou (p : Port) (code : Byte) :
    (s.accepted p code).ou = s.ou := rfl
@[simp] theorem State.accepted_iu (p : Port) (code : Byte) :
    (s.accepted p code).iu = s.iu := rfl
@[simp] theorem State.accepted_eq (p : Port) (code : Byte) :
    (s.accepted p code).eq = s.eq := rfl
@[simp] theorem State.accepted_hc (p : Port) (code : Byte) :
    (s.accepted p code).hc = s.hc := rfl
@[simp] theorem State.accepted_mail (p : Port) (code : Byte) :
    (s.accepted p code).mail = s.mail := rfl
@[simp] theorem State.accepted_pending (p : Port) (code : Byte) :
    (s.accepted p code).pending = s.pending := rfl
@[simp] theorem State.accepted_hp (p : Port) (code : Byte) :
    (s.accepted p code).hp = { s.hp with port := p } := rfl
@[simp] theorem State.accepted_ce (p : Port) (code : Byte) :
    (s.accepted p code).ce =
      { s.ce with engine := .busy code s.ce.args (.accepted s.mail.haltRequests) } := rfl

/-- A whole command that is accepted and answered at once. -/
theorem runCommand_answered {s s' : State} {p : Port} {code : Byte} {h : Handler} {r : Reply}
    (hp : s.hp.port.admitWrite 0x07 = some p) (hi : s.ce.engine = .idle)
    (hh : h s.ce.args (s.accepted p code) = some (s', .answered r)) :
    runCommand code h .whole s =
      complete code r (s'.withCe { s'.ce with engine := .busy code s.ce.args (.answered r) }) := by
  rw [(runCommand_carried code h hp).2]
  exact commandWhole_answered code hi hh

/-- What every part of a host command keeps: a property that survives a change of the port, a change of the
engine that neither leaves nor enters COMMITTING, a completion outside COMMITTING, a refusal, and the handler. -/
theorem runCommand_keeps {P : State → Prop} {code : Byte} {h : Handler}
    (port : ∀ s x, P s → P (s.withHp { s.hp with port := x }))
    (engine : ∀ s e, (∀ a, s.ce.engine ≠ .committing a) → (∀ a, e ≠ .committing a) → P s →
      P (s.withCe { s.ce with engine := e }))
    (done : ∀ s c r, (∀ a, s.ce.engine ≠ .committing a) → P s → P (complete c r s))
    (rej : ∀ s, P s → P (s.withEq s.eq.raiseRej))
    (handler : ∀ a n s s' stage, s.ce.engine = .busy code a (.accepted n) → h a s = some (s', stage) → P s →
      P s' ∧ s'.ce.engine = s.ce.engine)
    (p : CmdStep) (s : State) (hs : P s) : P (runCommand code h p s) := by
  have hw : ∀ s, P s → P (commandWrite code s) := by
    intro s hs
    by_cases he : s.ce.engine = .idle
    · rw [commandWrite_idle he]
      exact engine s _ (by simp [he]) (by simp) hs
    · rw [commandWrite_busy he]
      exact rej s hs
  have ht : ∀ s, P s → P (commandTake code h s) := by
    intro s hs
    obtain h0 | ⟨a, n, s', stage, he, hh, h0⟩ := commandTake_cases code h s
    · rwa [h0]
    · rw [h0]
      have := handler a n s s' stage he hh hs
      exact engine s' _ (by simp [this.2, he]) (by simp) this.1
  have hc : ∀ s, P s → P (commandComplete code s) := by
    intro s hs
    obtain h0 | ⟨a, r, he, h0⟩ := commandComplete_cases code s
    · rwa [h0]
    · rw [h0]
      exact done s _ _ (by simp [he]) hs
  have hall : ∀ s, P s → P (commandWhole code h s) := by
    intro s hs
    cases he : s.ce.engine with
    | idle =>
      simp only [commandWhole, he]
      exact hc _ (ht _ (hw _ hs))
    | busy c a st => simpa [commandWhole, he] using hw s hs
    | committing a => simpa [commandWhole, he] using hw s hs
  cases p with
  | take => exact ht s hs
  | complete => exact hc s hs
  | write =>
    obtain h0 | ⟨x, -, h0⟩ := serveWrite_cases 0x07 (commandWrite code) s
    · simpa only [runCommand, h0] using hs
    · simpa only [runCommand, h0] using hw _ (port s x hs)
  | whole =>
    obtain h0 | ⟨x, -, h0⟩ := serveWrite_cases 0x07 (commandWhole code h) s
    · simpa only [runCommand, h0] using hs
    · simpa only [runCommand, h0] using hall _ (port s x hs)

end Sys2Proof.Machine
end

