-- ==== Sys2Proof/Laws/Lines.lean ====
section
/-!
SUPPORT. Output lines: what each operation leaves of a line record, and what an Output Unit operation does to
line `k`.
-/

namespace Sys2Proof.Machine

/-! ## One line: mode, safe level, membership and mask are not an effect's to change -/

/-- An effect that the line does not take leaves it as it is (R127). -/
theorem LineRecord.effect_not_taken {l : LineRecord} {last : Option Time} {T : Time} {k : Fin 16}
    {e : Effect} (h : e.addresses k = false ∨ l.closed = true) : l.effect last T k e = l := by
  unfold LineRecord.effect
  obtain h | h := h <;> simp [h]

theorem LineRecord.returned_frame (l : LineRecord) :
    l.returned.mode = l.mode ∧ l.returned.safeLevel = l.safeLevel ∧
      l.returned.haltMember = l.haltMember ∧ l.returned.masked = l.masked := by
  unfold LineRecord.returned
  split <;> simp

/-- A returned line holds no pulse. -/
theorem LineRecord.returned_pulse (l : LineRecord) : l.returned.pulse = none := by
  unfold LineRecord.returned
  split
  · rfl
  · rename_i h; exact h

@[simp] theorem LineRecord.returned_ending (l : LineRecord) : l.returned.ending = false := by
  unfold LineRecord.returned
  split <;> rfl

theorem LineRecord.settled_frame (l : LineRecord) (last : Option Time) (T : Time) :
    (l.settled last T).mode = l.mode ∧ (l.settled last T).safeLevel = l.safeLevel ∧
      (l.settled last T).haltMember = l.haltMember ∧ (l.settled last T).masked = l.masked := by
  unfold LineRecord.settled
  split
  · exact l.returned_frame
  · simp

theorem LineRecord.effect_frame (l : LineRecord) (last : Option Time) (T : Time) (k : Fin 16)
    (e : Effect) :
    (l.effect last T k e).mode = l.mode ∧ (l.effect last T k e).safeLevel = l.safeLevel ∧
      (l.effect last T k e).haltMember = l.haltMember ∧ (l.effect last T k e).masked = l.masked := by
  unfold LineRecord.effect
  split
  · have := l.settled_frame last T
    cases e <;> simpa [LineRecord.take] using this
  · simp

theorem LineRecord.runDown_frame (b : Bool) (l : LineRecord) :
    (l.runDown b).mode = l.mode ∧ (l.runDown b).safeLevel = l.safeLevel ∧
      (l.runDown b).haltMember = l.haltMember ∧ (l.runDown b).masked = l.masked := by
  have := l.returned_frame
  unfold LineRecord.runDown
  split
  · exact this
  · simp

/-- A run-down neither opens nor closes a line. -/
theorem LineRecord.runDown_closed (b : Bool) (l : LineRecord) : (l.runDown b).closed = l.closed := by
  obtain ⟨h1, -, -, h2⟩ := l.runDown_frame b
  unfold LineRecord.closed
  rw [h1, h2]

/-- A line without a pulse is not run down. -/
theorem LineRecord.runDown_steady (b : Bool) {l : LineRecord} (h : l.pulse = none) :
    l.runDown b = { l with ending := false } := by
  simp [LineRecord.runDown, LineRecord.aboutToEnd, h]

/-- The run-down with which the line's pulse ends: the line returns, or is left to return when it is open and an effect
may come (R131, R132). -/
theorem LineRecord.runDown_ends (b : Bool) {l : LineRecord} {p : Pulse} (h : l.pulse = some p)
    (he : l.ending = true ∨ p.fresh = false ∧ p.remaining ≤ 1) :
    l.runDown b =
      if b && !l.closed then { l with pulse := some p.counted, ending := true }
      else { l with level := p.returnLevel, pulse := none, ending := false } := by
  have : l.aboutToEnd = true := by
    simp only [LineRecord.aboutToEnd, h, Bool.or_eq_true, Bool.and_eq_true, Bool.not_eq_true', beq_iff_eq]
    exact he.imp_right fun he => ⟨he.1, by omega⟩
  cases hb : b && !l.closed <;> simp [LineRecord.runDown, this, LineRecord.returned, h, hb]

/-- The run-down with which the line's pulse does not end (R131). -/
theorem LineRecord.runDown_goes_on (b : Bool) {l : LineRecord} {p : Pulse} (h : l.pulse = some p)
    (he : l.ending = false) (hp : p.fresh = true ∨ 1 < p.remaining) :
    l.runDown b = { l with pulse := some p.counted, ending := false } := by
  have : l.aboutToEnd = false := by
    simp only [LineRecord.aboutToEnd, h, he]
    obtain hp | hp := hp
    · simp [hp]
    · have : ¬ p.remaining - 1 = 0 := by omega
      simp [this]
  simp [LineRecord.runDown, this, h]

/-- A run-down leaves a line to return only when it is open and an effect may come. -/
theorem LineRecord.runDown_ending {b : Bool} {l : LineRecord} (h : (l.runDown b).ending = true) :
    b = true ∧ l.closed = false ∧ l.aboutToEnd = true ∧ (l.runDown b).level = l.level := by
  unfold LineRecord.runDown at h ⊢
  split at h
  · simp at h
  · rename_i hc
    simp only at h
    simp only [h, Bool.true_and, Bool.not_eq_true', Bool.not_eq_false, Bool.and_eq_true] at hc
    rw [if_neg (by simp [h, hc])]
    exact ⟨hc.1, hc.2, h, rfl⟩

/-! ## The unit -/

variable (u : OutputUnit) (T : Time)

@[simp] theorem OutputUnit.effect_lastTick (e : Effect) : (u.effect T e).lastTick = u.lastTick := rfl
@[simp] theorem OutputUnit.effect_direct (e : Effect) : (u.effect T e).direct = u.direct := rfl
@[simp] theorem OutputUnit.effect_forced (e : Effect) : (u.effect T e).forced = u.forced := rfl
theorem OutputUnit.effect_line (e : Effect) (k : Fin 16) :
    (u.effect T e).lines[k] = u.lines[k].effect u.lastTick T k e := by
  simp only [OutputUnit.effect]
  exact getElem_fin_mapBank _ _ _

/-- A delivery is, line by line, its effects one after the other (R127). -/
theorem OutputUnit.deliver_eq (es : List Effect) (u : OutputUnit) :
    (u.deliver T es).lastTick = u.lastTick ∧ (u.deliver T es).direct = u.direct ∧
      (u.deliver T es).forced = u.forced ∧
      ∀ k : Fin 16, (u.deliver T es).lines[k] =
        es.foldl (fun l e => l.effect u.lastTick T k e) u.lines[k] := by
  induction es generalizing u with
  | nil => exact ⟨rfl, rfl, rfl, fun _ => rfl⟩
  | cons e es ih =>
    obtain ⟨h1, h2, h3, h4⟩ := ih (u.effect T e)
    refine ⟨h1, h2, h3, fun k => ?_⟩
    rw [OutputUnit.deliver, h4 k, OutputUnit.effect_line]
    rfl

theorem OutputUnit.runDown_line (aw : Fin 16 → Bool) (k : Fin 16) :
    (u.runDown T aw).lines[k] = u.lines[k].runDown (aw k) := by
  simp only [OutputUnit.runDown]
  exact getElem_fin_mapBank _ _ _
@[simp] theorem OutputUnit.runDown_lastTick (aw : Fin 16 → Bool) : (u.runDown T aw).lastTick = some T := rfl
@[simp] theorem OutputUnit.runDown_direct (aw : Fin 16 → Bool) : (u.runDown T aw).direct = u.direct := rfl
@[simp] theorem OutputUnit.runDown_forced (aw : Fin 16 → Bool) : (u.runDown T aw).forced = u.forced := rfl

theorem OutputUnit.endPulses_line (aw : Fin 16 → Bool) (k : Fin 16) :
    (u.endPulses aw).lines[k] =
      if u.lines[k].ending && !aw k then u.lines[k].returned else u.lines[k] := by
  simp only [OutputUnit.endPulses]
  exact getElem_fin_mapBank _ _ _
@[simp] theorem OutputUnit.endPulses_lastTick (aw : Fin 16 → Bool) : (u.endPulses aw).lastTick = u.lastTick := rfl
@[simp] theorem OutputUnit.endPulses_direct (aw : Fin 16 → Bool) : (u.endPulses aw).direct = u.direct := rfl
@[simp] theorem OutputUnit.endPulses_forced (aw : Fin 16 → Bool) : (u.endPulses aw).forced = u.forced := rfl

theorem OutputUnit.force_line (k : Fin 16) : u.force.lines[k] = u.lines[k].forced := by
  simp only [OutputUnit.force]
  exact getElem_fin_mapBank _ _ _
@[simp] theorem OutputUnit.force_forced : u.force.forced = true := rfl
@[simp] theorem OutputUnit.force_direct : u.force.direct = u.direct := rfl
@[simp] theorem OutputUnit.force_lastTick : u.force.lastTick = u.lastTick := rfl

theorem OutputUnit.lift_line (k : Fin 16) :
    u.lift.lines[k] = { u.lines[k] with masked := false } := by
  simp only [OutputUnit.lift]
  exact getElem_fin_mapBank _ _ _
@[simp] theorem OutputUnit.lift_forced : u.lift.forced = false := rfl
@[simp] theorem OutputUnit.lift_direct : u.lift.direct = u.direct := rfl
@[simp] theorem OutputUnit.lift_lastTick : u.lift.lastTick = u.lastTick := rfl

theorem OutputUnit.directWrite_line (w : BitVec 16) (k : Fin 16) :
    (u.directWrite w).lines[k] =
      if u.lines[k].mode = .direct && !u.lines[k].masked then
        { u.lines[k] with level := w.getLsbD k }
      else u.lines[k] := by
  simp only [OutputUnit.directWrite]
  exact getElem_fin_mapBank _ _ _

theorem OutputUnit.configure_line (k i : Fin 16) (mode : LineMode) (safe member : Bool) :
    (u.configure k mode safe member).lines[i] =
      if i = k then u.lines[k].configured mode safe member else u.lines[i] := by
  simp only [OutputUnit.configure]
  exact getElem_fin_set _ _ _ _

theorem OutputUnit.softReset_line (k : Fin 16) :
    u.softReset.lines[k] =
      { u.lines[k] with level := u.lines[k].safeLevel, pulse := none, masked := false, ending := false } := by
  simp only [OutputUnit.softReset]
  exact getElem_fin_mapBank _ _ _

/-! The same with a plain number, the form in which `simp` reads a bank. -/

@[simp] theorem OutputUnit.getElem_effect (e : Effect) (i : Nat) (h : i < 16) :
    (u.effect T e).lines[i] = u.lines[i].effect u.lastTick T ⟨i, h⟩ e := u.effect_line T e ⟨i, h⟩
@[simp] theorem OutputUnit.getElem_runDown (aw : Fin 16 → Bool) (i : Nat) (h : i < 16) :
    (u.runDown T aw).lines[i] = u.lines[i].runDown (aw ⟨i, h⟩) := u.runDown_line T aw ⟨i, h⟩
@[simp] theorem OutputUnit.getElem_endPulses (aw : Fin 16 → Bool) (i : Nat) (h : i < 16) :
    (u.endPulses aw).lines[i] = if u.lines[i].ending && !aw ⟨i, h⟩ then u.lines[i].returned else u.lines[i] :=
  u.endPulses_line aw ⟨i, h⟩
@[simp] theorem OutputUnit.getElem_force (i : Nat) (h : i < 16) :
    u.force.lines[i] = u.lines[i].forced := u.force_line ⟨i, h⟩
@[simp] theorem OutputUnit.getElem_lift (i : Nat) (h : i < 16) :
    u.lift.lines[i] = { u.lines[i] with masked := false } := u.lift_line ⟨i, h⟩
@[simp] theorem OutputUnit.getElem_softReset (i : Nat) (h : i < 16) :
    u.softReset.lines[i] =
      { u.lines[i] with level := u.lines[i].safeLevel, pulse := none, masked := false, ending := false } :=
  u.softReset_line ⟨i, h⟩

/-! ## The effects of a tick (R132) -/

/-- What it is for an effect of the tick to come still for a line. -/
theorem State.effectToCome_iff (s : State) (k : Fin 16) :
    s.effectToCome k = true ↔
      s.mail.storeTick ≠ none ∨ ∃ d ∈ s.mail.deliveries, ∃ e ∈ d.effects, e.addresses k = true := by
  simp only [State.effectToCome, Bool.or_eq_true, List.any_eq_true, Option.isSome_iff_ne_none]

/-- Two Output Units with the same lines and registers are the same. -/
theorem OutputUnit.ext_lines {u v : OutputUnit} (h : ∀ k : Fin 16, u.lines[k] = v.lines[k])
    (hd : u.direct = v.direct) (hl : u.lastTick = v.lastTick) (hf : u.forced = v.forced) : u = v := by
  cases u
  cases v
  simp only at hd hl hf
  subst hd hl hf
  have := bank_ext h
  simp_all

end Sys2Proof.Machine
end

