-- ==== Sys2Proof/Laws/Reads.lean ====
section
/-!
SUPPORT. The words of a read frame, and TIME0 as the words up to it.
-/

namespace Sys2Proof.Machine

/-- Outside TIME0 a read changes nothing (R176). -/
theorem State.afterRead_other {s : State} {a : Addr} (h : a ≠ 0x17) : s.afterRead a = s := if_neg h

/-- The next word of a read frame. -/
theorem State.readWord?_frame {s : State} {autoInc : Bool} {a : Addr}
    (h : s.hp.port = .frame true autoInc a) :
    s.readWord? =
      some (s.readReg a,
        (s.afterRead a).withHp { s.hp with port := .frame true autoInc (nextAddr autoInc a) }) := by
  simp [State.readWord?, h]

/-- In an auto-increment read frame the words up to TIME0 leave the snapshot and the address behind it. -/
theorem State.readWords_upTo_time0 (n : Nat) (s : State) (a : Addr)
    (h : s.hp.port = .frame true true a) (hn : (0x17 - a).toNat = n) :
    (s.readWords (n + 1)).2 =
      (s.withTb { s.tb with snapshot := s.tb.time }).withHp { s.hp with port := .frame true true 0x18 } := by
  induction n generalizing s a with
  | zero =>
    have ha : a = 0x17 := by
      have : a.toNat < 64 := a.isLt
      apply BitVec.eq_of_toNat_eq
      simp [BitVec.toNat_sub] at hn ⊢
      omega
    subst ha
    simp only [State.readWords, State.readWord?_frame h]
    rfl
  | succ n ih =>
    have hlt : a.toNat < 64 := a.isLt
    have ha : a ≠ 0x17 := by
      rintro rfl
      simp at hn
    have hn' : (0x17 - (a + 1)).toNat = n := by
      simp [BitVec.toNat_sub, BitVec.toNat_add] at hn ⊢
      omega
    rw [State.readWords, State.readWord?_frame h, State.afterRead_other ha]
    exact ih (s.withHp { s.hp with port := .frame true true (a + 1) }) (a + 1) rfl hn'

/-- A read of TIME0 takes the snapshot and moves the port on, where the port can reach it; otherwise it is no
event. -/
theorem time0Read_eq (s : State) :
    time0Read s =
      match s.hp.port.admitRead 0x17 with
      | some p => (s.withTb { s.tb with snapshot := s.tb.time }).withHp { s.hp with port := p }
      | none => s := by
  unfold time0Read
  cases h : s.hp.port with
  | ready =>
    simp only [Port.admitRead, State.afterRead, if_true]
    rw [← h]
    rfl
  | waitHigh => rfl
  | frame read autoInc a =>
    cases read with
    | false => rfl
    | true =>
      cases autoInc with
      | true => exact State.readWords_upTo_time0 _ s a h rfl
      | false =>
        by_cases ha : a = 0x17
        · subst ha
          simp only [Port.admitRead, nextAddr, State.readWords, State.readWord?_frame h]
          rfl
        · have ha' : ¬ a = 23#6 := ha
          simp [Port.admitRead, ha']

end Sys2Proof.Machine
end

