-- ==== Sys2Proof/Laws/RunDown.lean ====
section
/-!
SUPPORT. The run-down of a tick: everything it can do, and its two orders with the dispatch of the tick.
-/

namespace Sys2Proof.Machine

/-- A run-down is taken for the tick event that waits, or is no event. -/
theorem runDown_cases (s : State) :
    (s.mail.outputTick = none ∧ runDown s = s) ∨
      ∃ T, s.mail.outputTick = some T ∧ runDown s = runDownWork T s := by
  unfold runDown
  cases h : s.mail.outputTick with
  | none => exact .inl ⟨rfl, rfl⟩
  | some T => exact .inr ⟨T, rfl, rfl⟩

/-- A pulse end is the run-down that ends a pulse, or no run-down, and then the ends that can be made. -/
theorem pulseEnd_cases (s : State) :
    ∃ r, (r = s ∨ r = runDown s) ∧ pulseEnd s = r.withOu (r.ou.endPulses r.effectToCome) := by
  unfold pulseEnd
  split
  · exact ⟨_, .inr rfl, rfl⟩
  · exact ⟨_, .inl rfl, rfl⟩

/-- A dispatch reads of the line records only which lines are closed (R136). -/
theorem Store.dispatch_congr {lines lines' : Vector LineRecord 16}
    (h : ∀ k : Fin 16, lines'[k].closed = lines[k].closed) (st : Store) (T : Time) :
    st.dispatch T lines' = st.dispatch T lines := by
  have hm : ∀ a : Action, maskedFlag lines' a = maskedFlag lines a := by
    intro a
    simp only [maskedFlag, h]
  have hs : serveEntry T lines' = serveEntry T lines := by
    funext d p
    simp only [serveEntry, hm]
  simp only [Store.dispatch, hs]

end Sys2Proof.Machine
end

