-- ==== Sys2Proof/Tests/Slice0.lean ====
section
/-!
SUPPORT. The author's own tests: the checks of WellFormed, one-step tests against the manual's worked examples
and rules, and for each statement with hypotheses a state that meets them.
-/

open Sys2Proof Sys2Proof.Machine Sys2Proof.Safety Sys2Proof.Stated

namespace Sys2Proof.Tests

set_option Elab.async false

/-! ## Small states -/

/-- The state a command answers. -/
def run (i : Instr) (s : State) : State :=
  match exec i s with
  | .next t => t
  | _ => s

def entry (a : Action) (t : Timing) : Entry := ⟨a, t, 0, 0, .fire, 0, 0, 0, .each⟩
def live (k : Fin 128) (e : Entry) : Live := ⟨k, e, e.fullRuns, 0⟩

/-- The reset state with something changed. -/
def withStaging (l : List Entry) (s : State) : State := s.withCe { s.ce with staging := l }
def withEngine (e : Engine) (s : State) : State := s.withCe { s.ce with engine := e }
def withArgs (a0 a1 a2 a3 : Word) (s : State) : State := s.withCe { s.ce with args := ⟨a0, a1, a2, a3⟩ }
def withComposer (c : Composer) (s : State) : State := s.withCe { s.ce with composer := c }
def withTime (t : Time) (s : State) : State := s.withTb { s.tb with time := t }
def withClock (c : Clock) (s : State) : State := s.withTb { s.tb with clock := c }
def withAgenda (l : List PendingEntry) (s : State) : State := s.withStore { s.store with agenda := l }
def withHeld (i : Fin 12) (l : List HeldEntry) (s : State) : State :=
  s.withStore { s.store with held := s.store.held.set i l }
def withParked (g : Fin 16) (l : List ParkedEntry) (s : State) : State :=
  s.withStore { s.store with parked := s.store.parked.set g l }
def withGen (k : Fin 128) (n : BitVec 4) (s : State) : State :=
  s.withStore { s.store with gens := s.store.gens.set k n }
def withFree (l : List (Fin 128)) (s : State) : State := s.withStore { s.store with free := l }
def withReserved (l : List (Fin 128)) (s : State) : State := s.withStore { s.store with reserved := l }
def withGroup (g : Fin 16) (r : GroupRecord) (s : State) : State :=
  s.withStore { s.store with groups := s.store.groups.set g r }
def withLine (k : Fin 16) (l : LineRecord) (s : State) : State :=
  s.withOu { s.ou with lines := s.ou.lines.set k l }
def withInput (k : Fin 8) (r : InputRecord) (s : State) : State := s.withIu ⟨s.iu.lines.set k r⟩
def withRecords (l : List EventRecord) (s : State) : State := s.withEq { s.eq with records := l }
def withPort (p : Port) (s : State) : State := s.withHp { s.hp with port := p }
def inReset (s : State) : State := s.withHp { s.hp with inReset := true }
def withLatch (c : Option HaltCause) (s : State) : State :=
  (s.withHc { s.hc with latch := c }).withOu { s.ou with forced := c.isSome }
def withHaltnLow (s : State) : State := s.withHc { s.hc with haltnHigh := false }

def base : State := State.reset
def busy : State := withEngine (.busy 0x03 ⟨0, 0, 0, 0⟩ .atStore) base
def merging : State := withEngine (.committing ⟨0, 0, 0, 0⟩) base
def code (s : State) : ResultCode := s.ce.result.reply.code
def w1 (s : State) : Word := s.ce.result.reply.w1
def w2 (s : State) : Word := s.ce.result.reply.w2

/-! ## WellFormed: an ill-formed term for each check -/

theorem test_badcmd_of_a_command_is_ill_formed : (Instr.badcmd 0x0001).wellFormed = false := by decide
theorem test_abort_without_abort_bit_is_ill_formed : (Instr.abort 0x0001).wellFormed = false := by decide
theorem test_abort_with_srst_is_ill_formed : (Instr.abort 0x0003).wellFormed = false := by decide
theorem test_soft_reset_without_srst_is_ill_formed : (Instr.softReset 0x0002 0).wellFormed = false := by
  decide
theorem test_register_writes_with_own_rows_are_ill_formed :
    (∀ a ∈ [(0x07 : Addr), 0x12, 0x15, 0x16, 0x34, 0x36], (Instr.registerWrite a 0).wellFormed = false) ∧
      (Instr.registerWrite 0x02 1).wellFormed = false ∧ (Instr.registerWrite 0x02 2).wellFormed = false ∧
      (Instr.registerWrite 0x02 4).wellFormed = true := by decide
/-- An ill-formed term denotes no event: the state is unchanged. -/
theorem test_ill_formed_commands_change_nothing :
    run (.badcmd 0x0001) base = base ∧ run (.abort 0x0001) merging = merging ∧
      run (.softReset 0x0002 0) busy = busy ∧ run (.registerWrite 0x34 0) base = base := by decide +kernel
/-- The table gives no bits, so no word spells a command and the queue is unchanged. -/
theorem test_no_word_spells_a_command :
    decodeTableWord 16 0x0001 = none ∧ base.withFetchWord 16 0x0001 = base := by decide +kernel

/-! ## Host commands -/

def setLine4 : Composer := { Composer.zero with kind := 1, line := 4, form := 1, due := 10000, report := 1 }

theorem test_append_copies_to_tail :
    (run (.append .whole) (withComposer setLine4 base)).ce.staging = [entry (.set 4) (.atTime 10000)] ∧
      w2 (run (.append .whole) (withComposer setLine4 base)) = 1 := by decide +kernel
/-- Field 4, the pulse width, is refused at 0 (R69). -/
theorem test_append_refuses_zero_width :
    code (run (.append .whole) (withComposer { setLine4 with kind := 4 } base)) = .badField ∧
      w1 (run (.append .whole) (withComposer { setLine4 with kind := 4 } base)) = 4 := by decide +kernel
/-- A composer write served after the COMMAND write of an APPEND is not in the copy (R67). -/
theorem test_later_composer_write_is_not_in_the_copy :
    let s := run (.registerWrite 0x20 0) (run (.append .write) (withComposer setLine4 base))
    s.ce.staging = [entry (.set 4) (.atTime 10000)] ∧ s.ce.composer.kind = 0 := by decide +kernel

def mark : Entry := entry .mark (.afterDelay 5)

theorem test_discard_empties :
    (run (.discard .whole) (withStaging [mark, mark] base)).ce.staging = [] ∧
      w1 (run (.discard .whole) (withStaging [mark, mark] base)) = 2 := by decide +kernel
theorem test_commit_empty : code (run (.commit .whole) base) = .empty := by decide +kernel
theorem test_commit_reaches_the_store :
    (run (.commit .whole) (withStaging [mark] base)).ce.engine =
      .busy 0x03 ⟨0, 0, 0, 0⟩ .atStore := by decide +kernel

/-- Example of section 1.4: five free slots, a batch of three. -/
def freeFive : State := withStaging [mark, mark, mark] (withFree [40, 41, 42, 43, 44] busy)
theorem test_commit_start_reserves :
    (run .commitStart freeFive).store.free = [43, 44] ∧
      (run .commitStart freeFive).store.reserved = [40, 41, 42] := by decide +kernel
theorem test_commit_start_range_is_inclusive :
    code (run .commitStart (withStaging [entry .mark (.atTime (2 ^ 46 + 1))] busy)) = .range ∧
      (run .commitStart (withStaging [entry .mark (.atTime (2 ^ 46))] busy)).ce.engine =
        .committing ⟨0, 0, 0, 0⟩ := by decide +kernel
/-- Behind a halt group request the commit-start request waits; taken after it, it starts the merge (R79, R120). -/
theorem test_halt_group_request_lets_commit_start_go :
    let s := run (.haltEvent .whole) freeFive
    run .commitStart s = s ∧
      (run .commitStart (run .haltGroupRequest s)).ce.engine = .committing ⟨0, 0, 0, 0⟩ := by decide +kernel
/-- Example of section 1.4: slot 17 was freed during the merge. -/
theorem test_abort_returns_slots_to_head :
    (run (.abort 2) (withReserved [40, 41, 42] (withFree [43, 44, 17] merging))).store.free =
        [40, 41, 42, 43, 44, 17] ∧
      code (run (.abort 2) (withReserved [40, 41, 42] (withFree [43, 44, 17] merging))) = .aborted := by
  decide +kernel

/-- Example of section 4.9, just before completion at 7012. -/
def mixedBatch : State :=
  withGen 50 2 (withGen 52 7 (withGen 53 1 (withGroup 3 ⟨.keep, true⟩ (withTime 7012
    (withReserved [50, 51, 52, 53] (withStaging
      [ entry (.set 1) (.atTime 7400),
        { entry (.pulse 2 true 20) (.afterDelay 100) with group := 3 },
        { entry (.cue 1) (.onTrigger (.input 4) 1 5 false) with group := 3 },
        entry (.clear 1) (.atTime 6990) ] merging))))))
theorem test_merge_completion_mixed_batch :
    let t := run .mergeCompletion mixedBatch
    (t.store.agenda.map fun p => (p.live.slot, p.due)) = [(53, 6990), (50, 7400)] ∧
      (t.store.parked[3].map fun q => (q.live.slot, q.remaining)) = [(51, 100)] ∧
      (t.store.held[4].map fun h => (h.live.slot, h.countdown)) = [(52, 1)] ∧
      t.ce.handles = [⟨50, 2⟩, ⟨51, 0⟩, ⟨52, 7⟩, ⟨53, 1⟩] := by decide +kernel
theorem test_merge_completion_result :
    let t := run .mergeCompletion mixedBatch
    code t = .ok ∧ w1 t = 4 ∧ w2 t = 802 ∧ t.ce.staging = [] ∧ t.eq.flags.done = true := by decide +kernel

/-- Example of section 1.6: entry 37.2 at the head of the agenda, CANCEL 594. -/
def entry37 : PendingEntry := ⟨live 37 (entry (.set 4) (.atTime 10000)), 10000⟩
def cancel594 : State := withArgs 594 0 0 0 (withGen 37 2 (withAgenda [entry37] (withFree [1, 2] base)))
theorem test_cancel_live_entry :
    let t := run (.cancel .whole) cancel594
    t.readReg 0x08 = 0x1000 ∧ t.store.free = [1, 2, 37] ∧ t.store.gens[37] = 3 ∧
      t.mail.storeOffers = [.done ⟨37, 2⟩ 0 0 .cancelled 0 false] := by decide +kernel
/-- The same with the dispatch of tick 10000 taken first: RESULT0 reads 0x1008. -/
theorem test_cancel_after_dispatch_is_stale :
    (run (.cancel .whole)
      (run .dispatch (cancel594.withMail { cancel594.mail with storeTick := some 10000 }))).readReg 0x08 =
      0x1008 := by decide +kernel
theorem test_query_reads_entry :
    let t := run (.query .whole) cancel594
    t.ce.composer = setLine4 ∧ w1 t = 0x2252 ∧ w2 t = 10000 ∧ t.store = cancel594.store := by decide +kernel

/-- Example of section 6.6, at SUSPEND 2. -/
def member (k : Fin 128) (a : Action) (t : Timing) : Live := live k { entry a t with group := 2, report :=
  .last }
def group2 : State :=
  withArgs 2 0 0 0 (withTime 5000 (withHeld 1 [⟨member 40 .mark (.onTrigger (.input 1) 2 0 false), 2⟩]
    (withAgenda
      [ ⟨member 18 (.toggle 0) (.atTime 4980), 5020⟩, ⟨member 22 (.pulse 1 true 10) (.afterDelay 150), 5150⟩,
        ⟨member 31 (.clear 1) (.atTime 6000), 6000⟩ ] base)))
theorem test_suspend_parks :
    let t := run (.suspend .whole) group2
    (t.store.parked[2].map fun q => (q.live.slot, q.remaining)) = [(18, 20), (22, 150), (31, 1000)] ∧
      t.store.agenda = [] ∧ w1 t = 3 ∧ w2 t = 1 := by decide +kernel
theorem test_resume_places_from_now :
    let t := run (.resume .whole) (withTime 5300 (run (.suspend .whole) group2))
    (t.store.agenda.map fun p => (p.live.slot, p.due)) = [(18, 5320), (22, 5450), (31, 6300)] ∧
      t.store.suspended 2 = false ∧ w1 t = 3 := by decide +kernel
theorem test_cancel_group_walk_order :
    let t := run (.cancelGroup .whole) (withFree [] group2)
    t.store.free = [18, 22, 31, 40] ∧ w1 t = 4 ∧ t.ce.result.reply.w3 = 1 := by decide +kernel
theorem test_set_group_reports_action_before :
    let t := run (.setGroup .whole) (withArgs 1 2 0 0 (withGroup 1 ⟨.cancel, true⟩ base))
    t.store.groups[1].haltAction = .suspend ∧ w1 t = 1 ∧ w2 t = 1 := by decide +kernel
/-- Written after the halt event, SET-GROUP leaves the current halt to the action before (R112, R118). -/
def lateKeep : State :=
  run (.setGroup .whole) (withArgs 1 0 0 0 (run (.haltEvent .whole) (withGroup 1 ⟨.suspend, false⟩ base)))
theorem test_set_group_after_halt_waits :
    run (.setGroup .take) lateKeep = lateKeep ∧
      (run .haltGroupRequest lateKeep).store.groups[1] = ⟨.suspend, true⟩ ∧
      (run (.setGroup .take) (run .haltGroupRequest lateKeep)).store.groups[1] = ⟨.keep, true⟩ := by
  decide +kernel

/-- Example of section 3.1: D = 100, F = 16384. -/
def quarter (acc : BitVec 16) (c : Clock) : State :=
  base.withTb { base.tb with trim := ⟨100, 16384⟩, acc := acc, clock := c }
theorem test_start_is_a_boundary :
    (run (.start .whole 0x81) (quarter 0 .stopped)).tb.clock = .running 100 ∧
      (run (.start .whole 0x81) (quarter 0 .stopped)).tb.acc = 16384 ∧
      (run (.start .whole 0x81) (quarter 0 .stopped)).iu.lines[7].accepted = true := by decide +kernel
theorem test_tick_event_carries :
    (run .tickEvent (quarter 49152 (.running 100))).tb.clock = .running 101 ∧
      (run .tickEvent (quarter 49152 (.running 100))).tb.acc = 0 ∧
      (run .tickEvent (quarter 49152 (.running 100))).mail.storeTick = some 1 := by decide +kernel
/-- The time wraps modulo 2^48 (R47). -/
theorem test_tick_event_wraps :
    (run .tickEvent (withTime (2 ^ 48 - 1) (withClock (.running 100) base))).tb.time = 0 := by decide +kernel
theorem test_stop_applies_pending_trim :
    (run (.stop .whole) (base.withTb { base.tb with clock := .running 9, pendingTrim := some ⟨300, 7⟩ })).tb =
      { base.tb with trim := ⟨300, 7⟩ } := by decide +kernel
theorem test_arm_sync_sees_level :
    (run (.armSync .whole true) base).tb.clock = .armed true := by decide +kernel
theorem test_arm_sync_running_is_wrong_state :
    code (run (.armSync .whole false) (withClock (.running 100) base)) = .wrongState := by decide +kernel
theorem test_set_time_takes_three_words :
    (run (.setTime .whole) (withArgs 0x3333 0x2222 0x1111 0 base)).tb.time = 0x111122223333 := by
  decide +kernel
theorem test_set_time_refuses_pending_entry :
    code (run (.setTime .whole) (withAgenda [entry37] base)) = .wrongState := by decide +kernel
theorem test_set_trim_waits_while_running :
    (run (.setTrim .whole) (withArgs 250 0 0 0 (withClock (.running 100) base))).tb.pendingTrim =
      some ⟨250, 0⟩ := by decide +kernel
theorem test_set_trim_bounds :
    code (run (.setTrim .whole) (withArgs 15 0 0 0 base)) = .badArg ∧
      code (run (.setTrim .whole) (withArgs 4096 0 0 0 base)) = .badArg ∧
      (run (.setTrim .whole) (withArgs 4095 1 0 0 base)).tb.trim = ⟨4095, 1⟩ := by decide +kernel
theorem test_sync_edge_needs_low_seen :
    (run (.syncEdge 0) (withClock (.armed true) base)).tb.clock = .armed true ∧
      (run (.syncEdge 0) (withClock (.armed false) base)).tb.clock = .running 100 := by decide +kernel
theorem test_sync_fall_is_seen : (run .syncFall (withClock (.armed true) base)).tb.clock = .armed false := by
  decide +kernel
theorem test_time0_takes_snapshot :
    (run .time0 (withTime 0x123456789abc base)).tb.snapshot = 0x123456789abc := by decide +kernel

/-- Example of section 5.3: entries 70.0 and 71.0 wait on CUE2. -/
def loopEntry (a : Action) (n : BitVec 8) : Entry :=
  { entry a (.onTrigger (.cue 2) n 1 true) with report := .none }
def loop : State :=
  withArgs 2 0 0 0 (withTime 3000
    (withHeld 10 [⟨live 70 (loopEntry (.cue 2) 1), 1⟩, ⟨live 71 (loopEntry (.toggle 5) 4), 4⟩] base))
theorem test_fire_cue_arms :
    let t := run (.fireCue .whole) loop
    (t.store.agenda.map fun p => (p.live.slot, p.due)) = [(70, 3001)] ∧
      (t.store.held[10].map fun h => (h.live.slot, h.countdown)) = [(71, 3)] ∧ w1 t = 2 ∧ w2 t = 1 := by
  decide +kernel
theorem test_fire_cue_above_three : code (run (.fireCue .whole) (withArgs 4 0 0 0 base)) = .badArg := by
  decide +kernel

theorem test_config_out_keeps_level :
    let s := withLine 3 ⟨.agenda, true, some ⟨5, false, false⟩, false, false, false, false⟩ (withArgs 3 0 1 1 base)
    (run (.configOut .whole) s).ou.lines[3] = ⟨.direct, true, none, true, true, false, false⟩ ∧
      (run (.configOut .whole) s).ou.direct = 8 ∧ w1 (run (.configOut .whole) s) = 1 := by decide +kernel
theorem test_config_out_under_halt :
    code (run (.configOut .whole) (withLatch (some .pin) base)) = .wrongState := by decide +kernel
theorem test_config_in_drops_candidate :
    let s := withInput 3 ⟨.none, .off, false, 9, true, some 7, none, true⟩ (withArgs 3 1 0x0102 15 base)
    (run (.configIn .whole) s).iu.lines[3] = ⟨.rising, .span, true, 15, true, none, none, true⟩ ∧
      w1 (run (.configIn .whole) s) = 0x0900 ∧ w2 (run (.configIn .whole) s) = 3 := by decide +kernel
theorem test_config_in_bad_active_level :
    code (run (.configIn .whole) (withArgs 3 1 0x0202 15 base)) = .badArg := by decide +kernel

/-- Example of section 10.7: lines 0 and 1 in the halt set, line 1 pulsing, group 1 to be suspended. -/
def haltLine (p : Option Pulse) : LineRecord := ⟨.agenda, true, p, false, true, false, false⟩
def haltable : State :=
  withTime 8010 (withGroup 1 ⟨.suspend, false⟩
    (withLine 0 (haltLine none) (withLine 1 (haltLine (some ⟨9, true, false⟩)) base)))
def halted : State := run .haltGroupRequest (run (.haltEvent .whole) haltable)
theorem test_halt_event_forces :
    let t := run (.haltEvent .whole) haltable
    t.hc = ⟨some .pin, false, 0⟩ ∧ t.ou.lines[1] = ⟨.agenda, false, none, false, true, true, false⟩ ∧
      t.mail.haltOffers = [.halt 8010 .pin] ∧ t.eq.flags.halt = true := by decide +kernel
theorem test_halt_group_request_suspends :
    halted.store.suspended 1 = true ∧ halted.store.suspended 2 = false ∧ halted.mail.haltRequests = 0 := by
  decide +kernel
theorem test_halt_finds_latched :
    w1 (run (.halt .whole) halted) = 1 ∧ (run (.halt .whole) halted).hc.latch = some .pin ∧
      (run (.halt .whole) halted).mail = halted.mail := by decide +kernel
theorem test_release_needs_pin_high :
    code (run (.release .whole) halted) = .haltActive ∧
      (run (.release .whole) halted).hc.latch = some .pin := by decide +kernel
theorem test_release_lifts :
    let t := run (.release .whole) (run .haltnRise halted)
    code t = .ok ∧ w1 t = 1 ∧ t.hc.latch = none ∧
      t.ou.lines[0] = ⟨.agenda, false, none, false, true, false, false⟩ := by decide +kernel
/-- Each recognised fall is a halt event of its own: the second one latches again after the RELEASE (R165, R167). -/
theorem test_second_fall_is_its_own_halt_event :
    let falls := run (.haltEvent .recognise) (run .haltnRise (run (.haltEvent .recognise) base))
    let released := run (.release .whole) (run .haltnRise (run (.haltEvent .take) falls))
    released.hc.latch = none ∧ (run (.haltEvent .take) released).hc.latch = some .pin := by decide +kernel
theorem test_haltn_rise_changes_level_alone :
    run .haltnRise halted = halted.withHc { halted.hc with haltnHigh := true } := by decide +kernel

theorem test_badcmd_completes :
    (run (.badcmd 0x00FF) base).readReg 0x08 = 0xFF01 ∧ (run (.badcmd 0x00FF) base).eq.flags.done = true := by
  decide +kernel
theorem test_badcmd_refused_in_busy :
    (run (.badcmd 0x00FF) busy).eq.flags.rej = true ∧ (run (.badcmd 0x00FF) busy).ce = busy.ce := by
  decide +kernel

/-! ## Resets -/

theorem test_soft_reset_with_haltn_low :
    let t := run (.softReset 1 0) (withRecords [.overflow 9] halted)
    t.hc.latch = some .pin ∧ t.eq.records = [.halt 8010 .pin] ∧
      t.eq.flags = ⟨true, false, false, false, true⟩ ∧ t.store.suspended 1 = true := by decide +kernel
theorem test_soft_reset_advances_live_generations :
    let t := run (.softReset 1 0) (withGen 37 15 (withAgenda [entry37] base))
    t.store.gens[37] = 0 ∧ t.store.gens[36] = 0 ∧ t.store.free.length = 128 ∧ code t = .reset := by
  decide +kernel
theorem test_power_on_with_haltn_low :
    let t := run (.powerOnReset false false 0x0F) busy
    t.eq.records = [.halt 0 .pin] ∧ t.hp = ⟨.waitHigh, false⟩ ∧ t.ce = base.ce ∧
      t.iu.lines[3].accepted = true := by decide +kernel
theorem test_resetn_holds_everything :
    (run .resetnAsserted (withPort (.frame true true 9) base)).hp = ⟨.waitHigh, true⟩ ∧
      run (.pop 0) (inReset base) = inReset base ∧ (inReset base).outPin 0 = false := by decide +kernel

/-! ## Dispatch and triggers -/

/-- Example of section 2.5: entry 12.5 at the dispatch of tick 1044. -/
def overdue (p : LatePolicy) : State :=
  let e : Entry :=
    { entry (.toggle 6) (.atTime 1000) with period := 10, runs := 6, policy := p, tolerance := 2 }
  let s := withGen 12 5 (withLine 6 ⟨.agenda, false, none, false, false, false, false⟩
    (withAgenda [⟨live 12 e, 1000⟩] base))
  s.withMail { s.mail with storeTick := some 1044 }
theorem test_dispatch_late_fire :
    let t := run .dispatch (overdue .fire)
    (t.store.agenda.map fun p => (p.due, p.live.runsLeft, p.live.firings)) = [(1050, 1, 1)] ∧
      t.mail.storeOffers = [.late ⟨12, 5⟩ 0 0 1000 44 false, .skipped ⟨12, 5⟩ 0 0 1010 4] ∧
      t.mail.deliveries = [⟨1044, [.toggle 6]⟩] := by decide +kernel
theorem test_dispatch_late_skip :
    let t := run .dispatch (overdue .skip)
    (t.store.agenda.map fun p => (p.due, p.live.runsLeft, p.live.firings)) = [(1050, 1, 0)] ∧
      t.mail.storeOffers = [.skipped ⟨12, 5⟩ 0 0 1000 5] ∧ t.mail.deliveries = [] := by decide +kernel

/-- Example of section 5.2: one trigger event on the held list of IN2, t = 900. -/
def mixedHeld : State :=
  let s := withGroup 4 ⟨.keep, true⟩ (withHeld 2
    [ ⟨live 14 (entry (.set 3) (.onTrigger (.input 2) 1 10 false)), 1⟩,
      ⟨live 33 { entry (.pulse 7 true 5) (.onTrigger (.input 2) 3 0 false) with group := 4 }, 3⟩,
      ⟨live 61 (entry (.clear 3) (.onTrigger (.input 2) 2 25 false)), 2⟩,
      ⟨live 8 { entry .mark (.onTrigger (.input 2) 1 0 false) with group := 1 }, 1⟩ ] (withTime 904 base))
  s.withMail { s.mail with inputTriggers := [(5, 904), (2, 900)] }
theorem test_trigger_event_walk :
    let t := run (.triggerEvent (.input 2)) mixedHeld
    (t.store.agenda.map fun p => (p.live.slot, p.due)) = [(8, 900), (14, 910)] ∧
      (t.store.held[2].map fun h => (h.live.slot, h.countdown)) = [(33, 3), (61, 1)] ∧
      t.mail.inputTriggers = [(5, 904)] := by decide +kernel
theorem test_trigger_event_takes_oldest_cue :
    let s := loop.withMail { loop.mail with cues := [(2, 3000), (1, 3000)] }
    (run (.triggerEvent .cue) s).mail.cues = [(1, 3000)] ∧
      (run (.triggerEvent .cue) s).store = (run (.fireCue .whole) loop).store := by decide +kernel

/-! ## Output lines: example of section 7.5 -/

def line5 (l : LineRecord) (last : Time) (d : List Delivery) (t : Option Time) : State :=
  let s := withLine 5 l base
  (s.withOu { s.ou with lastTick := some last }).withMail { s.mail with deliveries := d, outputTick := t }
/-- The toggle of tick 2005 meets the pulse that ends with that tick, in either order. -/
def beforeToggle : State :=
  line5 ⟨.agenda, true, some ⟨1, false, false⟩, false, false, false, false⟩ 2004 [⟨2005, [.toggle 5]⟩] (some 2005)
/-- The same moment with the dispatch of 2005 still to be taken, and with nothing more to come. -/
def beforeDispatch : State :=
  beforeToggle.withMail { beforeToggle.mail with storeTick := some 2005, deliveries := [] }
/-- The same with the toggle still in the agenda, so that the dispatch of 2005 sends it. -/
def toggleDue : State :=
  withTime 2005 (withAgenda [⟨live 12 (entry (.toggle 5) (.atTime 2005)), 2005⟩] beforeDispatch)
theorem test_delivery_and_run_down_in_either_order :
    (run .runDown (run .delivery beforeToggle)).ou.lines[5] = ⟨.agenda, true, none, false, false, false, false⟩ ∧
      run .delivery (run .runDown beforeToggle) = run .runDown (run .delivery beforeToggle) := by
  decide +kernel
/-- The pin shows the final level once: with the run-down first it stays at the pulse level until the toggle of the
return level gives it again, so it does not change at all (R132). -/
theorem test_run_down_leaves_pin_to_toggle :
    (run .runDown beforeToggle).outPin 5 = true ∧ (run .runDown beforeToggle).readReg 0x13 = 0x0020 ∧
      (run .delivery (run .runDown beforeToggle)).outPin 5 = true ∧
      (run .runDown (run .delivery beforeToggle)).outPin 5 = true := by decide +kernel
/-- Ahead of the dispatch of 2005 the run-down counts the pulse's last tick; the line returns with the end of the pulse
behind a dispatch that sends nothing for it, and with the toggle in the agenda the delivery ends the pulse. -/
theorem test_pulse_end :
    let none5 := run .pulseEnd beforeDispatch
    let toggle5 := run .pulseEnd toggleDue
    none5.ou.lines[5] = ⟨.agenda, true, some ⟨0, false, false⟩, false, false, false, true⟩ ∧
      none5.ou.lastTick = some 2005 ∧ run .pulseEnd none5 = none5 ∧
      (run .pulseEnd (run .dispatch none5)).ou.lines[5] = ⟨.agenda, false, none, false, false, false, false⟩ ∧
      run .pulseEnd (run .dispatch toggle5) = run .dispatch toggle5 ∧
      (run .delivery (run .dispatch toggle5)).ou.lines[5] = ⟨.agenda, true, none, false, false, false, false⟩ := by
  decide +kernel
/-- The toggle is placed between the run-down and the dispatch of its tick (R44): the pin does not change at all. -/
theorem test_effect_placed_behind_run_down :
    let s := withAgenda toggleDue.store.agenda (run .runDown (withTime 2005 beforeDispatch))
    s.outPin 5 = true ∧ (run .dispatch s).outPin 5 = true ∧ (run .delivery (run .dispatch s)).outPin 5 = true ∧
      (run .delivery (run .dispatch s)).ou.lines[5].level = true := by decide +kernel
/-- The tick ends when the end of the pulse has been shown. -/
theorem test_tick_waits_for_pulse_end :
    let s := (run .dispatch (run .runDown (withTime 2005 beforeDispatch))).withTb { base.tb with time := 2005, clock := .running 100 }
    run .tickEvent s = s ∧ (run .tickEvent (run .pulseEnd s)).mail.outputTick = some 2006 := by decide +kernel
/-- A tick that ends no pulse has no such event. -/
theorem test_pulse_end_needs_an_end :
    let s := line5 ⟨.agenda, true, some ⟨2, false, false⟩, false, false, false, false⟩ 2003 [] (some 2004)
    run .pulseEnd s = s ∧ (run .runDown s).ou.lines[5].pulse = some ⟨1, false, false⟩ := by decide +kernel
/-- CONFIG-OUT ahead of the end of the pulse: the line keeps the pulse level, and the effect finds it DIRECT; behind a
run-down that has ended the pulse it keeps the return level (R126). -/
def directBetween : State :=
  withTime 2005 (run (.configOut .whole) (withArgs 5 0 0 0 (run .runDown beforeToggle)))
theorem test_config_out_and_pulse_end_in_either_order :
    directBetween.ou.lines[5] = ⟨.direct, true, none, false, false, false, false⟩ ∧
      directBetween.ce.result.reply.w2 = 1 ∧ (run .delivery directBetween).ou.lines[5] = directBetween.ou.lines[5] ∧
      (run (.configOut .whole) (withArgs 5 0 0 0 (run .runDown (run .dispatch beforeDispatch)))).ou.lines[5] =
        ⟨.direct, false, none, false, false, false, false⟩ := by decide +kernel
/-- A retriggered pulse keeps its return level and restarts its width. -/
theorem test_delivery_retriggers :
    (run .runDown (run .delivery
      (line5 ⟨.agenda, true, some ⟨2, false, false⟩, false, false, false, false⟩ 2001 [⟨2002, [.pulse 5 true 3]⟩]
        (some 2002)))).ou.lines[5].pulse = some ⟨3, false, false⟩ := by decide +kernel
theorem test_out_direct_moves_direct_lines :
    let t := run (.outDirect 0x8020) (line5 ⟨.agenda, false, none, false, false, false, false⟩ 1 [] none)
    t.ou.lines[15].level = true ∧ t.ou.lines[5].level = false ∧ t.ou.direct = 0x8020 := by decide +kernel

/-! ## Input lines: example of section 8.8 -/

def in3 (acc : Bool) (cand span : Option Time) (T : Time) : State :=
  let s := withInput 3 ⟨.rising, .span, true, 2, acc, cand, span, false⟩ base
  s.withMail { s.mail with inputTick := some T }
theorem test_sample_opens_and_discards :
    (run (.sample 8) (in3 false none none 102)).iu.lines[3].candidate = some 102 ∧
      (run (.sample 0) (in3 false (some 100) none 101)).iu.lines[3].candidate = none ∧
      run (.confirmation 8) (in3 false (some 102) none 103) = in3 false (some 102) none 103 := by
  decide +kernel
theorem test_sample_confirms_rise :
    let t := run (.sample 8) (in3 false (some 102) none 104)
    t.iu.lines[3].accepted = true ∧ t.iu.lines[3].spanStart = some 102 ∧
      t.mail.inputTriggers = [(3, 102)] ∧ t.mail.inputOffers = [] := by decide +kernel
/-- START behind work of the last tick: that work is taken first, then the levels are those of the pins (R142). -/
theorem test_start_takes_waiting_work_first :
    let t := run (.start .whole 8) (in3 false (some 102) none 104)
    t.mail.inputTick = none ∧ t.mail.inputTriggers = [(3, 102)] ∧ t.iu.lines[3].accepted = true ∧
      t.iu.lines[3].spanStart = none := by decide +kernel
theorem test_confirmation_closes_span :
    let t := run (.confirmation 0) (in3 true (some 150) (some 102) 152)
    t.iu.lines[3].accepted = false ∧ t.mail.inputTriggers = [] ∧
      t.mail.inputOffers = [.span 3 true 102 48 false] := by decide +kernel

/-! ## The event queue: example of section 9.7 -/

def edge (k : Fin 8) : EventRecord := .edge k true 7 false
def fillTo (n : Nat) : State :=
  let s := withRecords (List.replicate n (edge 1)) base
  (s.withEq { s.eq with threshold := 64 }).withMail
    { s.mail with storeOffers := [.done ⟨21, 0⟩ 0 0 .finished 1 false], inputOffers := [.edge 2 true 9 false] }
theorem test_record_offer_overflows :
    let t := run (.recordOffer .inputs) (fillTo 63)
    t.eq.records.getLast? = some (.overflow 1) ∧ t.eq.records.length = 64 ∧
      t.eq.flags = ⟨true, true, false, false, false⟩ ∧ t.iu.lines[2].missed = true := by decide +kernel
theorem test_record_offer_counts_in_marker :
    let t := run (.recordOffer .store) (run (.recordOffer .inputs) (fillTo 63))
    t.eq.records.getLast? = some (.overflow 2) ∧ t.eq.records.length = 64 := by decide +kernel
/-- An EDGE record offered with the missed flag set keeps it across a soft reset (R143, R148, R163). -/
theorem test_confirmation_missed_flag_survives_soft_reset :
    let s := withInput 2 ⟨.none, .edge, false, 0, false, none, none, true⟩ base
    let t := run (.softReset 1 0) (run (.confirmation 4) (s.withMail { s.mail with inputTick := some 9 }))
    t.iu.lines[2].missed = false ∧ (run (.recordOffer .inputs) t).eq.records = [.edge 2 true 9 true] := by
  decide +kernel
theorem test_pop_removes_head :
    (run (.pop 0xFFFF) (withRecords [.overflow 1, edge 4] base)).eq.records = [edge 4] ∧
      run (.pop 0) base = base := by decide +kernel
theorem test_irq_flags_clear_ones :
    let s := base.withEq { base.eq with flags := ⟨true, true, true, true, true⟩ }
    (run (.irqFlags 0x0015) s).eq.flags = ⟨false, true, false, true, false⟩ := by decide +kernel
theorem test_irq_enable_asserts_irqn :
    let s := base.withEq { base.eq with flags := ⟨false, false, true, false, false⟩ }
    (run (.irqEnable 0x0004) s).irqAsserted = true ∧ (run (.irqEnable 0x001B) s).irqAsserted = false := by
  decide +kernel
theorem test_thresh_bounds :
    (run (.thresh 64) base).eq.threshold = 64 ∧ (run (.thresh 65) base).eq.threshold = 1 ∧
      (run (.thresh 0) base).eq.threshold = 1 ∧ (run (.thresh 0x0101) base).eq.threshold = 1 := by
  decide +kernel

/-! ## The port: example of section 11.4, header 0x43 then five words -/

theorem test_header_byte_43 : (run (.headerByte 0x43) base).hp.port = .frame false true 3 := by decide +kernel
theorem test_header_byte_D7 : (run (.headerByte 0xD7) base).hp.port = .frame true true 0x17 := by
  decide +kernel
theorem test_register_write_in_frame :
    let s := run (.registerWrite 3 0x0252) (run (.headerByte 0x43) cancel594)
    s.hp.port = .frame false true 4 ∧ s.ce.args.a0 = 0x0252 ∧
      run (.registerWrite 3 0) s = s := by decide +kernel
/-- A read frame at TIME0 with auto-increment: the low word of the time, then two words of the snapshot (R63). -/
theorem test_time0_in_read_frame :
    (run (.headerByte 0xD7) (withTime 0x123456789abc base)).readWords 3 =
      ([0x9abc, 0x5678, 0x1234],
        (withPort (.frame true true 0x1A) (withTime 0x123456789abc base)).withTb
          { (withTime 0x123456789abc base).tb with snapshot := 0x123456789abc }) := by decide +kernel
theorem test_frame_end : (run .frameEnd (withPort .waitHigh base)).hp.port = .ready := by decide +kernel
theorem test_composer_write_is_stored :
    (run (.registerWrite 0x20 0x1409) base).ce.composer =
      { Composer.zero with kind := 1, form := 1, line := 4, group := 1 } := by decide +kernel

/-! ## Hypotheses that can be met: one theorem for each statement that has some -/

/-- A write that the port can carry, with RESETn released, is served. -/
theorem serves {s : State} {a : Addr} {p : Port} (h : s.hp.inReset = false := by decide +kernel)
    (hp : s.hp.port.admitWrite a = some p := by decide +kernel) : ServesWrite s a p := ⟨h, hp⟩

/-- The COMMAND write of an idle engine is served and accepted. -/
theorem takes {s : State} (h : s.hp = ⟨.ready, false⟩ := by decide +kernel)
    (he : s.ce.engine = .idle := by decide +kernel) : TakesCommand s .ready := ⟨⟨by rw [h], by rw [h]; rfl⟩, he⟩

/-- Every command answers a next state, so every hypothesis `exec i s = .next t` can be met. -/
theorem answers (i : Instr) (s : State) : ∃ t, exec i s = .next t := by
  cases i <;> exact ⟨_, rfl⟩
theorem exec_run (i : Instr) (s : State) : exec i s = .next (run i s) := by
  obtain ⟨t, h⟩ := answers i s
  rw [run, h]
theorem steps (s : State) : ∃ t, step s = .next t := by
  unfold step
  split
  · exact ⟨_, rfl⟩
  · exact answers _ _

/-- A whole pool with entry 37.2 pending, and CANCEL 594 waiting. -/
def pooled : State :=
  (withArgs 594 0 0 0 (withGen 37 2 (withAgenda [entry37]
    (withFree ((List.finRange 128).filter (· ≠ 37)) base)))).withPending [.cancel .whole]

theorem pooled_slots_whole : SlotsWhole pooled := ⟨by unfold PoolWhole; decide +kernel,
  by show _ = _; decide +kernel⟩

theorem witness_StepTakesFrontCommand :
    pooled.pending = .cancel .whole :: [] ∧ base.pending = [] := ⟨rfl, rfl⟩
theorem witness_ExecLeavesQueueAlone : ∃ t, exec (.cancel .whole) pooled = .next t := answers _ _
theorem witness_StepKeepsSlotsWhole : SlotsWhole pooled ∧ ∃ t, step pooled = .next t :=
  ⟨pooled_slots_whole, steps _⟩

/-- Group 2 suspended with three parked members and one held, RESUME 2 waiting. -/
def parked2 : State := (run (.suspend .whole) group2).withPending [.resume .whole]
theorem parked2_placed : EntriesPlaced parked2.store := by
  refine ⟨?_, ?_, ?_⟩
  · intro i h hm
    have h0 : ∀ i : Fin 12, i ≠ 1 → parked2.store.held[i] = [] := by decide +kernel
    have h1 : parked2.store.held[(1 : Fin 12)] =
        [⟨member 40 .mark (.onTrigger (.input 1) 2 0 false), 2⟩] := by decide +kernel
    by_cases hi : i = 1
    · subst hi
      rw [h1] at hm
      obtain rfl := List.mem_singleton.mp hm
      exact ⟨.input 1, 2, 0, false, rfl, rfl⟩
    · rw [h0 i hi] at hm
      cases hm
  · unfold ParkedPlaced; decide +kernel
  · unfold AgendaUnsuspended; decide +kernel
theorem witness_StepKeepsEntriesPlaced :
    EntriesPlaced parked2.store ∧ parked2.store.parkedEntries ≠ [] ∧ ∃ t, step parked2 = .next t :=
  ⟨parked2_placed, by decide +kernel, steps _⟩


/-- The late dispatch of section 2.5 waiting at its own tick, with a later entry behind. -/
def lateAgenda : State :=
  withTime 1044 ((overdue .fire).withStore
    { (overdue .fire).store with agenda := (overdue .fire).store.agenda ++ [entry37] }) |>.withPending [.dispatch]
theorem witness_StepKeepsAgendaOrdered :
    AgendaSound lateAgenda ∧ AgendaInRange lateAgenda ∧ lateAgenda.mail.storeTick = some 1044 ∧
      ∃ t, step lateAgenda = .next t := by
  refine ⟨⟨by unfold Ordered; decide +kernel, fun T h => ?_⟩, by unfold AgendaInRange; decide +kernel,
    by decide +kernel, steps _⟩
  have e : lateAgenda.mail.storeTick = some 1044 := by decide +kernel
  rw [e] at h
  injection h with h
  rw [← h]
  decide +kernel
/-- A full queue, and a record on its way. -/
def fullQueue : State :=
  (run (.recordOffer .inputs) (fillTo 63)).withPending [.recordOffer .store]
theorem fullQueue_sound : QueueSound fullQueue := by
  refine ⟨⟨by decide +kernel, fun _ => ⟨1, by decide +kernel⟩, ?_⟩, by decide +kernel, by decide +kernel⟩
  unfold MarkersApart; decide +kernel
theorem witness_StepKeepsQueueSound :
    QueueSound fullQueue ∧ fullQueue.eq.records.length = 64 ∧ ∃ t, step fullQueue = .next t :=
  ⟨fullQueue_sound, by decide +kernel, steps _⟩

/-- A halt in force with two masked lines, RELEASE waiting. -/
def releasing : State := (run .haltnRise halted).withPending [.release .whole]
theorem witness_StepKeepsHaltSound :
    HaltSound releasing ∧ releasing.hc.latch = some .pin ∧ ∃ t, step releasing = .next t :=
  ⟨by unfold HaltSound LineSound; decide +kernel, by decide +kernel, steps _⟩

/-- Every count at its limit. -/
def atLimits : State :=
  let s := withReserved (List.finRange 128 |>.take 16) (withStaging (List.replicate 16 mark) merging)
  ((s.withCe { s.ce with handles := List.replicate 16 ⟨3, 1⟩ }).withEq
    { s.eq with threshold := 64 }).withPending [.mergeCompletion]
theorem witness_StepKeepsCountsBounded : CountsBounded atLimits ∧ ∃ t, step atLimits = .next t :=
  ⟨⟨by show _ = _; decide +kernel, by decide +kernel⟩, steps _⟩

theorem witness_GenerationAdvancesOnFreeing :
    SlotsWhole pooled ∧ (∃ t, exec (.cancel .whole) pooled = .next t) ∧
      (∀ h f p, (Instr.cancel .whole) ≠ .powerOnReset h f p) ∧ (pooled.store.find? 37).isSome = true :=
  ⟨pooled_slots_whole, answers _ _, by simp, by decide +kernel⟩
theorem witness_LiveEntryKeepsItsFields :
    SlotsWhole pooled ∧ exec (.suspend .whole) (withArgs 0 0 0 0 pooled) =
        .next (run (.suspend .whole) (withArgs 0 0 0 0 pooled)) ∧
      pooled.store.find? 37 = some (.pending entry37) ∧
      (run (.suspend .whole) (withArgs 0 0 0 0 pooled)).store.find? 37 =
        some (.parked ⟨entry37.live, 10000⟩) :=
  ⟨pooled_slots_whole, exec_run _ _, by decide +kernel⟩

def clocked : State := withClock (.running 100) base
def settingTime : State := withEngine (.busy 0x33 ⟨1, 2, 3, 4⟩ (.accepted 0)) base
theorem witness_TimeChangesOnlyAsStated :
    exec .tickEvent clocked = .next (run .tickEvent clocked) ∧
      (run .tickEvent clocked).tb.time ≠ clocked.tb.time ∧
      exec (.setTime .whole) (withArgs 1 0 0 0 base) = .next (run (.setTime .whole) (withArgs 1 0 0 0 base)) ∧
      (run (.setTime .whole) (withArgs 1 0 0 0 base)).tb.time ≠ base.tb.time ∧
      exec (.setTime .take) settingTime = .next (run (.setTime .take) settingTime) ∧
      (run (.setTime .take) settingTime).tb.time ≠ settingTime.tb.time ∧
      (run (.powerOnReset true true 0) (withTime 5 base)).tb.time ≠ (withTime 5 base).tb.time := by
  refine ⟨exec_run _ _, ?_, exec_run _ _, ?_, exec_run _ _, ?_, ?_⟩ <;> decide +kernel
theorem witness_LatchChangesOnlyByItsOwnEvents :
    exec (.haltEvent .whole) base = .next (run (.haltEvent .whole) base) ∧
      (run (.haltEvent .whole) base).hc.latch ≠ base.hc.latch ∧
      exec (.release .whole) releasing = .next (run (.release .whole) releasing) ∧
      (run (.release .whole) releasing).hc.latch ≠ releasing.hc.latch ∧
      (run (.softReset 1 0) releasing).hc.latch ≠ releasing.hc.latch ∧
      (run (.powerOnReset true true 0) releasing).hc.latch ≠ releasing.hc.latch := by
  refine ⟨exec_run _ _, ?_, exec_run _ _, ?_, ?_, ?_⟩ <;> decide +kernel
theorem witness_GroupRecordsChangeOnlyByTheirCommands :
    exec (.setGroup .whole) (withArgs 15 2 0 0 base) = .next (run (.setGroup .whole) (withArgs 15 2 0 0 base)) ∧
      (run (.setGroup .whole) (withArgs 15 2 0 0 base)).store.groups[15].haltAction ≠
        base.store.groups[15].haltAction ∧
      parked2.store.groups[2].suspended ≠ group2.store.groups[2].suspended ∧
      exec .dispatch merging = .next (run .dispatch merging) ∧
      merging.ce.engine = .committing ⟨0, 0, 0, 0⟩ ∧
      (run .dispatch merging).ce.engine = .committing ⟨0, 0, 0, 0⟩ := by
  refine ⟨exec_run _ _, ?_, ?_, exec_run _ _, ?_, ?_⟩ <;> decide +kernel
theorem witness_FlagsClearedOnlyByHostOrReset :
    let s := base.withEq { base.eq with flags := ⟨true, true, true, true, true⟩ }
    (∃ t, exec (.pop 0) s = .next t) ∧ (∀ w, (Instr.pop 0) ≠ .irqFlags w) ∧
      (∀ w p, (Instr.pop 0) ≠ .softReset w p) ∧ (∀ h f p, (Instr.pop 0) ≠ .powerOnReset h f p) :=
  ⟨answers _ _, by simp, by simp, by simp⟩
theorem witness_InputUnitIsolated :
    exec (.recordOffer .inputs) (fillTo 63) = .next (run (.recordOffer .inputs) (fillTo 63)) ∧
      (run (.recordOffer .inputs) (fillTo 63)).iu ≠ (fillTo 63).iu := by
  refine ⟨exec_run _ _, ?_⟩
  decide +kernel
theorem witness_NothingTakenWhileResetAsserted :
    (inReset base).hp.inReset = true ∧ (∀ h f p, (Instr.dispatch) ≠ .powerOnReset h f p) ∧
      Instr.dispatch ≠ .resetnAsserted ∧ Instr.dispatch ≠ .frameEnd := ⟨rfl, by simp, by simp, by simp⟩

def answered : State := withEngine (.busy 0x01 ⟨0, 0, 0, 0⟩ (.answered { code := .ok })) base
theorem witness_CommandWriteAcceptedOrRefused :
    (0x01, Instr.append) ∈ hostCommands 0 false ∧ TakesCommand base .ready ∧
      (ServesWrite busy 0x07 .ready ∧ busy.ce.engine ≠ .idle) ∧
      (ServesWrite merging 0x07 .ready ∧ merging.ce.engine ≠ .idle) ∧
      (withPort .waitHigh base).hp.port.admitWrite 0x07 = none :=
  ⟨.head _, takes, ⟨⟨rfl, rfl⟩, by decide +kernel⟩, ⟨⟨rfl, rfl⟩, by decide +kernel⟩, rfl⟩
theorem witness_CommandIsItsThreeParts :
    (0x01, Instr.append) ∈ hostCommands 0 false ∧ answered.hp.inReset = false ∧
      answered.ce.engine = .busy 0x01 ⟨0, 0, 0, 0⟩ (.answered { code := .ok }) ∧ TakesCommand base .ready :=
  ⟨.head _, rfl, rfl, takes⟩

/-! ### Staging and commit -/

theorem witness_AppendOutcomes :
    (TakesCommand base .ready ∧ base.ce.composer.firstBad = some 1) ∧
      (TakesCommand (withStaging (List.replicate 16 mark) (withComposer setLine4 base)) .ready ∧
        setLine4.firstBad = none) ∧
      (TakesCommand (withStaging (List.replicate 15 mark) (withComposer setLine4 base)) .ready ∧
        (withStaging (List.replicate 15 mark) (withComposer setLine4 base)).ce.staging.length < 16) :=
  ⟨⟨takes, by decide +kernel⟩, ⟨takes, by decide +kernel⟩, takes, by decide +kernel⟩
theorem witness_ComposerRoundTrips :
    setLine4.firstBad = none ∧ mark.period = 0 ∧ mark.runs = 0 ∧ 16 ≤ 16 :=
  ⟨by decide +kernel, rfl, rfl, Nat.le_refl _⟩
theorem witness_DiscardAndCommitOutcomes :
    TakesCommand (withStaging [mark] base) .ready ∧ (withStaging [mark] base).ce.staging ≠ [] ∧
      TakesCommand base .ready ∧ base.ce.staging = [] :=
  ⟨takes, by decide +kernel, takes, rfl⟩
theorem witness_CommitStartAndRangeCheck :
    let early := withStaging [mark, entry .mark (.atTime (2 ^ 48 - 2 ^ 32 - 1))] busy
    let short := withStaging [mark, mark] (withFree [7] busy)
    let behind := run (.haltEvent .whole) busy
    (busy.ce.engine = .busy 0x03 ⟨0, 0, 0, 0⟩ .atStore ∧ busy.hp.inReset = false ∧
        busy.mail.haltRequests = 0) ∧
      (behind.ce.engine = .busy 0x03 ⟨0, 0, 0, 0⟩ .atStore ∧ behind.mail.haltRequests ≠ 0) ∧
      firstOutOfRange early.tb.time early.ce.staging = some 1 ∧
      (firstOutOfRange short.tb.time short.ce.staging = none ∧
        short.store.free.length < short.ce.staging.length) ∧
      (firstOutOfRange freeFive.tb.time freeFive.ce.staging = none ∧
        freeFive.ce.staging.length ≤ freeFive.store.free.length) :=
  ⟨⟨rfl, rfl, rfl⟩, by decide +kernel⟩
theorem witness_MergeCompletionOutcome :
    (mixedBatch.hp.inReset = false ∧ mixedBatch.ce.engine = .committing ⟨0, 0, 0, 0⟩) ∧
      base.store.suspended 0 = false ∧ mixedBatch.store.suspended 3 = true ∧
      (entry (.set 1) (.atTime 7400)).timing = .atTime 7400 ∧ mark.timing = .afterDelay 5 ∧
      (loopEntry .mark 1).timing = .onTrigger (.cue 2) 1 1 true :=
  ⟨⟨rfl, rfl⟩, by decide +kernel, by decide +kernel, rfl, rfl, rfl⟩
theorem witness_AbortOutcomes :
    ServesWrite merging 0x02 .ready ∧ (2 : Word).getLsbD 1 = true ∧ (2 : Word).getLsbD 0 = false ∧
      merging.ce.engine = .committing ⟨0, 0, 0, 0⟩ ∧ ServesWrite busy 0x02 .ready ∧
      ∀ a, busy.ce.engine ≠ .committing a :=
  ⟨⟨rfl, rfl⟩, by decide, by decide, rfl, ⟨rfl, rfl⟩, by intro a h; cases h⟩

/-! ### Entries and groups -/

theorem witness_CancelOutcomes :
    (TakesCommand (withArgs 2048 0 0 0 base) .ready ∧ 2048 ≤ (withArgs 2048 0 0 0 base).ce.args.a0.toNat) ∧
      (TakesCommand (withArgs 2047 0 0 0 base) .ready ∧ Handle.ofWord 2047 = some ⟨127, 15⟩ ∧
        base.store.live? ⟨127, 15⟩ = none) ∧
      (TakesCommand pooled .ready ∧ Handle.ofWord pooled.ce.args.a0 = some ⟨37, 2⟩ ∧
        pooled.store.live? ⟨37, 2⟩ = some (.pending entry37)) :=
  ⟨⟨takes, by decide +kernel⟩, ⟨takes, by decide +kernel⟩,
    takes, by decide +kernel⟩
theorem witness_QueryOutcomes :
    (TakesCommand (withArgs 0xFFFF 0 0 0 base) .ready ∧
        2048 ≤ (withArgs 0xFFFF 0 0 0 base).ce.args.a0.toNat) ∧
      (TakesCommand base .ready ∧ Handle.ofWord base.ce.args.a0 = some ⟨0, 0⟩ ∧
        base.store.live? ⟨0, 0⟩ = none) ∧
      (TakesCommand pooled .ready ∧ Handle.ofWord pooled.ce.args.a0 = some ⟨37, 2⟩ ∧
        pooled.store.live? ⟨37, 2⟩ = some (.pending entry37)) :=
  ⟨⟨takes, by decide +kernel⟩, ⟨takes, by decide +kernel⟩,
    takes, by decide +kernel⟩
theorem witness_SuspendAndResumeOutcomes :
    (TakesCommand (withArgs 16 0 0 0 base) .ready ∧ 16 ≤ (withArgs 16 0 0 0 base).ce.args.a0.toNat) ∧
      (TakesCommand (withArgs 15 0 0 0 base) .ready ∧
        (withArgs 15 0 0 0 base).ce.args.a0.toNat = (15 : Fin 16).val ∧ base.store.suspended 15 = false) ∧
      (TakesCommand parked2 .ready ∧ parked2.ce.args.a0.toNat = (2 : Fin 16).val ∧
        parked2.store.suspended 2 = true) :=
  ⟨⟨takes, by decide +kernel⟩, ⟨takes, by decide +kernel⟩,
    takes, by decide +kernel⟩
theorem witness_SuspensionKeepsDistance :
    base.store.suspended 0 = false ∧ entry37 ∈ pooled.store.agenda ∧ entry37.live.inGroup 0 = true ∧
      0 ≤ Machine.dist 10000 entry37.due := by decide +kernel
theorem witness_CancelGroupAndSetGroupOutcomes :
    TakesCommand (withArgs 16 0 0 0 base) .ready ∧ 16 ≤ (withArgs 16 0 0 0 base).ce.args.a0.toNat ∧
      TakesCommand (withArgs 0 3 0 0 base) .ready ∧ 3 ≤ (withArgs 0 3 0 0 base).ce.args.a1.toNat ∧
      (TakesCommand (withArgs 15 2 0 0 base) .ready ∧ base.mail.haltRequests = 0 ∧
        (withArgs 15 2 0 0 base).ce.args.a0.toNat = (15 : Fin 16).val ∧
        HaltAction.ofWord (withArgs 15 2 0 0 base).ce.args.a1 = some .suspend) ∧
      (TakesCommand (run (.haltEvent .whole) base) .ready ∧
        (run (.haltEvent .whole) base).mail.haltRequests ≠ 0) ∧
      lateKeep.hp.inReset = false ∧ lateKeep.ce.engine = .busy 0x23 ⟨1, 0, 0, 0⟩ (.accepted 1) ∧
      (run .haltGroupRequest lateKeep).ce.engine = .busy 0x23 ⟨1, 0, 0, 0⟩ (.accepted 0) :=
  ⟨takes, by decide +kernel, takes, by decide +kernel, ⟨takes, by decide +kernel⟩, ⟨takes, by decide +kernel⟩,
    by decide +kernel⟩
/-- The same with the free list of a whole pool. -/
def wholeGroup : State := withFree ((List.finRange 128).filter (· ∉ [18, 22, 31, 40])) parked2
theorem witness_GroupCancelFreesEveryMember :
    PoolWhole wholeGroup.store ∧ ParkedPlaced wholeGroup.store ∧
      (wholeGroup.store.membersOf 2).map (·.slot) = [40, 18, 22, 31] :=
  ⟨by unfold PoolWhole; decide +kernel, by unfold ParkedPlaced; decide +kernel, by decide +kernel⟩
/-! ### Timebase -/

def owed (s : State) : State := s.withMail { s.mail with inputTick := some 0 }
theorem witness_ClockCommandOutcomes :
    (TakesCommand base .ready ∧ base.tb.clock = .stopped ∧ base.mail.inputTick = none) ∧
      (TakesCommand (owed base) .ready ∧ (owed base).tb.clock = .stopped ∧ (owed base).mail.inputTick = some 0) ∧
      (TakesCommand clocked .ready ∧ clocked.tb.clock = .running 100 ∧ clocked.tb.clock ≠ .stopped) ∧
      (TakesCommand (owed clocked) .ready ∧ (owed clocked).mail.inputTick ≠ none) ∧
      (TakesCommand (withClock (.armed true) base) .ready ∧
        (withClock (.armed true) base).tb.clock = .armed true) :=
  ⟨⟨takes, rfl, rfl⟩, ⟨takes, rfl, rfl⟩,
    ⟨takes, rfl, by decide +kernel⟩, ⟨takes, by decide +kernel⟩, takes, rfl⟩
theorem witness_SetTimeAndSetTrimOutcomes :
    (TakesCommand clocked .ready ∧ clocked.tb.clock ≠ .stopped) ∧
      (TakesCommand (owed base) .ready ∧ (owed base).tickWorkTaken = false) ∧
      (TakesCommand pooled .ready ∧ pooled.tickWorkTaken = true ∧ pooled.store.agenda ≠ []) ∧
      (TakesCommand base .ready ∧ base.tickWorkTaken = true ∧ base.store.agenda = [] ∧
        base.store.parkedEntries = []) ∧
      (∀ a0 ∈ [(15 : Word), 4096], a0.toNat < 16 ∨ 4095 < a0.toNat) ∧
      (∀ a0 ∈ [(16 : Word), 4095], 16 ≤ a0.toNat ∧ a0.toNat ≤ 4095) :=
  ⟨⟨takes, by decide +kernel⟩, ⟨takes, by decide +kernel⟩,
    ⟨takes, by decide +kernel⟩, ⟨takes, by decide +kernel, rfl, by decide +kernel⟩,
    by simp, by simp⟩
theorem witness_TickAndSyncOutcomes :
    (clocked.hp.inReset = false ∧ clocked.tb.clock = .running 100 ∧ clocked.tickWorkTaken = true) ∧
      ((owed clocked).tb.clock = .running 100 ∧ (owed clocked).tickWorkTaken = false) ∧
      (∀ n, base.tb.clock ≠ .running n) ∧
      ((withClock (.armed false) base).tb.clock = .armed false ∧
        (withClock (.armed false) base).mail.inputTick = none) ∧
      (owed (withClock (.armed false) base)).mail.inputTick = some 0 ∧
      (withClock (.armed true) base).tb.clock ≠ .armed false ∧ ∀ b, base.tb.clock ≠ .armed b :=
  ⟨⟨rfl, rfl, by decide +kernel⟩, ⟨rfl, by decide +kernel⟩, (by intro n h; cases h), ⟨rfl, rfl⟩,
    by decide +kernel, by decide +kernel, by intro b h; cases h⟩
theorem witness_TimeReadThroughSnapshot :
    base.hp.inReset = false ∧ base.hp.port.admitRead 0x17 = some .ready ∧
      (∃ t, exec .dispatch base = .next t) ∧ Instr.dispatch ≠ .time0 ∧ ServesWrite base 0x17 .ready ∧
      ServesWrite base 0x18 .ready ∧ ServesWrite base 0x19 .ready :=
  ⟨rfl, rfl, answers _ _, by simp, ⟨rfl, rfl⟩, ⟨rfl, rfl⟩, rfl, rfl⟩

/-! ### Agenda and triggers -/

theorem witness_DispatchOutcomes :
    (overdue .fire).hp.inReset = false ∧ (overdue .fire).mail.storeTick = some 1044 ∧
      base.mail.storeTick = none ∧
      (takenBy 9999 [entry37]).length < 8 ∧ [entry37][(takenBy 9999 [entry37]).length]? = some entry37 ∧
      entry37 ∈ takenBy 10000 [entry37] := by decide +kernel
/-- An entry due at 1000 in slot 12 with `left` runs left, for the dispatch of 1044. -/
def due1000 (policy : LatePolicy) (period : BitVec 32) (runs : BitVec 16) (tolerance : BitVec 8) (left : Nat) :
    PendingEntry :=
  ⟨⟨12, { entry (.toggle 6) (.atTime 1000) with period, runs, policy, tolerance }, left, 0⟩, 1000⟩
/-- Each way a firing, a skip and a finish can come together. -/
theorem witness_DispatchServesOneEntry :
    (accountFor 1044 (due1000 .fire 0 0 255 0) = ⟨some 1000, false, none, 1, 1000⟩ ∧
      accountFor 1044 (due1000 .fire 0 0 0 0) = ⟨some 1000, true, none, 1, 1000⟩ ∧
      accountFor 1044 (due1000 .fire 10 0 0 0) = ⟨some 1000, true, some (1010, 4), 5, 1050⟩ ∧
      accountFor 1044 (due1000 .skip 10 0 5 0) = ⟨some 1040, false, some (1000, 4), 5, 1050⟩ ∧
      accountFor 1044 (due1000 .skip 10 3 5 3) = ⟨none, false, some (1000, 3), 3, 1030⟩) ∧
      (true = true ↔ ∃ k : Fin 16, Addresses (.toggle 6) k ∧
        (base.ou.lines[k].mode = .direct ∨ base.ou.lines[k].masked = true)) ∧
      (true = true ↔ ∃ source count offset,
        (loopEntry .mark 1).timing = .onTrigger source count offset true) :=
  ⟨by decide +kernel, ⟨fun _ => ⟨6, rfl, .inl (by decide +kernel)⟩, fun _ => rfl⟩,
    ⟨fun _ => ⟨.cue 2, 1, 1, rfl⟩, fun _ => rfl⟩⟩
/-- The entry of the late dispatch, runs endless. -/
def endless : PendingEntry :=
  ⟨live 12 { entry (.toggle 6) (.atTime 1000) with period := 10, tolerance := 2 }, 1000⟩
theorem witness_LateOccurrenceAccounting :
    (1044 - (1000 : Time)).toNat ≤ (255 : BitVec 8).toNat ∧ (5 : BitVec 8).toNat < (1044 - (1000 : Time)).toNat ∧
      (due1000 .fire 0 0 5 0).live.entry.policy = .fire ∧ (due1000 .skip 0 0 5 0).live.entry.policy = .skip ∧
      0 < (10 : BitVec 32).toNat ∧
      (4 * 10 ≤ 44 ∧ accountFor 1044 (due1000 .skip 10 0 5 0) = ⟨some 1040, false, some (1000, 4), 5, 1050⟩) ∧
      (44 < 5 * 10 ∧ accountFor 1044 (due1000 .skip 10 0 2 0) = ⟨none, false, some (1000, 5), 5, 1050⟩) ∧
      (3 ≤ 3 ∧ accountFor 1044 (due1000 .skip 10 3 5 3) = ⟨none, false, some (1000, 3), 3, 1030⟩) ∧
      (Machine.dist 1044 endless.due ≤ 0 ∧ endless.live.entry.policy = .fire ∧ endless.live.entry.period ≠ 0 ∧
        endless.live.entry.tolerance.toNat < latenessAt 1044 endless.due ∧
        finishes endless.live (accountFor 1044 endless) = false) := by decide +kernel
theorem witness_AgendaKeepsItsOrder :
    Ordered 1044 [endless, entry37] ∧ ∀ x ∈ [endless, entry37], -(2 ^ 47) < Machine.dist 1044 x.due :=
  ⟨by unfold Ordered; decide +kernel, by decide +kernel⟩
theorem two_triggers : mixedHeld.mail.inputTriggers = [(5, 904)] ++ (2, 900) :: [] := by decide +kernel
theorem witness_TriggerOutcomes :
    let s := loop.withMail { loop.mail with cues := [(2, 3000)] }
    s.hp.inReset = false ∧ s.mail.cues = (2, 3000) :: [] ∧ loop.mail.cues = [] ∧
      mixedHeld.mail.inputTriggers = [(5, 904)] ++ (2, 900) :: [] ∧
      (∀ x ∈ [((5 : Fin 8), (904 : Time))], x.1 ≠ 2) ∧ (∀ x ∈ mixedHeld.mail.inputTriggers, x.1 ≠ 7) ∧
      TakesCommand loop .ready ∧ loop.ce.args.a0.toNat = (2 : Fin 4).val ∧
      TakesCommand (withArgs 4 0 0 0 base) .ready ∧ 4 ≤ (withArgs 4 0 0 0 base).ce.args.a0.toNat :=
  ⟨by decide +kernel, by decide +kernel, by decide +kernel, two_triggers, by simp, by rw [two_triggers]; simp,
    takes, by decide +kernel,
    takes, by decide +kernel⟩

/-! ### Lines -/

theorem witness_ConfigOutOutcomes :
    (∀ a ∈ [withArgs 16 0 0 0 base, withArgs 0 2 0 0 base, withArgs 0 0 2 0 base],
        a.hp = ⟨.ready, false⟩ ∧ a.ce.engine = .idle ∧
          (16 ≤ a.ce.args.a0.toNat ∨ 2 ≤ a.ce.args.a1.toNat ∨ 2 ≤ a.ce.args.a2.toNat)) ∧
      (TakesCommand (withArgs 15 1 1 0 base) .ready ∧
        (withArgs 15 1 1 0 base).ce.args.a0.toNat = (15 : Fin 16).val ∧ LineMode.ofWord 1 = some .agenda ∧
        argBit 1 = some true ∧ base.ou.forced = false) ∧
      (TakesCommand (withArgs 15 1 1 0 (withLatch (some .pin) base)) .ready ∧
        (withLatch (some .pin) base).ou.forced = true) ∧
      (TakesCommand (run .runDown beforeToggle) .ready ∧ (run .runDown beforeToggle).ou.forced = false) :=
  ⟨by decide +kernel, ⟨takes, by decide +kernel, by decide, by decide, by decide +kernel⟩,
    ⟨takes, by decide +kernel⟩, takes, by decide +kernel⟩
/-- Line 5 and no other awaits the toggle, on its way as a delivery; ahead of a dispatch every line awaits effects. -/
theorem toggle_may_come :
    (∀ k : Fin 16, (k == 5) = true ↔ EffectMayCome beforeToggle k) ∧ EffectMayCome toggleDue 5 ∧
      ¬ EffectMayCome (run .dispatch beforeDispatch) 5 := by
  unfold EffectMayCome
  decide +kernel
theorem witness_LineEventOutcomes :
    beforeToggle.hp.inReset = false ∧ beforeToggle.mail.deliveries = ⟨2005, [.toggle 5]⟩ :: [] ∧
      base.mail.deliveries = [] ∧ beforeToggle.mail.outputTick = some 2005 ∧ base.mail.outputTick = none ∧
      beforeToggle.ou.lines[(5 : Fin 16)].pulse = some ⟨1, false, false⟩ ∧
      (∀ k : Fin 16, base.ou.lines[k].pulse = none) ∧ base.hp.port.admitWrite 0x12 = some .ready ∧
      (base.ou.lines[(5 : Fin 16)].mode = .direct ∧ halted.ou.lines[(0 : Fin 16)].masked = true) ∧
      (0x8000 : BitVec 16).getLsbD (14 : Fin 16) = false ∧ (0x8000 : BitVec 16).getLsbD (15 : Fin 16) = true ∧
      (beforeToggle.ou.lines[(5 : Fin 16)].mode = .agenda ∧ beforeToggle.ou.lines[(5 : Fin 16)].masked = false ∧
        beforeToggle.ou.lastTick ≠ some 2005) := by decide +kernel
theorem witness_TickWorkInEitherOrder :
    (beforeToggle.hp.inReset = false ∧ beforeToggle.mail.storeTick = none ∧
        beforeToggle.mail.outputTick = some 2005 ∧ beforeToggle.ou.lastTick ≠ some 2005 ∧
        beforeToggle.mail.deliveries = [⟨2005, [.toggle 5]⟩] ∧ (Effect.toggle 5).addresses 5 = true ∧
        beforeToggle.ou.lines[(5 : Fin 16)].mode = .agenda ∧
        beforeToggle.ou.lines[(5 : Fin 16)].masked = false) ∧
      (exec .runDown beforeToggle = .next (run .runDown beforeToggle) ∧
        exec .delivery (run .runDown beforeToggle) = .next (run .delivery (run .runDown beforeToggle)) ∧
        exec .delivery beforeToggle = .next (run .delivery beforeToggle) ∧
        exec .runDown (run .delivery beforeToggle) = .next (run .runDown (run .delivery beforeToggle))) ∧
      (toggleDue.hp.inReset = false ∧ toggleDue.mail.storeTick = some 2005 ∧
        toggleDue.mail.outputTick = some 2005) ∧
      (exec .runDown toggleDue = .next (run .runDown toggleDue) ∧
        exec .dispatch (run .runDown toggleDue) = .next (run .dispatch (run .runDown toggleDue)) ∧
        exec .pulseEnd (run .dispatch (run .runDown toggleDue)) =
          .next (run .pulseEnd (run .dispatch (run .runDown toggleDue))) ∧
        exec .dispatch toggleDue = .next (run .dispatch toggleDue) ∧
        exec .runDown (run .dispatch toggleDue) = .next (run .runDown (run .dispatch toggleDue))) ∧
      (let s := run .dispatch beforeDispatch
       s.ou.lines[(5 : Fin 16)].mode = .agenda ∧
        s.ou.lines[(5 : Fin 16)].masked = false ∧ exec .pulseEnd s = .next (run .pulseEnd s) ∧
        (run .pulseEnd s).outPin 5 ≠ s.outPin 5) := by
  exact ⟨by decide +kernel, ⟨exec_run _ _, exec_run _ _, exec_run _ _, exec_run _ _⟩, by decide +kernel,
    ⟨exec_run _ _, exec_run _ _, exec_run _ _, exec_run _ _, exec_run _ _⟩, by decide +kernel,
    by decide +kernel, exec_run _ _, by decide +kernel⟩
theorem witness_PinsMoveOnlyAsStated :
    PulsesSound (run .runDown toggleDue) ∧ (run .runDown toggleDue).ou.lines[(5 : Fin 16)].ending = true ∧
      (∃ t, step ((run .runDown toggleDue).withPending [.dispatch]) = .next t) ∧
      (let s := run .dispatch (run .runDown beforeDispatch)
       exec .pulseEnd s = .next (run .pulseEnd s) ∧
        (run .pulseEnd s).ou.lines[(5 : Fin 16)].level ≠ s.ou.lines[(5 : Fin 16)].level ∧
        (run .pulseEnd s).outPin 5 ≠ s.outPin 5) := by
  refine ⟨?_, by decide +kernel, steps _, exec_run _ _, by decide +kernel⟩
  unfold PulsesSound
  decide +kernel
theorem witness_PulseHoldsItsWidth :
    let l : LineRecord := ⟨.agenda, false, none, false, false, false, false⟩
    l.closed = false ∧ l.pulse = none ∧ (none : Option Time) ≠ some 2000 ∧ (3 : BitVec 16) ≠ 0 := by
  decide +kernel
/-! ### Inputs and the queue -/

theorem witness_InputWorkOutcomes :
    let rise := in3 false (some 102) none 104
    let fall := in3 true (some 150) (some 102) 152
    rise.hp.inReset = false ∧ rise.mail.inputTick = some 104 ∧
      rise.iu.lines[(3 : Fin 8)].confirms? 104 true = some 102 ∧
      rise.iu.lines[(3 : Fin 8)].confirms? 103 true = none ∧ true ≠ rise.iu.lines[(3 : Fin 8)].accepted ∧
      (∀ k : Fin 8, (in3 false (some 102) none 103).iu.lines[k].confirms? 103 ((8 : Pins).getLsbD k) = none) ∧
      base.mail.inputTick = none ∧ (3, 102) ∈ rise.iu.triggers 104 8 ∧
      Capture.span 3 true 102 48 false ∈ fall.iu.captures 152 0 := by decide +kernel
theorem witness_FilterConfirmsAfterFullRun :
    let r := (in3 false none none 102).iu.lines[(3 : Fin 8)]
    r.candidate = none ∧ true ≠ r.accepted ∧ 0 < r.filter.val ∧ 2 = r.filter.val := by decide +kernel
/-- CONFIG-IN with every operand at its last value. -/
def lastInput : State := withArgs 7 3 0x0102 15 base
theorem witness_ConfigInOutcomes :
    (∀ a ∈ [withArgs 8 0 0 0 base, withArgs 0 4 0 0 base, withArgs 0 0 3 0 base, withArgs 0 0 0x0200 0 base,
          withArgs 0 0 0 16 base],
        a.hp = ⟨.ready, false⟩ ∧ a.ce.engine = .idle ∧
          (8 ≤ a.ce.args.a0.toNat ∨ 4 ≤ a.ce.args.a1.toNat ∨ 3 ≤ (a.ce.args.a2.extractLsb' 0 8).toNat ∨
            2 ≤ (a.ce.args.a2.extractLsb' 8 8).toNat ∨ 16 ≤ a.ce.args.a3.toNat)) ∧
      TakesCommand lastInput .ready ∧ lastInput.ce.args.a0.toNat = (7 : Fin 8).val ∧
      EdgeSelect.ofWord lastInput.ce.args.a1 = some .both ∧
      CaptureMode.ofByte (lastInput.ce.args.a2.extractLsb' 0 8) = some .span ∧
      (lastInput.ce.args.a2.extractLsb' 8 8).toNat = bitNat true ∧
      lastInput.ce.args.a3.toNat = (15 : Fin 16).val :=
  ⟨by decide +kernel, takes, by decide +kernel⟩
theorem witness_RecordOfferOutcomes :
    (∃ older, fullQueue.eq.records = older ++ [.overflow 1] ∧ 63 ≤ fullQueue.eq.records.length) ∧
      (fillTo 62).eq.records.length < 63 ∧ (fillTo 63).eq.records.length = 63 ∧
      (fillTo 63).eq.records.getLast? = some (edge 1) ∧
      (fillTo 63).mail.storeOffers = .done ⟨21, 0⟩ 0 0 .finished 1 false :: [] ∧
      (fillTo 63).mail.inputOffers = .edge 2 true 9 false :: [] ∧
      (run (.sample 0) (in3 true (some 150) (some 102) 152)).mail.inputOffers = .span 3 true 102 48 false :: [] ∧
      (run (.haltEvent .whole) haltable).mail.haltOffers = .halt 8010 .pin :: [] ∧
      base.mail.storeOffers = [] ∧ base.mail.inputOffers = [] ∧ base.mail.haltOffers = [] :=
  ⟨⟨List.replicate 63 (edge 1), by decide +kernel⟩, by decide +kernel⟩
theorem witness_PopRemovesHead :
    ServesWrite base 0x34 .ready ∧
      (withPort (.frame false false 0x34) base).hp = ⟨.frame false false 0x34, false⟩ := ⟨serves, rfl⟩
theorem witness_ThresholdAndInterruptRegisters :
    ServesWrite base 0x36 .ready ∧ (∀ w ∈ [(1 : Word), 64], 1 ≤ w.toNat ∧ w.toNat ≤ 64) ∧
      (∀ w ∈ [(0 : Word), 65], w = 0 ∨ 64 < w.toNat) ∧ base.eq.threshold ≤ 64 ∧ ServesWrite base 0x35 .ready ∧
      ServesWrite base 0x15 .ready ∧ ServesWrite base 0x16 .ready :=
  ⟨serves, by simp, by simp, by decide +kernel, serves, serves, serves⟩

/-! ### Halt, resets, port -/

def recognised : State := run (.haltEvent .recognise) base
theorem witness_HaltAndReleaseOutcomes :
    (base.hp.inReset = false ∧ base.hc.haltnHigh = true ∧ base.hc.fallsOwed = 0) ∧
      (recognised.hc.fallsOwed = 0 + 1 ∧ recognised.hc.latch = none ∧ recognised.hc.haltnHigh = false) ∧
      ((run (.haltEvent .recognise) releasing).hc.fallsOwed = 0 + 1 ∧
        (run (.haltEvent .recognise) releasing).hc.latch = some .pin) ∧
      (releasing.hc.latch = some .pin ∧ releasing.hc.haltnHigh = true) ∧
      (TakesCommand releasing .ready ∧ TakesCommand base .ready) ∧
      (TakesCommand halted .ready ∧ halted.hc.haltnHigh = false) :=
  ⟨by decide +kernel, by decide +kernel, by decide +kernel, by decide +kernel, ⟨takes, takes⟩, takes,
    by decide +kernel⟩
/-- A halt taken while a merge is in flight. -/
def haltedMerge : State := run (.haltEvent .whole) merging
theorem witness_HaltGroupRequestOutcomes :
    haltedMerge.hp.inReset = false ∧ base.mail.haltRequests = 0 ∧
      haltedMerge.mail.haltRequests = 0 + 1 ∧ haltedMerge.ce.engine = .committing ⟨0, 0, 0, 0⟩ ∧
      ((run (.haltEvent .whole) base).mail.haltRequests = 0 + 1 ∧
        ∀ a, (run (.haltEvent .whole) base).ce.engine ≠ .committing a) ∧
      base.store.groups[(0 : Fin 16)].haltAction = .keep ∧
      (withGroup 0 ⟨.cancel, false⟩ base).store.groups[(0 : Fin 16)].haltAction = .cancel ∧
      ((withGroup 0 ⟨.suspend, true⟩ base).store.groups[(0 : Fin 16)].haltAction = .suspend ∧
        (withGroup 0 ⟨.suspend, true⟩ base).store.suspended 0 = true) ∧
      ((withGroup 0 ⟨.suspend, false⟩ base).store.groups[(0 : Fin 16)].haltAction = .suspend ∧
        (withGroup 0 ⟨.suspend, false⟩ base).store.suspended 0 = false) :=
  ⟨by decide +kernel, by decide +kernel, by decide +kernel, rfl, ⟨by decide +kernel, by intro a h; cases h⟩,
    by decide +kernel⟩
theorem witness_SoftResetOutcomes :
    ServesWrite halted 0x02 .ready ∧ (1 : Word).getLsbD 0 = true ∧ halted.hc.haltnHigh = false ∧
      ServesWrite base 0x02 .ready ∧ base.hc.haltnHigh = true :=
  ⟨serves, by decide, by decide +kernel, serves, by decide +kernel⟩
theorem witness_PortFrames :
    base.hp.inReset = false ∧ base.hp.port = .ready ∧ (withPort .waitHigh base).hp.port ≠ .ready ∧
      (0 : Addr) ≠ 63 ∧ (withPort (.frame true true 0x3F) base).hp.port = .frame true true 0x3F ∧
      (withPort (.frame true false 0x17) base).hp.port = .frame true false 0x17 ∧
      ∀ autoInc a, base.hp.port ≠ .frame true autoInc a :=
  ⟨by decide +kernel, by decide +kernel, by decide +kernel, by decide, rfl, rfl, by intro b a h; cases h⟩
/-- One record of each kind. -/
def eachKind : List EventRecord :=
  [.fired ⟨127, 15⟩ 15 255 9 true, .late ⟨127, 15⟩ 15 255 9 (2 ^ 32 - 1) true,
    .skipped ⟨127, 15⟩ 15 255 9 65535, .done ⟨127, 15⟩ 15 255 .halted 65535 true, .edge 7 true 9 true,
    .span 7 true 9 8 true, .halt 9 .command, .overflow 65535]
theorem witness_RegisterReads :
    base.ce.staging.length ≤ 16 ∧ base.store.free.length < 256 ∧ base.store.agenda.length < 256 ∧
      base.ce.handles.length ≤ 16 ∧ base.ce.handles.length ≤ base.ce.hsel.toNat ∧
      (run .mergeCompletion mixedBatch).ce.handles[(run .mergeCompletion mixedBatch).ce.hsel.toNat]? =
        some ⟨50, 2⟩ ∧
      base.hp.inReset = false ∧ base.eq.records.length ≤ 64 ∧ (0x30 : Addr).toNat = 0x20 + 16 ∧
      (∀ a ∈ [(0x1A : Addr), 0x1F], 0x1A ≤ a.toNat ∧ a.toNat ≤ 0x1F) ∧
      (∀ a ∈ [(0x31 : Addr), 0x33], 0x31 ≤ a.toNat ∧ a.toNat ≤ 0x33) ∧
      base.eq.records = [] ∧ 0x38 ≤ (0x38 : Addr).toNat ∧
      (∀ r ∈ eachKind, (withRecords [r] base).eq.records = r :: []) := by
  refine ⟨?_, ?_, ?_, ?_, ?_, ?_, ?_, ?_, rfl, ?_, ?_, rfl, by decide, fun _ _ => rfl⟩ <;> decide +kernel
def waiting : State := withEngine (.busy 0x01 ⟨0, 0, 0, 0⟩ (.accepted 0)) base
theorem witness_RegisterAndBadCommandWrites :
    (∀ a ∈ [(0x00 : Addr), 0x02, 0x03, 0x06, 0x10, 0x20, 0x30, 0x31, 0x3F],
        base.hp.inReset = false ∧ base.hp.port.admitWrite a = some .ready ∧ hasOwnRow a 0 = false) ∧
      (ServesWrite base 0x07 .ready ∧ namesCommand 0x00FF = false ∧ base.ce.engine = .idle) ∧
      busy.ce.engine ≠ .idle ∧
      (ServesWrite waiting 0x20 .ready ∧ hasOwnRow 0x20 0 = false ∧ (0x20 : Addr).toNat = 0x20 + 0 ∧
        exec (.append .take) waiting = .next (run (.append .take) waiting)) :=
  ⟨by decide +kernel, ⟨serves, by decide +kernel⟩, by decide +kernel, serves, by decide, by decide, exec_run _ _⟩

end Sys2Proof.Tests
end

/-!
The slot pool as the entries see it: which entry lives in which slot, and how the operations of the Schedule Store
move entries between the collections, a walk's hand and the free list.
-/

namespace Sys2Proof.Machine

open Sys2Proof.Safety

/-! ## Tenants: the slots that hold an entry, with the programmed fields of that entry (R2, R5) -/

/-- A slot and the entry that lives in it. -/
abbrev Tenant := Fin 128 × Entry

/-- The slot and the programmed fields of a live entry, without its runtime fields. -/
def Live.tenant (l : Live) : Tenant := (l.slot, l.entry)

/-- Every entry of the store, whichever collection it lies in. -/
def Store.tenants (st : Store) : List Tenant :=
  st.agenda.map (·.live.tenant) ++ (st.heldEntries.map (·.live.tenant) ++ st.parkedEntries.map (·.live.tenant))

@[simp] theorem Live.tenant_slot (l : Live) : l.tenant.1 = l.slot := rfl

/-- A slot is listed as often as it lies on the free list, in the reserved set, and under an entry. -/
theorem occupancy_eq (st : Store) (k : Fin 128) :
    occupancy st k = st.free.count k + st.reserved.count k + (st.tenants.map (·.1)).count k := by
  simp [occupancy, Store.tenants, Function.comp_def, Nat.add_assoc]

/-- The entry found in a slot is a tenant of the store. -/
theorem Store.tenant_mem_of_find? {st : Store} {k : Fin 128} {f : Found} (h : st.find? k = some f) :
    (k, f.live.entry) ∈ st.tenants := by
  simp only [Store.tenants, List.mem_append, List.mem_map, Live.tenant]
  obtain ⟨p, hm, hp, e⟩ | ⟨p, hm, hp, e⟩ | ⟨p, hm, hp, e⟩ | ⟨-, -, -, e⟩ := st.find?_cases k <;>
    rw [e] at h <;> cases h
  · exact .inl ⟨p, hm, by rw [hp, Found.live]⟩
  · exact .inr (.inl ⟨p, hm, by rw [hp, Found.live]⟩)
  · exact .inr (.inr ⟨p, hm, by rw [hp, Found.live]⟩)

/-- A slot in which an entry is found is the slot of a tenant, and the other way round. -/
theorem Store.find?_isSome_iff (st : Store) (k : Fin 128) :
    (st.find? k).isSome ↔ k ∈ st.tenants.map (·.1) := by
  constructor
  · intro h
    obtain ⟨f, hf⟩ := Option.isSome_iff_exists.mp h
    exact List.mem_map.mpr ⟨_, st.tenant_mem_of_find? hf, rfl⟩
  · intro h
    obtain ⟨p, -, -, e⟩ | ⟨p, -, -, e⟩ | ⟨p, -, -, e⟩ | ⟨ha, hh, hp, -⟩ := st.find?_cases k
    · simp [e]
    · simp [e]
    · simp [e]
    · simp only [Store.tenants, List.map_append, List.mem_append, List.map_map, List.mem_map,
        Function.comp_apply, Live.tenant_slot] at h
      obtain ⟨p, hm, hk⟩ | ⟨p, hm, hk⟩ | ⟨p, hm, hk⟩ := h
      · exact absurd hk (ha p hm)
      · exact absurd hk (hh p hm)
      · exact absurd hk (hp p hm)

end Sys2Proof.Machine

namespace Sys2Proof.Safety

open Sys2Proof.Machine

/-! ## A whole pool, entry by entry (R5) -/

/-- The slots of the tenants are listed once each. -/
theorem PoolWhole.nodup {st : Store} (hw : PoolWhole st) : (st.tenants.map (·.1)).Nodup := by
  rw [List.nodup_iff_count_le_one]
  intro k
  have := (occupancy_eq st k).symm.trans (hw k)
  omega

/-- In a whole pool only one tenant has the slot of a tenant. -/
theorem PoolWhole.filter_slot {st : Store} (hw : PoolWhole st) {t : Tenant} (ht : t ∈ st.tenants) :
    st.tenants.filter (·.1 == t.1) = [t] := by
  have hlen : (st.tenants.filter (·.1 == t.1)).length ≤ 1 := by
    have := List.nodup_iff_count_le_one.mp hw.nodup t.1
    rwa [List.count_eq_countP, List.countP_map, List.countP_eq_length_filter] at this
  have hmem : t ∈ st.tenants.filter (·.1 == t.1) := List.mem_filter.mpr ⟨ht, beq_self_eq_true _⟩
  obtain ⟨x, hx⟩ := List.length_eq_one_iff.mp (le_antisymm hlen (List.length_pos_of_mem hmem))
  rw [hx] at hmem ⊢
  rw [List.mem_singleton.mp hmem]

/-- In a whole pool a slot that holds an entry is neither free nor reserved. -/
theorem PoolWhole.not_free_of_tenant {st : Store} (hw : PoolWhole st) {k : Fin 128}
    (hk : k ∈ st.tenants.map (·.1)) : k ∉ st.free ∧ k ∉ st.reserved := by
  have whole := (occupancy_eq st k).symm.trans (hw k)
  have listed := List.count_pos_iff.mpr hk
  constructor <;> intro h
  all_goals
    have := List.count_pos_iff.mpr h
    omega

/-- In a whole pool a slot has one entry. -/
theorem PoolWhole.entry_unique {st : Store} (hw : PoolWhole st) {k : Fin 128} {e e' : Entry}
    (h : (k, e) ∈ st.tenants) (h' : (k, e') ∈ st.tenants) : e' = e :=
  (Prod.ext_iff.mp (List.inj_on_of_nodup_map hw.nodup h' h rfl)).2

/-- A pool with every slot on the free list and no entry is whole. -/
theorem PoolWhole.of_all_free {st : Store} (free : st.free = List.finRange 128) (reserved : st.reserved = [])
    (tenants : st.tenants = []) : PoolWhole st := by
  intro k
  rw [occupancy_eq, free, reserved, tenants, List.count_eq_one_of_mem (List.nodup_finRange 128) (List.mem_finRange k)]
  rfl

end Sys2Proof.Safety

namespace Sys2Proof.Machine

open Sys2Proof.Safety

/-! ## Moves: entries change their places, and some are freed -/

/-- From the store `st` with the entries `hand` in hand to the store `st'` with `hand'` in hand: no entry is lost,
and those that are gone are the freed ones, whose slots have joined the tail of the free list in that order with
their generations advanced (R7, R10). The reserved set is not touched. -/
def Moves (hand : List Tenant) (st : Store) (hand' : List Tenant) (st' : Store) : Prop :=
  ∃ freed : List Tenant,
    st'.free = st.free ++ freed.map (·.1) ∧ st'.reserved = st.reserved ∧
      (∀ k : Fin 128, st'.gens[k] = st.gens[k] + BitVec.ofNat 4 ((freed.map (·.1)).count k)) ∧
      (freed ++ (hand' ++ st'.tenants)).Perm (hand ++ st.tenants)

/-- A move that frees nothing. -/
theorem Moves.of_perm {hand hand' : List Tenant} {st st' : Store} (free : st'.free = st.free)
    (reserved : st'.reserved = st.reserved) (gens : st'.gens = st.gens)
    (perm : (hand' ++ st'.tenants).Perm (hand ++ st.tenants)) : Moves hand st hand' st' :=
  ⟨[], by simp [free], reserved, by simp [gens], perm⟩

theorem Moves.refl (hand : List Tenant) (st : Store) : Moves hand st hand st :=
  .of_perm rfl rfl rfl (.refl _)

theorem Moves.trans {h₁ h₂ h₃ : List Tenant} {st₁ st₂ st₃ : Store} (m : Moves h₁ st₁ h₂ st₂)
    (m' : Moves h₂ st₂ h₃ st₃) : Moves h₁ st₁ h₃ st₃ := by
  obtain ⟨fr, free, reserved, gens, perm⟩ := m
  obtain ⟨fr', free', reserved', gens', perm'⟩ := m'
  refine ⟨fr ++ fr', by simp [free', free], reserved'.trans reserved, fun k => ?_, ?_⟩
  · rw [gens' k, gens k, List.map_append, List.count_append, BitVec.ofNat_add, BitVec.add_assoc]
  · rw [List.append_assoc]
    exact (perm'.append_left fr).trans perm

/-- The store can be exchanged for one with the same slots, generations and collections: no move sees the groups. -/
theorem Moves.setSuspended {hand hand' : List Tenant} {st st' : Store} (m : Moves hand st hand' st') (g : Fin 16)
    (b : Bool) : Moves hand st hand' (st'.setSuspended g b) := m

/-- An entry in hand is placed (R21). -/
theorem Moves.place {x : PendingEntry} {t : Tenant} (hand : List Tenant) (st : Store) (now : Time)
    (ht : x.live.tenant = t) : Moves (t :: hand) st hand (st.place now x) := by
  subst ht
  refine .of_perm rfl rfl rfl (List.Perm.trans ?_ List.perm_middle)
  exact (((insertPending_perm now x st.agenda).map (·.live.tenant)).append_right _).append_left hand

/-- An entry in hand joins a held list (R90). -/
theorem Moves.joinHeld {h : HeldEntry} {t : Tenant} (hand : List Tenant) (st : Store) (src : Source)
    (ht : h.live.tenant = t) : Moves (t :: hand) st hand (st.joinHeld src h) := by
  subst ht
  refine .of_perm rfl rfl rfl (List.Perm.trans ?_ List.perm_middle)
  refine .append_left hand (List.Perm.trans (.append_left _ ?_) List.perm_middle)
  refine List.Perm.append_right (l₂ := h.live.tenant :: st.heldEntries.map (·.live.tenant)) _ ?_
  exact ((st.joinHeld_heldEntries_perm src h).trans (List.perm_append_singleton _ _)).map _

/-- An entry in hand joins a parked set (R110). -/
theorem Moves.joinParked {q : ParkedEntry} {t : Tenant} (hand : List Tenant) (st : Store) (g : Fin 16)
    (ht : q.live.tenant = t) : Moves (t :: hand) st hand (st.joinParked g q) := by
  subst ht
  refine .of_perm rfl rfl rfl (List.Perm.trans ?_ List.perm_middle)
  refine .append_left hand (List.Perm.trans ?_ List.perm_middle)
  refine .append_left _ (List.Perm.trans ?_ List.perm_middle)
  exact .append_left _ (((st.joinParked_parkedEntries_perm g q).trans (List.perm_append_singleton _ _)).map _)

/-- The slot of an entry in hand is freed (R7, R10). -/
theorem Moves.freeSlot (t : Tenant) (hand : List Tenant) (st : Store) :
    Moves (t :: hand) st hand (st.freeSlot t.1) := by
  refine ⟨[t], rfl, rfl, fun k => ?_, .refl _⟩
  rw [Store.freeSlot_gens, getElem_fin_set]
  by_cases hk : k = t.1
  · simp [hk]
  · simp [hk, Ne.symm hk]

/-- Entries in hand are placed one after another (R21). -/
theorem Moves.placeAll (now : Time) (xs : List PendingEntry) (st : Store) :
    Moves (xs.map (·.live.tenant)) st [] (st.placeAll now xs) := by
  induction xs generalizing st with
  | nil => exact .refl _ _
  | cons x xs ih => exact (Moves.place _ _ _ rfl).trans (ih _)

/-- The slots of entries in hand are freed one after another (R116). -/
theorem Moves.freeLives (reason : DoneReason) (ls : List Live) (st : Store) :
    Moves (ls.map (·.tenant)) st [] (st.freeLives reason ls).1 := by
  induction ls generalizing st with
  | nil => exact .refl _ _
  | cons l ls ih => exact (Moves.freeSlot l.tenant _ _).trans (ih _)

/-- A record goes live in its slot (R81). -/
theorem Moves.goLive (tc : Time) (k : Fin 128) (e : Entry) (hand : List Tenant) (st : Store) :
    Moves ((k, e) :: hand) st hand (st.goLive tc k e) := by
  unfold Store.goLive
  cases e.timing with
  | atTime due =>
    dsimp only
    split
    · exact .joinParked _ _ _ rfl
    · exact .place _ _ _ rfl
  | afterDelay delay =>
    dsimp only
    split
    · exact .joinParked _ _ _ rfl
    · exact .place _ _ _ rfl
  | onTrigger source count offset rehold => exact .joinHeld _ _ _ rfl

/-- A batch goes live, each record in its paired slot (R80). -/
theorem Moves.goLiveAll (tc : Time) (batch : List Tenant) (st : Store) :
    Moves batch st [] (st.goLiveAll tc batch) := by
  induction batch generalizing st with
  | nil => exact .refl _ _
  | cons x xs ih => exact (Moves.goLive tc x.1 x.2 _ _).trans (ih _)

/-! ## What the commands on entries and groups move -/

/-- Taking a slot's entry out of the collections leaves the other tenants. -/
theorem Store.tenants_takeOut (st : Store) (k : Fin 128) :
    (st.takeOut k).tenants = st.tenants.filter (·.1 != k) := by
  simp [Store.tenants, List.filter_map, Function.comp_def]

/-- CANCEL frees the entry found, the only one of its slot (R14). -/
theorem Moves.cancelStore {st : Store} {k : Fin 128} {f : Found} (hw : PoolWhole st) (hf : st.find? k = some f) :
    Moves [] st [] (cancelStore st f) := by
  obtain rfl := Store.slot_of_find? hf
  have taken : Moves [] st [f.live.tenant] (st.takeOut f.live.slot) := by
    refine .of_perm rfl rfl rfl ?_
    have one : st.tenants.filter (·.1 == f.live.slot) = [f.live.tenant] :=
      hw.filter_slot (Store.tenant_mem_of_find? hf)
    rw [Store.tenants_takeOut, ← one]
    exact List.filter_append_perm _ _
  exact taken.trans (.freeSlot f.live.tenant [] _)

/-- The entries of a list that pass a test, and the others, are the entries of the list. -/
theorem count_map_filter {α β : Type} [BEq β] (p : α → Bool) (f : α → β) (l : List α) (b : β) :
    (l.map f).count b = ((l.filter p).map f).count b + ((l.filter fun x => !p x).map f).count b := by
  rw [← List.count_append, ← List.map_append]
  exact (((List.filter_append_perm p l).map f).count_eq b).symm

/-- The entries of a bank of lists, when one list is replaced. -/
theorem count_flatten_set {α β : Type} [BEq β] {n : Nat} (v : Vector (List α) n) (i : Fin n) (l : List α)
    (f : α → β) (b : β) :
    ((v.set i l).toList.flatten.map f).count b + (v[i].map f).count b =
      (v.toList.flatten.map f).count b + (l.map f).count b := by
  rw [← List.count_append, ← List.map_append, ← List.count_append, ← List.map_append]
  exact ((flatten_set_perm v i l).map f).count_eq b

/-- SUSPEND moves the group's pending entries to its parked set (R113). -/
theorem Moves.suspendGroup (st : Store) (now : Time) (g : Fin 16) :
    Moves [] st [] (st.suspendGroup now g) := by
  unfold Store.suspendGroup
  split
  · exact .refl _ _
  · apply Moves.setSuspended
    refine .of_perm rfl rfl rfl (List.perm_iff_count.mpr fun t => ?_)
    have agenda := count_map_filter (fun p => p.live.inGroup g) (·.live.tenant) st.agenda t
    have parked := count_flatten_set st.parked g
      (st.parked[g] ++ (st.pendingOf g).map fun p => ⟨p.live, remainingAt now p.due⟩) (·.live.tenant) t
    simp only [Store.pendingOf, List.map_append, List.map_map, Function.comp_def, List.count_append] at parked
    simp only [Store.tenants, Store.heldEntries, Store.parkedEntries, Store.pendingOf, List.nil_append,
      List.count_append]
    omega

/-- RESUME moves the group's parked set back to the agenda (R114). -/
theorem Moves.resumeGroup (st : Store) (now : Time) (g : Fin 16) :
    Moves [] st [] (st.resumeGroup now g) := by
  unfold Store.resumeGroup
  split
  · have taken : Moves [] st (st.parked[g].map (·.live.tenant)) { st with parked := st.parked.set g [] } := by
      refine .of_perm rfl rfl rfl (List.perm_iff_count.mpr fun t => ?_)
      have parked := count_flatten_set st.parked g [] (·.live.tenant) t
      simp only [List.map_nil, List.count_nil] at parked
      simp only [Store.tenants, Store.heldEntries, Store.parkedEntries, List.nil_append, List.count_append]
      omega
    have placed := Moves.placeAll now (st.parked[g].map fun q => ⟨q.live, later now q.remaining⟩)
      { st with parked := st.parked.set g [] }
    rw [List.map_map] at placed
    exact (taken.trans placed).setSuspended g false
  · exact .refl _ _

/-- CANCEL-GROUP frees every member of the group (R116). -/
theorem Moves.cancelGroup (st : Store) (reason : DoneReason) (g : Fin 16) :
    Moves [] st [] (st.cancelGroup reason g).1 := by
  refine .trans ?_ (Moves.freeLives reason (st.membersOf g) _)
  refine .of_perm rfl rfl rfl (List.perm_iff_count.mpr fun t => ?_)
  have agenda := count_map_filter (fun p => p.live.inGroup g) (·.live.tenant) st.agenda t
  have held := count_map_filter (fun h => h.live.inGroup g) (·.live.tenant) st.heldEntries t
  have parked := count_flatten_set st.parked g [] (·.live.tenant) t
  simp only [List.map_nil, List.count_nil] at parked
  simp only [Store.tenants, Store.membersOf, Store.pendingOf, Store.heldOf, Store.heldEntries, Store.parkedEntries,
    flatten_mapBank_filter, List.map_append, List.map_map, Function.comp_def, List.nil_append,
    List.count_append] at *
  omega

/-- The halt actions of the groups move and free entries (R118). -/
theorem Moves.haltGroups (st : Store) (now : Time) (gs : List (Fin 16)) :
    Moves [] st [] (st.haltGroups now gs).1 :=
  Store.haltGroups_keeps (P := Moves [] st []) now (fun _ g m => m.trans (.cancelGroup _ _ g))
    (fun _ g m => m.trans (.suspendGroup _ now g)) gs st (.refl _ _)

/-- A trigger event moves the entries it arms from their held list to the agenda (R92). -/
theorem Moves.trigger (st : Store) (now : Time) (src : Source) (t : Time) :
    Moves [] st [] (st.trigger now src t) := by
  have taken : Moves [] st ((st.walk src).armed.map (·.tenant))
      { st with held := st.held.set src.index (st.walk src).stay } := by
    refine .of_perm rfl rfl rfl (List.perm_iff_count.mpr fun x => ?_)
    have walk := ((walkHeld_perm st.suspended st.held[src.index]).map (·.tenant)).count_eq x
    have held := count_flatten_set st.held src.index (st.walk src).stay (·.live.tenant) x
    simp only [List.map_append, List.map_map, Function.comp_def, List.count_append] at walk
    simp only [Store.walk] at held
    simp only [Store.tenants, Store.heldEntries, Store.parkedEntries, Store.walk, List.nil_append,
      List.count_append]
    omega
  have placed := Moves.placeAll now ((st.walk src).armed.map fun l => ⟨l, later t l.entry.offset⟩)
    { st with held := st.held.set src.index (st.walk src).stay }
  rw [List.map_map] at placed
  exact taken.trans placed

/-- The dispatch puts an entry in hand back into the agenda or a held list, or frees its slot (R36, R38, R39). -/
theorem Moves.serveEntry (T : Time) (lines : Vector LineRecord 16) (p : PendingEntry) (hand : List Tenant)
    (d : Dispatched) :
    Moves (p.live.tenant :: hand) d.store hand (serveEntry T lines d p).store := by
  show Moves _ _ _ (d.store.settleEntry T p.live (accountFor T p))
  obtain ⟨_, _, -, e⟩ | ⟨-, -, e⟩ | ⟨-, e⟩ := d.store.settleEntry_cases T p.live (accountFor T p) <;> rw [e]
  · exact .joinHeld _ _ _ rfl
  · exact .freeSlot p.live.tenant _ _
  · exact .place _ _ _ rfl

/-- A dispatch moves and frees the entries it takes from the head of the agenda (R24). -/
theorem Moves.dispatch (st : Store) (T : Time) (lines : Vector LineRecord 16) :
    Moves [] st [] (st.dispatch T lines).store := by
  have served : ∀ (ps : List PendingEntry) (d : Dispatched),
      Moves (ps.map (·.live.tenant)) d.store [] (ps.foldl (Machine.serveEntry T lines) d).store := by
    intro ps
    induction ps with
    | nil => exact fun d => .refl _ _
    | cons p ps ih => exact fun d => (Moves.serveEntry T lines p _ d).trans (ih _)
  refine .trans ?_ (served (takenBy T st.agenda) ⟨{ st with agenda := _ }, [], [], []⟩)
  refine .of_perm rfl rfl rfl ?_
  conv_rhs => rw [Store.tenants, ← takenBy_append_drop T st.agenda]
  simp only [Store.tenants, List.nil_append, List.map_append, List.append_assoc]
  exact .refl _

end Sys2Proof.Machine

/-!
What one command can do to the slot pool, as one inductive relation, and what the three rules of the pool make of it:
every slot in one place (R5), the generations (R10), the programmed fields (R2).
-/

namespace Sys2Proof.Machine

open Sys2Proof.Safety

/-! ## What one command can do to the pool -/

/-- The pool and the collections at a reset: every slot free, no entry (R12, R13). -/
theorem Store.tenants_softReset (st : Store) : st.softReset.tenants = [] := by
  simp [Store.tenants, Store.softReset, Store.heldEntries, Store.parkedEntries]

/-- Everything that a command other than a power-on reset can do to the pool. -/
inductive PoolStep (st : Store) : Store → Prop
  /-- Entries change their places, and some are freed. -/
  | moves {st' : Store} (m : Moves [] st [] st') : PoolStep st st'
  /-- A commit reserves slots (R8, R76). -/
  | reserves (n : Nat) (none : st.reserved = []) : PoolStep st (st.reserve n)
  /-- An abandoned commit gives its slots back, behind the group actions of a halt (R8, R85, R86). -/
  | givesBack {st' : Store} (m : Moves [] st [] st') : PoolStep st st'.giveBack
  /-- A merge completes: its batch goes live in the reserved slots, and nothing is freed (R80). -/
  | merges {st' : Store} (batch : List Tenant) (paired : batch.map (·.1) = st.reserved)
      (m : Moves batch { st with reserved := [] } [] st') (free : st'.free = st.free) : PoolStep st st'
  /-- A soft reset empties the collections; a re-latch then acts on the groups (R12, R173). -/
  | resets {st' : Store} (m : Moves [] st.softReset [] st') : PoolStep st st'

/-- In a move no slot is lost: the listings gained are those of the entries that came out of the hand. -/
theorem Moves.occupancy {hand hand' : List Tenant} {st st' : Store} (m : Moves hand st hand' st') (k : Fin 128) :
    occupancy st' k + (hand'.map (·.1)).count k = occupancy st k + (hand.map (·.1)).count k := by
  obtain ⟨freed, free, reserved, -, perm⟩ := m
  have h := (perm.map (·.1)).count_eq k
  simp only [List.map_append, List.count_append] at h
  rw [occupancy_eq, occupancy_eq, free, reserved, List.count_append]
  omega

theorem Moves.reserved {hand hand' : List Tenant} {st st' : Store} (m : Moves hand st hand' st') :
    st'.reserved = st.reserved := by
  obtain ⟨-, -, reserved, -⟩ := m
  exact reserved

/-- A move that leaves the free list as it is advances no generation. -/
theorem Moves.gens_of_free {hand hand' : List Tenant} {st st' : Store} (m : Moves hand st hand' st')
    (free : st'.free = st.free) : st'.gens = st.gens := by
  obtain ⟨freed, joined, -, gens, -⟩ := m
  obtain rfl : freed = [] := by simpa [free] using joined
  exact bank_ext fun k => by simpa using gens k

/-- A store without entries has nothing to move. -/
theorem Moves.of_no_tenants {st st' : Store} (m : Moves [] st [] st') (h : st.tenants = []) :
    st'.tenants = [] ∧ st'.free = st.free ∧ st'.gens = st.gens := by
  obtain ⟨freed, free, -, gens, perm⟩ := m
  rw [h, List.append_nil, List.perm_nil] at perm
  obtain ⟨rfl, ht⟩ := List.append_eq_nil_iff.mp perm
  exact ⟨ht, by simpa using free, bank_ext fun k => by simpa using gens k⟩

/-- The tenants after a move are tenants before it or were in hand. -/
theorem Moves.mem_tenants {hand hand' : List Tenant} {st st' : Store} (m : Moves hand st hand' st') {t : Tenant}
    (ht : t ∈ st'.tenants) : t ∈ hand ∨ t ∈ st.tenants := by
  obtain ⟨freed, -, -, -, perm⟩ := m
  exact List.mem_append.mp (perm.subset (by simp [ht]))

@[simp] theorem Store.tenants_giveBack (st : Store) : st.giveBack.tenants = st.tenants := rfl
@[simp] theorem Store.tenants_reserve (st : Store) (n : Nat) : (st.reserve n).tenants = st.tenants := rfl
@[simp] theorem Store.tenants_withReserved (st : Store) (ks : List (Fin 128)) :
    Store.tenants { st with reserved := ks } = st.tenants := rfl

/-- R5: a step of the pool keeps every slot in exactly one place. -/
theorem PoolStep.whole {st st' : Store} (h : PoolStep st st') (hw : PoolWhole st) : PoolWhole st' := by
  intro k
  have before := hw k
  cases h with
  | moves m => exact (m.occupancy k).trans before
  | reserves n none =>
    rw [occupancy_eq, none, ← List.take_append_drop n st.free, List.count_append] at before
    rw [occupancy_eq, Store.tenants_reserve]
    simp only [Store.reserve, List.count_nil] at before ⊢
    omega
  | givesBack m =>
    have moved := (m.occupancy k).trans before
    simp only [occupancy_eq, List.map_nil, List.count_nil] at moved
    rw [occupancy_eq, Store.tenants_giveBack, Store.giveBack]
    simp only [List.count_append, List.count_nil]
    omega
  | merges batch paired m free =>
    have merged := m.occupancy k
    simp only [occupancy_eq, Store.tenants_withReserved, paired, List.map_nil, List.count_nil] at merged before
    rw [occupancy_eq]
    omega
  | resets m => exact (m.occupancy k).trans (PoolWhole.of_all_free rfl rfl st.tenants_softReset k)

/-- R2: an entry that lives in a slot before and after a step of the pool has the same programmed fields. -/
theorem PoolStep.keeps_entry {st st' : Store} (h : PoolStep st st') (hw : PoolWhole st) {k : Fin 128}
    {e e' : Entry} (he : (k, e) ∈ st.tenants) (he' : (k, e') ∈ st'.tenants) : e' = e := by
  have hk : k ∈ st.tenants.map (·.1) := List.mem_map.mpr ⟨_, he, rfl⟩
  cases h with
  | moves m => exact hw.entry_unique he ((m.mem_tenants he').resolve_left List.not_mem_nil)
  | reserves n none => exact hw.entry_unique he he'
  | givesBack m => exact hw.entry_unique he ((m.mem_tenants he').resolve_left List.not_mem_nil)
  | merges batch paired m free =>
    obtain hb | ht := m.mem_tenants he'
    · exact absurd (paired ▸ List.mem_map.mpr ⟨_, hb, rfl⟩) (hw.not_free_of_tenant hk).2
    · exact hw.entry_unique he ht
  | resets m =>
    rw [(m.of_no_tenants st.tenants_softReset).1] at he'
    cases he'

/-- The rule of R10 for slot `k`: its generation advances by one when the slot goes from holding an entry to the free
list, and is kept otherwise. -/
def GenerationRule (st st' : Store) (k : Fin 128) : Prop :=
  st'.gens[k] = if (st.find? k).isSome ∧ k ∈ st'.free then st.gens[k] + 1 else st.gens[k]

/-- A slot with an entry before, free and with its generation advanced afterwards, follows the rule. -/
theorem GenerationRule.of_freed {st st' : Store} {k : Fin 128} (tenant : k ∈ st.tenants.map (·.1))
    (free : k ∈ st'.free) (gen : st'.gens[k] = st.gens[k] + 1) : GenerationRule st st' k := by
  rw [GenerationRule, if_pos ⟨(st.find?_isSome_iff k).mpr tenant, free⟩, gen]

/-- A slot with its generation kept, and not free afterwards if it had an entry, follows the rule. -/
theorem GenerationRule.of_kept {st st' : Store} {k : Fin 128} (gen : st'.gens[k] = st.gens[k])
    (h : k ∈ st.tenants.map (·.1) → k ∉ st'.free) : GenerationRule st st' k := by
  rw [GenerationRule, if_neg fun ⟨ht, hf⟩ => h ((st.find?_isSome_iff k).mp ht) hf, gen]

/-- The slots with an entry that are free after a move are those it freed, each freed once (R10). -/
theorem Moves.generationRule {st st' : Store} (m : Moves [] st [] st') (hw : PoolWhole st) (k : Fin 128) :
    GenerationRule st st' k := by
  obtain ⟨freed, free, -, gens, perm⟩ := m
  have slots := perm.map (·.1)
  rw [List.map_append, List.nil_append] at slots
  by_cases hk : k ∈ freed.map (·.1)
  · have once : (freed.map (·.1)).count k = 1 :=
      List.count_eq_one_of_mem (List.Nodup.of_append_left (slots.nodup_iff.mpr hw.nodup)) hk
    refine .of_freed (slots.subset (List.mem_append_left _ hk)) ?_ ?_
    · rw [free]
      exact List.mem_append_right _ hk
    · rw [gens k, once]
      rfl
  · refine .of_kept ?_ fun ht => ?_
    · rw [gens k, List.count_eq_zero_of_not_mem hk]
      exact BitVec.add_zero _
    · rw [free, List.mem_append]
      exact fun hf => hf.elim (hw.not_free_of_tenant ht).1 hk

/-- Giving the reserved slots back frees no slot that had an entry, and keeps the generations (R8). -/
theorem GenerationRule.giveBack {st st' : Store} {k : Fin 128} (h : GenerationRule st st' k) (hw : PoolWhole st)
    (reserved : st'.reserved = st.reserved) : GenerationRule st st'.giveBack k := by
  refine h.trans (if_congr (and_congr_right fun live => ?_) rfl rfl)
  have := (hw.not_free_of_tenant ((st.find?_isSome_iff k).mp live)).2
  simp [Store.giveBack, reserved, this]

/-- R10, R8, R12: a step of the pool advances the generation of the slots it frees, and of no others. -/
theorem PoolStep.generationRule {st st' : Store} (h : PoolStep st st') (hw : PoolWhole st) (k : Fin 128) :
    GenerationRule st st' k := by
  cases h with
  | moves m => exact m.generationRule hw k
  | reserves n none => exact .of_kept rfl fun ht hf => (hw.not_free_of_tenant ht).1 (List.mem_of_mem_drop hf)
  | givesBack m => exact (m.generationRule hw k).giveBack hw m.reserved
  | merges batch paired m free =>
    exact .of_kept (by rw [m.gens_of_free free]) fun ht => free ▸ (hw.not_free_of_tenant ht).1
  | resets m =>
    obtain ⟨-, free, gens⟩ := m.of_no_tenants st.tenants_softReset
    have all_free : k ∈ st'.free := by
      rw [free]
      exact List.mem_finRange k
    rw [GenerationRule, gens]
    exact (getElem_fin_mapBank _ _ _).trans (if_congr (by simp [all_free, Store.isLive]) rfl rfl)

end Sys2Proof.Machine

/-!
Every command is a step of the pool: the commands beside it, the handlers of the host commands, the events at the
Schedule Store, the resets and the register writes.
-/

namespace Sys2Proof.Machine

open Sys2Proof.Safety

/-! ## The batch in flight (R77, R78) -/

/-- With no merge in flight the batch is paired when nothing is reserved. -/
theorem batchPaired_iff_reserved_nil {s : State} (h : ∀ a, s.ce.engine ≠ .committing a) :
    BatchPaired s ↔ s.store.reserved = [] := by
  unfold BatchPaired
  split
  · rename_i a ha
    exact absurd ha (h a)
  · rfl

/-- With a merge in flight the batch is paired when each staged record has a slot. -/
theorem batchPaired_iff_length {s : State} {a : Args} (h : s.ce.engine = .committing a) :
    BatchPaired s ↔ s.store.reserved.length = s.ce.staging.length := by
  simp only [BatchPaired, h]

/-- The batch depends on the engine, the staging list and the reserved set alone. -/
theorem batchPaired_congr {s t : State} (engine : t.ce.engine = s.ce.engine) (staging : t.ce.staging = s.ce.staging)
    (reserved : t.store.reserved = s.store.reserved) : BatchPaired t ↔ BatchPaired s := by
  simp only [BatchPaired, engine, staging, reserved]

/-- From the store `st` to the state `t`: a step of the pool, with the batch paired behind it. -/
def StepsPool (st : Store) (t : State) : Prop := PoolStep st t.store ∧ BatchPaired t

theorem StepsPool.of_moves {s t : State} (m : Moves [] s.store [] t.store) (engine : t.ce.engine = s.ce.engine)
    (staging : t.ce.staging = s.ce.staging) (hs : SlotsWhole s) : StepsPool s.store t :=
  ⟨.moves m, (batchPaired_congr engine staging m.reserved).mpr hs.2⟩

/-! ## Events beside the pool -/

/-- The event touches neither the Schedule Store nor the Command Engine. -/
def LeavesPool (s t : State) : Prop := t.store = s.store ∧ t.ce = s.ce

theorem LeavesPool.refl (s : State) : LeavesPool s s := ⟨rfl, rfl⟩

theorem LeavesPool.stepsPool {s t : State} (h : LeavesPool s t) (hs : SlotsWhole s) : StepsPool s.store t := by
  obtain ⟨store, ce⟩ := h
  exact .of_moves (store ▸ .refl _ _) (by rw [ce]) (by rw [ce]) hs

theorem LeavesPool.trans {s t u : State} (h : LeavesPool s t) (h' : LeavesPool t u) : LeavesPool s u :=
  ⟨h'.1.trans h.1, h'.2.trans h.2⟩

section Updates

variable {s t : State} (h : LeavesPool s t)
include h

theorem LeavesPool.withTb (x : Timebase) : LeavesPool s (t.withTb x) := h
theorem LeavesPool.withOu (x : OutputUnit) : LeavesPool s (t.withOu x) := h
theorem LeavesPool.withIu (x : InputUnit) : LeavesPool s (t.withIu x) := h
theorem LeavesPool.withEq (x : EventQueue) : LeavesPool s (t.withEq x) := h
theorem LeavesPool.withHc (x : HaltController) : LeavesPool s (t.withHc x) := h
theorem LeavesPool.withHp (x : HostPort) : LeavesPool s (t.withHp x) := h
theorem LeavesPool.withMail (x : Mail) : LeavesPool s (t.withMail x) := h

end Updates

theorem serveWrite_leavesPool (a : Addr) {f : State → State} (hf : ∀ s, LeavesPool s (f s)) (s : State) :
    LeavesPool s (serveWrite a f s) := by
  obtain e | ⟨p, -, e⟩ := serveWrite_cases a f s <;> rw [e]
  · exact .refl s
  · exact ((LeavesPool.refl s).withHp _).trans (hf _)

theorem inputWork_leavesPool (T : Time) (pins : Pins) (s : State) : LeavesPool s (inputWork T pins s) :=
  ((LeavesPool.refl s).withIu _).withMail _

theorem sample_leavesPool (pins : Pins) (s : State) : LeavesPool s (sample pins s) := by
  obtain ⟨-, e⟩ | ⟨T, -, e⟩ := sample_cases pins s <;> rw [e]
  · exact .refl s
  · exact inputWork_leavesPool T pins s

theorem confirmation_leavesPool (pins : Pins) (s : State) : LeavesPool s (confirmation pins s) := by
  unfold confirmation
  split
  · split
    · exact .refl s
    · exact inputWork_leavesPool _ pins s
  · exact .refl s

theorem beginRunning_leavesPool (pins : Pins) (s : State) : LeavesPool s (beginRunning pins s) :=
  (((LeavesPool.refl s).withTb _).trans (sample_leavesPool pins _)).withIu _

theorem endRunning_leavesPool (s : State) : LeavesPool s (endRunning s) := by
  obtain ⟨-, e⟩ | ⟨-, e⟩ := endRunning_cases s <;> rw [e]
  · exact (LeavesPool.refl s).withIu _
  · exact (LeavesPool.refl s).withMail _

theorem syncEdge_leavesPool (pins : Pins) (s : State) : LeavesPool s (syncEdge pins s) := by
  unfold syncEdge
  split
  · exact beginRunning_leavesPool pins s
  · exact .refl s

theorem syncFall_leavesPool (s : State) : LeavesPool s (syncFall s) := by
  unfold syncFall
  split
  · exact (LeavesPool.refl s).withTb _
  · exact .refl s

theorem tickEvent_leavesPool (s : State) : LeavesPool s (tickEvent s) := by
  unfold tickEvent
  split
  · split
    · exact ((LeavesPool.refl s).withTb _).withMail _
    · exact .refl s
  · exact .refl s

theorem time0Read_leavesPool (s : State) : LeavesPool s (time0Read s) := by
  rw [time0Read_eq]
  split
  · exact ((LeavesPool.refl s).withTb _).withHp _
  · exact .refl s

theorem delivery_leavesPool (s : State) : LeavesPool s (delivery s) := by
  unfold delivery
  split
  · exact .refl s
  · exact ((LeavesPool.refl s).withOu _).withMail _

theorem runDown_leavesPool (s : State) : LeavesPool s (runDown s) := by
  obtain ⟨-, e⟩ | ⟨T, -, e⟩ := runDown_cases s <;> rw [e]
  · exact .refl s
  · exact ((LeavesPool.refl s).withOu _).withMail _

theorem pulseEnd_leavesPool (s : State) : LeavesPool s (pulseEnd s) := by
  obtain ⟨r, rfl | rfl, e⟩ := pulseEnd_cases s <;> rw [e]
  · exact (LeavesPool.refl _).withOu _
  · exact (runDown_leavesPool s).withOu _

theorem recordOffer_leavesPool (b : Offerer) (s : State) : LeavesPool s (recordOffer b s) := by
  unfold recordOffer
  cases b with
  | store | halt =>
    dsimp only
    split
    · exact .refl s
    · exact ((LeavesPool.refl s).withEq _).withMail _
  | inputs =>
    dsimp only
    split
    · exact .refl s
    · exact (((LeavesPool.refl s).withEq _).withIu _).withMail _

theorem latchHalt_leavesPool (cause : HaltCause) (s : State) : LeavesPool s (latchHalt cause s) :=
  (((LeavesPool.refl s).withHc _).withOu _).withEq _

theorem haltEventTaken_leavesPool (cause : HaltCause) (s : State) : LeavesPool s (haltEventTaken cause s) := by
  cases h : s.hc.latch with
  | some c =>
    rw [haltEventTaken_latched cause h]
    exact .refl s
  | none =>
    rw [haltEventTaken_clear cause h]
    exact (latchHalt_leavesPool cause s).withMail _

theorem takeFall_leavesPool (s : State) : LeavesPool s (takeFall s) := by
  cases h : s.hc.fallsOwed with
  | zero =>
    rw [takeFall_none h]
    exact .refl s
  | succ n =>
    rw [takeFall_owed h]
    exact ((LeavesPool.refl s).withHc _).trans (haltEventTaken_leavesPool .pin _)

theorem recogniseFall_leavesPool (s : State) : LeavesPool s (recogniseFall s) := by
  unfold recogniseFall
  split
  · exact (LeavesPool.refl s).withHc _
  · exact .refl s

theorem haltEvent_leavesPool (p : FallStep) (s : State) : LeavesPool s (haltEvent p s) := by
  cases p with
  | whole =>
    simp only [haltEvent]
    split
    · exact (recogniseFall_leavesPool s).trans (takeFall_leavesPool _)
    · exact .refl s
  | recognise => exact recogniseFall_leavesPool s
  | take => exact takeFall_leavesPool s

theorem headerByte_leavesPool (b : Byte) (s : State) : LeavesPool s (headerByte b s) := by
  unfold headerByte
  split
  · exact (LeavesPool.refl s).withHp _
  · exact .refl s

/-! ## What the handlers of the host commands move -/

/-- A handler's answer, if it gives one, moves and frees entries and leaves the engine's state to the command. -/
def AnswersByMoves (s : State) (o : Option (State × Stage)) : Prop :=
  ∀ s' stage, o = some (s', stage) → Moves [] s.store [] s'.store ∧ s'.ce.engine = s.ce.engine

theorem AnswersByMoves.waits (s : State) : AnswersByMoves s none := by
  intro s' stage h
  cases h

theorem AnswersByMoves.of_moves {s s' : State} (stage : Stage) (m : Moves [] s.store [] s'.store)
    (engine : s'.ce.engine = s.ce.engine) : AnswersByMoves s (some (s', stage)) := by
  rintro _ _ ⟨⟩
  exact ⟨m, engine⟩

theorem AnswersByMoves.unchanged (s : State) (stage : Stage) : AnswersByMoves s (some (s, stage)) :=
  .of_moves stage (.refl _ _) rfl

/-- An answer with an effect beside the pool. -/
theorem AnswersByMoves.answer {s s' : State} (r : Reply) (h : LeavesPool s s') : AnswersByMoves s (answer r s') :=
  .of_moves _ (h.1 ▸ .refl _ _) (by rw [h.2])

theorem appendTake_moves (a : Args) (s : State) : AnswersByMoves s (appendTake a s) := by
  unfold appendTake
  split
  · exact .unchanged _ _
  · split
    · exact .unchanged _ _
    · exact .of_moves _ (.refl _ _) rfl

theorem discardTake_moves (a : Args) (s : State) : AnswersByMoves s (discardTake a s) :=
  .of_moves _ (.refl _ _) rfl

theorem commitTake_moves (a : Args) (s : State) : AnswersByMoves s (commitTake a s) := by
  unfold commitTake
  split <;> exact .unchanged _ _

theorem cancelTake_moves (a : Args) (s : State) (hw : PoolWhole s.store) : AnswersByMoves s (cancelTake a s) := by
  unfold cancelTake
  split
  · exact .unchanged _ _
  · split
    · exact .unchanged _ _
    · rename_i f hf
      exact .of_moves _ (.cancelStore hw (Store.live?_eq_some.mp hf).2) rfl

theorem queryTake_moves (a : Args) (s : State) : AnswersByMoves s (queryTake a s) := by
  unfold queryTake
  split
  · exact .unchanged _ _
  · split
    · exact .unchanged _ _
    · exact .of_moves _ (.refl _ _) rfl

theorem suspendTake_moves (a : Args) (s : State) : AnswersByMoves s (suspendTake a s) := by
  unfold suspendTake
  split
  · exact .unchanged _ _
  · split
    · exact .unchanged _ _
    · exact .of_moves _ (.suspendGroup _ _ _) rfl

theorem resumeTake_moves (a : Args) (s : State) : AnswersByMoves s (resumeTake a s) := by
  unfold resumeTake
  split
  · exact .unchanged _ _
  · split
    · exact .of_moves _ (.resumeGroup _ _ _) rfl
    · exact .unchanged _ _

theorem cancelGroupTake_moves (a : Args) (s : State) : AnswersByMoves s (cancelGroupTake a s) := by
  unfold cancelGroupTake
  split
  · exact .unchanged _ _
  · exact .of_moves _ (.cancelGroup _ _ _) rfl

theorem setGroupTake_moves (a : Args) (s : State) : AnswersByMoves s (setGroupTake a s) := by
  unfold setGroupTake
  split
  · split
    · exact .of_moves _ (.of_perm rfl rfl rfl (.refl _)) rfl
    · exact .waits s
  · exact .unchanged _ _

theorem startTake_moves (pins : Pins) (a : Args) (s : State) : AnswersByMoves s (startTake pins a s) := by
  unfold startTake
  split
  · exact .answer _ (beginRunning_leavesPool pins s)
  · exact .unchanged _ _

theorem stopTake_moves (a : Args) (s : State) : AnswersByMoves s (stopTake a s) := by
  unfold stopTake
  split
  · exact .unchanged _ _
  · exact .answer _ (((LeavesPool.refl s).withTb _).trans (endRunning_leavesPool _))

theorem armSyncTake_moves (sync : Bool) (a : Args) (s : State) : AnswersByMoves s (armSyncTake sync a s) := by
  unfold armSyncTake
  split
  · exact .answer _ ((LeavesPool.refl s).withTb _)
  · exact .unchanged _ _
  · exact .unchanged _ _

theorem setTimeTake_moves (a : Args) (s : State) : AnswersByMoves s (setTimeTake a s) := by
  unfold setTimeTake
  split
  · split
    · split
      · exact .answer _ (((LeavesPool.refl s).withTb _).withOu _)
      · exact .unchanged _ _
    · exact .waits s
  · exact .unchanged _ _

theorem setTrimTake_moves (a : Args) (s : State) : AnswersByMoves s (setTrimTake a s) := by
  unfold setTrimTake
  split
  · exact .unchanged _ _
  · split <;> exact .answer _ ((LeavesPool.refl s).withTb _)

theorem fireCueTake_moves (a : Args) (s : State) : AnswersByMoves s (fireCueTake a s) := by
  unfold fireCueTake
  split
  · exact .unchanged _ _
  · exact .of_moves _ (.trigger _ _ _ _) rfl

theorem configOutTake_moves (a : Args) (s : State) : AnswersByMoves s (configOutTake a s) := by
  unfold configOutTake
  split
  · split
    · exact .unchanged _ _
    · exact .answer _ ((LeavesPool.refl s).withOu _)
  · exact .unchanged _ _

theorem configInTake_moves (a : Args) (s : State) : AnswersByMoves s (configInTake a s) := by
  unfold configInTake
  split
  · exact .answer _ ((LeavesPool.refl s).withIu _)
  · exact .unchanged _ _

theorem haltTake_moves (a : Args) (s : State) : AnswersByMoves s (haltTake a s) :=
  .answer _ (haltEventTaken_leavesPool .command s)

theorem releaseTake_moves (a : Args) (s : State) : AnswersByMoves s (releaseTake a s) := by
  unfold releaseTake
  split
  · exact .unchanged _ _
  · split
    · exact .unchanged _ _
    · exact .answer _ (((LeavesPool.refl s).withHc _).withOu _)

/-- Every part of a host command whose handler moves entries is a step of the pool. -/
theorem runCommand_stepsPool {code : Byte} {handler : Handler}
    (hh : ∀ a s, PoolWhole s.store → AnswersByMoves s (handler a s)) (p : CmdStep) {s : State} (hs : SlotsWhole s) :
    StepsPool s.store (runCommand code handler p s) := by
  obtain ⟨whole, paired⟩ := hs
  have kept : ∀ {x y : State}, (∀ a, x.ce.engine ≠ .committing a) → (∀ a, y.ce.engine ≠ .committing a) →
      y.store = x.store → BatchPaired x → BatchPaired y := by
    intro x y hx hy e h
    rw [batchPaired_iff_reserved_nil hy, e]
    exact (batchPaired_iff_reserved_nil hx).mp h
  have moved : Moves [] s.store [] (runCommand code handler p s).store ∧ BatchPaired (runCommand code handler p s) := by
    refine runCommand_keeps (P := fun x => Moves [] s.store [] x.store ∧ BatchPaired x) (fun _ _ h => h) ?_ ?_
      (fun _ h => h) ?_ p s ⟨.refl _ _, paired⟩
    · exact fun x e hx he ⟨m, h⟩ => ⟨m, kept hx he rfl h⟩
    · exact fun x c r hx ⟨m, h⟩ => ⟨m, kept hx (by simp) rfl h⟩
    · intro a n x x' stage busy answered ⟨m, h⟩
      obtain ⟨m', engine⟩ := hh a x ((PoolStep.moves m).whole whole) x' stage answered
      refine ⟨⟨m.trans m', ?_⟩, engine⟩
      rw [batchPaired_iff_reserved_nil (by simp [busy])] at h
      rw [batchPaired_iff_reserved_nil (by simp [engine, busy]), m'.reserved, h]
  exact ⟨.moves moved.1, moved.2⟩

/-- A served write whose effect is a step of the pool is one. -/
theorem serveWrite_stepsPool (a : Addr) {f : State → State} (hf : ∀ s, SlotsWhole s → StepsPool s.store (f s))
    {s : State} (hs : SlotsWhole s) : StepsPool s.store (serveWrite a f s) := by
  obtain e | ⟨p, -, e⟩ := serveWrite_cases a f s <;> rw [e]
  · exact (LeavesPool.refl s).stepsPool hs
  · exact hf (s.withHp { s.hp with port := p }) hs

/-! ## Events at the Schedule Store -/

theorem dispatch_stepsPool {s : State} (hs : SlotsWhole s) : StepsPool s.store (dispatch s) := by
  unfold dispatch
  split
  · exact (LeavesPool.refl s).stepsPool hs
  · exact .of_moves (.dispatch _ _ _) rfl rfl hs

theorem triggerEvent_stepsPool (pick : TriggerPick) {s : State} (hs : SlotsWhole s) :
    StepsPool s.store (triggerEvent pick s) := by
  unfold triggerEvent
  cases pick with
  | cue =>
    dsimp only
    split
    · exact (LeavesPool.refl s).stepsPool hs
    · exact .of_moves (.trigger _ _ _ _) rfl rfl hs
  | input k =>
    dsimp only
    split
    · exact (LeavesPool.refl s).stepsPool hs
    · exact .of_moves (.trigger _ _ _ _) rfl rfl hs

/-- The Schedule Store takes a commit-start request: it refuses it, or reserves one slot for each record (R76). -/
theorem commitStart_stepsPool {s : State} (hs : SlotsWhole s) : StepsPool s.store (commitStart s) := by
  unfold commitStart
  split
  · rename_i c a busy
    have none : s.store.reserved = [] := (batchPaired_iff_reserved_nil (by simp [busy])).mp hs.2
    have refused : ∀ r, StepsPool s.store (complete commitCode r s) := fun r =>
      ⟨.moves (.refl _ _), (batchPaired_iff_reserved_nil (by simp)).mpr none⟩
    split
    · unfold commitStartTaken
      split
      · exact refused _
      · split
        · exact refused _
        · rename_i room
          refine ⟨.reserves _ none, (batchPaired_iff_length rfl).mpr ?_⟩
          exact List.length_take_of_le (Nat.le_of_not_lt room)
    · exact (LeavesPool.refl s).stepsPool hs
  · exact (LeavesPool.refl s).stepsPool hs

/-- A batch that goes live leaves the free list as it is. -/
theorem Store.goLiveAll_free (st : Store) (tc : Time) (batch : List Tenant) :
    (st.goLiveAll tc batch).free = st.free :=
  Store.goLiveAll_keeps (P := (·.free = st.free)) tc
    (fun st' k e h => (st'.goLive_frame tc k e).2.1.trans h) batch st rfl

/-- A move does not see the reserved set. -/
theorem Moves.withReserved {hand hand' : List Tenant} {st st' : Store} (m : Moves hand st hand' st')
    (ks : List (Fin 128)) : Moves hand { st with reserved := ks } hand' { st' with reserved := ks } := by
  obtain ⟨freed, free, -, gens, perm⟩ := m
  exact ⟨freed, free, rfl, gens, perm⟩

/-- At merge completion every staged record goes live in its reserved slot (R80). -/
theorem mergeCompletion_stepsPool {s : State} (hs : SlotsWhole s) : StepsPool s.store (mergeCompletion s) := by
  unfold mergeCompletion
  split
  · rename_i a committing
    have paired := (batchPaired_iff_length committing).mp hs.2
    refine ⟨.merges (s.store.reserved.zip s.ce.staging) (List.map_fst_zip paired.le) ?_ ?_,
      (batchPaired_iff_reserved_nil (by simp)).mpr rfl⟩
    · exact (Moves.goLiveAll s.tb.time _ s.store).withReserved []
    · exact s.store.goLiveAll_free _ _
  · exact (LeavesPool.refl s).stepsPool hs

/-- An abandonment gives the slots of the merge in flight back, and does nothing without one (R85, R86). -/
theorem abandon_stepsPool {st : Store} {s : State} (code : ResultCode) (m : Moves [] st [] s.store)
    (paired : BatchPaired s) : StepsPool st (abandon code s) := by
  by_cases h : ∃ a, s.ce.engine = .committing a
  · obtain ⟨a, ha⟩ := h
    rw [abandon_committing code ha]
    exact ⟨.givesBack m, (batchPaired_iff_reserved_nil (by simp)).mpr rfl⟩
  · rw [abandon_not_committing code (not_exists.mp h)]
    exact ⟨.moves m, paired⟩

theorem abortWrite_stepsPool (w : Word) {s : State} (hs : SlotsWhole s) : StepsPool s.store (abortWrite w s) := by
  unfold abortWrite
  split
  · exact serveWrite_stepsPool _ (fun s hs => abandon_stepsPool .aborted (.refl [] s.store) hs.2) hs
  · exact (LeavesPool.refl s).stepsPool hs

@[simp] theorem applyHaltActions_store (s : State) :
    (applyHaltActions s).store = (s.store.haltGroups s.tb.time (List.finRange 16)).1 := by
  simp [applyHaltActions]
@[simp] theorem applyHaltActions_ce (s : State) : (applyHaltActions s).ce = s.ce := by
  simp [applyHaltActions]

/-- Taking a halt group request neither begins nor ends a merge. -/
theorem batchPaired_haltTaken {s t : State} (h : BatchPaired s) (engine : t.ce.engine = s.ce.engine.haltTaken)
    (staging : t.ce.staging = s.ce.staging) (reserved : t.store.reserved = s.store.reserved) : BatchPaired t := by
  obtain e | ⟨c, a, n, busy, e⟩ := s.ce.engine.haltTaken_eq
  · exact (batchPaired_congr (engine.trans e) staging reserved).mpr h
  · rw [batchPaired_iff_reserved_nil (by simp [engine, e]), reserved]
    exact (batchPaired_iff_reserved_nil (by simp [busy])).mp h

theorem haltGroupRequest_stepsPool {s : State} (hs : SlotsWhole s) : StepsPool s.store (haltGroupRequest s) := by
  unfold haltGroupRequest
  split
  · exact (LeavesPool.refl s).stepsPool hs
  · have acted := Moves.haltGroups s.store s.tb.time (List.finRange 16)
    refine abandon_stepsPool _ (by simpa using acted) (batchPaired_haltTaken hs.2 ?_ ?_ ?_)
    · simp
    · simp
    · simpa using acted.reserved

/-- The re-latch of a reset acts on the groups, as a halt group request does (R173, R174). -/
theorem relatch_moves (s : State) : Moves [] s.store [] (relatch s).store ∧ (relatch s).ce = s.ce := by
  cases h : s.hc.haltnHigh with
  | true => rw [relatch_high h]; exact ⟨.refl _ _, rfl⟩
  | false =>
    obtain ⟨store, ce⟩ := latchHalt_leavesPool .pin s
    simpa [relatch_low h, store, ce] using Moves.haltGroups s.store (latchHalt .pin s).tb.time (List.finRange 16)

/-- A reset that leaves the engine IDLE and nothing reserved has no batch in flight. -/
theorem batchPaired_relatch {s : State} (idle : s.ce.engine = .idle) (none : s.store.reserved = []) :
    BatchPaired (relatch s) := by
  obtain ⟨m, ce⟩ := relatch_moves s
  rw [batchPaired_iff_reserved_nil (by simp [ce, idle]), m.reserved, none]

theorem softReset_stepsPool (w : Word) (pins : Pins) {s : State} (hs : SlotsWhole s) :
    StepsPool s.store (softReset w pins s) := by
  unfold softReset
  split
  · refine serveWrite_stepsPool _ (fun s _ => ?_) hs
    obtain ⟨m, -⟩ := relatch_moves (softResetValues pins s)
    exact ⟨.resets m, batchPaired_relatch rfl rfl⟩
  · exact (LeavesPool.refl s).stepsPool hs

/-! ## Register writes -/

theorem badCommand_stepsPool (w : Word) {s : State} (hs : SlotsWhole s) : StepsPool s.store (badCommand w s) := by
  unfold badCommand
  split
  · exact (LeavesPool.refl s).stepsPool hs
  · refine serveWrite_stepsPool _ (fun s hs => ?_) hs
    split
    · rename_i idle
      exact .of_moves (.refl _ _) (by simp [idle]) rfl hs
    · exact .of_moves (.refl _ _) rfl rfl hs

/-- A register write that has no row of its own reaches neither the engine's state nor the staging list. -/
theorem CommandEngine.writeReg_frame (ce : CommandEngine) (a : Addr) (w : Word) :
    (ce.writeReg a w).engine = ce.engine ∧ (ce.writeReg a w).staging = ce.staging := by
  unfold CommandEngine.writeReg
  split_ifs <;> exact ⟨rfl, rfl⟩

/-- Ahead of a register write at most an APPEND is taken (R67). -/
theorem beforeWrite_stepsPool (a : Addr) {s : State} (hs : SlotsWhole s) : StepsPool s.store (beforeWrite a s) := by
  unfold beforeWrite
  split
  · exact runCommand_stepsPool (code := 0x01) (fun a s _ => appendTake_moves a s) .take hs
  · exact (LeavesPool.refl s).stepsPool hs

theorem registerWrite_stepsPool (a : Addr) (w : Word) {s : State} (hs : SlotsWhole s) :
    StepsPool s.store (registerWrite a w s) := by
  unfold registerWrite
  split
  · exact (LeavesPool.refl s).stepsPool hs
  · refine serveWrite_stepsPool _ (fun s hs => ?_) hs
    obtain ⟨pool, paired⟩ := beforeWrite_stepsPool a hs
    obtain ⟨engine, staging⟩ := (beforeWrite a s).ce.writeReg_frame a w
    refine ⟨pool, (batchPaired_congr ?_ ?_ ?_).mpr paired⟩
    · exact engine
    · exact staging
    · rfl

/-! ## Every command -/

theorem unlessInReset_stepsPool {s t : State} {f : State → State} (hf : StepsPool s.store (f s)) (hs : SlotsWhole s)
    (h : unlessInReset s f = .next t) : StepsPool s.store t := by
  obtain rfl | ⟨-, rfl⟩ := unlessInReset_eq h
  · exact (LeavesPool.refl _).stepsPool hs
  · exact hf

/-- Every command but a power-on reset is a step of the pool and leaves the batch paired. -/
theorem exec_stepsPool {c : Instr} {s t : State} (hs : SlotsWhole s) (h : exec c s = .next t)
    (hc : ∀ haltn csn pins, c ≠ .powerOnReset haltn csn pins) : StepsPool s.store t := by
  have event : ∀ {f : State → State}, unlessInReset s f = .next t → StepsPool s.store (f s) → StepsPool s.store t :=
    fun h hf => unlessInReset_stepsPool hf hs h
  have beside : ∀ {f : State → State}, unlessInReset s f = .next t → LeavesPool s (f s) → StepsPool s.store t :=
    fun h hf => event h (hf.stepsPool hs)
  have host : ∀ {code : Byte} {handler : Handler} {p : CmdStep},
      unlessInReset s (runCommand code handler p) = .next t → (∀ a s, AnswersByMoves s (handler a s)) →
      StepsPool s.store t :=
    fun h hh => event h (runCommand_stepsPool (fun a s _ => hh a s) _ hs)
  cases c with
  | append p => exact host h appendTake_moves
  | discard p => exact host h discardTake_moves
  | commit p => exact host h commitTake_moves
  | commitStart => exact event h (commitStart_stepsPool hs)
  | mergeCompletion => exact event h (mergeCompletion_stepsPool hs)
  | abort w => exact event h (abortWrite_stepsPool w hs)
  | cancel p => exact event h (runCommand_stepsPool cancelTake_moves p hs)
  | query p => exact host h queryTake_moves
  | suspend p => exact host h suspendTake_moves
  | resume p => exact host h resumeTake_moves
  | cancelGroup p => exact host h cancelGroupTake_moves
  | setGroup p => exact host h setGroupTake_moves
  | start p pins => exact host h (startTake_moves pins)
  | stop p => exact host h stopTake_moves
  | armSync p sync => exact host h (armSyncTake_moves sync)
  | setTime p => exact host h setTimeTake_moves
  | setTrim p => exact host h setTrimTake_moves
  | fireCue p => exact host h fireCueTake_moves
  | configOut p => exact host h configOutTake_moves
  | configIn p => exact host h configInTake_moves
  | halt p => exact host h haltTake_moves
  | release p => exact host h releaseTake_moves
  | badcmd w => exact event h (badCommand_stepsPool w hs)
  | softReset w pins => exact event h (softReset_stepsPool w pins hs)
  | powerOnReset haltn csn pins => exact absurd rfl (hc haltn csn pins)
  | haltEvent p => exact beside h (haltEvent_leavesPool p s)
  | haltnRise => exact beside h ((LeavesPool.refl s).withHc _)
  | haltGroupRequest => exact event h (haltGroupRequest_stepsPool hs)
  | syncEdge pins => exact beside h (syncEdge_leavesPool pins s)
  | tickEvent => exact beside h (tickEvent_leavesPool s)
  | dispatch => exact event h (dispatch_stepsPool hs)
  | triggerEvent pick => exact event h (triggerEvent_stepsPool pick hs)
  | delivery => exact beside h (delivery_leavesPool s)
  | runDown => exact beside h (runDown_leavesPool s)
  | pulseEnd => exact beside h (pulseEnd_leavesPool s)
  | sample pins => exact beside h (sample_leavesPool pins s)
  | confirmation pins => exact beside h (confirmation_leavesPool pins s)
  | recordOffer b => exact beside h (recordOffer_leavesPool b s)
  | pop w => exact beside h (serveWrite_leavesPool _ (fun s => (LeavesPool.refl s).withEq _) s)
  | outDirect w => exact beside h (serveWrite_leavesPool _ (fun s => (LeavesPool.refl s).withOu _) s)
  | irqFlags w => exact beside h (serveWrite_leavesPool _ (fun s => (LeavesPool.refl s).withEq _) s)
  | irqEnable w => exact beside h (serveWrite_leavesPool _ (fun s => (LeavesPool.refl s).withEq _) s)
  | thresh w => exact beside h (serveWrite_leavesPool _ (fun s => (LeavesPool.refl s).withEq _) s)
  | time0 => exact beside h (time0Read_leavesPool s)
  | registerWrite a w => exact event h (registerWrite_stepsPool a w hs)
  | headerByte b => exact beside h (headerByte_leavesPool b s)
  | syncFall => exact beside h (syncFall_leavesPool s)
  | resetnAsserted =>
    cases h
    exact .of_moves (.refl _ _) rfl rfl hs
  | frameEnd =>
    cases h
    exact .of_moves (.refl _ _) rfl rfl hs

/-- At power-on no slot holds an entry (R13). -/
theorem Store.tenants_reset : Store.reset.tenants = [] := by
  simp [Store.tenants, Store.reset, Store.heldEntries, Store.parkedEntries]

/-- The power-on pool is whole: every slot is free (R13). -/
theorem Store.reset_whole : PoolWhole Store.reset := .of_all_free rfl rfl Store.tenants_reset

/-- A power-on reset starts from the power-on pool, whatever came before; a re-latch then acts on the groups
(R13, R174, R188). -/
theorem powerOnReset_moves (haltn csn : Bool) (pins : Pins) (s : State) :
    Moves [] Store.reset [] (powerOnReset haltn csn pins s).store :=
  (relatch_moves _).1

theorem powerOnReset_tenants (haltn csn : Bool) (pins : Pins) (s : State) :
    (powerOnReset haltn csn pins s).store.tenants = [] :=
  ((powerOnReset_moves haltn csn pins s).of_no_tenants Store.tenants_reset).1

theorem powerOnReset_slotsWhole (haltn csn : Bool) (pins : Pins) (s : State) :
    SlotsWhole (powerOnReset haltn csn pins s) :=
  ⟨(PoolStep.moves (powerOnReset_moves haltn csn pins s)).whole Store.reset_whole, batchPaired_relatch rfl rfl⟩

/-- A step of the pool with its batch paired leaves the slots whole (R5, R77, R78). -/
theorem StepsPool.slotsWhole {s t : State} (h : StepsPool s.store t) (hs : SlotsWhole s) : SlotsWhole t :=
  ⟨h.1.whole hs.1, h.2⟩

/-- A command is a step of the pool, or a power-on reset. -/
theorem exec_pool_cases {c : Instr} {s t : State} (hs : SlotsWhole s) (h : exec c s = .next t) :
    StepsPool s.store t ∨ ∃ haltn csn pins, t = powerOnReset haltn csn pins s := by
  by_cases hc : ∃ haltn csn pins, c = .powerOnReset haltn csn pins
  · obtain ⟨haltn, csn, pins, rfl⟩ := hc
    cases h
    exact .inr ⟨haltn, csn, pins, rfl⟩
  · exact .inl (exec_stepsPool hs h fun haltn csn pins e => hc ⟨haltn, csn, pins, e⟩)

/-- R5, R77, R78: every command leaves the slots whole. -/
theorem exec_slotsWhole {c : Instr} {s t : State} (hs : SlotsWhole s) (h : exec c s = .next t) : SlotsWhole t := by
  obtain stepped | ⟨haltn, csn, pins, rfl⟩ := exec_pool_cases hs h
  · exact stepped.slotsWhole hs
  · exact powerOnReset_slotsWhole haltn csn pins s

end Sys2Proof.Machine

/-!
The statements of the family "Action entries and the slot pool".
-/

namespace Sys2Proof.Proofs

open Sys2Proof.Machine Sys2Proof.Safety Sys2Proof.Stated

/-! ## The slot pool (R2, R5, R10) -/

/-- Settles O4: a step is a command on the rest of the queue, and every command is a step of the pool or a power-on
reset. -/
theorem stepKeepsSlotsWhole : Obligations.StepKeepsSlotsWhole := by
  intro s t hs h
  unfold step at h
  split at h
  · injection h with h
    exact h ▸ hs
  · rename_i c rest _
    exact exec_slotsWhole (s := s.withPending rest) hs h

/-- Settles O10, by the generation rule of a step of the pool. -/
theorem generationAdvancesOnFreeing : Obligations.GenerationAdvancesOnFreeing :=
  fun _ _ _ hs h hc => (exec_stepsPool hs h hc).1.generationRule hs.1

/-- Settles O11: a step of the pool keeps every entry, and a power-on reset leaves none. -/
theorem liveEntryKeepsItsFields : Obligations.LiveEntryKeepsItsFields := by
  intro c s t hs h k f f' hf hf'
  have before := Store.tenant_mem_of_find? hf
  have after := Store.tenant_mem_of_find? hf'
  obtain ⟨pool, -⟩ | ⟨haltn, csn, pins, rfl⟩ := exec_pool_cases hs h
  · exact pool.keeps_entry hs.1 before after
  · rw [powerOnReset_tenants] at after
    cases after

/-! ## The reset state (R13, R19, R90, R110, R152, R169, R71, R84, R157) -/

/-- The power-on record of an output line (R137). -/
theorem outputLine_reset (k : Fin 16) :
    State.reset.ou.lines[k] = ⟨.direct, false, none, false, false, false, false⟩ := by
  simp [State.reset, OutputUnit.reset]

theorem entriesPlaced_reset : EntriesPlaced State.reset.store := by
  refine ⟨fun i h hm => ?_, fun g q hm => ?_, fun p hm => ?_⟩
  · simp [State.reset, Store.reset] at hm
  · simp [State.reset, Store.reset] at hm
  · cases hm

theorem agendaSound_reset : AgendaSound State.reset := by
  refine ⟨List.Pairwise.nil, fun T waiting => ?_⟩
  cases waiting

theorem queueSound_reset : QueueSound State.reset := by
  refine ⟨⟨Nat.zero_le _, fun full => ?_, List.IsChain.nil⟩, fun r hr => ?_, fun r hr => ?_⟩
  · cases full
  · cases hr
  · cases hr

theorem haltSound_reset : HaltSound State.reset := by
  refine ⟨rfl, fun k => ?_⟩
  rw [outputLine_reset]
  refine ⟨⟨fun _ => rfl, fun masked => ?_⟩, fun forced => ?_, fun _ => rfl⟩
  · cases masked
  · cases forced

theorem pulsesSound_reset : PulsesSound State.reset := by
  intro k ending
  rw [outputLine_reset] at ending
  cases ending

theorem countsBounded_reset : CountsBounded State.reset :=
  ⟨rfl, Nat.zero_le _, Nat.zero_le _, by decide, by decide⟩

/-- Settles O3, invariant by invariant: at reset every slot is free, every list is empty and every line is STEADY. -/
theorem invariantsHoldAtReset : Obligations.InvariantsHoldAtReset :=
  ⟨⟨Store.reset_whole, rfl⟩, entriesPlaced_reset, agendaSound_reset, queueSound_reset, haltSound_reset,
    pulsesSound_reset, countsBounded_reset⟩

/-! ## CANCEL and QUERY (R14, R17) -/

/-- An argument word of 2048 or more names no handle (R14). -/
theorem handle_ofWord_none {w : Word} (h : 2048 ≤ w.toNat) : Handle.ofWord w = none :=
  dif_neg (Nat.not_lt.mpr h)

/-- A host command that is accepted, and whose block answers at once: its effect `s'`, and the completion. -/
theorem exec_whole_answered {s : State} {p : Port} {code : Byte} {handler : Handler} {s' : State} {r : Reply}
    (ht : TakesCommand s p) (hh : handler s.ce.args (s.accepted p code) = some (s', .answered r)) :
    unlessInReset s (runCommand code handler .whole) =
      .next (complete code r (s'.withCe { s'.ce with engine := .busy code s.ce.args (.answered r) })) := by
  obtain ⟨⟨released, carried⟩, idle⟩ := ht
  rw [unlessInReset_released _ released, runCommand_answered carried idle hh]

/-- A refused host command changes nothing but the registers of its completion. -/
theorem exec_whole_refused {s : State} {p : Port} {code : Byte} {handler : Handler} {r : Reply}
    (ht : TakesCommand s p) (hh : handler s.ce.args (s.accepted p code) = answer r (s.accepted p code)) :
    unlessInReset s (runCommand code handler .whole) = .next (finish s p code r) :=
  exec_whole_answered ht hh

/-- The DONE record that is offered for an entry, written out (R14, R40). -/
theorem doneRecords_eq (st : Store) (l : Live) (reason : DoneReason) (reheld : Bool) :
    st.doneRecords l reason reheld =
      if l.entry.report = .none then []
      else [.done (st.handleOf l.slot) l.entry.group l.entry.tag reason l.firings reheld] := by
  unfold Store.doneRecords
  cases l.entry.report <;> rfl

/-- Settles O26, by the three ways CANCEL's handler can answer. -/
theorem cancelOutcomes : Obligations.CancelOutcomes := by
  intro s p ht
  refine ⟨fun hw => ?_, fun h hh hl => ?_, fun h f hh hl => ?_⟩
  · exact exec_whole_refused ht (by simp [cancelTake, handle_ofWord_none hw])
  · exact exec_whole_refused ht (by simp [cancelTake, hh, hl])
  · refine (exec_whole_answered ht (by simp only [cancelTake, hh, State.accepted_store, hl]; rfl)).trans ?_
    rw [doneRecords_eq]
    rfl

/-- Settles O27, by the three ways QUERY's handler can answer. -/
theorem queryOutcomes : Obligations.QueryOutcomes := by
  intro s p ht
  refine ⟨fun hw => ?_, fun h hh hl => ?_, fun h f hh hl => ?_⟩
  · exact exec_whole_refused ht (by simp [queryTake, handle_ofWord_none hw])
  · exact exec_whole_refused ht (by simp [queryTake, hh, hl])
  · exact (exec_whole_answered ht (by simp only [queryTake, hh, State.accepted_store, hl]; rfl)).trans rfl

end Sys2Proof.Proofs

/-!
The order of the agenda (R19, R21): a placement, a removal and a tick keep it, and with it every operation of the
Schedule Store.
-/

namespace Sys2Proof.Machine

open Sys2Proof.Safety

/-! ## Placement and tick (R20, R21) -/

/-- A placement splits the agenda behind every distance that is smaller or equal (R21). -/
theorem insertPending_eq_append {now : Time} (x : PendingEntry) {agenda : List PendingEntry}
    (ordered : Ordered now agenda) :
    ∃ front back, agenda = front ++ back ∧ insertPending now x agenda = front ++ x :: back ∧
      (∀ y ∈ front, dist now y.due ≤ dist now x.due) ∧ ∀ y ∈ back, dist now x.due < dist now y.due := by
  induction agenda with
  | nil => exact ⟨[], [], rfl, rfl, by simp, by simp⟩
  | cons y ys ih =>
    obtain ⟨least, tail⟩ := List.pairwise_cons.mp ordered
    by_cases behind : dist now y.due ≤ dist now x.due
    · obtain ⟨front, back, split, placed, before, after⟩ := ih tail
      refine ⟨y :: front, back, by rw [split]; rfl, ?_, List.forall_mem_cons.mpr ⟨behind, before⟩, after⟩
      rw [insertPending, if_pos behind, placed]
      rfl
    · have ahead : dist now x.due < dist now y.due := lt_of_not_ge behind
      refine ⟨[], y :: ys, rfl, by rw [insertPending, if_neg behind]; rfl, by simp, ?_⟩
      exact List.forall_mem_cons.mpr ⟨ahead, fun z hz => ahead.trans_le (least z hz)⟩

/-- A placement keeps the order (R19, R21). -/
theorem ordered_insertPending {now : Time} (x : PendingEntry) {agenda : List PendingEntry}
    (ordered : Ordered now agenda) : Ordered now (insertPending now x agenda) := by
  obtain ⟨front, back, rfl, placed, before, after⟩ := insertPending_eq_append x ordered
  obtain ⟨hfront, hback, across⟩ := List.pairwise_append.mp ordered
  rw [placed]
  refine List.pairwise_append.mpr ⟨hfront, List.pairwise_cons.mpr ⟨fun y hy => (after y hy).le, hback⟩, ?_⟩
  exact fun y hy => List.forall_mem_cons.mpr ⟨before y hy, across y hy⟩

/-- A tick brings every time nearer by one, but for the time at the far end of the signed range (R20). -/
theorem dist_tick {now t : Time} (inRange : -(2 ^ 47) < dist now t) : dist (now + 1) t = dist now t - 1 := by
  have bound : dist now t < 2 ^ 47 := BitVec.toInt_lt
  have shift : t - (now + 1) = (t - now) - 1 := by ring
  unfold dist at inRange bound ⊢
  rw [shift, BitVec.toInt_sub (x := t - now), show (1 : Time).toInt = 1 from rfl]
  exact Int.bmod_eq_of_le (by omega) (by omega)

/-- A tick keeps the order of the entries inside the signed range (R19, R20). -/
theorem ordered_tick {now : Time} {agenda : List PendingEntry} (ordered : Ordered now agenda)
    (inRange : ∀ x ∈ agenda, -(2 ^ 47) < dist now x.due) : Ordered (now + 1) agenda := by
  refine List.Pairwise.imp_of_mem (fun {x y} hx hy le => ?_) ordered
  rw [dist_tick (inRange x hx), dist_tick (inRange y hy)]
  exact Int.sub_le_sub_right le 1

/-! ## The operations of the Schedule Store -/

theorem Store.placeAll_ordered {now : Time} (xs : List PendingEntry) {st : Store} (ordered : Ordered now st.agenda) :
    Ordered now (st.placeAll now xs).agenda := by
  induction xs generalizing st with
  | nil => exact ordered
  | cons x xs ih => exact ih (ordered_insertPending x ordered)

theorem Store.goLive_ordered {now : Time} (k : Fin 128) (e : Entry) {st : Store} (ordered : Ordered now st.agenda) :
    Ordered now (st.goLive now k e).agenda := by
  unfold Store.goLive
  cases e.timing with
  | atTime due =>
    dsimp only
    split
    · exact ordered
    · exact ordered_insertPending _ ordered
  | afterDelay delay =>
    dsimp only
    split
    · exact ordered
    · exact ordered_insertPending _ ordered
  | onTrigger source count offset rehold => exact ordered

theorem Store.goLiveAll_ordered {now : Time} (batch : List (Fin 128 × Entry)) {st : Store}
    (ordered : Ordered now st.agenda) : Ordered now (st.goLiveAll now batch).agenda :=
  Store.goLiveAll_keeps (P := (Ordered now ·.agenda)) now (fun _ k e h => Store.goLive_ordered k e h) batch st ordered

theorem Store.trigger_ordered {now : Time} (src : Source) (t : Time) {st : Store} (ordered : Ordered now st.agenda) :
    Ordered now (st.trigger now src t).agenda :=
  Store.placeAll_ordered (st := { st with held := st.held.set src.index (st.walk src).stay }) _ ordered

theorem Store.suspendGroup_ordered {now : Time} (g : Fin 16) {st : Store} (ordered : Ordered now st.agenda) :
    Ordered now (st.suspendGroup now g).agenda := by
  unfold Store.suspendGroup
  split
  · exact ordered
  · exact ordered.filter _

theorem Store.resumeGroup_ordered {now : Time} (g : Fin 16) {st : Store} (ordered : Ordered now st.agenda) :
    Ordered now (st.resumeGroup now g).agenda := by
  unfold Store.resumeGroup
  split
  · exact Store.placeAll_ordered (st := { st with parked := st.parked.set g [] }) _ ordered
  · exact ordered

theorem Store.freeLives_agenda (reason : DoneReason) (ls : List Live) (st : Store) :
    (st.freeLives reason ls).1.agenda = st.agenda := by
  obtain ⟨gens, e, -⟩ := st.freeLives_store reason ls
  rw [e]

theorem Store.cancelGroup_ordered {now : Time} (reason : DoneReason) (g : Fin 16) {st : Store}
    (ordered : Ordered now st.agenda) : Ordered now (st.cancelGroup reason g).1.agenda := by
  unfold Store.cancelGroup
  rw [Store.freeLives_agenda]
  exact ordered.filter _

theorem Store.haltGroups_ordered {now : Time} (gs : List (Fin 16)) {st : Store} (ordered : Ordered now st.agenda) :
    Ordered now (st.haltGroups now gs).1.agenda :=
  Store.haltGroups_keeps (P := (Ordered now ·.agenda)) now (fun _ g h => Store.cancelGroup_ordered .halted g h)
    (fun _ g h => Store.suspendGroup_ordered g h) gs st ordered

/-- What the dispatch of `T` leaves and what it places again is ordered from `T` (R24, R36). -/
theorem Store.dispatch_ordered {T : Time} (lines : Vector LineRecord 16) {st : Store}
    (ordered : Ordered T st.agenda) : Ordered T (st.dispatch T lines).store.agenda := by
  refine st.dispatch_keeps (P := (Ordered T ·.store.agenda)) T lines ?_ fun d p _ h => ?_
  · exact ordered.drop
  · show Ordered T (d.store.settleEntry T p.live (accountFor T p)).agenda
    obtain ⟨_, _, -, e⟩ | ⟨-, -, e⟩ | ⟨-, e⟩ := d.store.settleEntry_cases T p.live (accountFor T p) <;> rw [e]
    · exact h
    · exact h
    · exact ordered_insertPending _ h

end Sys2Proof.Machine

/-!
Every command keeps the agenda sound (R19, R49): the handlers of the host commands, the events, the resets and the
register writes.
-/

namespace Sys2Proof.Safety

open Sys2Proof.Machine

/-- Whether the agenda is sound depends on the store, the time and the tick event that waits. -/
theorem AgendaSound.congr {s t : State} (hs : AgendaSound s) (store : t.store = s.store := by simp)
    (time : t.tb.time = s.tb.time := by simp) (tick : t.mail.storeTick = s.mail.storeTick := by simp) :
    AgendaSound t := by
  rw [AgendaSound, store, time, tick]
  exact hs

/-- A store with its agenda ordered from the current time takes the place of the store (R19). -/
theorem AgendaSound.withStore {s : State} {st : Store} (hs : AgendaSound s) (ordered : Ordered s.tb.time st.agenda) :
    AgendaSound (s.withStore st) :=
  ⟨ordered, hs.2⟩

end Sys2Proof.Safety

namespace Sys2Proof.Machine

open Sys2Proof.Safety

/-! ## The parts of a host command -/

/-- A handler's answer, if it gives one, keeps the agenda sound and leaves the engine's state to the command. -/
def AnswersSoundly (s : State) (o : Option (State × Stage)) : Prop :=
  ∀ s' stage, o = some (s', stage) → AgendaSound s' ∧ s'.ce.engine = s.ce.engine

theorem AnswersSoundly.waits (s : State) : AnswersSoundly s none := by
  intro s' stage h
  cases h

theorem AnswersSoundly.of_sound {s s' : State} (stage : Stage) (sound : AgendaSound s')
    (engine : s'.ce.engine = s.ce.engine) : AnswersSoundly s (some (s', stage)) := by
  rintro _ _ ⟨⟩
  exact ⟨sound, engine⟩

/-- Every part of a host command keeps the agenda sound when its handler does. -/
theorem runCommand_agendaSound {code : Byte} {handler : Handler}
    (hh : ∀ a s, AgendaSound s → AnswersSoundly s (handler a s)) (p : CmdStep) {s : State} (hs : AgendaSound s) :
    AgendaSound (runCommand code handler p s) :=
  runCommand_keeps (P := AgendaSound) (fun _ _ h => h) (fun _ _ _ _ h => h) (fun _ _ _ _ h => h) (fun _ h => h)
    (fun a _ x x' stage _ answered h => hh a x h x' stage answered) p s hs

theorem serveWrite_agendaSound (a : Addr) {f : State → State} (hf : ∀ s, AgendaSound s → AgendaSound (f s))
    {s : State} (hs : AgendaSound s) : AgendaSound (serveWrite a f s) := by
  obtain e | ⟨p, -, e⟩ := serveWrite_cases a f s <;> rw [e]
  · exact hs
  · exact hf (s.withHp { s.hp with port := p }) hs

/-! ## SET-TIME's conditions (R58) -/

/-- When all work of the last tick has been taken, no tick event waits at the Schedule Store (R58). -/
theorem State.storeTick_of_tickWorkTaken {s : State} (taken : s.tickWorkTaken = true) : s.mail.storeTick = none := by
  simp only [State.tickWorkTaken, Mail.tickWorkTaken, Bool.and_eq_true, Option.isNone_iff_eq_none] at taken
  tauto

/-- A timeless store has an empty agenda (R58). -/
theorem Store.agenda_of_timeless {st : Store} (timeless : st.timeless = true) : st.agenda = [] := by
  rw [Store.timeless, Bool.and_eq_true] at timeless
  exact List.isEmpty_iff.mp timeless.1

section Events

variable {s : State} (hs : AgendaSound s)
include hs

/-! ## Events beside the agenda -/

theorem sample_agendaSound (pins : Pins) : AgendaSound (sample pins s) := by
  obtain ⟨-, e⟩ | ⟨T, -, e⟩ := sample_cases pins s <;> rw [e] <;> exact hs

theorem confirmation_agendaSound (pins : Pins) : AgendaSound (confirmation pins s) := by
  unfold confirmation
  split
  · split <;> exact hs
  · exact hs

theorem beginRunning_agendaSound (pins : Pins) : AgendaSound (beginRunning pins s) :=
  sample_agendaSound (s := s.withTb s.tb.boundary) hs pins

theorem endRunning_agendaSound : AgendaSound (endRunning s) := by
  obtain ⟨-, e⟩ | ⟨-, e⟩ := endRunning_cases s <;> rw [e] <;> exact hs

theorem syncEdge_agendaSound (pins : Pins) : AgendaSound (syncEdge pins s) := by
  unfold syncEdge
  split
  · exact beginRunning_agendaSound hs pins
  · exact hs

theorem syncFall_agendaSound : AgendaSound (syncFall s) := by
  unfold syncFall
  split <;> exact hs

theorem time0Read_agendaSound : AgendaSound (time0Read s) := by
  rw [time0Read_eq]
  split <;> exact hs

theorem delivery_agendaSound : AgendaSound (delivery s) := by
  unfold delivery
  split <;> exact hs

theorem runDown_agendaSound : AgendaSound (runDown s) := by
  obtain ⟨-, e⟩ | ⟨T, -, e⟩ := runDown_cases s <;> rw [e]
  · exact hs
  · exact hs.congr (by simp [runDownWork]) (by simp [runDownWork]) (by simp [runDownWork])

theorem pulseEnd_agendaSound : AgendaSound (pulseEnd s) := by
  obtain ⟨r, rfl | rfl, e⟩ := pulseEnd_cases s <;> rw [e]
  · exact hs
  · exact runDown_agendaSound hs

theorem recordOffer_agendaSound (b : Offerer) : AgendaSound (recordOffer b s) := by
  unfold recordOffer
  cases b <;> dsimp only <;> split <;> exact hs

theorem haltEventTaken_agendaSound (cause : HaltCause) : AgendaSound (haltEventTaken cause s) := by
  cases h : s.hc.latch with
  | some c =>
    rw [haltEventTaken_latched cause h]
    exact hs
  | none =>
    rw [haltEventTaken_clear cause h]
    exact hs.congr (by simp [latchHalt]) (by simp [latchHalt])

theorem takeFall_agendaSound : AgendaSound (takeFall s) := by
  cases h : s.hc.fallsOwed with
  | zero =>
    rw [takeFall_none h]
    exact hs
  | succ n =>
    rw [takeFall_owed h]
    exact haltEventTaken_agendaSound (s := s.withHc { s.hc with fallsOwed := n }) hs .pin

theorem recogniseFall_agendaSound : AgendaSound (recogniseFall s) := by
  unfold recogniseFall
  split <;> exact hs

theorem haltEvent_agendaSound (p : FallStep) : AgendaSound (haltEvent p s) := by
  cases p with
  | whole =>
    simp only [haltEvent]
    split
    · exact takeFall_agendaSound (recogniseFall_agendaSound hs)
    · exact hs
  | recognise => exact recogniseFall_agendaSound hs
  | take => exact takeFall_agendaSound hs

theorem headerByte_agendaSound (b : Byte) : AgendaSound (headerByte b s) := by
  unfold headerByte
  split <;> exact hs

/-! ## The tick (R49) -/

/-- The tick moves the time on by one and hands that time to the Schedule Store (R47, R49). -/
theorem tickEvent_agendaSound (inRange : AgendaInRange s) : AgendaSound (tickEvent s) := by
  unfold tickEvent
  split
  · split
    · exact ⟨ordered_tick hs.1 inRange, fun T waiting => (Option.some.inj waiting).symm⟩
    · exact hs
  · exact hs

/-- The dispatch takes the tick event that carries the current time, and none waits behind it (R24). -/
theorem dispatch_agendaSound : AgendaSound (dispatch s) := by
  obtain ⟨ordered, current⟩ := hs
  unfold dispatch
  split
  · exact ⟨ordered, current⟩
  · rename_i T waiting
    obtain rfl := current T waiting
    exact ⟨Store.dispatch_ordered _ ordered, fun T none => nomatch none⟩

/-! ## Events at the Schedule Store -/

theorem triggerEvent_agendaSound (pick : TriggerPick) : AgendaSound (triggerEvent pick s) := by
  unfold triggerEvent
  cases pick <;> dsimp only <;> split
  · exact hs
  · exact hs.withStore (Store.trigger_ordered _ _ hs.1)
  · exact hs
  · exact hs.withStore (Store.trigger_ordered _ _ hs.1)

theorem commitStart_agendaSound : AgendaSound (commitStart s) := by
  unfold commitStart
  split
  · split
    · unfold commitStartTaken
      split
      · exact hs
      · split <;> exact hs
    · exact hs
  · exact hs

theorem mergeCompletion_agendaSound : AgendaSound (mergeCompletion s) := by
  unfold mergeCompletion
  split
  · exact hs.withStore (st := batchLive s) (Store.goLiveAll_ordered _ hs.1)
  · exact hs

theorem abandon_agendaSound (code : ResultCode) : AgendaSound (abandon code s) := by
  unfold abandon
  split <;> exact hs

theorem applyHaltActions_agendaSound : AgendaSound (applyHaltActions s) :=
  (hs.withStore (Store.haltGroups_ordered (List.finRange 16) hs.1)).congr (by simp) (by simp [applyHaltActions])
    (by simp [applyHaltActions])

theorem haltGroupRequest_agendaSound : AgendaSound (haltGroupRequest s) := by
  unfold haltGroupRequest
  split
  · exact hs
  · rename_i n _
    refine abandon_agendaSound (applyHaltActions_agendaSound ?_) .halted
    exact hs

/-! ## Resets -/

theorem relatch_agendaSound : AgendaSound (relatch s) := by
  cases h : s.hc.haltnHigh with
  | true =>
    rw [relatch_high h]
    exact hs
  | false =>
    rw [relatch_low h]
    have latched : AgendaSound (latchHalt .pin s) :=
      hs.congr (by simp [latchHalt]) (by simp [latchHalt]) (by simp [latchHalt])
    exact (applyHaltActions_agendaSound latched).congr

/-- A soft reset empties the agenda and keeps the tick event that waits (R12, R64). -/
theorem softReset_agendaSound (w : Word) (pins : Pins) : AgendaSound (softReset w pins s) := by
  unfold softReset
  split
  · refine serveWrite_agendaSound _ (fun s hs => ?_) hs
    exact relatch_agendaSound (s := softResetValues pins s) ⟨List.Pairwise.nil, hs.2⟩
  · exact hs

/-! ## Register writes -/

theorem abortWrite_agendaSound (w : Word) : AgendaSound (abortWrite w s) := by
  unfold abortWrite
  split
  · exact serveWrite_agendaSound _ (fun s hs => abandon_agendaSound hs .aborted) hs
  · exact hs

theorem badCommand_agendaSound (w : Word) : AgendaSound (badCommand w s) := by
  unfold badCommand
  split
  · exact hs
  · refine serveWrite_agendaSound _ (fun s hs => ?_) hs
    split <;> exact hs

/-! ## The handlers of the host commands -/

theorem AnswersSoundly.unchanged (stage : Stage) : AnswersSoundly s (some (s, stage)) := .of_sound stage hs rfl

theorem appendTake_sound (a : Args) : AnswersSoundly s (appendTake a s) := by
  unfold appendTake
  split
  · exact .unchanged hs _
  · split <;> exact .of_sound _ hs rfl

theorem commitTake_sound (a : Args) : AnswersSoundly s (commitTake a s) := by
  unfold commitTake
  split <;> exact .unchanged hs _

theorem cancelTake_sound (a : Args) : AnswersSoundly s (cancelTake a s) := by
  unfold cancelTake
  split
  · exact .unchanged hs _
  · split
    · exact .unchanged hs _
    · rename_i f _
      exact .of_sound _ (hs.withStore (st := cancelStore s.store f) (hs.1.filter _)) rfl

theorem queryTake_sound (a : Args) : AnswersSoundly s (queryTake a s) := by
  unfold queryTake
  split
  · exact .unchanged hs _
  · split <;> exact .of_sound _ hs rfl

theorem suspendTake_sound (a : Args) : AnswersSoundly s (suspendTake a s) := by
  unfold suspendTake
  split
  · exact .unchanged hs _
  · split
    · exact .unchanged hs _
    · exact .of_sound _ (hs.withStore (Store.suspendGroup_ordered _ hs.1)) rfl

theorem resumeTake_sound (a : Args) : AnswersSoundly s (resumeTake a s) := by
  unfold resumeTake
  split
  · exact .unchanged hs _
  · split
    · exact .of_sound _ (hs.withStore (Store.resumeGroup_ordered _ hs.1)) rfl
    · exact .unchanged hs _

theorem cancelGroupTake_sound (a : Args) : AnswersSoundly s (cancelGroupTake a s) := by
  unfold cancelGroupTake
  split
  · exact .unchanged hs _
  · exact .of_sound _ (hs.withStore (Store.cancelGroup_ordered _ _ hs.1)) rfl

theorem setGroupTake_sound (a : Args) : AnswersSoundly s (setGroupTake a s) := by
  unfold setGroupTake
  split
  · split
    · exact .of_sound _ hs rfl
    · exact .waits s
  · exact .unchanged hs _

theorem startTake_sound (pins : Pins) (a : Args) : AnswersSoundly s (startTake pins a s) := by
  unfold startTake
  split
  · exact .of_sound _ (beginRunning_agendaSound hs pins) (by rw [(beginRunning_leavesPool pins s).2])
  · exact .unchanged hs _

theorem stopTake_sound (a : Args) : AnswersSoundly s (stopTake a s) := by
  unfold stopTake
  split
  · exact .unchanged hs _
  · exact .of_sound _ (endRunning_agendaSound (s := s.withTb s.tb.stop) hs) (by rw [(endRunning_leavesPool _).2]; rfl)

theorem armSyncTake_sound (sync : Bool) (a : Args) : AnswersSoundly s (armSyncTake sync a s) := by
  unfold armSyncTake
  split <;> exact .of_sound _ hs rfl

/-- SET-TIME moves the time only while no tick event waits and the agenda is empty (R58). -/
theorem setTimeTake_sound (a : Args) : AnswersSoundly s (setTimeTake a s) := by
  unfold setTimeTake
  split
  · split
    · rename_i taken
      split
      · rename_i timeless
        refine .of_sound _ ⟨?_, fun T waiting => ?_⟩ rfl
        · show Ordered _ s.store.agenda
          rw [Store.agenda_of_timeless timeless]
          exact .nil
        · exact absurd (waiting : s.mail.storeTick = some T) (by simp [State.storeTick_of_tickWorkTaken taken])
      · exact .unchanged hs _
    · exact .waits s
  · exact .unchanged hs _

theorem setTrimTake_sound (a : Args) : AnswersSoundly s (setTrimTake a s) := by
  unfold setTrimTake
  split
  · exact .unchanged hs _
  · split <;> exact .of_sound _ hs rfl

theorem fireCueTake_sound (a : Args) : AnswersSoundly s (fireCueTake a s) := by
  unfold fireCueTake
  split
  · exact .unchanged hs _
  · exact .of_sound _ (hs.withStore (Store.trigger_ordered _ _ hs.1)) rfl

theorem configOutTake_sound (a : Args) : AnswersSoundly s (configOutTake a s) := by
  unfold configOutTake
  split
  · split <;> exact .of_sound _ hs rfl
  · exact .unchanged hs _

theorem configInTake_sound (a : Args) : AnswersSoundly s (configInTake a s) := by
  unfold configInTake
  split <;> exact .of_sound _ hs rfl

theorem haltTake_sound (a : Args) : AnswersSoundly s (haltTake a s) :=
  .of_sound _ (haltEventTaken_agendaSound hs .command) (by rw [(haltEventTaken_leavesPool .command s).2])

theorem releaseTake_sound (a : Args) : AnswersSoundly s (releaseTake a s) := by
  unfold releaseTake
  split
  · exact .unchanged hs _
  · split <;> exact .of_sound _ hs rfl

/-- Ahead of a register write at most an APPEND is taken (R67). -/
theorem beforeWrite_agendaSound (a : Addr) : AgendaSound (beforeWrite a s) := by
  unfold beforeWrite
  split
  · exact runCommand_agendaSound (code := 0x01) (fun a s hs => appendTake_sound hs a) .take hs
  · exact hs

theorem registerWrite_agendaSound (a : Addr) (w : Word) : AgendaSound (registerWrite a w s) := by
  unfold registerWrite
  split
  · exact hs
  · refine serveWrite_agendaSound _ (fun s hs => ?_) hs
    exact beforeWrite_agendaSound hs a

end Events

/-- A power-on reset leaves no entry and no tick event, whatever came before (R13, R65). -/
theorem powerOnReset_agendaSound (haltn csn : Bool) (pins : Pins) (s : State) :
    AgendaSound (powerOnReset haltn csn pins s) := by
  refine relatch_agendaSound ⟨.nil, fun T waiting => ?_⟩
  cases waiting

/-! ## Every command -/

/-- R19, R49: every command keeps the agenda sound; the tick needs the range of R20 for it. -/
theorem exec_agendaSound {c : Instr} {s t : State} (hs : AgendaSound s) (inRange : AgendaInRange s)
    (h : exec c s = .next t) : AgendaSound t := by
  have event : ∀ {f : State → State}, unlessInReset s f = .next t → AgendaSound (f s) → AgendaSound t := by
    intro f h hf
    obtain rfl | ⟨-, rfl⟩ := unlessInReset_eq h
    · exact hs
    · exact hf
  have host : ∀ {code : Byte} {handler : Handler} {p : CmdStep},
      unlessInReset s (runCommand code handler p) = .next t →
      (∀ {s}, AgendaSound s → ∀ a, AnswersSoundly s (handler a s)) → AgendaSound t :=
    fun h hh => event h (runCommand_agendaSound (fun a _ hs => hh hs a) _ hs)
  have write : ∀ {a : Addr} {f : State → State}, unlessInReset s (serveWrite a f) = .next t →
      (∀ s, AgendaSound s → AgendaSound (f s)) → AgendaSound t :=
    fun h hf => event h (serveWrite_agendaSound _ hf hs)
  cases c with
  | append p => exact host h appendTake_sound
  | discard p => exact host h fun hs _ => .of_sound _ hs rfl
  | commit p => exact host h commitTake_sound
  | commitStart => exact event h (commitStart_agendaSound hs)
  | mergeCompletion => exact event h (mergeCompletion_agendaSound hs)
  | abort w => exact event h (abortWrite_agendaSound hs w)
  | cancel p => exact host h cancelTake_sound
  | query p => exact host h queryTake_sound
  | suspend p => exact host h suspendTake_sound
  | resume p => exact host h resumeTake_sound
  | cancelGroup p => exact host h cancelGroupTake_sound
  | setGroup p => exact host h setGroupTake_sound
  | start p pins => exact host h fun hs => startTake_sound hs pins
  | stop p => exact host h stopTake_sound
  | armSync p sync => exact host h fun hs => armSyncTake_sound hs sync
  | setTime p => exact host h setTimeTake_sound
  | setTrim p => exact host h setTrimTake_sound
  | fireCue p => exact host h fireCueTake_sound
  | configOut p => exact host h configOutTake_sound
  | configIn p => exact host h configInTake_sound
  | halt p => exact host h haltTake_sound
  | release p => exact host h releaseTake_sound
  | badcmd w => exact event h (badCommand_agendaSound hs w)
  | softReset w pins => exact event h (softReset_agendaSound hs w pins)
  | powerOnReset haltn csn pins =>
    cases h
    exact powerOnReset_agendaSound haltn csn pins s
  | haltEvent p => exact event h (haltEvent_agendaSound hs p)
  | haltnRise => exact event h hs
  | haltGroupRequest => exact event h (haltGroupRequest_agendaSound hs)
  | syncEdge pins => exact event h (syncEdge_agendaSound hs pins)
  | tickEvent => exact event h (tickEvent_agendaSound hs inRange)
  | dispatch => exact event h (dispatch_agendaSound hs)
  | triggerEvent pick => exact event h (triggerEvent_agendaSound hs pick)
  | delivery => exact event h (delivery_agendaSound hs)
  | runDown => exact event h (runDown_agendaSound hs)
  | pulseEnd => exact event h (pulseEnd_agendaSound hs)
  | sample pins => exact event h (sample_agendaSound hs pins)
  | confirmation pins => exact event h (confirmation_agendaSound hs pins)
  | recordOffer b => exact event h (recordOffer_agendaSound hs b)
  | pop w => exact write h fun _ hs => hs
  | outDirect w => exact write h fun _ hs => hs
  | irqFlags w => exact write h fun _ hs => hs
  | irqEnable w => exact write h fun _ hs => hs
  | thresh w => exact write h fun _ hs => hs
  | time0 => exact event h (time0Read_agendaSound hs)
  | registerWrite a w => exact event h (registerWrite_agendaSound hs a w)
  | headerByte b => exact event h (headerByte_agendaSound hs b)
  | syncFall => exact event h (syncFall_agendaSound hs)
  | resetnAsserted =>
    cases h
    exact hs
  | frameEnd =>
    cases h
    exact hs

end Sys2Proof.Machine

/-!
The dispatch of a tick (chapter 2): which entries it takes, which occurrences of an entry it accounts for, and what it
does with one entry.
-/

namespace Sys2Proof.Machine

open Sys2Proof.Stated

/-! ## What a dispatch takes and hands out (R24, R25, R127) -/

/-- The first element behind the leading ones that pass a test fails it. -/
theorem takeWhile_stops {α : Type} (test : α → Bool) {l : List α} {x : α}
    (h : l[(l.takeWhile test).length]? = some x) : test x = false := by
  induction l with
  | nil => simp at h
  | cons y ys ih =>
    cases hy : test y with
    | false =>
      obtain rfl : y = x := by simpa [hy] using h
      exact hy
    | true => exact ih (by simpa [hy] using h)

theorem dueBy_iff (T due : Time) : dueBy T due = true ↔ dist T due ≤ 0 := decide_eq_true_iff

theorem takenBy_eq_take (T : Time) (agenda : List PendingEntry) :
    takenBy T agenda = agenda.take (takenBy T agenda).length :=
  List.prefix_iff_eq_take.mp ⟨_, takenBy_append_drop T agenda⟩

/-- Every entry taken is due at or before `T` (R24). -/
theorem takenBy_due {T : Time} {agenda : List PendingEntry} {x : PendingEntry} (h : x ∈ takenBy T agenda) :
    dist T x.due ≤ 0 := by
  have led : x ∈ agenda.takeWhile fun p => dueBy T p.due := List.mem_of_mem_take h
  have due := List.mem_takeWhile_imp led
  exact (dueBy_iff T x.due).mp due

theorem takenBy_length_le (T : Time) (agenda : List PendingEntry) : (takenBy T agenda).length ≤ 8 :=
  List.length_take_le _ _

/-- A dispatch that takes fewer than the budget stops at the end of the agenda or at an entry due after `T` (R25). -/
theorem takenBy_stops {T : Time} {agenda : List PendingEntry} {x : PendingEntry}
    (room : (takenBy T agenda).length < 8) (next : agenda[(takenBy T agenda).length]? = some x) :
    0 < dist T x.due := by
  have allDue : takenBy T agenda = agenda.takeWhile fun p => dueBy T p.due := by
    refine List.take_of_length_le (le_of_not_gt fun overrun => ?_)
    rw [takenBy, List.length_take_of_le overrun.le] at room
    exact absurd room (lt_irrefl 8)
  rw [allDue] at next
  have ahead := takeWhile_stops _ next
  rwa [← Bool.not_eq_true, dueBy_iff, not_le] at ahead

theorem deliveryOf_eq (T : Time) (effects : List Effect) :
    deliveryOf T effects = if effects = [] then [] else [⟨T, effects⟩] := by
  cases effects <;> rfl

theorem dispatch_idle {s : State} (h : s.mail.storeTick = none) : dispatch s = s := by
  simp only [dispatch, h]

/-- The dispatch of the tick event that waits changes the store and what it hands out (R24). -/
theorem dispatch_waiting {s : State} {T : Time} (h : s.mail.storeTick = some T) :
    dispatch s =
      (s.withStore (s.store.dispatch T s.ou.lines).store).withMail
        { s.mail with
          storeTick := none
          cues := s.mail.cues ++ (s.store.dispatch T s.ou.lines).cues.map fun n => (n, T)
          deliveries := s.mail.deliveries ++ deliveryOf T (s.store.dispatch T s.ou.lines).effects
          storeOffers := s.mail.storeOffers ++ (s.store.dispatch T s.ou.lines).records } := by
  simp only [dispatch, h]

/-! ## Counting occurrences (R31 to R35) -/

theorem Entry.limited_iff (e : Entry) : e.limited = true ↔ e.period ≠ 0 ∧ e.runs ≠ 0 := by
  simp [Entry.limited]

theorem lt_capRuns_iff (limited : Bool) (left n k : Nat) :
    k < capRuns limited left n ↔ k < n ∧ (limited = true → k < left) := by
  cases limited <;> simp [capRuns]

/-- The late occurrences that a FIRE passes over: the later ones due at or before the tick, within the runs left
(R32, R35). -/
theorem le_passedOver_iff {period lateness left k : Nat} (limited : Bool) (periodic : 0 < period) (later : 1 ≤ k) :
    k ≤ capRuns limited (left - 1) (lateness / period) ↔ k * period ≤ lateness ∧ (limited = true → k < left) := by
  obtain ⟨j, rfl⟩ := Nat.exists_eq_add_of_le' later
  rw [Nat.add_one_le_iff, lt_capRuns_iff, ← Nat.le_div_iff_mul_le periodic, Nat.lt_iff_add_one_le,
    Nat.lt_sub_iff_add_lt]

/-- The occurrences due earlier than T − tolerance, counted by a division that rounds up (R33). -/
theorem lt_overdueCount_iff {period lateness tolerance k : Nat} (periodic : 0 < period) (late : tolerance < lateness) :
    k < overdueCount period lateness tolerance ↔ k * period + tolerance < lateness := by
  rw [overdueCount, Nat.lt_iff_add_one_le, Nat.le_div_iff_mul_le periodic, Nat.add_one_mul]
  omega

/-- The occurrences that a late SKIP skips: those due earlier than T − tolerance, within the runs left (R33, R35). -/
theorem lt_skipped_iff {period lateness tolerance left k : Nat} (limited : Bool) (periodic : 0 < period)
    (late : tolerance < lateness) :
    k < capRuns limited left (overdueCount period lateness tolerance) ↔
      k * period + tolerance < lateness ∧ (limited = true → k < left) := by
  rw [lt_capRuns_iff, lt_overdueCount_iff periodic late]

/-- A count that leaves runs to spare is not cut short by them. -/
theorem capRuns_of_spare {limited : Bool} {left n : Nat}
    (spare : limited = true → 1 + capRuns limited (left - 1) n < left) : capRuns limited (left - 1) n = n := by
  cases limited with
  | false => rfl
  | true =>
    have := spare rfl
    simp only [capRuns, if_true] at this ⊢
    omega

/-! ## The accounting, case by case (R27) -/

section Accounts

variable {T : Time} {p : PendingEntry}

theorem accountFor_onTime (h : latenessAt T p.due ≤ p.live.entry.tolerance.toNat) :
    accountFor T p = ⟨some p.due, false, none, 1, occurrence p.due p.live.entry.period.toNat 1⟩ :=
  if_pos h

theorem accountFor_lateFire (h : p.live.entry.tolerance.toNat < latenessAt T p.due)
    (policy : p.live.entry.policy = .fire) :
    accountFor T p =
      accountLateFire p.due p.live.entry.period.toNat (latenessAt T p.due) p.live.entry.limited p.live.runsLeft := by
  simp only [accountFor, Nat.not_le.mpr h, if_false, policy]

theorem accountFor_lateSkip (h : p.live.entry.tolerance.toNat < latenessAt T p.due)
    (policy : p.live.entry.policy = .skip) :
    accountFor T p =
      accountLateSkip p.due p.live.entry.period.toNat (latenessAt T p.due) p.live.entry.tolerance.toNat
        p.live.entry.limited p.live.runsLeft := by
  simp only [accountFor, Nat.not_le.mpr h, if_false, policy]

end Accounts

section Periods

variable (due : Time) (lateness tolerance left : Nat) (limited : Bool)

theorem accountLateFire_oneShot :
    accountLateFire due 0 lateness limited left = ⟨some due, true, none, 1, occurrence due 0 1⟩ := rfl

theorem accountLateSkip_oneShot :
    accountLateSkip due 0 lateness tolerance limited left = ⟨none, false, some (due, 1), 1, due⟩ := rfl

variable {period : Nat} (periodic : 0 < period)
include periodic

/-- A periodic entry late under FIRE: `k` occurrences are passed over behind the one that fires (R32). -/
theorem accountLateFire_periodic {k : Nat} (passed : k = capRuns limited (left - 1) (lateness / period)) :
    accountLateFire due period lateness limited left =
      ⟨some due, true, if k = 0 then none else some (occurrence due period 1, k), 1 + k,
        occurrence due period (1 + k)⟩ := by
  simp only [accountLateFire, periodic.ne', if_false, passed]

/-- A periodic entry late under SKIP: `k` occurrences are skipped, and the next one fires when it is due and a run is
left for it (R33, R35). -/
theorem accountLateSkip_periodic {k : Nat}
    (skipped : k = capRuns limited left (overdueCount period lateness tolerance)) :
    accountLateSkip due period lateness tolerance limited left =
      if limited = true ∧ left ≤ k then ⟨none, false, some (due, k), k, occurrence due period k⟩
      else if k * period ≤ lateness then
        ⟨some (occurrence due period k), false, some (due, k), k + 1, occurrence due period (k + 1)⟩
      else ⟨none, false, some (due, k), k, occurrence due period k⟩ := by
  simp only [accountLateSkip, periodic.ne', if_false, ← skipped, Bool.and_eq_true, decide_eq_true_eq]

end Periods

/-- A late SKIP fires nothing late (R33). -/
theorem accountLateSkip_late (due : Time) (period lateness tolerance : Nat) (limited : Bool) (left : Nat) :
    (accountLateSkip due period lateness tolerance limited left).late = false := by
  unfold accountLateSkip
  dsimp only
  split_ifs <;> rfl

/-- An entry finishes when it is one-shot, or when the occurrences accounted for use up its runs (R37). -/
theorem finishes_iff (l : Live) (a : Account) :
    finishes l a = true ↔ l.entry.period = 0 ∨ (l.entry.runs ≠ 0 ∧ l.runsLeft ≤ a.used) := by
  simp only [finishes, Bool.or_eq_true, beq_iff_eq, Bool.and_eq_true, Entry.limited_iff, decide_eq_true_eq]
  tauto

/-! ## The next occurrence after a late firing (R32, R36) -/

/-- As many ticks behind `due` as `T` is late, and `n` more, is `n` ticks behind `T`. -/
theorem later_latenessAt_add (T due : Time) (n : Nat) : later due (latenessAt T due + n) = later T n := by
  have : BitVec.ofNat 48 (latenessAt T due) = T - due := BitVec.ofNat_toNat _ _
  simp only [later, BitVec.ofNat_add, this]
  ring

theorem dist_later (T : Time) {n : Nat} (h : n < 2 ^ 47) : dist T (later T n) = n := by
  have : later T n - T = BitVec.ofNat 48 n := by
    rw [later]
    ring
  rw [dist, this, BitVec.toInt_ofNat']
  exact Int.bmod_eq_of_le (by omega) (by omega)

/-- The first occurrence on the grid behind a lateness comes after it, by at most one period. -/
theorem exists_next_occurrence {period : Nat} (lateness : Nat) (periodic : 0 < period) :
    ∃ n, (1 + lateness / period) * period = lateness + n ∧ 0 < n ∧ n ≤ period := by
  have split := Nat.div_add_mod' lateness period
  have rest := Nat.mod_lt lateness periodic
  refine ⟨period - lateness % period, ?_, by omega, by omega⟩
  rw [Nat.add_mul]
  omega

/-- A periodic entry fired late under FIRE with runs to spare re-arms after `T`, by at most one period (R32, R36). -/
theorem lateFire_next {T : Time} {p : PendingEntry} (policy : p.live.entry.policy = .fire)
    (late : p.live.entry.tolerance.toNat < latenessAt T p.due) (goesOn : finishes p.live (accountFor T p) = false) :
    0 < dist T (accountFor T p).next ∧ dist T (accountFor T p).next ≤ p.live.entry.period.toNat := by
  have width : p.live.entry.period.toNat < 2 ^ 32 := BitVec.isLt _
  obtain ⟨periodic, spare⟩ := not_or.mp (mt (finishes_iff _ _).mpr (Bool.not_eq_true _ ▸ goesOn))
  have positive : 0 < p.live.entry.period.toNat := Nat.pos_of_ne_zero fun h => periodic (BitVec.eq_of_toNat_eq h)
  rw [accountFor_lateFire late policy, accountLateFire_periodic _ _ _ _ positive rfl] at spare ⊢
  dsimp only at spare ⊢
  rw [capRuns_of_spare fun limited => lt_of_not_ge fun h => spare ⟨((Entry.limited_iff _).mp limited).2, h⟩]
  obtain ⟨n, grid, after, within⟩ := exists_next_occurrence (latenessAt T p.due) positive
  rw [occurrence, grid, later_latenessAt_add, dist_later T (by omega)]
  omega

/-! ## One entry of a dispatch (R28 to R30, R36 to R42) -/

/-- The runtime fields behind the accounting, written out (R4, R35). -/
theorem Live.accounted_eq (l : Live) (a : Account) :
    l.accounted a =
      { l with
        runsLeft := if l.entry.period ≠ 0 ∧ l.entry.runs ≠ 0 then l.runsLeft - a.used else l.runsLeft
        firings := if a.fired = none then l.firings else min 65535 (l.firings + 1) } := by
  simp only [Live.accounted, Entry.limited_iff]
  cases a.fired <;> rfl

theorem Entry.fullRuns_eq (e : Entry) : e.fullRuns = if e.period ≠ 0 ∧ e.runs ≠ 0 then e.runs.toNat else 0 := by
  simp only [Entry.fullRuns, Entry.limited_iff]

/-- An ON entry with rehold set, and no other, returns to a held list (R37). -/
theorem Entry.rehold?_isSome_iff (e : Entry) :
    e.rehold?.isSome = true ↔ ∃ source count offset, e.timing = .onTrigger source count offset true := by
  constructor
  · intro h
    obtain ⟨⟨source, n⟩, hr⟩ := Option.isSome_iff_exists.mp h
    obtain ⟨count, offset, timing, -⟩ := Entry.rehold?_eq_some hr
    exact ⟨source, count, offset, timing⟩
  · rintro ⟨source, count, offset, timing⟩
    simp [Entry.rehold?, timing]

/-- The lines that an effect of an action addresses. -/
theorem Action.addresses_iff (a : Action) (k : Fin 16) :
    Addresses a k ↔ ∃ e, a.effect? = some e ∧ e.addresses k = true := by
  cases a <;> simp [Addresses, Action.effect?, Effect.addresses]

theorem LineRecord.closed_iff (l : LineRecord) : l.closed = true ↔ l.mode = .direct ∨ l.masked = true := by
  simp [LineRecord.closed]

/-- The masked flag tells whether some addressed line is DIRECT or masked (R29). -/
theorem maskedFlag_iff (lines : Vector LineRecord 16) (a : Action) :
    maskedFlag lines a = true ↔ ∃ k : Fin 16, Addresses a k ∧ (lines[k].mode = .direct ∨ lines[k].masked = true) := by
  simp only [Action.addresses_iff, ← LineRecord.closed_iff]
  unfold maskedFlag
  cases a.effect? <;> simp

section Place

variable (st : Store) (T : Time) {l : Live} {a : Account}

theorem Store.settleEntry_placed (h : finishes l a = false) :
    st.settleEntry T l a = st.place T ⟨l.accounted a, a.next⟩ := by
  simp [Store.settleEntry, h]

theorem Store.settleEntry_reheld {source : Source} {count : Nat} (h : finishes l a = true)
    (hr : l.entry.rehold? = some (source, count)) :
    st.settleEntry T l a =
      st.joinHeld source ⟨{ l.accounted a with runsLeft := l.entry.fullRuns }, count⟩ := by
  simp [Store.settleEntry, h, hr]

theorem Store.settleEntry_freed (h : finishes l a = true) (hr : l.entry.rehold? = none) :
    st.settleEntry T l a = st.freeSlot l.slot := by
  simp [Store.settleEntry, h, hr]

/-- The DONE record of an entry that finishes, written out (R40). -/
theorem finishRecords_eq :
    finishRecords st l a =
      if (l.entry.period = 0 ∨ (l.entry.runs ≠ 0 ∧ l.runsLeft ≤ a.used)) ∧ l.entry.report ≠ .none then
        [.done (st.handleOf l.slot) l.entry.group l.entry.tag .finished (l.accounted a).firings l.entry.rehold?.isSome]
      else [] := by
  simp only [finishRecords, finishes_iff, Proofs.doneRecords_eq, Live.accounted_entry, Live.accounted_slot, ite_not,
    ite_and, ne_eq]
  exact if_congr .rfl rfl rfl

end Place

section Records

variable (T : Time) (h : Handle) {e : Entry} (masked : Bool) (a : Account)

/-- Without report EACH no occurrence is recorded (R41). -/
theorem occurrenceRecords_of_not_each (hr : e.report ≠ .each) : occurrenceRecords T h e masked a = [] := by
  unfold occurrenceRecords
  split
  · rename_i each
    exact absurd each hr
  · rfl

/-- With report EACH a pass-over follows the late firing, and a skip comes before the firing (R41). -/
theorem occurrenceRecords_of_each (hr : e.report = .each) :
    occurrenceRecords T h e masked a =
      if a.late = true then firingRecords T h e masked a ++ skipRecords h e a
      else skipRecords h e a ++ firingRecords T h e masked a := by
  simp only [occurrenceRecords, hr]

variable {T h masked a}

theorem firingRecords_none (silent : a.fired = none) : firingRecords T h e masked a = [] := by
  simp only [firingRecords, silent]

theorem firingRecords_onTime {due : Time} (fired : a.fired = some due) (onTime : a.late = false) :
    firingRecords T h e masked a = [.fired h e.group e.tag due masked] := by
  simp [firingRecords, fired, onTime]

theorem firingRecords_late {due : Time} (fired : a.fired = some due) (late : a.late = true) :
    firingRecords T h e masked a =
      [.late h e.group e.tag due (min (2 ^ 32 - 1) (T - due).toNat) masked] := by
  simp only [firingRecords, fired, late, if_true, holdAt, Config.latenessLimit, latenessAt]

theorem skipRecords_none (noSkip : a.skipped = none) : skipRecords h e a = [] := by
  simp only [skipRecords, noSkip]

theorem skipRecords_some {first : Time} {n : Nat} (skipped : a.skipped = some (first, n)) :
    skipRecords h e a = [.skipped h e.group e.tag first (min 65535 n)] := by
  simp only [skipRecords, skipped, holdAt]

end Records

section Sends

variable {T : Time} (lines : Vector LineRecord 16) (d : Dispatched) {p : PendingEntry}

/-- With no occurrence fired nothing is sent (R28). -/
theorem serveEntry_silent (silent : (accountFor T p).fired = none) :
    (serveEntry T lines d p).effects = d.effects ∧ (serveEntry T lines d p).cues = d.cues := by
  simp [serveEntry, silent]

/-- A firing sends the effect of its kind, and raises the cue of its kind (R28, R30). -/
theorem serveEntry_fired (fired : (accountFor T p).fired ≠ none) :
    (serveEntry T lines d p).effects = d.effects ++ p.live.entry.action.effect?.toList ∧
      (serveEntry T lines d p).cues = d.cues ++ p.live.entry.action.cue?.toList := by
  simp [serveEntry, Option.isSome_iff_ne_none.mpr fired]

/-- The records of the occurrences stand ahead of the DONE record (R41, R42). -/
theorem serveEntry_records :
    (serveEntry T lines d p).records =
      d.records ++
          occurrenceRecords T (d.store.handleOf p.live.slot) p.live.entry (maskedFlag lines p.live.entry.action)
            (accountFor T p) ++
        finishRecords d.store p.live (accountFor T p) := rfl

end Sends

end Sys2Proof.Machine

/-!
The statements of the family "The agenda and dispatch".
-/

namespace Sys2Proof.Proofs

open Sys2Proof.Machine Sys2Proof.Safety Sys2Proof.Stated

/-! ## The order of the agenda (R19, R20, R21) -/

/-- Settles O6: a step is a command on the rest of the queue, and every command keeps the agenda sound. -/
theorem stepKeepsAgendaOrdered : Obligations.StepKeepsAgendaOrdered := by
  intro s t hs inRange h
  unfold step at h
  split at h
  · injection h with h
    exact h ▸ hs
  · rename_i c rest _
    exact exec_agendaSound (s := s.withPending rest) hs inRange h

/-- Settles O40: a placement splits the ordered agenda in two, and a tick lowers every distance by one. -/
theorem agendaKeepsItsOrder : Obligations.AgendaKeepsItsOrder :=
  ⟨fun _ x _ ordered => ⟨ordered_insertPending x ordered, insertPending_eq_append x ordered⟩,
    fun _ _ ordered inRange => ordered_tick ordered inRange⟩

/-! ## The dispatch (R24 to R43) -/

/-- Settles O37, by the two cases of a dispatch and by what `takenBy` takes. -/
theorem dispatchOutcomes : Obligations.DispatchOutcomes := by
  refine ⟨fun s released => ⟨?_, fun idle => ?_⟩, fun T agenda => ?_⟩
  · rintro T d waiting rfl
    refine (unlessInReset_released dispatch released).trans ?_
    rw [dispatch_waiting waiting, deliveryOf_eq]
    rfl
  · refine (unlessInReset_released dispatch released).trans ?_
    rw [dispatch_idle idle]
  · exact ⟨takenBy_eq_take T agenda, fun _ => takenBy_due, takenBy_length_le T agenda,
      fun room _ => takenBy_stops room⟩

/-- Settles O38: what a firing sends by the kind of the entry, its place by whether it finishes, its records by its
report. -/
theorem dispatchServesOneEntry : Obligations.DispatchServesOneEntry := by
  rintro T lines d _ p _ _ _ l masked reheld done rfl rfl rfl rfl hl hmasked hreheld hdone
  obtain rfl : l = p.live.accounted (accountFor T p) := hl.trans (Live.accounted_eq _ _).symm
  obtain rfl : masked = maskedFlag lines p.live.entry.action :=
    Bool.eq_iff_iff.mpr (hmasked.trans (maskedFlag_iff _ _).symm)
  obtain rfl : reheld = p.live.entry.rehold?.isSome :=
    Bool.eq_iff_iff.mpr (hreheld.trans (Entry.rehold?_isSome_iff _).symm)
  obtain rfl : done = finishRecords d.store p.live (accountFor T p) := hdone.trans (finishRecords_eq _).symm
  refine ⟨fun silent => ?_, fun fired => ?_, fun periodic spare => ?_, fun finished => ⟨?_, fun gone => ?_⟩,
    fun quiet => ?_, fun each => ?_⟩
  · exact serveEntry_silent lines d silent
  · have sent := serveEntry_fired lines d fired
    refine ⟨fun k kind => ?_, fun k kind => ?_, fun k kind => ?_, fun k v w kind => ?_, fun m v kind => ?_,
      fun c kind => ?_, fun kind => ?_⟩ <;> simpa [kind, Action.effect?, Action.cue?] using sent
  · have goesOn : finishes p.live (accountFor T p) = false := by
      refine Bool.eq_false_iff.mpr (mt (finishes_iff _ _).mp ?_)
      rintro (oneShot | ⟨limited, exhausted⟩)
      · exact periodic oneShot
      · exact exhausted.not_gt (spare.resolve_left limited)
    exact d.store.settleEntry_placed T goesOn
  · intro source count offset timing
    have reheld : p.live.entry.rehold? = some (source, count.toNat) := by simp [Entry.rehold?, timing]
    refine (d.store.settleEntry_reheld T ((finishes_iff _ _).mpr finished) reheld).trans ?_
    rw [Entry.fullRuns_eq]
    rfl
  · have notReheld : p.live.entry.rehold? = none := Option.not_isSome_iff_eq_none.mp (by simp [gone])
    exact d.store.settleEntry_freed T ((finishes_iff _ _).mpr finished) notReheld
  · rw [serveEntry_records, occurrenceRecords_of_not_each T _ _ _ quiet, List.append_nil]
  · rw [serveEntry_records, occurrenceRecords_of_each T _ _ _ each]
    refine ⟨fun due fired onTime noSkip => ?_, fun due first n fired onTime skipped => ?_,
      fun due fired late noSkip => ?_, fun due first n fired late skipped => ?_, fun first n silent skipped => ?_⟩
    · rw [onTime, firingRecords_onTime fired onTime, skipRecords_none noSkip]
      rfl
    · rw [onTime, firingRecords_onTime fired onTime, skipRecords_some skipped]
      rfl
    · rw [late, firingRecords_late fired late, skipRecords_none noSkip]
      rfl
    · rw [late, firingRecords_late fired late, skipRecords_some skipped]
      rfl
    · rw [firingRecords_none silent, skipRecords_some skipped, List.append_nil, List.nil_append, ite_self]
      rfl

/-- Settles O39: on time, late under FIRE and late under SKIP, with the counts of occurrences that the divisions
give. -/
theorem lateOccurrenceAccounting : Obligations.LateOccurrenceAccounting := by
  refine ⟨?_, fun T x _ policy _ late goesOn => lateFire_next policy late goesOn⟩
  rintro T x _ L _ _ _ limited _ rfl hL rfl rfl rfl hlimited rfl
  obtain rfl : L = latenessAt T x.due := hL
  obtain rfl := propext (hlimited.trans x.live.entry.limited_iff.symm)
  refine ⟨fun onTime => ?_, fun late fire => ?_, fun late skip => ?_⟩
  · rw [accountFor_onTime onTime, occurrence, Nat.one_mul, later]
  · rw [accountFor_lateFire late fire]
    refine ⟨rfl, rfl, fun oneShot => ?_, fun periodic => ?_⟩
    · rw [oneShot, accountLateFire_oneShot]
      exact ⟨rfl, rfl⟩
    · rw [accountLateFire_periodic _ _ _ _ periodic rfl]
      exact ⟨_, fun k later => le_passedOver_iff _ periodic later, fun noPass => if_pos noPass,
        fun passes => (if_neg passes.ne').trans (by rw [occurrence, Nat.one_mul, later]), rfl, rfl⟩
  · rw [accountFor_lateSkip late skip]
    refine ⟨accountLateSkip_late _ _ _ _ _ _, fun oneShot => ?_, fun periodic => ?_⟩
    · rw [oneShot, accountLateSkip_oneShot]
      exact ⟨rfl, rfl, rfl⟩
    · rw [accountLateSkip_periodic _ _ _ _ _ periodic rfl]
      refine ⟨_, fun k => lt_skipped_iff _ periodic late, ?_, fun due spare => ?_, fun ahead spare => ?_,
        fun limited used => ?_⟩
      · split_ifs <;> rfl
      · rw [if_neg fun ⟨limited, used⟩ => (spare limited).not_ge used, if_pos due]
        exact ⟨rfl, rfl, rfl⟩
      · rw [if_neg fun ⟨limited, used⟩ => (spare limited).not_ge used, if_neg (Nat.not_le.mpr ahead)]
        exact ⟨rfl, rfl, rfl⟩
      · rw [if_pos ⟨limited, used⟩]
        exact ⟨rfl, rfl⟩

end Sys2Proof.Proofs

/-!
The timebase's own operations (chapter 3): the two notices to the Input Unit and a host command that waits.
-/

namespace Sys2Proof.Machine

open Sys2Proof.Stated

/-! ## The notices to the Input Unit (R142) -/

/-- A running-begins notice drops what a running-ends notice before it would have dropped. -/
theorem InputUnit.begun_ended (u : InputUnit) (pins : Pins) : u.ended.begun pins = u.begun pins := by
  refine congrArg InputUnit.mk (bank_ext fun k => ?_)
  simp [InputUnit.ended, InputRecord.dropped]

/-- Running begins with no tick work owed: a boundary, and levels taken from the pins (R53, R54). -/
theorem beginRunning_idle {s : State} (pins : Pins) (idle : s.mail.inputTick = none) :
    beginRunning pins s = { s with tb := s.tb.boundary, iu := begun s.iu pins } := by
  simp only [beginRunning, inputsBegin, sample, State.withTb_mail, idle]
  rfl

/-- Running begins with tick work owed: that work is taken first, and the notice leaves nothing of its samples. -/
theorem beginRunning_waiting {s : State} {T : Time} (pins : Pins) (waiting : s.mail.inputTick = some T) :
    beginRunning pins s =
      { s with
        tb := s.tb.boundary
        iu := begun s.iu pins
        mail :=
          { s.mail with
            inputTick := none
            inputTriggers := s.mail.inputTriggers ++ s.iu.triggers T pins
            inputOffers := s.mail.inputOffers ++ s.iu.captures T pins
            endsNotice := false } } := by
  have levels : (if s.mail.endsNotice then (s.iu.sampled T pins).ended else s.iu.sampled T pins).begun pins =
      begun s.iu pins := by
    split
    · rw [InputUnit.begun_ended, InputUnit.begun_sampled]
      rfl
    · rw [InputUnit.begun_sampled]
      rfl
  simp only [beginRunning, inputsBegin, sample, State.withTb_mail, waiting]
  exact congrArg (State.withIu _) levels

/-- The end of running with no tick work owed (R56). -/
theorem endRunning_idle {s : State} (idle : s.mail.inputTick = none) :
    endRunning s = { s with iu := ended s.iu } := by
  simp only [endRunning, idle]
  rfl

/-- The end of running with tick work owed: the notice waits behind it (R142). -/
theorem endRunning_waiting {s : State} (waiting : s.mail.inputTick ≠ none) :
    endRunning s = { s with mail := { s.mail with endsNotice := true } } := by
  obtain ⟨idle, -⟩ | ⟨-, e⟩ := endRunning_cases s
  · exact absurd idle waiting
  · exact e

/-! ## The handlers, case by case -/

section Handlers

variable {s : State} (a : Args)

theorem startTake_stopped (pins : Pins) (stopped : s.tb.clock = .stopped) :
    startTake pins a s = answer { code := .ok } (beginRunning pins s) := by
  simp only [startTake, stopped]

theorem startTake_not_stopped (pins : Pins) (going : s.tb.clock ≠ .stopped) :
    startTake pins a s = answer { code := .wrongState } s := by
  unfold startTake
  split
  · contradiction
  · rfl

theorem stopTake_stopped (stopped : s.tb.clock = .stopped) : stopTake a s = answer { code := .ok } s := by
  simp only [stopTake, stopped]

theorem stopTake_not_stopped (going : s.tb.clock ≠ .stopped) :
    stopTake a s = answer { code := .ok } (endRunning (s.withTb s.tb.stop)) := by
  unfold stopTake
  split
  · contradiction
  · rfl

theorem armSyncTake_stopped (sync : Bool) (stopped : s.tb.clock = .stopped) :
    armSyncTake sync a s = answer { code := .ok } (s.withTb { s.tb with clock := .armed sync }) := by
  simp only [armSyncTake, stopped]

theorem armSyncTake_armed (sync : Bool) {b : Bool} (armed : s.tb.clock = .armed b) :
    armSyncTake sync a s = answer { code := .ok } s := by
  simp only [armSyncTake, armed]

theorem armSyncTake_running (sync : Bool) {n : Nat} (running : s.tb.clock = .running n) :
    armSyncTake sync a s = answer { code := .wrongState } s := by
  simp only [armSyncTake, running]

theorem setTimeTake_not_stopped (going : s.tb.clock ≠ .stopped) :
    setTimeTake a s = answer { code := .notStopped } s := by
  unfold setTimeTake
  split
  · contradiction
  · rfl

theorem setTimeTake_waits (stopped : s.tb.clock = .stopped) (owed : s.tickWorkTaken = false) :
    setTimeTake a s = none := by
  simp [setTimeTake, stopped, owed]

/-- A SET-TIME that need not wait is refused while an entry waits on a due time or carries a remaining time (R58). -/
theorem setTimeTake_taken (stopped : s.tb.clock = .stopped) (taken : s.tickWorkTaken = true) :
    setTimeTake a s =
      if s.store.agenda = [] ∧ s.store.parkedEntries = [] then
        answer { code := .ok }
          ((s.withTb { s.tb with time := a.a2 ++ a.a1 ++ a.a0 }).withOu { s.ou with lastTick := none })
      else answer { code := .wrongState } s := by
  simp [setTimeTake, stopped, taken, Store.timeless]

theorem setTrimTake_badArg (h : a.a0.toNat < 16 ∨ 4095 < a.a0.toNat) :
    setTrimTake a s = answer { code := .badArg } s := by
  simp only [setTrimTake, h, if_true]

variable {a} (low : 16 ≤ a.a0.toNat) (high : a.a0.toNat ≤ 4095)
include low high

theorem setTrimTake_stopped (stopped : s.tb.clock = .stopped) :
    setTrimTake a s = answer { code := .ok } (s.withTb { s.tb with trim := ⟨a.a0, a.a1⟩ }) := by
  unfold setTrimTake
  rw [if_neg (by omega)]
  simp only [stopped]

theorem setTrimTake_not_stopped (going : s.tb.clock ≠ .stopped) :
    setTrimTake a s = answer { code := .ok } (s.withTb { s.tb with pendingTrim := some ⟨a.a0, a.a1⟩ }) := by
  unfold setTrimTake
  rw [if_neg (by omega)]
  split
  · contradiction
  · rfl

end Handlers

/-! ## The tick (R47, R49, R51) -/

/-- At the end of a tick in RUNNING, with the work of the last tick event taken, the time advances by one and the
tick event is handed to its three receivers (R47, R51). -/
theorem tickEvent_running {s : State} {n : Nat} (running : s.tb.clock = .running n) (taken : s.tickWorkTaken = true) :
    tickEvent s =
      { s with
        tb := Timebase.boundary { s.tb with time := s.tb.time + 1 }
        mail :=
          { s.mail with
            storeTick := some (s.tb.time + 1)
            outputTick := some (s.tb.time + 1)
            inputTick := some (s.tb.time + 1) } } := by
  simp only [tickEvent, running, taken, if_true]
  rfl

/-- The end of a tick waits while work of the last tick event is still to be taken (R49). -/
theorem tickEvent_owed {s : State} (owed : s.tickWorkTaken = false) : tickEvent s = s := by
  unfold tickEvent
  split
  · simp [owed]
  · rfl

theorem tickEvent_not_running {s : State} (still : ∀ n, s.tb.clock ≠ .running n) : tickEvent s = s := by
  unfold tickEvent
  split
  · rename_i n running
    exact absurd running (still n)
  · rfl

/-! ## The edges of SYNC (R54) -/

theorem syncEdge_armedLow {s : State} (pins : Pins) (low : s.tb.clock = .armed false) :
    syncEdge pins s = beginRunning pins s := by
  simp only [syncEdge, low]

theorem syncEdge_other {s : State} (pins : Pins) (other : s.tb.clock ≠ .armed false) : syncEdge pins s = s := by
  unfold syncEdge
  split
  · contradiction
  · rfl

theorem syncFall_armed {s : State} {b : Bool} (armed : s.tb.clock = .armed b) :
    syncFall s = { s with tb := { s.tb with clock := .armed false } } := by
  simp only [syncFall, armed]
  rfl

theorem syncFall_other {s : State} (other : ∀ b, s.tb.clock ≠ .armed b) : syncFall s = s := by
  unfold syncFall
  split
  · rename_i b armed
    exact absurd armed (other b)
  · rfl

end Sys2Proof.Machine

/-!
The time and its snapshot (R48, R63): which events leave them, what a host command makes of them, and what one command
can do to them.
-/

namespace Sys2Proof.Machine

/-! ## Events that leave the timebase as it is -/

section Beside

variable (s : State)

@[simp] theorem inputWork_tb (T : Time) (pins : Pins) : (inputWork T pins s).tb = s.tb := by
  simp [inputWork]

@[simp] theorem sample_tb (pins : Pins) : (sample pins s).tb = s.tb := by
  obtain ⟨-, e⟩ | ⟨T, -, e⟩ := sample_cases pins s <;> simp [e]

@[simp] theorem confirmation_tb (pins : Pins) : (confirmation pins s).tb = s.tb := by
  unfold confirmation
  split
  · split <;> simp
  · rfl

@[simp] theorem endRunning_tb : (endRunning s).tb = s.tb := by
  obtain ⟨-, e⟩ | ⟨-, e⟩ := endRunning_cases s <;> simp [e]

@[simp] theorem delivery_tb : (delivery s).tb = s.tb := by
  unfold delivery
  split <;> simp

@[simp] theorem runDown_tb : (runDown s).tb = s.tb := by
  obtain ⟨-, e⟩ | ⟨T, -, e⟩ := runDown_cases s <;> simp [e, runDownWork]

@[simp] theorem pulseEnd_tb : (pulseEnd s).tb = s.tb := by
  obtain ⟨r, rfl | rfl, e⟩ := pulseEnd_cases s <;> simp [e]

@[simp] theorem dispatch_tb : (dispatch s).tb = s.tb := by
  unfold dispatch
  split <;> simp

@[simp] theorem triggerEvent_tb (pick : TriggerPick) : (triggerEvent pick s).tb = s.tb := by
  unfold triggerEvent
  cases pick <;> dsimp only <;> split <;> simp

@[simp] theorem recordOffer_tb (b : Offerer) : (recordOffer b s).tb = s.tb := by
  unfold recordOffer
  cases b <;> dsimp only <;> split <;> simp

@[simp] theorem latchHalt_tb (cause : HaltCause) : (latchHalt cause s).tb = s.tb := by
  simp [latchHalt]

@[simp] theorem haltEventTaken_tb (cause : HaltCause) : (haltEventTaken cause s).tb = s.tb := by
  unfold haltEventTaken
  split <;> simp

@[simp] theorem takeFall_tb : (takeFall s).tb = s.tb := by
  unfold takeFall
  split <;> simp

@[simp] theorem recogniseFall_tb : (recogniseFall s).tb = s.tb := by
  unfold recogniseFall
  split <;> simp

@[simp] theorem haltEvent_tb (p : FallStep) : (haltEvent p s).tb = s.tb := by
  cases p with
  | whole =>
    simp only [haltEvent]
    split <;> simp
  | recognise => exact recogniseFall_tb s
  | take => exact takeFall_tb s

@[simp] theorem headerByte_tb (b : Byte) : (headerByte b s).tb = s.tb := by
  unfold headerByte
  split <;> simp

@[simp] theorem commitStart_tb : (commitStart s).tb = s.tb := by
  unfold commitStart
  split
  · split
    · unfold commitStartTaken
      split
      · simp
      · split <;> simp
    · rfl
  · rfl

@[simp] theorem mergeCompletion_tb : (mergeCompletion s).tb = s.tb := by
  unfold mergeCompletion
  split <;> simp

@[simp] theorem abandon_tb (code : ResultCode) : (abandon code s).tb = s.tb := by
  unfold abandon
  split <;> simp

@[simp] theorem applyHaltActions_tb : (applyHaltActions s).tb = s.tb := by
  simp [applyHaltActions]

@[simp] theorem haltGroupRequest_tb : (haltGroupRequest s).tb = s.tb := by
  unfold haltGroupRequest
  split <;> simp

@[simp] theorem relatch_tb : (relatch s).tb = s.tb := by
  cases h : s.hc.haltnHigh with
  | true => rw [relatch_high h]
  | false => simp [relatch_low h]

variable {s}

/-- A served write leaves the timebase as its effect does. -/
theorem serveWrite_tb (a : Addr) {f : State → State} (hf : ∀ s, (f s).tb = s.tb) (s : State) :
    (serveWrite a f s).tb = s.tb := by
  obtain e | ⟨p, -, e⟩ := serveWrite_cases a f s <;> rw [e]
  exact hf _

variable (s)

@[simp] theorem abortWrite_tb (w : Word) : (abortWrite w s).tb = s.tb := by
  unfold abortWrite
  split
  · exact serveWrite_tb _ (abandon_tb · .aborted) s
  · rfl

@[simp] theorem badCommand_tb (w : Word) : (badCommand w s).tb = s.tb := by
  unfold badCommand
  split
  · rfl
  · refine serveWrite_tb _ (fun s => ?_) s
    split <;> simp

@[simp] theorem softResetValues_tb (pins : Pins) : (softResetValues pins s).tb = s.tb := by
  simp [softResetValues]

/-- A soft reset keeps the timebase (R64). -/
@[simp] theorem softReset_tb (w : Word) (pins : Pins) : (softReset w pins s).tb = s.tb := by
  unfold softReset
  split
  · exact serveWrite_tb _ (fun s => by simp) s
  · rfl

/-- A power-on reset gives the timebase its power-on value (R65). -/
@[simp] theorem powerOnReset_tb (haltn csn : Bool) (pins : Pins) :
    (powerOnReset haltn csn pins s).tb = Timebase.reset :=
  relatch_tb _

end Beside

/-! ## The time and its snapshot are kept -/

/-- The time and the snapshot are as before, whatever becomes of the clock and its trim. -/
def KeepsTime (s t : State) : Prop := t.tb.time = s.tb.time ∧ t.tb.snapshot = s.tb.snapshot

theorem KeepsTime.of_tb {s t : State} (h : t.tb = s.tb) : KeepsTime s t := by
  rw [KeepsTime, h]
  exact ⟨rfl, rfl⟩

theorem KeepsTime.refl (s : State) : KeepsTime s s := .of_tb rfl

theorem beginRunning_keepsTime (pins : Pins) (s : State) : KeepsTime s (beginRunning pins s) := by
  simp [KeepsTime, beginRunning, inputsBegin]

theorem syncEdge_keepsTime (pins : Pins) (s : State) : KeepsTime s (syncEdge pins s) := by
  unfold syncEdge
  split
  · exact beginRunning_keepsTime pins s
  · exact .refl s

theorem syncFall_keepsTime (s : State) : KeepsTime s (syncFall s) := by
  unfold syncFall
  split
  · exact ⟨rfl, rfl⟩
  · exact .refl s

/-! ## The handlers of the host commands -/

/-- A handler's answer, if it gives one, keeps the time and the snapshot. -/
def AnswersInTime (s : State) (o : Option (State × Stage)) : Prop :=
  ∀ s' stage, o = some (s', stage) → KeepsTime s s'

section Answers

variable {s : State}

theorem AnswersInTime.waits : AnswersInTime s none := by
  intro s' stage h
  cases h

theorem AnswersInTime.of_keepsTime {s' : State} {stage : Stage} (h : KeepsTime s s') :
    AnswersInTime s (some (s', stage)) := by
  rintro _ _ ⟨⟩
  exact h

/-- An answer beside the timebase. -/
theorem AnswersInTime.beside {s' : State} {stage : Stage} (h : s'.tb = s.tb) :
    AnswersInTime s (some (s', stage)) :=
  .of_keepsTime (.of_tb h)

variable (a : Args) (s)

theorem appendTake_inTime : AnswersInTime s (appendTake a s) := by
  unfold appendTake
  split
  · exact .beside rfl
  · split <;> exact .beside rfl

theorem discardTake_inTime : AnswersInTime s (discardTake a s) := .beside rfl

theorem commitTake_inTime : AnswersInTime s (commitTake a s) := by
  unfold commitTake
  split <;> exact .beside rfl

theorem cancelTake_inTime : AnswersInTime s (cancelTake a s) := by
  unfold cancelTake
  split
  · exact .beside rfl
  · split
    · exact .beside rfl
    · exact .beside (offerStore_tb _ _)

theorem queryTake_inTime : AnswersInTime s (queryTake a s) := by
  unfold queryTake
  split
  · exact .beside rfl
  · split <;> exact .beside rfl

theorem suspendTake_inTime : AnswersInTime s (suspendTake a s) := by
  unfold suspendTake
  split
  · exact .beside rfl
  · split <;> exact .beside rfl

theorem resumeTake_inTime : AnswersInTime s (resumeTake a s) := by
  unfold resumeTake
  split
  · exact .beside rfl
  · split <;> exact .beside rfl

theorem cancelGroupTake_inTime : AnswersInTime s (cancelGroupTake a s) := by
  unfold cancelGroupTake
  split
  · exact .beside rfl
  · exact .beside (offerStore_tb _ _)

theorem setGroupTake_inTime : AnswersInTime s (setGroupTake a s) := by
  unfold setGroupTake
  split
  · split
    · exact .beside rfl
    · exact .waits
  · exact .beside rfl

theorem startTake_inTime (pins : Pins) : AnswersInTime s (startTake pins a s) := by
  unfold startTake
  split
  · exact .of_keepsTime (beginRunning_keepsTime pins s)
  · exact .beside rfl

theorem stopTake_inTime : AnswersInTime s (stopTake a s) := by
  unfold stopTake
  split
  · exact .beside rfl
  · exact .of_keepsTime (by simp [KeepsTime])

theorem armSyncTake_inTime (sync : Bool) : AnswersInTime s (armSyncTake sync a s) := by
  unfold armSyncTake
  split <;> exact .of_keepsTime ⟨rfl, rfl⟩

theorem setTrimTake_inTime : AnswersInTime s (setTrimTake a s) := by
  unfold setTrimTake
  split
  · exact .beside rfl
  · split <;> exact .of_keepsTime ⟨rfl, rfl⟩

theorem fireCueTake_inTime : AnswersInTime s (fireCueTake a s) := by
  unfold fireCueTake
  split <;> exact .beside rfl

theorem configOutTake_inTime : AnswersInTime s (configOutTake a s) := by
  unfold configOutTake
  split
  · split <;> exact .beside rfl
  · exact .beside rfl

theorem configInTake_inTime : AnswersInTime s (configInTake a s) := by
  unfold configInTake
  split <;> exact .beside rfl

theorem haltTake_inTime : AnswersInTime s (haltTake a s) := .beside (haltEventTaken_tb s .command)

theorem releaseTake_inTime : AnswersInTime s (releaseTake a s) := by
  unfold releaseTake
  split
  · exact .beside rfl
  · split
    · exact .beside rfl
    · exact .beside (by simp)

variable {a s}

/-- SET-TIME keeps the time and the snapshot, or sets the time to its argument words in STOPPED and keeps the
snapshot (R58). -/
theorem setTimeTake_tb {s' : State} {stage : Stage} (answered : setTimeTake a s = some (s', stage)) :
    KeepsTime s s' ∨
      s.tb.clock = .stopped ∧ s'.tb.time = a.a2 ++ a.a1 ++ a.a0 ∧ s'.tb.snapshot = s.tb.snapshot := by
  unfold setTimeTake at answered
  split at answered
  · rename_i stopped
    split at answered
    · split at answered
      · cases answered
        exact .inr ⟨stopped, rfl, rfl⟩
      · cases answered
        exact .inl (.refl s)
    · cases answered
  · cases answered
    exact .inl (.refl s)

end Answers

/-! ## The parts of a host command -/

@[simp] theorem commandWrite_tb (code : Byte) (s : State) : (commandWrite code s).tb = s.tb := by
  unfold commandWrite
  split <;> simp

@[simp] theorem commandComplete_tb (code : Byte) (s : State) : (commandComplete code s).tb = s.tb := by
  obtain e | ⟨a, r, -, e⟩ := commandComplete_cases code s <;> simp [e]

/-- The part `p` of the host command `code` has its request taken with the argument record `a` (R182): taken whole, the
record is that of the registers, and on its own it is that of the command in progress. -/
def TakenWith (code : Byte) (p : CmdStep) (s : State) (a : Args) : Prop :=
  (p = .whole ∧ a = s.ce.args) ∨ (p = .take ∧ ∃ n, s.ce.engine = .busy code a (.accepted n))

/-- A part of a host command changes the timebase only where its request is taken, and there as the handler does. -/
theorem runCommand_tb_cases (code : Byte) (h : Handler) (p : CmdStep) (s : State) :
    (runCommand code h p s).tb = s.tb ∨
      ∃ a x s' stage, TakenWith code p s a ∧ x.tb = s.tb ∧ h a x = some (s', stage) ∧
        (runCommand code h p s).tb = s'.tb := by
  cases p with
  | take =>
    obtain e | ⟨a, n, s', stage, busy, answered, e⟩ := commandTake_cases code h s
    · exact .inl (congrArg State.tb e)
    · exact .inr ⟨a, s, s', stage, .inr ⟨rfl, n, busy⟩, rfl, answered, by rw [runCommand, e, State.withCe_tb]⟩
  | complete => exact .inl (commandComplete_tb code s)
  | write => exact .inl (serveWrite_tb _ (commandWrite_tb code) s)
  | whole =>
    obtain e | ⟨port, -, e⟩ := serveWrite_cases 0x07 (commandWhole code h) s <;> rw [runCommand, e]
    · exact .inl rfl
    · by_cases idle : s.ce.engine = .idle
      · have whole : commandWhole code h (s.withHp { s.hp with port := port }) =
            commandComplete code (commandTake code h (s.accepted port code)) := by
          simp [commandWhole, commandWrite, idle, State.accepted]
        rw [whole, commandComplete_tb]
        obtain e | ⟨a, n, s', stage, busy, answered, e⟩ := commandTake_cases code h (s.accepted port code) <;> rw [e]
        · exact .inl rfl
        · obtain ⟨-, rfl, -⟩ := Engine.busy.inj busy
          exact .inr ⟨s.ce.args, s.accepted port code, s', stage, .inl ⟨rfl, rfl⟩, rfl, answered, rfl⟩
      · have refused : commandWhole code h (s.withHp { s.hp with port := port }) =
            commandWrite code (s.withHp { s.hp with port := port }) := by
          unfold commandWhole
          split
          · contradiction
          · rfl
        exact .inl (by rw [refused, commandWrite_tb]; rfl)

/-- Every part of a host command keeps the time and the snapshot when its handler does. -/
theorem runCommand_keepsTime {code : Byte} {h : Handler} (hh : ∀ s a, AnswersInTime s (h a s)) (p : CmdStep)
    (s : State) : KeepsTime s (runCommand code h p s) := by
  obtain e | ⟨a, x, s', stage, -, before, answered, after⟩ := runCommand_tb_cases code h p s
  · exact .of_tb e
  · rw [KeepsTime, after, ← before]
    exact hh x a s' stage answered

/-! ## Register writes -/

/-- Ahead of a register write at most an APPEND is taken (R67). -/
theorem beforeWrite_keepsTime (a : Addr) (s : State) : KeepsTime s (beforeWrite a s) := by
  unfold beforeWrite
  split
  · exact runCommand_keepsTime (code := 0x01) appendTake_inTime .take s
  · exact .refl s

/-- A register write that has no row of its own reaches no register of the timebase (R63, R176). -/
theorem registerWrite_keepsTime (a : Addr) (w : Word) (s : State) : KeepsTime s (registerWrite a w s) := by
  unfold registerWrite
  split
  · exact .refl s
  · obtain e | ⟨p, -, e⟩ := serveWrite_cases a _ s <;> rw [e]
    · exact .refl s
    · exact beforeWrite_keepsTime a (s.withHp { s.hp with port := p })

/-! ## Every command -/

/-- Everything that one command can do to the time and its snapshot. -/
inductive TimeStep (s t : State) : Instr → Prop
  /-- Both are kept. -/
  | keeps {c : Instr} (kept : KeepsTime s t) : TimeStep s t c
  /-- At a tick event in RUNNING the time advances by one (R47, R51). -/
  | ticks {n : Nat} (running : s.tb.clock = .running n) (time : t.tb.time = s.tb.time + 1)
      (snapshot : t.tb.snapshot = s.tb.snapshot) : TimeStep s t .tickEvent
  /-- SET-TIME sets the time to its argument words in STOPPED (R58). -/
  | sets {p : CmdStep} {a : Args} (stopped : s.tb.clock = .stopped) (args : TakenWith 0x33 p s a)
      (time : t.tb.time = a.a2 ++ a.a1 ++ a.a0) (snapshot : t.tb.snapshot = s.tb.snapshot) :
      TimeStep s t (.setTime p)
  /-- A read of TIME0 takes the snapshot (R63). -/
  | reads (time : t.tb.time = s.tb.time) : TimeStep s t .time0
  /-- A power-on reset gives the timebase its power-on value (R65). -/
  | powersOn {haltn csn : Bool} {pins : Pins} (tb : t.tb = Timebase.reset) : TimeStep s t (.powerOnReset haltn csn pins)

theorem tickEvent_timeStep (s : State) : TimeStep s (tickEvent s) .tickEvent := by
  by_cases ticks : (∃ n, s.tb.clock = .running n) ∧ s.tickWorkTaken = true
  · obtain ⟨⟨n, running⟩, taken⟩ := ticks
    rw [tickEvent_running running taken]
    exact .ticks running rfl rfl
  · obtain still | owed := not_and_or.mp ticks
    · rw [tickEvent_not_running (not_exists.mp still)]
      exact .keeps (.refl s)
    · rw [tickEvent_owed (Bool.eq_false_iff.mpr owed)]
      exact .keeps (.refl s)

theorem setTime_timeStep (p : CmdStep) (s : State) :
    TimeStep s (runCommand 0x33 setTimeTake p s) (.setTime p) := by
  obtain e | ⟨a, x, s', stage, args, before, answered, after⟩ := runCommand_tb_cases 0x33 setTimeTake p s
  · exact .keeps (.of_tb e)
  · have effect := setTimeTake_tb answered
    rw [KeepsTime, before, ← after] at effect
    obtain kept | ⟨stopped, time, snapshot⟩ := effect
    · exact .keeps kept
    · exact .sets stopped args time snapshot

theorem time0Read_timeStep (s : State) : TimeStep s (time0Read s) .time0 := by
  rw [time0Read_eq]
  split
  · exact .reads rfl
  · exact .keeps (.refl s)

theorem exec_powerOnReset_tb {haltn csn : Bool} {pins : Pins} {s t : State}
    (h : exec (.powerOnReset haltn csn pins) s = .next t) : t.tb = Timebase.reset := by
  cases h
  exact powerOnReset_tb s haltn csn pins

/-- What every command does to the time and its snapshot (R48, R63). -/
theorem exec_timeStep {c : Instr} {s t : State} (h : exec c s = .next t) : TimeStep s t c := by
  have event : ∀ {f : State → State}, unlessInReset s f = .next t → TimeStep s (f s) c → TimeStep s t c := by
    intro f h step
    obtain rfl | ⟨-, rfl⟩ := unlessInReset_eq h
    · exact .keeps (.refl _)
    · exact step
  have beside : ∀ {f : State → State}, unlessInReset s f = .next t → (∀ s, (f s).tb = s.tb) → TimeStep s t c :=
    fun h hf => event h (.keeps (.of_tb (hf s)))
  have write : ∀ {a : Addr} {f : State → State}, unlessInReset s (serveWrite a f) = .next t →
      (∀ s, (f s).tb = s.tb) → TimeStep s t c :=
    fun h hf => beside h (serveWrite_tb _ hf)
  have host : ∀ {code : Byte} {handler : Handler} {p : CmdStep},
      unlessInReset s (runCommand code handler p) = .next t → (∀ s a, AnswersInTime s (handler a s)) →
      TimeStep s t c :=
    fun h hh => event h (.keeps (runCommand_keepsTime hh _ s))
  cases c with
  | append p => exact host h appendTake_inTime
  | discard p => exact host h discardTake_inTime
  | commit p => exact host h commitTake_inTime
  | commitStart => exact beside h commitStart_tb
  | mergeCompletion => exact beside h mergeCompletion_tb
  | abort w => exact beside h (abortWrite_tb · w)
  | cancel p => exact host h cancelTake_inTime
  | query p => exact host h queryTake_inTime
  | suspend p => exact host h suspendTake_inTime
  | resume p => exact host h resumeTake_inTime
  | cancelGroup p => exact host h cancelGroupTake_inTime
  | setGroup p => exact host h setGroupTake_inTime
  | start p pins => exact host h fun s a => startTake_inTime s a pins
  | stop p => exact host h stopTake_inTime
  | armSync p sync => exact host h fun s a => armSyncTake_inTime s a sync
  | setTime p => exact event h (setTime_timeStep p s)
  | setTrim p => exact host h setTrimTake_inTime
  | fireCue p => exact host h fireCueTake_inTime
  | configOut p => exact host h configOutTake_inTime
  | configIn p => exact host h configInTake_inTime
  | halt p => exact host h haltTake_inTime
  | release p => exact host h releaseTake_inTime
  | badcmd w => exact beside h (badCommand_tb · w)
  | softReset w pins => exact beside h (softReset_tb · w pins)
  | powerOnReset haltn csn pins =>
    exact .powersOn (exec_powerOnReset_tb h)
  | haltEvent p => exact beside h (haltEvent_tb · p)
  | haltnRise => exact beside h fun s => s.withHc_tb _
  | haltGroupRequest => exact beside h haltGroupRequest_tb
  | syncEdge pins => exact event h (.keeps (syncEdge_keepsTime pins s))
  | tickEvent => exact event h (tickEvent_timeStep s)
  | dispatch => exact beside h dispatch_tb
  | triggerEvent pick => exact beside h (triggerEvent_tb · pick)
  | delivery => exact beside h delivery_tb
  | runDown => exact beside h runDown_tb
  | pulseEnd => exact beside h pulseEnd_tb
  | sample pins => exact beside h (sample_tb · pins)
  | confirmation pins => exact beside h (confirmation_tb · pins)
  | recordOffer b => exact beside h (recordOffer_tb · b)
  | pop w => exact write h fun s => s.withEq_tb _
  | outDirect w => exact write h fun s => s.withOu_tb _
  | irqFlags w => exact write h fun s => s.withEq_tb _
  | irqEnable w => exact write h fun s => s.withEq_tb _
  | thresh w => exact write h fun s => s.withEq_tb _
  | time0 => exact event h (time0Read_timeStep s)
  | registerWrite a w => exact event h (.keeps (registerWrite_keepsTime a w s))
  | headerByte b => exact beside h (headerByte_tb · b)
  | syncFall => exact event h (.keeps (syncFall_keepsTime s))
  | resetnAsserted =>
    cases h
    exact .keeps (.refl s)
  | frameEnd =>
    cases h
    exact .keeps (.refl s)

/-! ## What a read of the time returns (R63, R177) -/

/-- A write of TIME0, TIME1 or TIME2 that the port carries moves the port alone (R63). -/
theorem registerWrite_ignored {s : State} {a : Addr} {p : Port} (w : Word) (h : a = 0x17 ∨ a = 0x18 ∨ a = 0x19)
    (carried : s.hp.port.admitWrite a = some p) :
    registerWrite a w s = s.withHp { s.hp with port := p } := by
  have noRow : hasOwnRow a w = false := by
    obtain rfl | rfl | rfl := h <;> simp [hasOwnRow]
  have ignored : ∀ s, (beforeWrite a s).withCe ((beforeWrite a s).ce.writeReg a w) = s := by
    intro s
    obtain rfl | rfl | rfl := h <;> simp [beforeWrite, CommandEngine.writeReg]
  rw [registerWrite, noRow, if_neg Bool.false_ne_true, serveWrite_carried _ carried, ignored]

end Sys2Proof.Machine

/-!
The work of one tick at the Output Unit (R131, R132): one line under the run-down, the effects of the delivery and the
end of a pulse, in either order, and then the unit and the whole machine.
-/

namespace Sys2Proof.Machine

open Sys2Proof.Stated

/-! ## One line under a run-down -/

@[simp] theorem Pulse.counted_returnLevel (p : Pulse) : p.counted.returnLevel = p.returnLevel := by
  unfold Pulse.counted
  split <;> rfl

section Line

variable {l : LineRecord}

/-- On a closed line a run-down does not ask whether an effect may come (R131). -/
theorem LineRecord.runDown_of_closed (b : Bool) (closed : l.closed = true) : l.runDown b = l.runDown false := by
  simp [LineRecord.runDown, closed]

/-- On an open line for which an effect may come a run-down counts the pulse and leaves its end (R131, R132). -/
theorem LineRecord.runDown_awaited (isOpen : l.closed = false) :
    l.runDown true = { l with pulse := l.pulse.map Pulse.counted, ending := l.aboutToEnd } := by
  simp [LineRecord.runDown, isOpen]

theorem LineRecord.runDown_of_goes_on (b : Bool) (goesOn : l.aboutToEnd = false) :
    l.runDown b = { l with pulse := l.pulse.map Pulse.counted, ending := false } := by
  simp [LineRecord.runDown, goesOn]

/-- With no effect to come a run-down ends the pulse itself (R131). -/
theorem LineRecord.runDown_of_ends (ends : l.aboutToEnd = true) : l.runDown false = l.returned := by
  simp [LineRecord.runDown, ends]

/-- Only a line with a pulse is about to end it. -/
theorem LineRecord.pulse_of_aboutToEnd (ends : l.aboutToEnd = true) : ∃ p, l.pulse = some p := by
  unfold LineRecord.aboutToEnd at ends
  split at ends
  · exact ⟨_, ‹_›⟩
  · cases ends

/-- A pulse that was counted and left to end returns as the pulse itself would have. -/
theorem LineRecord.returned_counted (b : Bool) (ends : l.aboutToEnd = true) :
    LineRecord.returned { l with pulse := l.pulse.map Pulse.counted, ending := b } = l.returned := by
  obtain ⟨p, hp⟩ := LineRecord.pulse_of_aboutToEnd ends
  simp [LineRecord.returned, hp]

/-- The run-down and the end of the pulse behind it, for a line that no effect addresses, are the whole run-down
(R131; assumption log 29). -/
theorem LineRecord.runDown_then_end (l : LineRecord) (b : Bool) :
    (if (l.runDown true).ending && !b then (l.runDown true).returned else l.runDown true) = l.runDown b := by
  cases closed : l.closed with
  | true =>
    have steady : (l.runDown true).ending = false := by
      rw [Bool.eq_false_iff]
      intro ending
      obtain ⟨-, isOpen, -, -⟩ := LineRecord.runDown_ending ending
      rw [closed] at isOpen
      cases isOpen
    rw [steady, LineRecord.runDown_of_closed true closed, LineRecord.runDown_of_closed b closed]
    rfl
  | false =>
    cases b with
    | true => simp
    | false =>
      cases ends : l.aboutToEnd with
      | true =>
        rw [LineRecord.runDown_awaited closed, LineRecord.returned_counted _ ends, LineRecord.runDown_of_ends ends,
          ends]
        rfl
      | false =>
        rw [LineRecord.runDown_of_goes_on _ ends, LineRecord.runDown_of_goes_on _ ends]
        rfl

/-- A run-down keeps the level of an open line for which an effect may come (R123). -/
theorem LineRecord.runDown_awaited_level (isOpen : l.closed = false) : (l.runDown true).level = l.level := by
  rw [LineRecord.runDown_awaited isOpen]

/-! ## One line under the effects of a delivery -/

theorem LineRecord.effect_closed (l : LineRecord) (last : Option Time) (T : Time) (k : Fin 16) (e : Effect) :
    (l.effect last T k e).closed = l.closed := by
  obtain ⟨mode, -, -, masked⟩ := l.effect_frame last T k e
  rw [LineRecord.closed, mode, masked, LineRecord.closed]

/-- What the effects of a delivery stamped `T` do to line `k` (R127). -/
def LineRecord.effects (l : LineRecord) (last : Option Time) (T : Time) (k : Fin 16) (es : List Effect) : LineRecord :=
  es.foldl (fun l e => l.effect last T k e) l

variable (last : Option Time) (T : Time) (k : Fin 16)

theorem LineRecord.effects_cons (e : Effect) (es : List Effect) :
    l.effects last T k (e :: es) = (l.effect last T k e).effects last T k es := rfl

/-- A line that is closed, or that no effect addresses, is as before (R127). -/
theorem LineRecord.effects_not_taken {es : List Effect}
    (h : l.closed = true ∨ es.any (·.addresses k) = false) : l.effects last T k es = l := by
  induction es with
  | nil => rfl
  | cons e es ih =>
    have here : l.effect last T k e = l := by
      refine LineRecord.effect_not_taken (h.symm.imp_left fun none => ?_)
      rw [List.any_cons, Bool.or_eq_false_iff] at none
      exact none.1
    rw [LineRecord.effects_cons, here]
    exact ih (h.imp_right fun none => (Bool.or_eq_false_iff.mp (List.any_cons ▸ none)).2)

/-- The line holds no pulse that the run-down of this tick would end: none, or one that the tick started (R129). -/
def LineRecord.Renewed (l : LineRecord) : Prop := l.ending = false ∧ ∀ p, l.pulse = some p → p.fresh = true

theorem LineRecord.Renewed.goes_on (h : l.Renewed) : l.aboutToEnd = false := by
  obtain ⟨notEnding, fresh⟩ := h
  unfold LineRecord.aboutToEnd
  split
  · rename_i p hp
    simp [notEnding, fresh p hp]
  · rfl

/-- The run-down of a renewed line clears the fresh mark and nothing else (R131). -/
theorem LineRecord.Renewed.runDown (h : l.Renewed) (b : Bool) :
    l.runDown b = { l with pulse := l.pulse.map fun p => { p with fresh := false }, ending := false } := by
  rw [LineRecord.runDown_of_goes_on b h.goes_on]
  cases hp : l.pulse with
  | none => rfl
  | some p => simp [Pulse.counted, h.2 p hp]

variable {last T}

/-- An effect of the tick that an open line takes renews it, while the run-down of the tick is still to come. -/
theorem LineRecord.effect_renewed {e : Effect} (early : last ≠ some T) (isOpen : l.closed = false)
    (addressed : e.addresses k = true) : (l.effect last T k e).Renewed := by
  simp only [LineRecord.effect, addressed, isOpen, Bool.not_false, Bool.and_self, if_true]
  cases e <;> simp [LineRecord.take, LineRecord.Renewed, early]

theorem LineRecord.effect_renewed_of_renewed (e : Effect) (early : last ≠ some T) (h : l.Renewed) :
    (l.effect last T k e).Renewed := by
  by_cases taken : l.closed = false ∧ e.addresses k = true
  · obtain ⟨isOpen, addressed⟩ := taken
    exact LineRecord.effect_renewed k early isOpen addressed
  · rw [LineRecord.effect_not_taken]
    · exact h
    · rw [not_and_or, Bool.not_eq_false, Bool.not_eq_true] at taken
      exact taken.symm

theorem LineRecord.effects_renewed_of_renewed (es : List Effect) (early : last ≠ some T) (h : l.Renewed) :
    (l.effects last T k es).Renewed := by
  induction es generalizing l with
  | nil => exact h
  | cons e es ih => exact ih (LineRecord.effect_renewed_of_renewed k e early h)

/-- A delivery with an effect for an open line renews it, while the run-down of the tick is still to come. -/
theorem LineRecord.effects_renewed {es : List Effect} (early : last ≠ some T) (isOpen : l.closed = false)
    (addressed : es.any (·.addresses k) = true) : (l.effects last T k es).Renewed := by
  induction es generalizing l with
  | nil => cases addressed
  | cons e es ih =>
    rw [LineRecord.effects_cons]
    cases here : e.addresses k with
    | true => exact LineRecord.effects_renewed_of_renewed k es early (LineRecord.effect_renewed k early isOpen here)
    | false =>
      rw [List.any_cons, here, Bool.false_or] at addressed
      exact ih ((LineRecord.effect_closed l last T k e).trans isOpen) addressed

/-- The record with its pulse counted and no end of it left behind: what a run-down of the tick makes of a settled
record. -/
def LineRecord.countedOn (l : LineRecord) : LineRecord :=
  { l with pulse := l.pulse.map Pulse.counted, ending := false }

/-- A line that settles behind the run-down of its tick is the line that settled before it, counted on (R132). -/
theorem LineRecord.settled_runDown (early : last ≠ some T) (isOpen : l.closed = false) :
    (l.runDown true).settled (some T) T = (l.settled last T).countedOn := by
  have counted : (l.runDown true).settled (some T) T = if l.aboutToEnd then l.returned else l.countedOn := by
    rw [LineRecord.runDown_awaited isOpen]
    cases ends : l.aboutToEnd with
    | true => simp [LineRecord.settled, LineRecord.endsAt, LineRecord.returned_counted _ ends]
    | false => simp [LineRecord.settled, LineRecord.endsAt, LineRecord.countedOn]
  have returned : l.returned.countedOn = l.returned := by
    cases l with | mk mode level pulse safeLevel haltMember masked ending => cases pulse <;> rfl
  have settled : l.settled last T = if l.ending || l.aboutToEnd then l.returned else l := by
    simp [LineRecord.settled, LineRecord.endsAt, early]
  rw [counted, settled]
  cases ends : l.aboutToEnd with
  | true => simp [returned]
  | false =>
    cases ending : l.ending with
    | false => simp
    | true =>
      have steady : l.pulse = none := by
        cases hp : l.pulse with
        | none => rfl
        | some p => simp [LineRecord.aboutToEnd, hp, ending] at ends
      simp [LineRecord.returned, LineRecord.countedOn, steady]

/-- What an effect makes of a record does not depend on whether its pulse was counted on, but for the fresh mark of a
pulse it starts, which the run-down behind it clears (R129, R131). -/
theorem LineRecord.take_countedOn (l : LineRecord) (e : Effect) (early : last ≠ some T) :
    l.countedOn.take (some T) T k e = (l.take last T k e).runDown false := by
  cases e with
  | pulse line level width =>
    have renewed : (l.take last T k (.pulse line level width)).Renewed := by
      simp [LineRecord.take, LineRecord.Renewed, early]
    rw [renewed.runDown]
    cases hp : l.pulse <;> simp [LineRecord.take, LineRecord.countedOn, hp]
  | _ =>
    symm
    exact LineRecord.runDown_steady false rfl

/-- On an open line an effect of the tick and the run-down of the tick come in either order (R132). -/
theorem LineRecord.effect_runDown {e : Effect} (early : last ≠ some T) (isOpen : l.closed = false)
    (addressed : e.addresses k = true) :
    (l.runDown true).effect (some T) T k e = (l.effect last T k e).runDown false := by
  have stillOpen : (l.runDown true).closed = false := (LineRecord.runDown_closed true l).trans isOpen
  simp only [LineRecord.effect, addressed, isOpen, stillOpen, Bool.not_false, Bool.and_self, if_true]
  rw [LineRecord.settled_runDown early isOpen, LineRecord.take_countedOn k _ e early]

/-- The effects of the tick and the run-down of the tick come in either order (R132). -/
theorem LineRecord.effects_runDown (l : LineRecord) (es : List Effect) (early : last ≠ some T) :
    (l.runDown (es.any (·.addresses k))).effects (some T) T k es = (l.effects last T k es).runDown false := by
  cases closed : l.closed with
  | true =>
    rw [LineRecord.effects_not_taken last T k (.inl closed), LineRecord.runDown_of_closed _ closed]
    exact LineRecord.effects_not_taken _ T k (.inl ((LineRecord.runDown_closed false l).trans closed))
  | false =>
    induction es generalizing l with
    | nil => rfl
    | cons e es ih =>
      have next := ih (l.effect last T k e) ((LineRecord.effect_closed l last T k e).trans closed)
      rw [LineRecord.effects_cons, LineRecord.effects_cons, ← next, List.any_cons]
      cases here : e.addresses k with
      | true =>
        have renewed := LineRecord.effect_renewed k early closed here
        rw [Bool.true_or, LineRecord.effect_runDown k early closed here, renewed.runDown, renewed.runDown]
      | false =>
        rw [Bool.false_or, LineRecord.effect_not_taken (.inl here), LineRecord.effect_not_taken (.inl here)]

end Line

/-! ## The unit -/

theorem OutputUnit.deliver_line (u : OutputUnit) (T : Time) (es : List Effect) (k : Fin 16) :
    (u.deliver T es).lines[k] = u.lines[k].effects u.lastTick T k es :=
  (OutputUnit.deliver_eq T es u).2.2.2 k

/-- Delivery and run-down of a tick leave the same lines in either order (R131, R132). -/
theorem OutputUnit.runDown_deliver {u : OutputUnit} {T : Time} (es : List Effect) (early : u.lastTick ≠ some T) :
    (u.deliver T es).runDown T (fun _ => false) = (u.runDown T fun k => es.any (·.addresses k)).deliver T es := by
  obtain ⟨-, direct, forced, -⟩ := OutputUnit.deliver_eq T es u
  obtain ⟨last', direct', forced', -⟩ := OutputUnit.deliver_eq T es (u.runDown T fun k => es.any (·.addresses k))
  refine OutputUnit.ext_lines (fun k => ?_) ?_ ?_ ?_
  · rw [OutputUnit.runDown_line, OutputUnit.deliver_line, OutputUnit.deliver_line, OutputUnit.runDown_line,
      OutputUnit.runDown_lastTick, LineRecord.effects_runDown k _ es early]
  · rw [OutputUnit.runDown_direct, direct, direct', OutputUnit.runDown_direct]
  · rw [OutputUnit.runDown_lastTick, last', OutputUnit.runDown_lastTick]
  · rw [OutputUnit.runDown_forced, forced, forced', OutputUnit.runDown_forced]

/-- The run-down ahead of the dispatch, with the ends of pulses behind it, is the run-down behind the dispatch
(R131; assumption log 29). -/
theorem OutputUnit.endPulses_runDown (u : OutputUnit) (T : Time) (awaited : Fin 16 → Bool) :
    (u.runDown T fun _ => true).endPulses awaited = u.runDown T awaited := by
  refine OutputUnit.ext_lines (fun k => ?_) (by simp) (by simp) (by simp)
  rw [OutputUnit.endPulses_line, OutputUnit.runDown_line, OutputUnit.runDown_line, LineRecord.runDown_then_end]

/-! ## The whole machine -/

section Whole

variable {s : State}

/-! Updates of different blocks in one order: the store, the Output Unit, the hand-outs. -/

theorem State.withOu_withStore (s : State) (u : OutputUnit) (x : Store) :
    (s.withOu u).withStore x = (s.withStore x).withOu u := rfl
theorem State.withMail_withStore (s : State) (m : Mail) (x : Store) :
    (s.withMail m).withStore x = (s.withStore x).withMail m := rfl
theorem State.withMail_withOu (s : State) (m : Mail) (u : OutputUnit) :
    (s.withMail m).withOu u = (s.withOu u).withMail m := rfl

theorem runDown_waiting {T : Time} (waiting : s.mail.outputTick = some T) : runDown s = runDownWork T s := by
  simp only [runDown, waiting]

theorem runDown_idle (idle : s.mail.outputTick = none) : runDown s = s := by
  simp only [runDown, idle]

@[simp] theorem runDownWork_ou (T : Time) (s : State) :
    (runDownWork T s).ou = s.ou.runDown T s.effectToCome := by simp [runDownWork]
@[simp] theorem runDownWork_mail (T : Time) (s : State) :
    (runDownWork T s).mail = { s.mail with outputTick := none } := by simp [runDownWork]
@[simp] theorem runDownWork_hp (T : Time) (s : State) : (runDownWork T s).hp = s.hp := by simp [runDownWork]
@[simp] theorem runDownWork_store (T : Time) (s : State) : (runDownWork T s).store = s.store := by simp [runDownWork]

/-- Which effects may come depends on the tick event at the Schedule Store and on the deliveries that wait. -/
theorem effectToCome_congr {s t : State} (tick : t.mail.storeTick = s.mail.storeTick)
    (deliveries : t.mail.deliveries = s.mail.deliveries) : t.effectToCome = s.effectToCome := by
  funext k
  rw [State.effectToCome, tick, deliveries, State.effectToCome]

/-- A run-down changes neither the deliveries that wait nor the tick event at the Schedule Store. -/
@[simp] theorem runDownWork_effectToCome (T : Time) (s : State) : (runDownWork T s).effectToCome = s.effectToCome :=
  effectToCome_congr (by simp) (by simp)

theorem delivery_one {d : Delivery} (one : s.mail.deliveries = [d]) :
    delivery s = (s.withOu (s.ou.deliver d.stamp d.effects)).withMail { s.mail with deliveries := [] } := by
  simp only [delivery, one]

/-- Behind the dispatch, with one delivery waiting, an effect may come for the lines it addresses. -/
theorem effectToCome_one {d : Delivery} (dispatched : s.mail.storeTick = none) (one : s.mail.deliveries = [d]) :
    s.effectToCome = fun k => d.effects.any (·.addresses k) := by
  funext k
  simp [State.effectToCome, dispatched, one]

/-- Ahead of the dispatch an effect may come for every line. -/
theorem effectToCome_undispatched {T : Time} (waiting : s.mail.storeTick = some T) :
    s.effectToCome = fun _ => true := by
  funext k
  simp [State.effectToCome, waiting]

theorem effectToCome_none (dispatched : s.mail.storeTick = none) (none : s.mail.deliveries = []) :
    s.effectToCome = fun _ => false := by
  funext k
  simp [State.effectToCome, dispatched, none]

/-- Delivery and run-down of a tick in either order (R51, R132). -/
theorem delivery_runDownWork {T : Time} {d : Delivery} (dispatched : s.mail.storeTick = none)
    (early : s.ou.lastTick ≠ some T) (one : s.mail.deliveries = [d]) (stamp : d.stamp = T) :
    delivery (runDownWork T s) = runDownWork T (delivery s) := by
  subst stamp
  have after : (delivery s).effectToCome = fun _ => false :=
    effectToCome_none (by simp [delivery_one one, dispatched]) (by simp [delivery_one one])
  rw [delivery_one (s := runDownWork d.stamp s) (by simpa using one), runDownWork_ou, effectToCome_one dispatched one,
    ← OutputUnit.runDown_deliver d.effects early]
  simp only [runDownWork, after]
  simp [delivery_one one, State.withMail_withOu]

@[simp] theorem dispatch_ou (s : State) : (dispatch s).ou = s.ou := by
  unfold dispatch
  split <;> simp
@[simp] theorem dispatch_hp (s : State) : (dispatch s).hp = s.hp := by
  unfold dispatch
  split <;> simp

/-- The dispatch behind the run-down reads the same closed lines, and hands out the same (R136). -/
theorem dispatch_behind_runDown {T U : Time} (waiting : s.mail.storeTick = some U) :
    dispatch (runDownWork T s) =
      ((dispatch s).withOu (s.ou.runDown T fun _ => true)).withMail { (dispatch s).mail with outputTick := none } := by
  have sameDispatch : s.store.dispatch U (s.ou.runDown T fun _ => true).lines = s.store.dispatch U s.ou.lines := by
    refine Store.dispatch_congr (fun k => ?_) _ _
    rw [OutputUnit.runDown_line, LineRecord.runDown_closed]
  rw [dispatch_waiting (s := runDownWork T s) (by simpa using waiting), dispatch_waiting waiting, runDownWork_ou,
    runDownWork_store, effectToCome_undispatched waiting, sameDispatch]
  simp [runDownWork, State.withOu_withStore, State.withMail_withStore, State.withMail_withOu,
    effectToCome_undispatched waiting]

/-- Dispatch and run-down of a tick in either order, with the ends of pulses behind the dispatch when the run-down
came first (R51, R131; assumption log 29). -/
theorem endPulses_dispatch_runDownWork {T U : Time} (waiting : s.mail.storeTick = some U) :
    (dispatch (runDownWork T s)).withOu
        ((dispatch (runDownWork T s)).ou.endPulses (dispatch (runDownWork T s)).effectToCome) =
      runDownWork T (dispatch s) := by
  have sameEffects : (dispatch (runDownWork T s)).effectToCome = (dispatch s).effectToCome := by
    rw [dispatch_behind_runDown waiting]
    exact effectToCome_congr (by simp) (by simp)
  rw [sameEffects, dispatch_behind_runDown waiting, runDownWork, dispatch_ou, State.withMail_ou, State.withOu_ou,
    OutputUnit.endPulses_runDown, State.withMail_withOu, State.withOu_withOu]

/-! ## The ends of pulses -/

/-- With no run-down waiting PULSE_END makes the ends that can be made (assumption log 29). -/
theorem pulseEnd_idle (idle : s.mail.outputTick = none) : pulseEnd s = s.withOu (s.ou.endPulses s.effectToCome) := by
  simp [pulseEnd, runDown_idle idle]

/-! ## The pins (R123) -/

theorem outPin_congr {s t : State} {k : Fin 16} (reset : t.hp.inReset = s.hp.inReset)
    (level : t.ou.lines[k].level = s.ou.lines[k].level) : t.outPin k = s.outPin k := by
  rw [State.outPin, reset, level, State.outPin]

theorem LineRecord.not_closed {l : LineRecord} (agenda : l.mode = .agenda) (unmasked : l.masked = false) :
    l.closed = false := by
  simp [LineRecord.closed, agenda, unmasked]

/-- With the run-down the pin of an open line for which an effect may come stays (R123). -/
theorem outPin_runDownWork {T : Time} {k : Fin 16} (isOpen : s.ou.lines[k].closed = false)
    (mayCome : s.effectToCome k = true) : (runDownWork T s).outPin k = s.outPin k := by
  refine outPin_congr (by simp) ?_
  rw [runDownWork_ou, OutputUnit.runDown_line, mayCome, LineRecord.runDown_awaited_level isOpen]

theorem outPin_runDown {k : Fin 16} (isOpen : s.ou.lines[k].closed = false) (mayCome : s.effectToCome k = true) :
    (runDown s).outPin k = s.outPin k := by
  obtain ⟨-, e⟩ | ⟨T, -, e⟩ := runDown_cases s <;> rw [e]
  exact outPin_runDownWork isOpen mayCome

@[simp] theorem runDown_effectToCome (s : State) : (runDown s).effectToCome = s.effectToCome := by
  obtain ⟨-, e⟩ | ⟨T, -, e⟩ := runDown_cases s <;> simp [e]

/-- With PULSE_END the pin of an open line for which an effect may come stays (R123; assumption log 29). -/
theorem outPin_pulseEnd {k : Fin 16} (isOpen : s.ou.lines[k].closed = false) (mayCome : s.effectToCome k = true) :
    (pulseEnd s).outPin k = s.outPin k := by
  have ends : ∀ r : State, r.effectToCome k = true →
      (r.withOu (r.ou.endPulses r.effectToCome)).outPin k = r.outPin k := by
    intro r mayCome
    refine outPin_congr rfl ?_
    rw [State.withOu_ou, OutputUnit.endPulses_line, mayCome]
    simp
  obtain ⟨r, rfl | rfl, e⟩ := pulseEnd_cases s <;> rw [e]
  · exact ends r mayCome
  · exact (ends _ (by simpa using mayCome)).trans (outPin_runDown isOpen mayCome)

/-- Behind the delivery of the tick the run-down moves no pin that the delivery addresses (R123, R132). -/
theorem outPin_delivery_runDownWork {d : Delivery} {k : Fin 16} (early : s.ou.lastTick ≠ some d.stamp)
    (one : s.mail.deliveries = [d]) (isOpen : s.ou.lines[k].closed = false)
    (addressed : d.effects.any (·.addresses k) = true) :
    (runDownWork d.stamp (delivery s)).outPin k = (delivery s).outPin k := by
  have renewed := LineRecord.effects_renewed k early isOpen addressed
  refine outPin_congr (by simp) ?_
  rw [runDownWork_ou, OutputUnit.runDown_line, delivery_one one, State.withMail_ou, State.withOu_ou,
    OutputUnit.deliver_line, renewed.runDown]

end Whole

end Sys2Proof.Machine

/-!
The statements of the family "The timebase".
-/

namespace Sys2Proof.Proofs

open Sys2Proof.Machine Sys2Proof.Safety Sys2Proof.Stated

/-- A host command that is accepted, and whose block cannot take it yet, leaves the engine BUSY with it (R181). -/
theorem exec_whole_waits {s : State} {p : Port} {code : Byte} {handler : Handler} (ht : TakesCommand s p)
    (hh : handler s.ce.args (s.accepted p code) = none) :
    unlessInReset s (runCommand code handler .whole) = .next (s.accepted p code) := by
  obtain ⟨⟨released, carried⟩, idle⟩ := ht
  have accepted : commandWrite code (s.withHp { s.hp with port := p }) = s.accepted p code :=
    commandWrite_idle (s := s.withHp { s.hp with port := p }) idle code
  rw [unlessInReset_released _ released, (runCommand_carried code handler carried).2]
  simp [commandWhole, idle, accepted, commandTake, commandComplete, hh]

/-- With RESETn released an event answers its effect (R176). -/
theorem event_released {s t : State} {f : State → State} (released : s.hp.inReset = false) (effect : f s = t) :
    unlessInReset s f = .next t := by
  rw [unlessInReset_released f released, effect]

/-- Settles O35: the carry is what the addition leaves above 65535. -/
theorem boundaryFixesTickLength : Obligations.BoundaryFixesTickLength := by
  rintro tb trim rfl
  generalize htrim : tb.pendingTrim.getD tb.trim = trim
  have addends : tb.acc.toNat < 65536 ∧ trim.fraction.toNat < 65536 := ⟨tb.acc.isLt, trim.fraction.isLt⟩
  refine ⟨(tb.acc.toNat + trim.fraction.toNat) / 65536, ?_, ?_, by omega, htrim, rfl, rfl, rfl⟩
  · simp only [Timebase.boundary, htrim, BitVec.toNat_ofNat]
    omega
  · simp only [Timebase.boundary, htrim, Clock.running.injEq]
    split <;> omega

/-- Settles O32, by the state of the timebase and by whether tick work is owed at the Input Unit. -/
theorem clockCommandOutcomes : Obligations.ClockCommandOutcomes := by
  intro s p pins sync ht
  refine ⟨fun stopped => ⟨fun idle => ?_, fun T waiting => ?_, ?_, ?_⟩,
    fun going => ⟨?_, fun idle => ?_, fun waiting => ?_⟩, fun b armed => ?_, fun n running => ?_⟩
  · exact exec_whole_answered ht
      ((startTake_stopped (s := s.accepted p 0x30) _ pins stopped).trans (congrArg _ (beginRunning_idle pins idle)))
  · exact exec_whole_answered ht
      ((startTake_stopped (s := s.accepted p 0x30) _ pins stopped).trans
        (congrArg _ (beginRunning_waiting pins waiting)))
  · exact exec_whole_refused ht (stopTake_stopped _ stopped)
  · exact exec_whole_answered ht (armSyncTake_stopped (s := s.accepted p 0x32) _ sync stopped)
  · exact exec_whole_refused ht (startTake_not_stopped _ pins going)
  · exact exec_whole_answered ht
      ((stopTake_not_stopped (s := s.accepted p 0x31) _ going).trans (congrArg _ (endRunning_idle idle)))
  · exact exec_whole_answered ht
      ((stopTake_not_stopped (s := s.accepted p 0x31) _ going).trans (congrArg _ (endRunning_waiting waiting)))
  · exact exec_whole_refused ht (armSyncTake_armed _ sync armed)
  · exact exec_whole_refused ht (armSyncTake_running _ sync running)

/-- Settles O33, by the answers of the two handlers in the state in which the command is accepted. -/
theorem setTimeAndSetTrimOutcomes : Obligations.SetTimeAndSetTrimOutcomes := by
  intro s p ht
  refine ⟨fun going => ?_, fun stopped owed => ?_,
    fun stopped taken => ⟨fun timed => ?_, fun noAgenda noParked => ?_⟩, fun outOfRange => ?_,
    fun low high => ⟨fun stopped => ?_, fun going => ?_⟩⟩
  · exact exec_whole_refused ht (setTimeTake_not_stopped _ going)
  · exact exec_whole_waits ht (setTimeTake_waits _ stopped owed)
  · exact exec_whole_refused ht
      ((setTimeTake_taken (s := s.accepted p 0x33) _ stopped taken).trans (if_neg (not_and_or.mpr timed)))
  · exact exec_whole_answered ht
      ((setTimeTake_taken (s := s.accepted p 0x33) _ stopped taken).trans (if_pos ⟨noAgenda, noParked⟩))
  · exact exec_whole_refused ht (setTrimTake_badArg _ outOfRange)
  · exact exec_whole_answered ht (setTrimTake_stopped low high stopped)
  · exact exec_whole_answered ht (setTrimTake_not_stopped low high going)

/-- Settles O34: the tick by the state of the timebase and the work owed, the edges of SYNC by the level last seen. -/
theorem tickAndSyncOutcomes : Obligations.TickAndSyncOutcomes := by
  refine ⟨fun s released => ⟨fun n running taken => ?_, fun n _ owed => ?_, fun still => ?_⟩,
    fun s pins released => ⟨fun low => ⟨fun idle => ?_, fun T waiting => ?_⟩, fun other => ?_, fun b armed => ?_,
      fun other => ?_⟩⟩
  · exact event_released released (tickEvent_running running taken)
  · exact event_released released (tickEvent_owed owed)
  · exact event_released released (tickEvent_not_running still)
  · exact event_released released ((syncEdge_armedLow pins low).trans (beginRunning_idle pins idle))
  · exact event_released released ((syncEdge_armedLow pins low).trans (beginRunning_waiting pins waiting))
  · exact event_released released (syncEdge_other pins other)
  · exact event_released released (syncFall_armed armed)
  · exact event_released released (syncFall_other other)

/-- Settles O12, by what every command can do to the time. -/
theorem timeChangesOnlyAsStated : Obligations.TimeChangesOnlyAsStated := by
  intro c s t h
  refine ⟨?_, fun changed => ?_⟩
  · rintro haltn csn pins rfl
    rw [exec_powerOnReset_tb h]
    rfl
  · cases exec_timeStep h with
    | keeps kept => exact absurd kept.1 changed
    | ticks running time snapshot => exact .inl ⟨rfl, ⟨_, running⟩, time⟩
    | sets stopped args time snapshot =>
      refine .inr (.inl ⟨stopped, _, time, ?_⟩)
      exact args.imp (fun ⟨whole, registers⟩ => ⟨whole ▸ rfl, registers⟩) fun ⟨take, busy⟩ => ⟨take ▸ rfl, busy⟩
    | reads time => exact absurd time changed
    | powersOn tb => exact .inr (.inr ⟨_, _, _, rfl⟩)

/-- Settles O36: TIME0 is `time0Read`, and no other command but a power-on reset touches the snapshot. -/
theorem timeReadThroughSnapshot : Obligations.TimeReadThroughSnapshot := by
  refine ⟨fun s p released carried => ?_, fun s => ⟨rfl, rfl, rfl⟩, fun c s t h other => ⟨fun poweredOn => ?_, ?_⟩,
    fun s p a w haddr ⟨released, carried⟩ => ?_⟩
  · refine event_released released ?_
    rw [time0Read_eq, carried]
    rfl
  · cases exec_timeStep h with
    | keeps kept => exact kept.2
    | ticks running time snapshot => exact snapshot
    | sets stopped args time snapshot => exact snapshot
    | reads time => exact absurd rfl other
    | powersOn tb => exact absurd rfl (poweredOn _ _ _)
  · rintro haltn csn pins rfl
    rw [exec_powerOnReset_tb h]
    rfl
  · exact event_released released (registerWrite_ignored w haddr carried)

/-! ## The work of a tick (R51, R123, R131, R132) -/

theorem next_of_released {s t : State} {f : State → State} (released : s.hp.inReset = false)
    (h : unlessInReset s f = .next t) : t = f s := by
  rw [unlessInReset_released f released] at h
  exact (Host.Outcome.next.inj h).symm

/-- Settles O45: line by line an effect and the run-down of its tick come in either order, and only the later of the
two moves the pin of a line that the delivery addresses. -/
theorem tickWorkInEitherOrder : Obligations.TickWorkInEitherOrder := by
  refine ⟨fun u T effects early => OutputUnit.runDown_deliver effects early, ?_, ?_, ?_, ?_⟩
  · rintro s r rd e er _ d released dispatched waiting early one rfl hr hrd he her
    obtain rfl := (next_of_released released hr).trans (runDown_waiting waiting)
    obtain rfl := next_of_released (by simpa using released) hrd
    obtain rfl := next_of_released released he
    obtain rfl := (next_of_released (by simpa [delivery_one one] using released) her).trans
      (runDown_waiting (by simpa [delivery_one one] using waiting))
    have sameState := delivery_runDownWork dispatched early one rfl
    refine ⟨sameState, fun k ⟨x, hx, addressed⟩ agenda unmasked => ?_⟩
    have isOpen := LineRecord.not_closed agenda unmasked
    have some_addresses : d.effects.any (·.addresses k) = true := List.any_eq_true.mpr ⟨x, hx, addressed⟩
    have mayCome : s.effectToCome k = true := by
      rw [effectToCome_one dispatched one]
      exact some_addresses
    have still := outPin_delivery_runDownWork early one isOpen some_addresses
    refine ⟨outPin_runDownWork isOpen mayCome, still, ?_⟩
    rw [sameState]
    exact still
  · intro s r rd rp d dr T released undispatched waiting hr hrd hrp hd hdr
    obtain rfl := (next_of_released released hr).trans (runDown_waiting waiting)
    obtain rfl := next_of_released (by simpa using released) hrd
    obtain rfl := (next_of_released (by simpa using released) hrp).trans
      (pulseEnd_idle (by simp [dispatch_behind_runDown undispatched]))
    obtain rfl := next_of_released released hd
    obtain rfl := (next_of_released (by simpa using released) hdr).trans
      (runDown_waiting (by simpa [dispatch_waiting undispatched] using waiting))
    exact ⟨endPulses_dispatch_runDownWork undispatched, fun k => outPin_congr (by simp) (by simp)⟩
  · intro s r T k released waiting hr
    obtain rfl := (next_of_released released hr).trans (runDown_waiting waiting)
    refine ⟨fun mayCome agenda unmasked => ?_, fun noneComes => ?_⟩
    · exact outPin_runDownWork (LineRecord.not_closed agenda unmasked) ((s.effectToCome_iff k).mpr mayCome)
    · have noEffect := Bool.eq_false_iff.mpr (mt (s.effectToCome_iff k).mp noneComes)
      rw [runDownWork_ou, OutputUnit.runDown_line, noEffect]
  · intro s r k agenda unmasked h changed mayCome
    have isOpen := LineRecord.not_closed agenda unmasked
    have comes := (s.effectToCome_iff k).mpr mayCome
    refine changed ?_
    obtain h | h := h
    · obtain rfl | ⟨-, rfl⟩ := unlessInReset_eq h
      · rfl
      · exact outPin_runDown isOpen comes
    · obtain rfl | ⟨-, rfl⟩ := unlessInReset_eq h
      · rfl
      · exact outPin_pulseEnd isOpen comes

end Sys2Proof.Proofs

/-!
The counts that have a stated range: the part of a state that they depend on, which operations leave it alone, and
what the others do to it.
-/

namespace Sys2Proof.Machine

/-! ## What the counts depend on (R71, R73, R84, R157) -/

/-- The part of a state that decides whether its counts are in range: the engine's state, the staging list, the handle
list, the reserved set and the threshold. -/
def State.counted (s : State) : Engine × List Entry × List Handle × List (Fin 128) × Nat :=
  (s.ce.engine, s.ce.staging, s.ce.handles, s.store.reserved, s.eq.threshold)

section Updates

variable (s : State)

@[simp] theorem State.counted_withTb (x : Timebase) : (s.withTb x).counted = s.counted := rfl
@[simp] theorem State.counted_withOu (x : OutputUnit) : (s.withOu x).counted = s.counted := rfl
@[simp] theorem State.counted_withIu (x : InputUnit) : (s.withIu x).counted = s.counted := rfl
@[simp] theorem State.counted_withHc (x : HaltController) : (s.withHc x).counted = s.counted := rfl
@[simp] theorem State.counted_withHp (x : HostPort) : (s.withHp x).counted = s.counted := rfl
@[simp] theorem State.counted_withMail (x : Mail) : (s.withMail x).counted = s.counted := rfl

theorem State.counted_withStore {x : Store} (reserved : x.reserved = s.store.reserved) :
    (s.withStore x).counted = s.counted := by
  simp [State.counted, reserved]

theorem State.counted_withEq {x : EventQueue} (threshold : x.threshold = s.eq.threshold) :
    (s.withEq x).counted = s.counted := by
  simp [State.counted, threshold]

end Updates

end Sys2Proof.Machine

namespace Sys2Proof.Safety

open Sys2Proof.Machine

theorem countsBounded_congr {s t : State} (h : t.counted = s.counted) : CountsBounded t ↔ CountsBounded s := by
  simp only [State.counted, Prod.mk.injEq] at h
  obtain ⟨engine, staging, handles, reserved, threshold⟩ := h
  rw [CountsBounded, CountsBounded, batchPaired_congr engine staging reserved, staging, handles, threshold]

/-- Outside a merge nothing is reserved, so the engine may move between IDLE and BUSY. -/
theorem CountsBounded.outside_merge {s t : State} (hs : CountsBounded s) (before : ∀ a, s.ce.engine ≠ .committing a)
    (after : ∀ a, t.ce.engine ≠ .committing a) (staging : t.ce.staging = s.ce.staging := by simp)
    (handles : t.ce.handles = s.ce.handles := by simp) (reserved : t.store.reserved = s.store.reserved := by simp)
    (threshold : t.eq.threshold = s.eq.threshold := by simp) : CountsBounded t := by
  obtain ⟨paired, counts⟩ := hs
  rw [batchPaired_iff_reserved_nil before] at paired
  rw [CountsBounded, batchPaired_iff_reserved_nil after, staging, handles, reserved, threshold]
  exact ⟨paired, counts⟩

/-- An emptied staging list needs no slots. -/
theorem CountsBounded.of_emptied {s : State} (after : ∀ a, s.ce.engine ≠ .committing a)
    (reserved : s.store.reserved = []) (staging : s.ce.staging = []) (handles : s.ce.handles.length ≤ 16)
    (threshold : 1 ≤ s.eq.threshold ∧ s.eq.threshold ≤ 64) : CountsBounded s :=
  ⟨(batchPaired_iff_reserved_nil after).mpr reserved, by simp [staging], handles, threshold⟩

end Sys2Proof.Safety

namespace Sys2Proof.Machine

open Sys2Proof.Safety

/-! ## Events beside the counts -/

section Beside

variable (s : State)

@[simp] theorem inputWork_counted (T : Time) (pins : Pins) : (inputWork T pins s).counted = s.counted := by
  simp [inputWork]

@[simp] theorem sample_counted (pins : Pins) : (sample pins s).counted = s.counted := by
  obtain ⟨-, e⟩ | ⟨T, -, e⟩ := sample_cases pins s <;> simp [e]

@[simp] theorem confirmation_counted (pins : Pins) : (confirmation pins s).counted = s.counted := by
  unfold confirmation
  split
  · split <;> simp
  · rfl

@[simp] theorem beginRunning_counted (pins : Pins) : (beginRunning pins s).counted = s.counted := by
  simp [beginRunning, inputsBegin]

@[simp] theorem endRunning_counted : (endRunning s).counted = s.counted := by
  obtain ⟨-, e⟩ | ⟨-, e⟩ := endRunning_cases s <;> simp [e]

@[simp] theorem syncEdge_counted (pins : Pins) : (syncEdge pins s).counted = s.counted := by
  unfold syncEdge
  split <;> simp

@[simp] theorem syncFall_counted : (syncFall s).counted = s.counted := by
  unfold syncFall
  split <;> simp

@[simp] theorem tickEvent_counted : (tickEvent s).counted = s.counted := by
  unfold tickEvent
  split
  · split <;> simp
  · rfl

@[simp] theorem time0Read_counted : (time0Read s).counted = s.counted := by
  rw [time0Read_eq]
  split <;> simp

@[simp] theorem delivery_counted : (delivery s).counted = s.counted := by
  unfold delivery
  split <;> simp

@[simp] theorem runDown_counted : (runDown s).counted = s.counted := by
  obtain ⟨-, e⟩ | ⟨T, -, e⟩ := runDown_cases s <;> simp [e, runDownWork]

@[simp] theorem pulseEnd_counted : (pulseEnd s).counted = s.counted := by
  obtain ⟨r, rfl | rfl, e⟩ := pulseEnd_cases s <;> simp [e]

/-- An offer to the Event Queue does not touch the threshold. -/
@[simp] theorem EventQueue.offer_threshold (q : EventQueue) (r : EventRecord) :
    (q.offer r).1.threshold = q.threshold := (q.offer_frame r).1

@[simp] theorem recordOffer_counted (b : Offerer) : (recordOffer b s).counted = s.counted := by
  have offered : ∀ r, (s.withEq (s.eq.offer r).1).counted = s.counted := fun r =>
    s.counted_withEq (s.eq.offer_threshold r)
  cases b <;> simp only [recordOffer] <;> split <;> simp [offered]

@[simp] theorem latchHalt_counted (cause : HaltCause) : (latchHalt cause s).counted = s.counted := by
  rw [latchHalt, State.counted_withEq]
  · simp
  · rfl

@[simp] theorem haltEventTaken_counted (cause : HaltCause) : (haltEventTaken cause s).counted = s.counted := by
  cases latch : s.hc.latch with
  | some c => rw [haltEventTaken_latched cause latch]
  | none => simp [haltEventTaken_clear cause latch]

@[simp] theorem takeFall_counted : (takeFall s).counted = s.counted := by
  cases owed : s.hc.fallsOwed with
  | zero => rw [takeFall_none owed]
  | succ n => simp [takeFall_owed owed]

@[simp] theorem recogniseFall_counted : (recogniseFall s).counted = s.counted := by
  unfold recogniseFall
  split <;> simp

@[simp] theorem haltEvent_counted (p : FallStep) : (haltEvent p s).counted = s.counted := by
  cases p with
  | whole =>
    simp only [haltEvent]
    split <;> simp
  | recognise => exact recogniseFall_counted s
  | take => exact takeFall_counted s

@[simp] theorem headerByte_counted (b : Byte) : (headerByte b s).counted = s.counted := by
  unfold headerByte
  split <;> simp

@[simp] theorem dispatch_counted : (dispatch s).counted = s.counted := by
  unfold dispatch
  split
  · rfl
  · simp only [State.counted_withMail]
    exact s.counted_withStore (Moves.dispatch _ _ _).reserved

@[simp] theorem triggerEvent_counted (pick : TriggerPick) : (triggerEvent pick s).counted = s.counted := by
  cases pick with
  | cue | input =>
    simp only [triggerEvent]
    split
    · rfl
    · exact s.counted_withStore (Store.trigger_reserved _ _ _ _)

@[simp] theorem offerStore_counted (rs : List EventRecord) : (offerStore rs s).counted = s.counted := by
  simp [offerStore]

@[simp] theorem applyHaltActions_counted : (applyHaltActions s).counted = s.counted := by
  rw [applyHaltActions, offerStore_counted]
  exact s.counted_withStore (Moves.haltGroups _ _ _).reserved

@[simp] theorem relatch_counted : (relatch s).counted = s.counted := by
  cases level : s.hc.haltnHigh with
  | true => rw [relatch_high level]
  | false =>
    rw [relatch_low level, State.counted_withEq]
    · simp
    · simp [applyHaltActions, latchHalt]

/-- A served write whose effect is beside the counts is beside them. -/
theorem serveWrite_counted (a : Addr) {f : State → State} (hf : ∀ s, (f s).counted = s.counted) :
    (serveWrite a f s).counted = s.counted := by
  obtain e | ⟨p, -, e⟩ := serveWrite_cases a f s <;> simp [e, hf]

end Beside

/-! ## The handlers of the host commands -/

/-- A handler's answer, if it gives one, is beside the counts. -/
def AnswersBesideCounts (s : State) (o : Option (State × Stage)) : Prop :=
  ∀ s' stage, o = some (s', stage) → s'.counted = s.counted

section Answers

variable {s : State}

theorem AnswersBesideCounts.waits : AnswersBesideCounts s none := by
  intro s' stage h
  cases h

theorem AnswersBesideCounts.of_counted {s' : State} {stage : Stage} (h : s'.counted = s.counted) :
    AnswersBesideCounts s (some (s', stage)) := by
  rintro _ _ ⟨⟩
  exact h

/-- An answer that leaves the state as it is. -/
theorem AnswersBesideCounts.unchanged (stage : Stage) : AnswersBesideCounts s (some (s, stage)) := .of_counted rfl

/-- An answer that changes the Schedule Store alone, and there not the reserved set. -/
theorem AnswersBesideCounts.withStore {st : Store} {stage : Stage} (reserved : st.reserved = s.store.reserved) :
    AnswersBesideCounts s (some (s.withStore st, stage)) :=
  .of_counted (s.counted_withStore reserved)

variable (a : Args) (s)

theorem commitTake_counted : AnswersBesideCounts s (commitTake a s) := by
  unfold commitTake
  split <;> exact .unchanged _

theorem cancelTake_counted : AnswersBesideCounts s (cancelTake a s) := by
  unfold cancelTake
  split
  · exact .unchanged _
  · split
    · exact .unchanged _
    · exact .of_counted rfl

theorem queryTake_counted : AnswersBesideCounts s (queryTake a s) := by
  unfold queryTake
  split
  · exact .unchanged _
  · split
    · exact .unchanged _
    · exact .of_counted rfl

theorem suspendTake_counted : AnswersBesideCounts s (suspendTake a s) := by
  unfold suspendTake
  split
  · exact .unchanged _
  · split
    · exact .unchanged _
    · exact .withStore (Moves.suspendGroup _ _ _).reserved

theorem resumeTake_counted : AnswersBesideCounts s (resumeTake a s) := by
  unfold resumeTake
  split
  · exact .unchanged _
  · split
    · exact .withStore (Moves.resumeGroup _ _ _).reserved
    · exact .unchanged _

theorem cancelGroupTake_counted : AnswersBesideCounts s (cancelGroupTake a s) := by
  unfold cancelGroupTake
  split
  · exact .unchanged _
  · exact .of_counted ((offerStore_counted _ _).trans (s.counted_withStore (Moves.cancelGroup _ _ _).reserved))

theorem setGroupTake_counted : AnswersBesideCounts s (setGroupTake a s) := by
  unfold setGroupTake
  split
  · split
    · exact .withStore rfl
    · exact .waits
  · exact .unchanged _

theorem startTake_counted (pins : Pins) : AnswersBesideCounts s (startTake pins a s) := by
  unfold startTake
  split
  · exact .of_counted (beginRunning_counted s pins)
  · exact .unchanged _

theorem stopTake_counted : AnswersBesideCounts s (stopTake a s) := by
  unfold stopTake
  split
  · exact .unchanged _
  · exact .of_counted (endRunning_counted (s.withTb s.tb.stop))

theorem armSyncTake_counted (sync : Bool) : AnswersBesideCounts s (armSyncTake sync a s) := by
  unfold armSyncTake
  split <;> exact .of_counted (by simp)

theorem setTimeTake_counted : AnswersBesideCounts s (setTimeTake a s) := by
  unfold setTimeTake
  split
  · split
    · split <;> exact .of_counted (by simp)
    · exact .waits
  · exact .unchanged _

theorem setTrimTake_counted : AnswersBesideCounts s (setTrimTake a s) := by
  unfold setTrimTake
  split
  · exact .unchanged _
  · split <;> exact .of_counted (by simp)

theorem fireCueTake_counted : AnswersBesideCounts s (fireCueTake a s) := by
  unfold fireCueTake
  split
  · exact .unchanged _
  · exact .withStore (Store.trigger_reserved _ _ _ _)

theorem configOutTake_counted : AnswersBesideCounts s (configOutTake a s) := by
  unfold configOutTake
  split
  · split <;> exact .of_counted (by simp)
  · exact .unchanged _

theorem configInTake_counted : AnswersBesideCounts s (configInTake a s) := by
  unfold configInTake
  split <;> exact .of_counted (by simp)

theorem haltTake_counted : AnswersBesideCounts s (haltTake a s) := .of_counted (haltEventTaken_counted s .command)

theorem releaseTake_counted : AnswersBesideCounts s (releaseTake a s) := by
  unfold releaseTake
  split
  · exact .unchanged _
  · split <;> exact .of_counted (by simp)

end Answers

/-! ## Host commands -/

/-- A handler that finds the engine BUSY keeps the counts in range and leaves the engine's state to the command. -/
def AnswersInBounds (handler : Handler) : Prop :=
  ∀ a s s' stage, (∀ x, s.ce.engine ≠ .committing x) → CountsBounded s → handler a s = some (s', stage) →
    CountsBounded s' ∧ s'.ce.engine = s.ce.engine

theorem AnswersInBounds.of_beside {handler : Handler} (hh : ∀ s a, AnswersBesideCounts s (handler a s)) :
    AnswersInBounds handler := by
  intro a s s' stage _ hs answered
  have same := hh s a s' stage answered
  exact ⟨(countsBounded_congr same).mpr hs, congrArg Prod.fst same⟩

/-- DISCARD leaves the staging list empty (R72). -/
theorem discardTake_inBounds : AnswersInBounds discardTake := by
  rintro a s s' stage outside ⟨paired, -, handles, threshold⟩ ⟨⟩
  exact ⟨.of_emptied outside ((batchPaired_iff_reserved_nil outside).mp paired) rfl handles threshold, rfl⟩

/-- APPEND adds a record only while the staging list holds fewer than 16 (R71). -/
theorem appendTake_inBounds : AnswersInBounds appendTake := by
  intro a s s' stage outside hs answered
  unfold appendTake at answered
  split at answered
  · cases answered
    exact ⟨hs, rfl⟩
  · split at answered
    · cases answered
      exact ⟨hs, rfl⟩
    · rename_i room
      cases answered
      obtain ⟨paired, -, counts⟩ := hs
      have reserved := (batchPaired_iff_reserved_nil outside).mp paired
      refine ⟨⟨(batchPaired_iff_reserved_nil (by simpa using outside)).mpr reserved, ?_, counts⟩, rfl⟩
      simpa using Nat.lt_of_not_le room

/-- Every part of a host command keeps the counts in range when its handler does. -/
theorem runCommand_countsBounded {code : Byte} {handler : Handler} (hh : AnswersInBounds handler) (p : CmdStep)
    {s : State} (hs : CountsBounded s) : CountsBounded (runCommand code handler p s) := by
  refine runCommand_keeps (P := CountsBounded) (fun _ _ h => h) ?_ ?_ (fun _ h => h) ?_ p s hs
  · exact fun x e before after h => h.outside_merge before after
  · exact fun x c r before h => h.outside_merge before (by simp)
  · exact fun a n x x' stage busy answered h => hh a x x' stage (by simp [busy]) h answered

/-! ## The commit and its ends (R76, R80, R85, R86) -/

/-- The commit-start request reserves one slot for each staged record, or completes the COMMIT (R75, R76, R77). -/
theorem commitStart_countsBounded {s : State} (hs : CountsBounded s) : CountsBounded (commitStart s) := by
  unfold commitStart
  split
  · rename_i c a busy
    have refused : ∀ r, CountsBounded (complete commitCode r s) := fun r =>
      hs.outside_merge (by simp [busy]) (by simp)
    split
    · unfold commitStartTaken
      split
      · exact refused _
      · split
        · exact refused _
        · rename_i room
          refine ⟨(batchPaired_iff_length rfl).mpr ?_, hs.2⟩
          exact List.length_take_of_le (Nat.le_of_not_lt room)
    · exact hs
  · exact hs

/-- The handle list after a merge is as long as the batch was (R80, R84). -/
theorem mergeCompletion_countsBounded {s : State} (hs : CountsBounded s) : CountsBounded (mergeCompletion s) := by
  unfold mergeCompletion
  split
  · rename_i a committing
    obtain ⟨paired, staging, -, threshold⟩ := hs
    have handles : (batchHandles s).length = s.ce.staging.length := by
      rw [batchHandles, List.length_map, (batchPaired_iff_length committing).mp paired]
    exact .of_emptied (by simp) rfl rfl (handles.trans_le staging) threshold
  · exact hs

/-- A merge that is abandoned leaves nothing reserved and keeps the staging list (R85, R86). -/
theorem abandon_countsBounded (code : ResultCode) {s : State} (hs : CountsBounded s) :
    CountsBounded (abandon code s) := by
  by_cases h : ∃ a, s.ce.engine = .committing a
  · obtain ⟨a, committing⟩ := h
    rw [abandon_committing code committing]
    exact ⟨(batchPaired_iff_reserved_nil (by simp)).mpr rfl, hs.2⟩
  · rwa [abandon_not_committing code (not_exists.mp h)]

/-- A served write whose effect keeps the counts in range does so too. -/
theorem serveWrite_countsBounded (a : Addr) {f : State → State} (hf : ∀ s, CountsBounded s → CountsBounded (f s))
    {s : State} (hs : CountsBounded s) : CountsBounded (serveWrite a f s) := by
  obtain e | ⟨p, -, e⟩ := serveWrite_cases a f s <;> rw [e]
  · exact hs
  · exact hf (s.withHp { s.hp with port := p }) hs

theorem abortWrite_countsBounded (w : Word) {s : State} (hs : CountsBounded s) : CountsBounded (abortWrite w s) := by
  unfold abortWrite
  split
  · exact serveWrite_countsBounded _ (fun s => abandon_countsBounded .aborted) hs
  · exact hs

theorem haltGroupRequest_countsBounded {s : State} (hs : CountsBounded s) : CountsBounded (haltGroupRequest s) := by
  unfold haltGroupRequest
  split
  · exact hs
  · refine abandon_countsBounded .halted ((countsBounded_congr (applyHaltActions_counted _)).mpr ?_)
    exact ⟨batchPaired_haltTaken hs.1 rfl rfl rfl, hs.2⟩

/-! ## Register writes and resets -/

/-- A written threshold is in range or ignored (R157). -/
theorem EventQueue.setThreshold_inRange {q : EventQueue} (w : Word) (h : 1 ≤ q.threshold ∧ q.threshold ≤ 64) :
    1 ≤ (q.setThreshold w).threshold ∧ (q.setThreshold w).threshold ≤ 64 := by
  unfold EventQueue.setThreshold
  split
  · assumption
  · exact h

/-- A register write that has no row of its own does not reach the handle list. -/
@[simp] theorem CommandEngine.writeReg_handles (ce : CommandEngine) (a : Addr) (w : Word) :
    (ce.writeReg a w).handles = ce.handles := by
  unfold CommandEngine.writeReg
  split_ifs <;> rfl

theorem registerWrite_countsBounded (a : Addr) (w : Word) {s : State} (hs : CountsBounded s) :
    CountsBounded (registerWrite a w s) := by
  unfold registerWrite
  split
  · exact hs
  · refine serveWrite_countsBounded _ (fun s hs => (countsBounded_congr (s := beforeWrite a s) ?_).mpr ?_) hs
    · obtain ⟨engine, staging⟩ := (beforeWrite a s).ce.writeReg_frame a w
      simp [State.counted, engine, staging]
    · unfold beforeWrite
      split
      · exact runCommand_countsBounded (code := 0x01) appendTake_inBounds .take hs
      · exact hs

theorem badCommand_countsBounded (w : Word) {s : State} (hs : CountsBounded s) : CountsBounded (badCommand w s) := by
  unfold badCommand
  split
  · exact hs
  · refine serveWrite_countsBounded _ (fun s hs => ?_) hs
    split
    · rename_i idle
      exact hs.outside_merge (by simp [idle]) (by simp)
    · exact hs

theorem softReset_countsBounded (w : Word) (pins : Pins) {s : State} (hs : CountsBounded s) :
    CountsBounded (softReset w pins s) := by
  unfold softReset
  split
  · refine serveWrite_countsBounded _ (fun s hs => ?_) hs
    rw [countsBounded_congr (relatch_counted _)]
    obtain ⟨-, -, -, threshold⟩ := hs
    exact .of_emptied (by simp [softResetValues, CommandEngine.softReset]) rfl rfl (Nat.zero_le _) threshold
  · exact hs

theorem powerOnReset_countsBounded (haltn csn : Bool) (pins : Pins) (s : State) :
    CountsBounded (powerOnReset haltn csn pins s) := by
  rw [powerOnReset, countsBounded_congr (relatch_counted _)]
  exact (countsBounded_congr (by simp [State.counted])).mpr Proofs.countsBounded_reset

/-! ## Every command -/

/-- R71, R73, R84, R157: every command keeps the counts in range. -/
theorem exec_countsBounded {c : Instr} {s t : State} (hs : CountsBounded s) (h : exec c s = .next t) :
    CountsBounded t := by
  have event : ∀ {f : State → State}, unlessInReset s f = .next t → CountsBounded (f s) → CountsBounded t := by
    intro f h hf
    obtain rfl | ⟨-, rfl⟩ := unlessInReset_eq h
    · exact hs
    · exact hf
  have beside : ∀ {f : State → State}, unlessInReset s f = .next t → (f s).counted = s.counted → CountsBounded t :=
    fun h hf => event h ((countsBounded_congr hf).mpr hs)
  have write : ∀ {a : Addr} {f : State → State}, unlessInReset s (serveWrite a f) = .next t →
      (∀ s, (f s).counted = s.counted) → CountsBounded t :=
    fun h hf => beside h (serveWrite_counted s _ hf)
  have host : ∀ {code : Byte} {handler : Handler} {p : CmdStep},
      unlessInReset s (runCommand code handler p) = .next t → (∀ s a, AnswersBesideCounts s (handler a s)) →
      CountsBounded t :=
    fun h hh => event h (runCommand_countsBounded (.of_beside hh) _ hs)
  cases c with
  | append p => exact event h (runCommand_countsBounded appendTake_inBounds p hs)
  | discard p => exact event h (runCommand_countsBounded discardTake_inBounds p hs)
  | commit p => exact host h commitTake_counted
  | commitStart => exact event h (commitStart_countsBounded hs)
  | mergeCompletion => exact event h (mergeCompletion_countsBounded hs)
  | abort w => exact event h (abortWrite_countsBounded w hs)
  | cancel p => exact host h cancelTake_counted
  | query p => exact host h queryTake_counted
  | suspend p => exact host h suspendTake_counted
  | resume p => exact host h resumeTake_counted
  | cancelGroup p => exact host h cancelGroupTake_counted
  | setGroup p => exact host h setGroupTake_counted
  | start p pins => exact host h fun s a => startTake_counted s a pins
  | stop p => exact host h stopTake_counted
  | armSync p sync => exact host h fun s a => armSyncTake_counted s a sync
  | setTime p => exact host h setTimeTake_counted
  | setTrim p => exact host h setTrimTake_counted
  | fireCue p => exact host h fireCueTake_counted
  | configOut p => exact host h configOutTake_counted
  | configIn p => exact host h configInTake_counted
  | halt p => exact host h haltTake_counted
  | release p => exact host h releaseTake_counted
  | badcmd w => exact event h (badCommand_countsBounded w hs)
  | softReset w pins => exact event h (softReset_countsBounded w pins hs)
  | powerOnReset haltn csn pins =>
    cases h
    exact powerOnReset_countsBounded haltn csn pins s
  | haltEvent p => exact beside h (haltEvent_counted s p)
  | haltnRise => exact beside h (s.counted_withHc _)
  | haltGroupRequest => exact event h (haltGroupRequest_countsBounded hs)
  | syncEdge pins => exact beside h (syncEdge_counted s pins)
  | tickEvent => exact beside h (tickEvent_counted s)
  | dispatch => exact beside h (dispatch_counted s)
  | triggerEvent pick => exact beside h (triggerEvent_counted s pick)
  | delivery => exact beside h (delivery_counted s)
  | runDown => exact beside h (runDown_counted s)
  | pulseEnd => exact beside h (pulseEnd_counted s)
  | sample pins => exact beside h (sample_counted s pins)
  | confirmation pins => exact beside h (confirmation_counted s pins)
  | recordOffer b => exact beside h (recordOffer_counted s b)
  | pop w => exact write h fun s => s.counted_withEq rfl
  | outDirect w => exact write h fun s => s.counted_withOu _
  | irqFlags w => exact write h fun s => s.counted_withEq rfl
  | irqEnable w => exact write h fun s => s.counted_withEq rfl
  | thresh w =>
    refine event h (serveWrite_countsBounded _ (fun s hs => ?_) hs)
    obtain ⟨paired, staging, handles, threshold⟩ := hs
    exact ⟨paired, staging, handles, s.eq.setThreshold_inRange w threshold⟩
  | time0 => exact beside h (time0Read_counted s)
  | registerWrite a w => exact event h (registerWrite_countsBounded a w hs)
  | headerByte b => exact beside h (headerByte_counted s b)
  | syncFall => exact beside h (syncFall_counted s)
  | resetnAsserted =>
    cases h
    exact hs
  | frameEnd =>
    cases h
    exact hs

end Sys2Proof.Machine

/-!
The composer (R66, R69, R70, R179): which field APPEND refuses first, the fields that a record leaves out, and the
two ways between a composer and the entry that it describes.
-/

namespace Sys2Proof.Machine

/-! ## Codes -/

@[simp] theorem fin16_bits4 (k : Fin 16) : fin16 (bits4 k) = k := by
  simp [fin16, bits4]

@[simp] theorem bits4_fin16 (c : BitVec 4) : bits4 (fin16 c) = c := by
  simp [fin16, bits4]

@[simp] theorem bit1_ofBit (b : Bool) : bit1 (ofBit b) = b := by
  cases b <;> rfl

@[simp] theorem ofBit_bit1 (b : BitVec 1) : ofBit (bit1 b) = b := by
  obtain rfl | rfl := BitVec.eq_zero_or_eq_one b <;> rfl

/-- The code of a source names that source. -/
@[simp] theorem Source.ofCode_code (s : Source) : Source.ofCode s.code = some s := by
  cases s with
  | input k =>
    have small : k.val < 16 := by omega
    simp [Source.ofCode, Source.code, Source.index, Nat.mod_eq_of_lt small]
  | cue n =>
    have small : 8 + n.val < 16 := by omega
    simp [Source.ofCode, Source.code, Source.index, Nat.mod_eq_of_lt small]

/-- Codes 0..7 name an input line, 8..11 a cue, and the others nothing (R179). -/
theorem Source.ofCode_cases (c : BitVec 4) :
    (∃ k, c.toNat < 8 ∧ Source.ofCode c = some (.input k)) ∨
      (∃ n, 8 ≤ c.toNat ∧ c.toNat < 12 ∧ Source.ofCode c = some (.cue n)) ∨
      (12 ≤ c.toNat ∧ Source.ofCode c = none) := by
  unfold Source.ofCode
  split
  · exact .inl ⟨_, by assumption, rfl⟩
  · split
    · exact .inr (.inl ⟨_, by omega, by omega, rfl⟩)
    · exact .inr (.inr ⟨by omega, rfl⟩)

theorem Source.ofCode_eq_none_iff (c : BitVec 4) : Source.ofCode c = none ↔ 12 ≤ c.toNat := by
  obtain ⟨k, range, e⟩ | ⟨n, -, range, e⟩ | ⟨range, e⟩ := Source.ofCode_cases c <;> simp [e] <;> omega

/-- The source that a code names has that code. -/
theorem Source.code_of_ofCode {c : BitVec 4} {s : Source} (h : Source.ofCode c = some s) : s.code = c := by
  unfold Source.ofCode at h
  split at h
  · cases h
    simp [Source.code, Source.index]
  · split at h
    · cases h
      have cue : 8 ≤ c.toNat := by omega
      simp [Source.code, Source.index, Nat.add_sub_cancel' cue]
    · cases h

/-! ## The first refused field (R68, R69) -/

namespace Composer

theorem cueSource_iff (c : Composer) : c.cueSource = true ↔ 8 ≤ c.source.toNat ∧ c.source.toNat < 12 := by
  unfold cueSource
  obtain ⟨k, range, e⟩ | ⟨n, low, high, e⟩ | ⟨range, e⟩ := Source.ofCode_cases c.source <;> simp [e] <;> omega

/-- The number of the first row that is refused is that of the head, if the head is refused. -/
theorem map_find?_cons {α : Type} (refused : Nat × α → Bool) (row : Nat × α) (rows : List (Nat × α)) :
    ((row :: rows).find? refused).map (·.1) =
      if refused row = true then some row.1 else (rows.find? refused).map (·.1) := by
  rw [List.find?_cons]
  cases refused row <;> rfl

/-- R69, R179: the first present field that holds a refused value. -/
theorem firstBad_eq (c : Composer) :
    c.firstBad =
      if c.kind = 0 then some 1
      else if c.kind = 4 ∧ c.pulseWidth = 0 then some 4
      else if c.kind = 5 ∧ c.mask = 0 then some 5
      else if c.form = 0 then some 8
      else if c.form = 2 ∧ (c.delay = 0 ∨ 2 ^ 46 < c.delay.toNat) then some 10
      else if c.form = 3 ∧ 12 ≤ c.source.toNat then some 11
      else if c.form = 3 ∧ c.count = 0 then some 12
      else if c.form = 3 ∧ 8 ≤ c.source.toNat ∧ c.offset = 0 then some 13
      else if c.report = 3 then some 21
      else none := by
  have rows : c.firstBad = (c.checks.find? fun row => row.2.1 && row.2.2).map (·.1) := rfl
  simp only [rows, checks, map_find?_cons, isOn, Bool.and_eq_true, Bool.or_eq_true, beq_iff_eq, decide_eq_true_eq,
    cueSource_iff, Option.isNone_iff_eq_none, Source.ofCode_eq_none_iff, Bool.false_eq_true, and_false, if_false,
    true_and, gt_iff_lt, List.find?_nil, Option.map_none]
  by_cases noSource : c.form = 3 ∧ 12 ≤ c.source.toNat
  · simp only [if_pos noSource]
  · have cueCode : c.form = 3 ∧ (8 ≤ c.source.toNat ∧ c.source.toNat < 12) ∧ c.offset = 0 ↔
        c.form = 3 ∧ 8 ≤ c.source.toNat ∧ c.offset = 0 := by
      have on : c.form = 3 → c.source.toNat < 12 := fun on => Nat.lt_of_not_le fun high => noSource ⟨on, high⟩
      exact and_congr_right fun h => by simp [on h]
    simp only [cueCode]

/-! ## The fields that a record leaves out (R1, R70) -/

/-- The composer with the fields that its kind, its timing form and its period make absent set to zero. -/
def trimmed (c : Composer) : Composer :=
  { c with
    line := if 1 ≤ c.kind.toNat ∧ c.kind.toNat ≤ 4 then c.line else 0
    pulseLevel := if c.kind = 4 then c.pulseLevel else 0
    pulseWidth := if c.kind = 4 then c.pulseWidth else 0
    mask := if c.kind = 5 then c.mask else 0
    pattern := if c.kind = 5 then c.pattern else 0
    cue := if c.kind = 6 then c.cue else 0
    due := if c.form = 1 then c.due else 0
    delay := if c.form = 2 then c.delay else 0
    source := if c.form = 3 then c.source else 0
    count := if c.form = 3 then c.count else 0
    offset := if c.form = 3 then c.offset else 0
    rehold := if c.form = 3 then c.rehold else 0
    runs := if c.period = 0 then 0 else c.runs }

/-- No absent field is checked (R69). -/
theorem trimmed_firstBad (c : Composer) : c.trimmed.firstBad = c.firstBad := by
  have width : c.kind = 4 ∧ c.trimmed.pulseWidth = 0 ↔ c.kind = 4 ∧ c.pulseWidth = 0 :=
    and_congr_right fun kind => by simp [trimmed, kind]
  have mask : c.kind = 5 ∧ c.trimmed.mask = 0 ↔ c.kind = 5 ∧ c.mask = 0 :=
    and_congr_right fun kind => by simp [trimmed, kind]
  have delay : c.form = 2 ∧ (c.trimmed.delay = 0 ∨ 2 ^ 46 < c.trimmed.delay.toNat) ↔
      c.form = 2 ∧ (c.delay = 0 ∨ 2 ^ 46 < c.delay.toNat) :=
    and_congr_right fun form => by simp [trimmed, form]
  have on : c.form = 3 → c.trimmed.source = c.source ∧ c.trimmed.count = c.count ∧ c.trimmed.offset = c.offset :=
    fun form => by simp [trimmed, form]
  have source : c.form = 3 ∧ 12 ≤ c.trimmed.source.toNat ↔ c.form = 3 ∧ 12 ≤ c.source.toNat :=
    and_congr_right fun form => by rw [(on form).1]
  have count : c.form = 3 ∧ c.trimmed.count = 0 ↔ c.form = 3 ∧ c.count = 0 :=
    and_congr_right fun form => by rw [(on form).2.1]
  have offset : c.form = 3 ∧ 8 ≤ c.trimmed.source.toNat ∧ c.trimmed.offset = 0 ↔
      c.form = 3 ∧ 8 ≤ c.source.toNat ∧ c.offset = 0 :=
    and_congr_right fun form => by rw [(on form).1, (on form).2.2]
  rw [firstBad_eq, firstBad_eq]
  simp only [← width, ← mask, ← delay, ← source, ← count, ← offset]
  rfl

theorem threeBits_cases (k : BitVec 3) :
    k = 0 ∨ k = 1 ∨ k = 2 ∨ k = 3 ∨ k = 4 ∨ k = 5 ∨ k = 6 ∨ k = 7 := by
  revert k
  decide

theorem twoBits_cases (f : BitVec 2) : f = 0 ∨ f = 1 ∨ f = 2 ∨ f = 3 := by
  revert f
  decide

theorem trimmed_action (c : Composer) : c.trimmed.action = c.action := by
  obtain kind | kind | kind | kind | kind | kind | kind | kind := threeBits_cases c.kind <;>
    simp [action, trimmed, kind]

theorem trimmed_timing {c : Composer} (form : c.form ≠ 0) : c.trimmed.timing = c.timing := by
  obtain h | h | h | h := twoBits_cases c.form
  · exact absurd h form
  all_goals simp [timing, trimmed, h]

/-- No absent field is copied (R70). -/
theorem trimmed_entry {c : Composer} (form : c.form ≠ 0) : c.trimmed.entry = c.entry := by
  have runs : (if c.period = 0 then 0 else c.trimmed.runs) = if c.period = 0 then 0 else c.runs := by
    simp +contextual [trimmed]
  rw [entry, entry, trimmed_action, trimmed_timing form]
  simp only [← runs]
  rfl

/-! ## From a composer to its entry and back (R17, R70) -/

theorem loadAction_action (z c : Composer) (kind : c.kind ≠ 0) :
    z.loadAction c.action =
      { z with
        kind := c.kind
        line := if 1 ≤ c.kind.toNat ∧ c.kind.toNat ≤ 4 then c.line else z.line
        pulseLevel := if c.kind = 4 then c.pulseLevel else z.pulseLevel
        pulseWidth := if c.kind = 4 then c.pulseWidth else z.pulseWidth
        mask := if c.kind = 5 then c.mask else z.mask
        pattern := if c.kind = 5 then c.pattern else z.pattern
        cue := if c.kind = 6 then c.cue else z.cue } := by
  obtain h | h | h | h | h | h | h | h := threeBits_cases c.kind
  · exact absurd h kind
  all_goals simp [action, loadAction, h]

theorem loadTiming_timing (z c : Composer) (form : c.form ≠ 0) (source : c.form = 3 → c.source.toNat < 12) :
    z.loadTiming c.timing =
      { z with
        form := c.form
        due := if c.form = 1 then c.due else z.due
        delay := if c.form = 2 then c.delay else z.delay
        source := if c.form = 3 then c.source else z.source
        count := if c.form = 3 then c.count else z.count
        offset := if c.form = 3 then c.offset else z.offset
        rehold := if c.form = 3 then c.rehold else z.rehold } := by
  obtain h | h | h | h := twoBits_cases c.form
  · exact absurd h form
  · simp [timing, loadTiming, h]
  · simp [timing, loadTiming, h]
  · obtain ⟨src, named⟩ : ∃ src, Source.ofCode c.source = some src := by
      rw [← Option.ne_none_iff_exists']
      exact mt (Source.ofCode_eq_none_iff _).mp (Nat.not_le.mpr (source h))
    simp [timing, loadTiming, h, named, Source.code_of_ofCode named]

theorem accepted_fields {c : Composer} (h : c.firstBad = none) :
    c.kind ≠ 0 ∧ c.form ≠ 0 ∧ (c.form = 3 → c.source.toNat < 12) ∧ c.report ≠ 3 := by
  have passed : ∀ {p : Prop} [Decidable p] (n : Nat) (o : Option Nat),
      (if p then some n else o) = none ↔ ¬ p ∧ o = none := by
    intro p _ n o
    by_cases hp : p <;> simp [hp]
  simp only [firstBad_eq, passed] at h
  obtain ⟨kind, -, -, form, -, source, -, -, report, -⟩ := h
  exact ⟨kind, form, fun on => Nat.lt_of_not_le fun high => source ⟨on, high⟩, report⟩

/-- QUERY of an entry made from an accepted composer gives that composer with its absent fields zero (R17, R70). -/
theorem ofEntry_entry {c : Composer} (h : c.firstBad = none) : ofEntry c.entry = c.trimmed := by
  obtain ⟨kind, form, source, report⟩ := accepted_fields h
  have policy : (ofEntry c.entry).policy = c.policy := by
    obtain h | h := BitVec.eq_zero_or_eq_one c.policy <;> simp [ofEntry, entry, h]
  have reportCode : (ofEntry c.entry).report = c.report := by
    obtain h | h | h | h := twoBits_cases c.report
    · simp [ofEntry, entry, h]
    · simp [ofEntry, entry, h]
    · simp [ofEntry, entry, h]
    · exact absurd h report
  have loaded : ofEntry c.entry =
      { (zero.loadAction c.action).loadTiming c.timing with
        period := c.period
        runs := if c.period = 0 then 0 else if c.period = 0 then 0 else c.runs
        policy := (ofEntry c.entry).policy
        tolerance := c.tolerance
        group := bits4 (fin16 c.group)
        tag := c.tag
        report := (ofEntry c.entry).report } := rfl
  rw [loaded, policy, reportCode, loadAction_action _ _ kind, loadTiming_timing _ _ form source, bits4_fin16]
  have runs : (if c.period = 0 then 0 else if c.period = 0 then 0 else c.runs) =
      if c.period = 0 then 0 else c.runs := by
    split_ifs <;> rfl
  rw [runs]
  rfl

/-! ## From an entry to its composer and back (R17) -/

theorem ofEntry_action (e : Entry) : (ofEntry e).action = e.action := by
  have loaded : (ofEntry e).action = (zero.loadAction e.action).action := by
    cases h : e.timing <;> simp only [ofEntry, h, loadTiming] <;> rfl
  rw [loaded]
  cases e.action <;> simp [loadAction, action]

theorem ofEntry_timing (e : Entry) : (ofEntry e).timing = e.timing := by
  have loaded : (ofEntry e).timing = ((zero.loadAction e.action).loadTiming e.timing).timing := rfl
  rw [loaded]
  cases e.timing <;> simp [loadTiming, timing]

/-- An entry comes back from the composer that QUERY loads, if its runs field is 0 where it is absent (R17). -/
theorem entry_ofEntry {e : Entry} (absent : e.period = 0 → e.runs = 0) : (ofEntry e).entry = e := by
  have runs : (ofEntry e).entry.runs = e.runs := by
    by_cases h : e.period = 0
    · simp only [entry, ofEntry, if_pos h, absent h]
    · simp only [entry, ofEntry, if_neg h]
  have policy : (ofEntry e).entry.policy = e.policy := by
    cases h : e.policy <;> simp [entry, ofEntry, h]
  have report : (ofEntry e).entry.report = e.report := by
    cases h : e.report <;> simp [entry, ofEntry, h]
  have group : (ofEntry e).entry.group = e.group := fin16_bits4 e.group
  calc (ofEntry e).entry
      = { action := (ofEntry e).action, timing := (ofEntry e).timing, period := e.period
          runs := (ofEntry e).entry.runs, policy := (ofEntry e).entry.policy, tolerance := e.tolerance
          group := (ofEntry e).entry.group, tag := e.tag, report := (ofEntry e).entry.report } := rfl
    _ = e := by rw [ofEntry_action, ofEntry_timing, runs, policy, group, report]

/-! ## The registers of the composer (R66, R179) -/

/-- Part of a part of a field. -/
theorem extractLsb'_extractLsb' {k : Nat} (x : BitVec k) {a len' start len : Nat} (h : start + len ≤ len') :
    (x.extractLsb' a len').extractLsb' start len = x.extractLsb' (a + start) len := by
  ext i hi
  simp [show start + i < len' by omega, Nat.add_assoc]

/-- Two neighbouring parts of a word, joined; the cut is given, since no unification finds it in a numeral. -/
theorem extractLsb'_join (w : Word) (hi lo m : Nat) {n : Nat} (h : hi = lo + n) :
    w.extractLsb' hi m ++ w.extractLsb' lo n = w.extractLsb' lo (m + n) :=
  BitVec.extractLsb'_append_extractLsb'_eq_extractLsb' h

theorem control_word (w : Word) : w.extractLsb' 12 4 ++ w.extractLsb' 8 4 ++ w.extractLsb' 7 1 ++ w.extractLsb' 6 1 ++
    w.extractLsb' 5 1 ++ w.extractLsb' 3 2 ++ w.extractLsb' 0 3 = w := by
  rw [extractLsb'_join w 12 8 4 rfl, extractLsb'_join w 8 7 8 rfl, extractLsb'_join w 7 6 9 rfl,
    extractLsb'_join w 6 5 10 rfl, extractLsb'_join w 5 3 11 rfl, extractLsb'_join w 3 0 13 rfl]
  exact BitVec.extractLsb'_eq_self

theorem tag_word (w : Word) : w.extractLsb' 8 8 ++ w.extractLsb' 0 8 = w := by
  rw [extractLsb'_join w 8 0 8 rfl]
  exact BitVec.extractLsb'_eq_self

theorem source_word (w : Word) :
    w.extractLsb' 14 2 ++ w.extractLsb' 12 2 ++ w.extractLsb' 8 4 ++ w.extractLsb' 0 8 = w := by
  rw [extractLsb'_join w 14 12 2 rfl, extractLsb'_join w 12 8 4 rfl, extractLsb'_join w 8 0 8 rfl]
  exact BitVec.extractLsb'_eq_self

section Cuts

open BitVec

/-- The words of a 32-bit field after a write of its low word, and of its high word. -/
theorem words_of_32 (x : BitVec 32) (w : Word) :
    ((x.extractLsb' 16 16 ++ w).extractLsb' 0 16 = w ∧
      (x.extractLsb' 16 16 ++ w).extractLsb' 16 16 = x.extractLsb' 16 16) ∧
    (w ++ x.extractLsb' 0 16).extractLsb' 0 16 = x.extractLsb' 0 16 ∧
      (w ++ x.extractLsb' 0 16).extractLsb' 16 16 = w :=
  ⟨⟨extractLsb'_append_eq_right, extractLsb'_append_eq_left⟩, extractLsb'_append_eq_right, extractLsb'_append_eq_left⟩

/-- The words of a 48-bit field after a write of its low word. -/
theorem words_of_48_low (x : BitVec 48) (w : Word) :
    (x.extractLsb' 16 32 ++ w).extractLsb' 0 16 = w ∧
      (x.extractLsb' 16 32 ++ w).extractLsb' 16 16 = x.extractLsb' 16 16 ∧
      (x.extractLsb' 16 32 ++ w).extractLsb' 32 16 = x.extractLsb' 32 16 :=
  ⟨extractLsb'_append_eq_right, (extractLsb'_append_eq_of_le (by decide)).trans (extractLsb'_extractLsb' x (by decide)),
    (extractLsb'_append_eq_of_le (by decide)).trans (extractLsb'_extractLsb' x (by decide))⟩

/-- The words of a 48-bit field after a write of its middle word. -/
theorem words_of_48_middle (x : BitVec 48) (w : Word) :
    (x.extractLsb' 32 16 ++ w ++ x.extractLsb' 0 16).extractLsb' 0 16 = x.extractLsb' 0 16 ∧
      (x.extractLsb' 32 16 ++ w ++ x.extractLsb' 0 16).extractLsb' 16 16 = w ∧
      (x.extractLsb' 32 16 ++ w ++ x.extractLsb' 0 16).extractLsb' 32 16 = x.extractLsb' 32 16 :=
  ⟨extractLsb'_append_eq_right, (extractLsb'_append_eq_of_le (by decide)).trans extractLsb'_append_eq_right,
    (extractLsb'_append_eq_of_le (by decide)).trans extractLsb'_append_eq_left⟩

/-- The words of a 48-bit field after a write of its high word. -/
theorem words_of_48_high (x : BitVec 48) (w : Word) :
    (w ++ x.extractLsb' 0 32).extractLsb' 0 16 = x.extractLsb' 0 16 ∧
      (w ++ x.extractLsb' 0 32).extractLsb' 16 16 = x.extractLsb' 16 16 ∧
      (w ++ x.extractLsb' 0 32).extractLsb' 32 16 = w :=
  ⟨(extractLsb'_append_eq_of_add_le (by decide)).trans (extractLsb'_extractLsb' x (by decide)),
    (extractLsb'_append_eq_of_add_le (by decide)).trans (extractLsb'_extractLsb' x (by decide)),
    extractLsb'_append_eq_left⟩

end Cuts

/-- A register reads back the word written, and the other sixteen read as before (R66). -/
theorem read_write (c : Composer) {n m : Nat} (w : Word) (hn : n ≤ 16) (hm : m ≤ 16) :
    (c.write n w).read m = if m = n then w else c.read m := by
  -- registers that have no field in common
  interval_cases n <;> interval_cases m <;> try rfl
  -- the register itself, and the other words of its field
  all_goals
    simp only [write, read, control_word, tag_word, source_word, words_of_32, words_of_48_low, words_of_48_middle,
      words_of_48_high, reduceIte, Nat.reduceEqDiff]

end Composer

end Sys2Proof.Machine

/-!
Staging and commit (R68 to R85), and the register writes without a row of their own (R176 to R179): what each handler
and each event answers, case by case.
-/

namespace Sys2Proof.Machine

/-! ## APPEND and COMMIT at the engine (R68, R74) -/

section Handlers

variable {s : State} (a : Args)

theorem appendTake_badField {n : Nat} (bad : s.ce.composer.firstBad = some n) :
    appendTake a s = answer { code := .badField, w1 := word n } s := by
  simp [appendTake, bad]

theorem appendTake_stageFull (accepted : s.ce.composer.firstBad = none) (full : 16 ≤ s.ce.staging.length) :
    appendTake a s = answer { code := .stageFull, w1 := word 16 } s := by
  simp [appendTake, accepted, full]

theorem appendTake_copies (accepted : s.ce.composer.firstBad = none) (room : s.ce.staging.length < 16) :
    appendTake a s =
      answer { code := .ok, w1 := word s.ce.staging.length, w2 := word (s.ce.staging.length + 1) }
        (s.withCe { s.ce with staging := s.ce.staging ++ [s.ce.composer.entry] }) := by
  simp [appendTake, accepted, room]

theorem commitTake_empty (empty : s.ce.staging = []) : commitTake a s = answer { code := .empty } s := by
  simp [commitTake, empty]

theorem commitTake_passed (staged : s.ce.staging ≠ []) : commitTake a s = some (s, .atStore) := by
  simp [commitTake, staged]

/-- APPEND reaches the staging list alone, and leaves the composer as it is (R68). -/
theorem appendTake_staging {s' : State} {stage : Stage} (answered : appendTake a s = some (s', stage)) :
    ∃ staging, s' = s.withCe { s.ce with staging := staging } := by
  unfold appendTake at answered
  split at answered
  · cases answered
    exact ⟨s.ce.staging, rfl⟩
  · split at answered
    · cases answered
      exact ⟨s.ce.staging, rfl⟩
    · cases answered
      exact ⟨_, rfl⟩

end Handlers

/-! ## The commit-start request (R75 to R77, R79) -/

section CommitStart

variable {s : State} {c : Byte} {a : Args}

theorem commitStart_waits (busy : s.ce.engine = .busy c a .atStore) (halts : s.mail.haltRequests ≠ 0) :
    commitStart s = s := by
  simp [commitStart, busy, halts]

theorem commitStart_taken (busy : s.ce.engine = .busy c a .atStore) (noHalt : s.mail.haltRequests = 0) :
    commitStart s = commitStartTaken a s := by
  simp [commitStart, busy, noHalt]

theorem commitStartTaken_range {i : Nat} (outside : firstOutOfRange s.tb.time s.ce.staging = some i) :
    commitStartTaken a s = complete commitCode { code := .range, w1 := word i } s := by
  simp [commitStartTaken, outside]

theorem commitStartTaken_noRoom (inside : firstOutOfRange s.tb.time s.ce.staging = none)
    (short : s.store.free.length < s.ce.staging.length) :
    commitStartTaken a s =
      complete commitCode
        { code := .noRoom, w1 := word s.store.free.length, w2 := word s.ce.staging.length } s := by
  simp [commitStartTaken, inside, short]

theorem commitStartTaken_reserves (inside : firstOutOfRange s.tb.time s.ce.staging = none)
    (room : s.ce.staging.length ≤ s.store.free.length) :
    commitStartTaken a s =
      (s.withStore (s.store.reserve s.ce.staging.length)).withCe { s.ce with engine := .committing a } := by
  simp [commitStartTaken, inside, room]

end CommitStart

theorem inWindow_iff (t0 due : Time) : inWindow t0 due = true ↔ -(2 ^ 32) ≤ dist t0 due ∧ dist t0 due ≤ 2 ^ 46 := by
  simp [inWindow]

/-- The record is an AT record whose due time lies outside the window of `t0` (R75). -/
def Entry.outOfRange (t0 : Time) (e : Entry) : Bool :=
  match e.timing with
  | .atTime due => !inWindow t0 due
  | _ => false

theorem Entry.outOfRange_iff (t0 : Time) (e : Entry) :
    e.outOfRange t0 = true ↔
      ∃ due, e.timing = .atTime due ∧ (dist t0 due < -(2 ^ 32) ∨ 2 ^ 46 < dist t0 due) := by
  unfold Entry.outOfRange
  cases e.timing with
  | atTime due =>
    rw [Bool.not_eq_true', ← Bool.not_eq_true, inWindow_iff]
    simp
    omega
  | afterDelay delay => simp
  | onTrigger source count offset rehold => simp

theorem Entry.not_outOfRange_iff (t0 : Time) (e : Entry) :
    ¬ e.outOfRange t0 = true ↔
      ∀ due, e.timing = .atTime due → -(2 ^ 32) ≤ dist t0 due ∧ dist t0 due ≤ 2 ^ 46 := by
  rw [Entry.outOfRange_iff]
  push Not
  rfl

/-- The range check reports the first record that is out of range (R75). -/
theorem firstOutOfRange_eq_some_iff (t0 : Time) (batch : List Entry) (i : Nat) :
    firstOutOfRange t0 batch = some i ↔
      ∃ h : i < batch.length, batch[i].outOfRange t0 = true ∧
        ∀ (j : Nat) (hj : j < i), ¬ batch[j].outOfRange t0 = true :=
  List.findIdx?_eq_some_iff_getElem

/-! ## Merge completion (R80, R81) -/

theorem Store.goLiveAll_eq_foldl (tc : Time) (batch : List (Fin 128 × Entry)) (st : Store) :
    st.goLiveAll tc batch = batch.foldl (fun st x => st.goLive tc x.1 x.2) st := by
  induction batch generalizing st with
  | nil => rfl
  | cons x xs ih => exact ih _

/-- RESULT2 of a merge completion: the first handle of the batch, 0 for an empty one (R82). -/
def firstHandle (s : State) : Word := ((batchHandles s).head?.map Handle.toWord).getD 0

theorem firstHandle_eq (s : State) :
    firstHandle s =
      match s.store.reserved with
      | k :: _ => Handle.toWord ⟨k, s.store.gens[k]⟩
      | [] => 0 := by
  unfold firstHandle batchHandles
  cases s.store.reserved <;> rfl

theorem mergeCompletion_committing {s : State} {a : Args} (committing : s.ce.engine = .committing a) :
    mergeCompletion s =
      complete commitCode { code := .ok, w1 := word s.ce.staging.length, w2 := firstHandle s }
        ((s.withStore (batchLive s)).withCe { s.ce with staging := [], handles := batchHandles s }) := by
  simp only [mergeCompletion, committing, firstHandle]
  cases batchHandles s <;> rfl

section GoLive

variable (st : Store) (tc : Time) (k : Fin 128) {e : Entry}

/-- An AT record goes to the agenda, or to the parked set of its suspended group (R81). -/
theorem Store.goLive_atTime {due : Time} (timing : e.timing = .atTime due) :
    st.goLive tc k e =
      if st.suspended e.group then st.joinParked e.group ⟨⟨k, e, e.fullRuns, 0⟩, remainingAt tc due⟩
      else st.place tc ⟨⟨k, e, e.fullRuns, 0⟩, due⟩ := by
  simp only [Store.goLive, timing]

/-- An AFTER record counts its delay from the completion (R81). -/
theorem Store.goLive_afterDelay {delay : BitVec 48} (timing : e.timing = .afterDelay delay) :
    st.goLive tc k e =
      if st.suspended e.group then st.joinParked e.group ⟨⟨k, e, e.fullRuns, 0⟩, delay.toNat⟩
      else st.place tc ⟨⟨k, e, e.fullRuns, 0⟩, tc + delay⟩ := by
  simp only [Store.goLive, timing]

/-- An ON record joins the held list of its source (R81). -/
theorem Store.goLive_onTrigger {source : Source} {count : BitVec 8} {offset : BitVec 32} {rehold : Bool}
    (timing : e.timing = .onTrigger source count offset rehold) :
    st.goLive tc k e = st.joinHeld source ⟨⟨k, e, e.fullRuns, 0⟩, count.toNat⟩ := by
  simp only [Store.goLive, timing]

end GoLive

/-! ## ABORT (R85, R185) -/

theorem isAbortWord_iff (w : Word) : isAbortWord w = true ↔ w.getLsbD 1 = true ∧ w.getLsbD 0 = false := by
  simp [isAbortWord]

theorem abortWrite_carried {s : State} {w : Word} {p : Port} (abort : isAbortWord w = true)
    (carried : s.hp.port.admitWrite 0x02 = some p) :
    abortWrite w s = abandon .aborted (s.withHp { s.hp with port := p }) := by
  rw [abortWrite, if_pos abort, serveWrite_carried _ carried]

/-! ## Register writes (R66, R67, R176 to R179) -/

section WriteReg

variable (ce : CommandEngine) (w : Word)

theorem CommandEngine.writeReg_arg0 : ce.writeReg 0x03 w = { ce with args := { ce.args with a0 := w } } := rfl
theorem CommandEngine.writeReg_arg1 : ce.writeReg 0x04 w = { ce with args := { ce.args with a1 := w } } := rfl
theorem CommandEngine.writeReg_arg2 : ce.writeReg 0x05 w = { ce with args := { ce.args with a2 := w } } := rfl
theorem CommandEngine.writeReg_arg3 : ce.writeReg 0x06 w = { ce with args := { ce.args with a3 := w } } := rfl
theorem CommandEngine.writeReg_hsel : ce.writeReg 0x10 w = { ce with hsel := w.extractLsb' 0 8 } := rfl

/-- The composer registers stand at 0x20..0x30 (R177). -/
theorem CommandEngine.writeReg_composer {a : Addr} {n : Nat} (hn : n ≤ 16) (h : a.toNat = 0x20 + n) :
    ce.writeReg a w = { ce with composer := ce.composer.write n w } := by
  have other : ∀ x : Addr, x.toNat < 0x20 → a ≠ x := by
    rintro x low rfl
    omega
  have range : 0x20 ≤ a.toNat ∧ a.toNat ≤ 0x30 := by omega
  rw [CommandEngine.writeReg, if_neg (other _ (by decide)), if_neg (other _ (by decide)), if_neg (other _ (by decide)),
    if_neg (other _ (by decide)), if_neg (other _ (by decide)), if_pos range, h, Nat.add_sub_cancel_left]

/-- Every other address stores nothing (R176). -/
theorem CommandEngine.writeReg_ignored {a : Addr}
    (h : a.toNat < 3 ∨ (6 < a.toNat ∧ a.toNat < 0x10) ∨ (0x10 < a.toNat ∧ a.toNat < 0x20) ∨ 0x30 < a.toNat) :
    ce.writeReg a w = ce := by
  have other : ∀ x : Addr, 3 ≤ x.toNat ∧ x.toNat ≤ 6 ∨ x.toNat = 0x10 → a ≠ x := by
    rintro x stored rfl
    omega
  have range : ¬ (0x20 ≤ a.toNat ∧ a.toNat ≤ 0x30) := by omega
  rw [CommandEngine.writeReg, if_neg (other _ (by decide)), if_neg (other _ (by decide)), if_neg (other _ (by decide)),
    if_neg (other _ (by decide)), if_neg (other _ (by decide)), if_neg range]

end WriteReg

theorem beforeWrite_beside {a : Addr} (s : State) (h : a.toNat < 0x20 ∨ 0x30 < a.toNat) : beforeWrite a s = s :=
  if_neg (by omega)

theorem beforeWrite_composer {a : Addr} (s : State) (h : 0x20 ≤ a.toNat ∧ a.toNat ≤ 0x30) :
    beforeWrite a s = commandTake 0x01 appendTake s :=
  if_pos h

/-- An APPEND that is taken reaches the Command Engine alone, and there not the composer (R67, R68). -/
theorem commandTake_append (s : State) :
    ∃ ce, commandTake 0x01 appendTake s = s.withCe ce ∧ ce.composer = s.ce.composer := by
  obtain e | ⟨a, n, s', stage, busy, answered, e⟩ := commandTake_cases 0x01 appendTake s
  · exact ⟨s.ce, e, rfl⟩
  · obtain ⟨staging, rfl⟩ := appendTake_staging a answered
    exact ⟨_, e, rfl⟩

theorem commandTake_append_not_waiting {s : State} (h : ∀ args n, s.ce.engine ≠ .busy 0x01 args (.accepted n)) :
    commandTake 0x01 appendTake s = s := by
  obtain e | ⟨a, n, s', stage, busy, -⟩ := commandTake_cases 0x01 appendTake s
  · exact e
  · exact absurd busy (h a n)

theorem appendTake_withHp (x : HostPort) (a : Args) (s : State) :
    appendTake a (s.withHp x) = (appendTake a s).map (Prod.map (·.withHp x) id) := by
  cases checked : s.ce.composer.firstBad with
  | some n =>
    rw [appendTake_badField a checked, appendTake_badField (s := s.withHp x) a checked]
    rfl
  | none =>
    obtain room | full := Nat.lt_or_ge s.ce.staging.length 16
    · rw [appendTake_copies a checked room, appendTake_copies (s := s.withHp x) a checked room]
      rfl
    · rw [appendTake_stageFull a checked full, appendTake_stageFull (s := s.withHp x) a checked full]
      rfl

/-- A request whose handler does not see the port is taken alike whatever the port's state. -/
theorem commandTake_withHp {code : Byte} {handler : Handler} {x : HostPort}
    (hh : ∀ a s, handler a (s.withHp x) = (handler a s).map (Prod.map (·.withHp x) id)) (s : State) :
    commandTake code handler (s.withHp x) = (commandTake code handler s).withHp x := by
  simp only [commandTake, State.withHp_ce, hh]
  split
  · split
    · rename_i args _ _ _
      cases handler args s <;> rfl
    · rfl
  · rfl

theorem beforeWrite_withHp (x : HostPort) (a : Addr) (s : State) :
    beforeWrite a (s.withHp x) = (beforeWrite a s).withHp x := by
  unfold beforeWrite
  split
  · exact commandTake_withHp (appendTake_withHp x) s
  · rfl

/-- A register write that the port carries, behind what is taken ahead of it (R67, R176). -/
theorem registerWrite_carried {s : State} {a : Addr} {w : Word} {p : Port} (noRow : hasOwnRow a w = false)
    (carried : s.hp.port.admitWrite a = some p) :
    registerWrite a w s =
      ((beforeWrite a s).withHp { s.hp with port := p }).withCe ((beforeWrite a s).ce.writeReg a w) := by
  rw [registerWrite, noRow, if_neg Bool.false_ne_true, serveWrite_carried _ carried, beforeWrite_withHp,
    State.withHp_ce]

/-! ## A COMMAND write that names no command (R181, R182) -/

theorem badCommand_idle {s : State} {w : Word} {p : Port} (unnamed : namesCommand w = false)
    (carried : s.hp.port.admitWrite 0x07 = some p) (idle : s.ce.engine = .idle) :
    badCommand w s = complete (w.extractLsb' 0 8) { code := .badCmd } (s.withHp { s.hp with port := p }) := by
  rw [badCommand, unnamed, if_neg Bool.false_ne_true, serveWrite_carried _ carried]
  simp only [State.withHp_ce, idle]

theorem badCommand_refused {s : State} {w : Word} {p : Port} (unnamed : namesCommand w = false)
    (carried : s.hp.port.admitWrite 0x07 = some p) (busy : s.ce.engine ≠ .idle) :
    badCommand w s = (s.withHp { s.hp with port := p }).withEq s.eq.raiseRej := by
  rw [badCommand, unnamed, if_neg Bool.false_ne_true, serveWrite_carried _ carried]
  cases engine : s.ce.engine with
  | idle => exact absurd engine busy
  | busy | committing => simp only [State.withHp_ce, engine, State.withHp_eq]

end Sys2Proof.Machine

/-!
The statements of the family "Staging and commit".
-/

namespace Sys2Proof.Proofs

open Sys2Proof.Machine Sys2Proof.Safety Sys2Proof.Stated

/-- Settles O9: a step is a command on the rest of the queue, and every command keeps the counts in range. -/
theorem stepKeepsCountsBounded : Obligations.StepKeepsCountsBounded := by
  intro s t hs h
  unfold step at h
  split at h
  · injection h with h
    exact h ▸ hs
  · rename_i c rest _
    exact exec_countsBounded (s := s.withPending rest) hs h

/-- A host command that is accepted and passed on to the Schedule Store stays BUSY there (R74). -/
theorem exec_whole_passed {s : State} {p : Port} {code : Byte} {handler : Handler} {s' : State} (ht : TakesCommand s p)
    (hh : handler s.ce.args (s.accepted p code) = some (s', .atStore)) :
    unlessInReset s (runCommand code handler .whole) =
      .next (s'.withCe { s'.ce with engine := .busy code s.ce.args .atStore }) := by
  obtain ⟨⟨released, carried⟩, idle⟩ := ht
  have accepted : commandWrite code (s.withHp { s.hp with port := p }) = s.accepted p code :=
    commandWrite_idle (s := s.withHp { s.hp with port := p }) idle code
  rw [unlessInReset_released _ released, (runCommand_carried code handler carried).2]
  simp [commandWhole, idle, accepted, commandTake, commandComplete, hh]

/-- Settles O20, by the three ways APPEND's handler can answer and the rows that it checks. -/
theorem appendOutcomes : Obligations.AppendOutcomes := by
  refine ⟨fun s p ht => ⟨fun n bad => ?_, fun accepted full => ?_, fun accepted room => ?_⟩, Composer.firstBad_eq⟩
  · exact exec_whole_refused ht (appendTake_badField _ bad)
  · exact exec_whole_refused ht (appendTake_stageFull _ accepted full)
  · exact exec_whole_answered ht (appendTake_copies (s := s.accepted p 0x01) _ accepted room)

/-- Settles O22, by the answers of the two handlers. -/
theorem discardAndCommitOutcomes : Obligations.DiscardAndCommitOutcomes := by
  refine ⟨fun s p ht => ?_, fun s p ht => ⟨fun empty => ?_, fun staged => ?_⟩⟩
  · exact exec_whole_answered (handler := discardTake) ht rfl
  · exact exec_whole_refused ht (commitTake_empty _ empty)
  · exact (exec_whole_passed ht (commitTake_passed (s := s.accepted p 0x03) _ staged)).trans rfl

/-- Settles O21: QUERY of an appended entry loads the trimmed composer, which the checks and the copy do not tell from
the whole one. -/
theorem composerRoundTrips : Obligations.ComposerRoundTrips := by
  refine ⟨fun c accepted => ?_, fun e absent => Composer.entry_ofEntry absent,
    fun c n m w hn hm => c.read_write w hn hm⟩
  obtain ⟨-, form, -⟩ := Composer.accepted_fields accepted
  rw [Composer.ofEntry_entry accepted, Composer.trimmed_firstBad, Composer.trimmed_entry form]
  exact ⟨accepted, rfl, rfl⟩

/-- Settles O23, by what the Schedule Store finds when it takes the request. -/
theorem commitStartAndRangeCheck : Obligations.CommitStartAndRangeCheck := by
  refine ⟨fun s c a released busy => ⟨fun halts => ?_, fun noHalt => ?_⟩, fun t0 batch i => ?_⟩
  · exact event_released released (commitStart_waits busy halts)
  · have taken := commitStart_taken busy noHalt
    refine ⟨fun i outside => ?_, fun inside short => ?_, fun inside room => ?_⟩
    · exact event_released released (taken.trans (commitStartTaken_range outside))
    · exact event_released released (taken.trans (commitStartTaken_noRoom inside short))
    · exact event_released released (taken.trans (commitStartTaken_reserves inside room))
  · simp only [firstOutOfRange_eq_some_iff, Entry.not_outOfRange_iff]
    simp only [Entry.outOfRange_iff]

/-- Settles O24: the completion is `mergeCompletion`, and each record goes live by its timing form. -/
theorem mergeCompletionOutcome : Obligations.MergeCompletionOutcome := by
  refine ⟨fun s a released committing => ?_, ?_⟩
  · refine event_released released ((mergeCompletion_committing committing).trans ?_)
    rw [firstHandle_eq, batchLive, Store.goLiveAll_eq_foldl]
    rfl
  · rintro st tc k e l rfl
    rw [← Entry.fullRuns_eq]
    refine ⟨fun due timing => ?_, fun delay timing => ?_, fun source count offset rehold timing => ?_⟩
    · rw [st.goLive_atTime tc k timing]
      exact ⟨fun h => if_neg (by simp [h]), fun h => if_pos h⟩
    · rw [st.goLive_afterDelay tc k timing]
      exact ⟨fun h => if_neg (by simp [h]), fun h => if_pos h⟩
    · exact st.goLive_onTrigger tc k timing

/-- Settles O25: an ABORT that the port carries is an abandonment. -/
theorem abortOutcomes : Obligations.AbortOutcomes := by
  rintro s p w ⟨released, carried⟩ abort noReset
  have abandons := abortWrite_carried ((isAbortWord_iff w).mpr ⟨abort, noReset⟩) carried
  refine ⟨fun a committing => ?_, fun outside => ?_⟩
  · exact event_released released (abandons.trans (abandon_committing .aborted committing))
  · exact event_released released (abandons.trans (abandon_not_committing .aborted outside))

/-- Settles O59: a composer write finds the engine as a waiting APPEND leaves it, any other write as it stands. -/
theorem registerAndBadCommandWrites : Obligations.RegisterAndBadCommandWrites := by
  refine ⟨?_, ?_⟩
  · rintro s p a w ⟨released, carried⟩ noRow
    have written := registerWrite_carried noRow carried
    by_cases composer : 0x20 ≤ a.toNat ∧ a.toNat ≤ 0x30
    · have other : ∀ x : Addr, x.toNat < 0x20 → a ≠ x := by
        rintro x low rfl
        omega
      obtain ⟨ce, taken, kept⟩ := commandTake_append s
      rw [beforeWrite_composer _ composer, taken] at written
      refine ⟨ce.writeReg a w, event_released released written,
        fun h => absurd h (other _ (by decide)), fun h => absurd h (other _ (by decide)),
        fun h => absurd h (other _ (by decide)), fun h => absurd h (other _ (by decide)),
        fun h => absurd h (other _ (by decide)), fun n hn address => ?_, fun h => by omega⟩
      rw [ce.writeReg_composer w hn address, kept]
      refine ⟨fun t h => ?_, fun notWaiting => ?_⟩
      · obtain rfl : t = commandTake 0x01 appendTake s := next_of_released released h
        rw [taken, State.withCe_ce]
      · obtain rfl : s.ce = ce := congrArg State.ce ((commandTake_append_not_waiting notWaiting).symm.trans taken)
        rfl
    · rw [beforeWrite_beside _ (by omega)] at written
      refine ⟨s.ce.writeReg a w, event_released released written, ?_, ?_, ?_, ?_, ?_, fun n hn address => by omega,
        s.ce.writeReg_ignored w⟩
      · rintro rfl
        exact s.ce.writeReg_arg0 w
      · rintro rfl
        exact s.ce.writeReg_arg1 w
      · rintro rfl
        exact s.ce.writeReg_arg2 w
      · rintro rfl
        exact s.ce.writeReg_arg3 w
      · rintro rfl
        exact s.ce.writeReg_hsel w
  · rintro s p w ⟨released, carried⟩ unnamed
    refine ⟨fun idle => ?_, fun busy => ?_⟩
    · exact event_released released (badCommand_idle unnamed carried idle)
    · exact event_released released (badCommand_refused unnamed carried busy)

end Sys2Proof.Proofs

/-!
The walk of a held list (R92), entry by entry, and a trigger event as one update of the Schedule Store.
-/

namespace Sys2Proof.Machine

/-! ## The walk of a held list (R92, R103) -/

section Walk

variable (suspended : Fin 16 → Bool) (l : List HeldEntry)

/-- A walk passes over the entries of suspended groups and lowers the countdown of every other entry that it does not
arm. -/
theorem walkHeld_stay :
    (walkHeld suspended l).stay =
      (l.filter fun h => suspended h.live.entry.group || decide (1 < h.countdown)).map fun h =>
        if suspended h.live.entry.group then h else { h with countdown := h.countdown - 1 } := by
  induction l with
  | nil => rfl
  | cons h hs ih =>
    cases passed : suspended h.live.entry.group with
    | true => simp [walkHeld, passed, ih]
    | false =>
      by_cases reached : h.countdown ≤ 1
      · simp [walkHeld, passed, ih, Nat.sub_eq_zero_of_le reached, Nat.not_lt.mpr reached]
      · simp [walkHeld, passed, ih, Nat.sub_eq_zero_iff_le, reached, Nat.lt_of_not_le reached]

/-- A walk arms the entries of running groups whose countdown reaches 0. -/
theorem walkHeld_armed :
    (walkHeld suspended l).armed =
      (l.filter fun h => !suspended h.live.entry.group && decide (h.countdown ≤ 1)).map (·.live) := by
  induction l with
  | nil => rfl
  | cons h hs ih =>
    cases passed : suspended h.live.entry.group with
    | true => simp [walkHeld, passed, ih]
    | false => by_cases reached : h.countdown ≤ 1 <;> simp [walkHeld, passed, ih, Nat.sub_eq_zero_iff_le, reached]

/-- A walk counts the entries of suspended groups as passed over. -/
theorem walkHeld_passed : (walkHeld suspended l).passed = l.countP fun h => suspended h.live.entry.group := by
  induction l with
  | nil => rfl
  | cons h hs ih =>
    cases passed : suspended h.live.entry.group with
    | true => simp [walkHeld, passed, ih]
    | false => by_cases reached : h.countdown - 1 = 0 <;> simp [walkHeld, passed, ih, reached]

/-- A walk counts each entry once, as lowered or as passed over. -/
theorem walkHeld_lowered_add_passed : (walkHeld suspended l).lowered + (walkHeld suspended l).passed = l.length := by
  induction l with
  | nil => rfl
  | cons h hs ih =>
    rw [List.length_cons, ← ih, walkHeld]
    split
    · exact (Nat.add_assoc _ _ 1).symm
    · split <;> exact Nat.add_right_comm _ 1 _

/-- What stays in a held list is there already, with its countdown lowered or not. -/
theorem mem_walkHeld_stay {h : HeldEntry} (stays : h ∈ (walkHeld suspended l).stay) : ∃ h' ∈ l, h'.live = h.live := by
  rw [walkHeld_stay] at stays
  obtain ⟨h', kept, rfl⟩ := List.mem_map.mp stays
  refine ⟨h', List.mem_of_mem_filter kept, ?_⟩
  split <;> rfl

/-- No entry of a suspended group is armed (R103). -/
theorem mem_walkHeld_armed {x : Live} (armed : x ∈ (walkHeld suspended l).armed) :
    suspended x.entry.group = false := by
  rw [walkHeld_armed] at armed
  obtain ⟨h, taken, rfl⟩ := List.mem_map.mp armed
  have test := List.of_mem_filter taken
  rw [Bool.and_eq_true, Bool.not_eq_true'] at test
  exact test.1

end Walk

/-- A trigger event leaves the rest of its held list and places the armed entries one after another (R92). -/
theorem Store.trigger_eq (st : Store) (now : Time) (src : Source) (t : Time) :
    st.trigger now src t =
      { st with
        held := st.held.set src.index (st.walk src).stay
        agenda :=
          (st.walk src).armed.foldl
            (fun agenda l => insertPending now ⟨l, later t l.entry.offset⟩ agenda) st.agenda } := by
  rw [Store.trigger, Store.placeAll_eq, List.foldl_map]

/-! ## The event that waits on a source (R91, R94, R95) -/

theorem triggerEvent_cue_none {s : State} (empty : s.mail.cues = []) : triggerEvent .cue s = s := by
  simp only [triggerEvent, empty]

theorem triggerEvent_cue_waiting {s : State} {n : Fin 4} {t : Time} {rest : List (Fin 4 × Time)}
    (waiting : s.mail.cues = (n, t) :: rest) :
    triggerEvent .cue s =
      (s.withStore (s.store.trigger s.tb.time (.cue n) t)).withMail { s.mail with cues := rest } := by
  simp only [triggerEvent, waiting]

theorem triggerEvent_input_none {s : State} {k : Fin 8} (noneWaits : ∀ x ∈ s.mail.inputTriggers, x.1 ≠ k) :
    triggerEvent (.input k) s = s := by
  have notFound : s.mail.inputTriggers.find? (fun x => x.1 == k) = none := by simpa using noneWaits
  simp only [triggerEvent, notFound]

/-- The oldest event that waits on an input source is taken out from among the events of the other sources. -/
theorem triggerEvent_input_waiting {s : State} {k : Fin 8} {t : Time} {before after : List (Fin 8 × Time)}
    (waiting : s.mail.inputTriggers = before ++ (k, t) :: after) (oldest : ∀ x ∈ before, x.1 ≠ k) :
    triggerEvent (.input k) s =
      (s.withStore (s.store.trigger s.tb.time (.input k) t)).withMail
        { s.mail with inputTriggers := before ++ after } := by
  have found : s.mail.inputTriggers.find? (fun x => x.1 == k) = some (k, t) := by
    have skipped : before.find? (fun x => x.1 == k) = none := by simpa using oldest
    simp [waiting, skipped]
  have left : s.mail.inputTriggers.eraseP (fun x => x.1 == k) = before ++ after := by
    rw [waiting, List.eraseP_append_right _ (by simpa using oldest)]
    simp
  simp only [triggerEvent, found, left]

/-! ## FIRE-CUE (R97) -/

theorem argBelow4_none {w : Word} (h : 4 ≤ w.toNat) : argBelow4 w = none := dif_neg (Nat.not_lt.mpr h)

theorem argBelow4_some {w : Word} {n : Fin 4} (h : w.toNat = n.val) : argBelow4 w = some n := by
  have below : w.toNat < 4 := h ▸ n.isLt
  exact (dif_pos below).trans (congrArg some (Fin.ext h))

section FireCue

variable {s : State} (a : Args)

theorem fireCueTake_badArg (above : 4 ≤ a.a0.toNat) : fireCueTake a s = answer { code := .badArg } s := by
  simp only [fireCueTake, argBelow4_none above]

theorem fireCueTake_fires {n : Fin 4} (below : a.a0.toNat = n.val) :
    fireCueTake a s =
      answer
        { code := .ok
          w1 := word (s.store.walk (.cue n)).lowered
          w2 := word (s.store.walk (.cue n)).armed.length
          w3 := word (s.store.walk (.cue n)).passed }
        (s.withStore (s.store.trigger s.tb.time (.cue n) s.tb.time)) := by
  simp only [fireCueTake, argBelow4_some below]

end FireCue

end Sys2Proof.Machine

/-!
Where the entries lie (R90, R110, note after R23): every operation of the Schedule Store keeps each entry where its
source and its group put it.
-/

namespace Sys2Proof.Machine

/-- Serving an entry writes no group record. -/
theorem Store.settleEntry_groups (st : Store) (T : Time) (l : Live) (a : Account) :
    (st.settleEntry T l a).groups = st.groups := by
  obtain ⟨_, _, -, e⟩ | ⟨-, -, e⟩ | ⟨-, e⟩ := st.settleEntry_cases T l a <;> rw [e] <;> rfl

/-- Placements do not see the suspended flags. -/
theorem Store.placeAll_setSuspended (st : Store) (now : Time) (xs : List PendingEntry) (g : Fin 16) (b : Bool) :
    (st.setSuspended g b).placeAll now xs = (st.placeAll now xs).setSuspended g b := by
  simp only [Store.placeAll_eq, Store.setSuspended]

/-- Filtering the lists of a bank adds nothing to them. -/
theorem mapBank_filter_subset {α : Type} {n : Nat} (v : Vector (List α) n) (p : α → Bool) (i : Fin n) :
    (mapBank v fun _ l => l.filter p)[i] ⊆ v[i] := by
  rw [getElem_fin_mapBank]
  exact List.filter_subset_self _

end Sys2Proof.Machine

namespace Sys2Proof.Safety

open Sys2Proof.Machine

section Placed

variable {st : Store} (hs : EntriesPlaced st)
include hs

/-! ## Entries that stay, join a collection or leave one -/

/-- An operation that adds no entry to a collection and writes no suspended flag keeps the entries placed. -/
theorem EntriesPlaced.of_subset {st' : Store} (held : ∀ i : Fin 12, st'.held[i] ⊆ st.held[i])
    (parked : ∀ g : Fin 16, st'.parked[g] ⊆ st.parked[g]) (agenda : st'.agenda ⊆ st.agenda)
    (flags : ∀ g, st'.suspended g = st.suspended g) : EntriesPlaced st' := by
  obtain ⟨hheld, hparked, hagenda⟩ := hs
  refine ⟨fun i h hm => hheld i h (held i hm), fun g q hm => ?_, fun p hm => ?_⟩
  · rw [flags]
    exact hparked g q (parked g hm)
  · rw [flags]
    exact hagenda p (agenda hm)

/-- An entry of a running group may be placed (note after R23). -/
theorem EntriesPlaced.place (now : Time) {x : PendingEntry} (running : st.suspended x.live.entry.group = false) :
    EntriesPlaced (st.place now x) := by
  obtain ⟨hheld, hparked, hagenda⟩ := hs
  refine ⟨hheld, hparked, fun p hm => ?_⟩
  obtain rfl | hm := (mem_insertPending now x p st.agenda).mp hm
  · exact running
  · exact hagenda p hm

/-- Entries of running groups may be placed one after another (note after R23). -/
theorem EntriesPlaced.placeAll (now : Time) {xs : List PendingEntry}
    (running : ∀ x ∈ xs, st.suspended x.live.entry.group = false) : EntriesPlaced (st.placeAll now xs) := by
  induction xs generalizing st with
  | nil => exact hs
  | cons x xs ih =>
    obtain ⟨first, others⟩ := List.forall_mem_cons.mp running
    exact ih (hs.place now first) others

/-- A held list may be replaced by ON entries of its source (R90). -/
theorem EntriesPlaced.setHeld {src : Source} {l : List HeldEntry}
    (own : ∀ h ∈ l, ∃ source count offset rehold,
      h.live.entry.timing = .onTrigger source count offset rehold ∧ source.index = src.index) :
    EntriesPlaced { st with held := st.held.set src.index l } := by
  obtain ⟨hheld, hparked, hagenda⟩ := hs
  refine ⟨fun i h hm => ?_, hparked, hagenda⟩
  rw [getElem_fin_set] at hm
  split at hm
  · rename_i here
    exact here ▸ own h hm
  · exact hheld i h hm

/-- An ON entry may join the held list of its source (R90). -/
theorem EntriesPlaced.joinHeld {src : Source} {h : HeldEntry} {count : BitVec 8} {offset : BitVec 32} {rehold : Bool}
    (own : h.live.entry.timing = .onTrigger src count offset rehold) : EntriesPlaced (st.joinHeld src h) := by
  refine hs.setHeld fun x hm => ?_
  obtain hm | hm := List.mem_append.mp hm
  · exact hs.1 src.index x hm
  · obtain rfl := List.mem_singleton.mp hm
    exact ⟨src, count, offset, rehold, own, rfl⟩

/-- An entry of a suspended group may join the parked set of its group (R110). -/
theorem EntriesPlaced.joinParked {q : ParkedEntry} (suspended : st.suspended q.live.entry.group = true) :
    EntriesPlaced (st.joinParked q.live.entry.group q) := by
  obtain ⟨hheld, hparked, hagenda⟩ := hs
  refine ⟨hheld, fun g x hm => ?_, hagenda⟩
  rw [Store.joinParked_parked, getElem_fin_set] at hm
  split at hm
  · rename_i here
    subst here
    obtain hm | hm := List.mem_append.mp hm
    · exact hparked _ x hm
    · obtain rfl := List.mem_singleton.mp hm
      exact ⟨rfl, suspended⟩
  · exact hparked g x hm

/-! ## The operations of the Schedule Store -/

/-- A record goes live in the list of its source, in the set of its suspended group, or in the agenda (R81). -/
theorem EntriesPlaced.goLive (tc : Time) (k : Fin 128) (e : Entry) : EntriesPlaced (st.goLive tc k e) := by
  have timed : ∀ remaining due,
      EntriesPlaced
        (if st.suspended e.group then st.joinParked e.group ⟨⟨k, e, e.fullRuns, 0⟩, remaining⟩
        else st.place tc ⟨⟨k, e, e.fullRuns, 0⟩, due⟩) := by
    intro remaining due
    split
    · rename_i suspended
      exact hs.joinParked (q := ⟨⟨k, e, e.fullRuns, 0⟩, remaining⟩) suspended
    · rename_i running
      exact hs.place tc (Bool.eq_false_of_not_eq_true running)
  cases timing : e.timing with
  | atTime due =>
    rw [st.goLive_atTime tc k timing]
    exact timed _ _
  | afterDelay delay =>
    rw [st.goLive_afterDelay tc k timing]
    exact timed _ _
  | onTrigger source count offset rehold =>
    rw [st.goLive_onTrigger tc k timing]
    exact hs.joinHeld timing

theorem EntriesPlaced.goLiveAll (tc : Time) (batch : List (Fin 128 × Entry)) : EntriesPlaced (st.goLiveAll tc batch) :=
  Store.goLiveAll_keeps (P := EntriesPlaced) tc (fun _ k e placed => placed.goLive tc k e) batch st hs

/-- A trigger event arms entries of running groups alone, and the others stay in their list (R92, R103). -/
theorem EntriesPlaced.trigger (now : Time) (src : Source) (t : Time) : EntriesPlaced (st.trigger now src t) := by
  refine EntriesPlaced.placeAll (hs.setHeld fun h hm => ?_) now fun x hm => ?_
  · obtain ⟨h', there, live⟩ := mem_walkHeld_stay _ _ hm
    rw [← live]
    exact hs.1 src.index h' there
  · obtain ⟨l, armed, rfl⟩ := List.mem_map.mp hm
    exact mem_walkHeld_armed _ _ armed

/-- An entry of a running group that a dispatch has served goes back into the agenda, into the list of its source, or
free (R36, R38, R39). -/
theorem EntriesPlaced.settleEntry (T : Time) (l : Live) (a : Account)
    (running : st.suspended l.entry.group = false) : EntriesPlaced (st.settleEntry T l a) := by
  obtain ⟨source, count, reheld, e⟩ | ⟨-, -, e⟩ | ⟨-, e⟩ := st.settleEntry_cases T l a <;> rw [e]
  · obtain ⟨_, _, timing, -⟩ := Entry.rehold?_eq_some reheld
    exact hs.joinHeld timing
  · exact hs
  · exact hs.place T running

/-- A dispatch takes entries of running groups (R24, note after R23). -/
theorem EntriesPlaced.dispatch (T : Time) (lines : Vector LineRecord 16) :
    EntriesPlaced (st.dispatch T lines).store := by
  have running : ∀ p ∈ takenBy T st.agenda, st.suspended p.live.entry.group = false := fun p hp => by
    rw [takenBy_eq_take] at hp
    exact hs.2.2 p (List.mem_of_mem_take hp)
  have served := st.dispatch_keeps (P := fun d => EntriesPlaced d.store ∧ d.store.groups = st.groups) T lines
    ⟨hs.of_subset (fun _ => .refl _) (fun _ => .refl _) (List.drop_subset _ _) fun _ => rfl, rfl⟩
    fun d p hp ⟨placed, groups⟩ => ?_
  · exact served.1
  · refine ⟨placed.settleEntry T p.live (accountFor T p) ?_, ?_⟩
    · rw [Store.suspended, groups]
      exact running p hp
    · rw [← groups]
      exact d.store.settleEntry_groups T p.live (accountFor T p)

/-- SUSPEND moves the pending members of the group to its parked set and sets its flag (R113). -/
theorem EntriesPlaced.suspendGroup (now : Time) (g : Fin 16) : EntriesPlaced (st.suspendGroup now g) := by
  unfold Store.suspendGroup
  split
  · exact hs
  · obtain ⟨hheld, hparked, hagenda⟩ := hs
    refine ⟨hheld, fun i q hm => ?_, fun p hm => ?_⟩
    · rw [Store.suspended_setSuspended]
      rw [Store.setSuspended_parked, getElem_fin_set] at hm
      split at hm
      · rename_i here
        subst here
        refine ⟨?_, if_pos rfl⟩
        obtain hm | hm := List.mem_append.mp hm
        · exact (hparked _ q hm).1
        · obtain ⟨p, member, rfl⟩ := List.mem_map.mp hm
          simpa [Live.inGroup] using List.of_mem_filter member
      · rename_i other
        rw [if_neg other]
        exact hparked i q hm
    · have other : p.live.entry.group ≠ g := by simpa [Live.inGroup] using List.of_mem_filter hm
      rw [Store.suspended_setSuspended, if_neg other]
      exact hagenda p (List.mem_of_mem_filter hm)

/-- RESUME empties the parked set of the group, clears its flag and places what was parked (R114). -/
theorem EntriesPlaced.resumeGroup (now : Time) (g : Fin 16) : EntriesPlaced (st.resumeGroup now g) := by
  unfold Store.resumeGroup
  split
  · have resumed : EntriesPlaced (Store.setSuspended { st with parked := st.parked.set g [] } g false) := by
      obtain ⟨hheld, hparked, hagenda⟩ := hs
      refine ⟨hheld, fun i q hm => ?_, fun p hm => ?_⟩
      · rw [Store.setSuspended_parked, getElem_fin_set] at hm
        split at hm
        · cases hm
        · rename_i other
          rw [Store.suspended_setSuspended, if_neg other]
          exact hparked i q hm
      · rw [Store.suspended_setSuspended]
        split
        · rfl
        · exact hagenda p hm
    rw [← Store.placeAll_setSuspended]
    refine resumed.placeAll now fun x hm => ?_
    obtain ⟨q, parked, rfl⟩ := List.mem_map.mp hm
    rw [Store.suspended_setSuspended, if_pos (hs.2.1 g q parked).1]
  · exact hs

/-- CANCEL-GROUP takes the members of the group out of every collection (R116). -/
theorem EntriesPlaced.cancelGroup (reason : DoneReason) (g : Fin 16) :
    EntriesPlaced (st.cancelGroup reason g).1 := by
  unfold Store.cancelGroup
  obtain ⟨gens, e, -⟩ := Store.freeLives_store reason (st.membersOf g)
    { st with
      agenda := st.agenda.filter fun p => !p.live.inGroup g
      held := mapBank st.held fun _ l => l.filter fun h => !h.live.inGroup g
      parked := st.parked.set g [] }
  rw [e]
  refine hs.of_subset (mapBank_filter_subset _ _) (fun i => ?_) (List.filter_subset_self _) fun _ => rfl
  rw [getElem_fin_set]
  split
  · exact List.nil_subset _
  · exact .refl _

theorem EntriesPlaced.haltGroups (now : Time) (gs : List (Fin 16)) : EntriesPlaced (st.haltGroups now gs).1 :=
  Store.haltGroups_keeps (P := EntriesPlaced) now (fun _ g placed => placed.cancelGroup .halted g)
    (fun _ g placed => placed.suspendGroup now g) gs st hs

/-- CANCEL takes the entry of one slot out of every collection (R14). -/
theorem EntriesPlaced.cancelStore (f : Found) : EntriesPlaced (cancelStore st f) :=
  hs.of_subset (mapBank_filter_subset st.held _) (mapBank_filter_subset st.parked _) (List.filter_subset_self _)
    fun _ => rfl

/-- A new halt action leaves the suspended flags as they are (R112). -/
theorem EntriesPlaced.setHaltAction (g : Fin 16) (action : HaltAction) :
    EntriesPlaced { st with groups := st.groups.set g { st.groups[g] with haltAction := action } } := by
  refine hs.of_subset (fun _ => .refl _) (fun _ => .refl _) (.refl _) fun i => ?_
  rw [Store.suspended, getElem_fin_set]
  split
  · rename_i here
    rw [here, Store.suspended]
  · rfl

end Placed

/-- A soft reset leaves no entry, as power-on does, and no group suspended (R12, R108). -/
theorem entriesPlaced_softReset (st : Store) : EntriesPlaced st.softReset := by
  refine Proofs.entriesPlaced_reset.of_subset (fun _ => .refl _) (fun _ => .refl _) (.refl _) fun g => ?_
  simp [Store.suspended, Store.softReset, State.reset, Store.reset]

end Sys2Proof.Safety

/-!
Every command keeps the entries placed (R90, R110, note after R23): the handlers of the host commands, the events, the
resets and the register writes.
-/

namespace Sys2Proof.Machine

open Sys2Proof.Safety

/-- An event beside the pool keeps the entries placed. -/
theorem LeavesPool.entriesPlaced {s t : State} (h : LeavesPool s t) (hs : EntriesPlaced s.store) :
    EntriesPlaced t.store :=
  h.1 ▸ hs

/-! ## The parts of a host command -/

/-- A handler's answer, if it gives one, keeps the entries placed and leaves the engine's state to the command. -/
def AnswersPlaced (s : State) (o : Option (State × Stage)) : Prop :=
  ∀ s' stage, o = some (s', stage) → EntriesPlaced s'.store ∧ s'.ce.engine = s.ce.engine

theorem AnswersPlaced.waits (s : State) : AnswersPlaced s none := by
  intro s' stage h
  cases h

theorem AnswersPlaced.of_placed {s s' : State} {stage : Stage} (placed : EntriesPlaced s'.store)
    (engine : s'.ce.engine = s.ce.engine) : AnswersPlaced s (some (s', stage)) := by
  rintro _ _ ⟨⟩
  exact ⟨placed, engine⟩

/-- Every part of a host command keeps the entries placed when its handler does. -/
theorem runCommand_placed {code : Byte} {handler : Handler}
    (hh : ∀ a s, EntriesPlaced s.store → AnswersPlaced s (handler a s)) (p : CmdStep) {s : State}
    (hs : EntriesPlaced s.store) : EntriesPlaced (runCommand code handler p s).store :=
  runCommand_keeps (P := fun s => EntriesPlaced s.store) (fun _ _ h => h) (fun _ _ _ _ h => h) (fun _ _ _ _ h => h)
    (fun _ h => h) (fun a _ x x' stage _ answered h => hh a x h x' stage answered) p s hs

theorem serveWrite_placed (a : Addr) {f : State → State}
    (hf : ∀ s, EntriesPlaced s.store → EntriesPlaced (f s).store) {s : State} (hs : EntriesPlaced s.store) :
    EntriesPlaced (serveWrite a f s).store := by
  obtain e | ⟨p, -, e⟩ := serveWrite_cases a f s <;> rw [e]
  · exact hs
  · exact hf (s.withHp { s.hp with port := p }) hs

section Placed

variable {s : State} (hs : EntriesPlaced s.store)
include hs

/-! ## The handlers of the host commands -/

/-- An answer that leaves the Schedule Store as it is. -/
theorem AnswersPlaced.beside {s' : State} {stage : Stage} (store : s'.store = s.store)
    (engine : s'.ce.engine = s.ce.engine) : AnswersPlaced s (some (s', stage)) :=
  .of_placed (store ▸ hs) engine

theorem AnswersPlaced.of_leavesPool {s' : State} {stage : Stage} (h : LeavesPool s s') :
    AnswersPlaced s (some (s', stage)) :=
  .beside hs h.1 (congrArg CommandEngine.engine h.2)

theorem appendTake_placed (a : Args) : AnswersPlaced s (appendTake a s) := by
  unfold appendTake
  split
  · exact .beside hs rfl rfl
  · split <;> exact .beside hs rfl rfl

theorem discardTake_placed (a : Args) : AnswersPlaced s (discardTake a s) := .beside hs rfl rfl

theorem commitTake_placed (a : Args) : AnswersPlaced s (commitTake a s) := by
  unfold commitTake
  split <;> exact .beside hs rfl rfl

theorem cancelTake_placed (a : Args) : AnswersPlaced s (cancelTake a s) := by
  unfold cancelTake
  split
  · exact .beside hs rfl rfl
  · split
    · exact .beside hs rfl rfl
    · exact .of_placed (hs.cancelStore _) rfl

theorem queryTake_placed (a : Args) : AnswersPlaced s (queryTake a s) := by
  unfold queryTake
  split
  · exact .beside hs rfl rfl
  · split <;> exact .beside hs rfl rfl

theorem suspendTake_placed (a : Args) : AnswersPlaced s (suspendTake a s) := by
  unfold suspendTake
  split
  · exact .beside hs rfl rfl
  · split
    · exact .beside hs rfl rfl
    · exact .of_placed (hs.suspendGroup _ _) rfl

theorem resumeTake_placed (a : Args) : AnswersPlaced s (resumeTake a s) := by
  unfold resumeTake
  split
  · exact .beside hs rfl rfl
  · split
    · exact .of_placed (hs.resumeGroup _ _) rfl
    · exact .beside hs rfl rfl

theorem cancelGroupTake_placed (a : Args) : AnswersPlaced s (cancelGroupTake a s) := by
  unfold cancelGroupTake
  split
  · exact .beside hs rfl rfl
  · exact .of_placed (hs.cancelGroup _ _) rfl

theorem setGroupTake_placed (a : Args) : AnswersPlaced s (setGroupTake a s) := by
  unfold setGroupTake
  split
  · split
    · exact .of_placed (hs.setHaltAction _ _) rfl
    · exact .waits s
  · exact .beside hs rfl rfl

theorem startTake_placed (pins : Pins) (a : Args) : AnswersPlaced s (startTake pins a s) := by
  unfold startTake
  split
  · exact .of_leavesPool hs (beginRunning_leavesPool pins s)
  · exact .beside hs rfl rfl

theorem stopTake_placed (a : Args) : AnswersPlaced s (stopTake a s) := by
  unfold stopTake
  split
  · exact .beside hs rfl rfl
  · exact .of_leavesPool hs (((LeavesPool.refl s).withTb _).trans (endRunning_leavesPool _))

theorem armSyncTake_placed (sync : Bool) (a : Args) : AnswersPlaced s (armSyncTake sync a s) := by
  unfold armSyncTake
  split <;> exact .beside hs rfl rfl

theorem setTimeTake_placed (a : Args) : AnswersPlaced s (setTimeTake a s) := by
  unfold setTimeTake
  split
  · split
    · split <;> exact .beside hs rfl rfl
    · exact .waits s
  · exact .beside hs rfl rfl

theorem setTrimTake_placed (a : Args) : AnswersPlaced s (setTrimTake a s) := by
  unfold setTrimTake
  split
  · exact .beside hs rfl rfl
  · split <;> exact .beside hs rfl rfl

theorem fireCueTake_placed (a : Args) : AnswersPlaced s (fireCueTake a s) := by
  unfold fireCueTake
  split
  · exact .beside hs rfl rfl
  · exact .of_placed (hs.trigger _ _ _) rfl

theorem configOutTake_placed (a : Args) : AnswersPlaced s (configOutTake a s) := by
  unfold configOutTake
  split
  · split <;> exact .beside hs rfl rfl
  · exact .beside hs rfl rfl

theorem configInTake_placed (a : Args) : AnswersPlaced s (configInTake a s) := by
  unfold configInTake
  split <;> exact .beside hs rfl rfl

theorem haltTake_placed (a : Args) : AnswersPlaced s (haltTake a s) :=
  .of_leavesPool hs (haltEventTaken_leavesPool .command s)

theorem releaseTake_placed (a : Args) : AnswersPlaced s (releaseTake a s) := by
  unfold releaseTake
  split
  · exact .beside hs rfl rfl
  · split
    · exact .beside hs rfl rfl
    · exact .of_leavesPool hs (((LeavesPool.refl s).withHc _).withOu _)

/-! ## Events at the Schedule Store -/

theorem dispatch_placed : EntriesPlaced (dispatch s).store := by
  unfold dispatch
  split
  · exact hs
  · exact hs.dispatch _ _

theorem triggerEvent_placed (pick : TriggerPick) : EntriesPlaced (triggerEvent pick s).store := by
  cases pick with
  | cue | input =>
    simp only [triggerEvent]
    split
    · exact hs
    · exact hs.trigger _ _ _

theorem commitStart_placed : EntriesPlaced (commitStart s).store := by
  unfold commitStart
  split
  · split
    · unfold commitStartTaken
      split
      · exact hs
      · split <;> exact hs
    · exact hs
  · exact hs

theorem mergeCompletion_placed : EntriesPlaced (mergeCompletion s).store := by
  unfold mergeCompletion
  split
  · exact hs.goLiveAll _ _
  · exact hs

theorem abandon_placed (code : ResultCode) : EntriesPlaced (abandon code s).store := by
  unfold abandon
  split <;> exact hs

theorem abortWrite_placed (w : Word) : EntriesPlaced (abortWrite w s).store := by
  unfold abortWrite
  split
  · exact serveWrite_placed _ (fun _ hs => abandon_placed hs .aborted) hs
  · exact hs

theorem applyHaltActions_placed : EntriesPlaced (applyHaltActions s).store := by
  rw [applyHaltActions_store]
  exact hs.haltGroups _ _

theorem haltGroupRequest_placed : EntriesPlaced (haltGroupRequest s).store := by
  unfold haltGroupRequest
  split
  · exact hs
  · refine abandon_placed (applyHaltActions_placed ?_) .halted
    exact hs

/-! ## Resets -/

theorem relatch_placed : EntriesPlaced (relatch s).store := by
  cases level : s.hc.haltnHigh with
  | true => rwa [relatch_high level]
  | false =>
    rw [relatch_low level, State.withEq_store]
    exact applyHaltActions_placed ((latchHalt_leavesPool .pin s).entriesPlaced hs)

/-- A soft reset leaves no entry (R12). -/
theorem softReset_placed (w : Word) (pins : Pins) : EntriesPlaced (softReset w pins s).store := by
  unfold softReset
  split
  · refine serveWrite_placed _ (fun s _ => ?_) hs
    exact relatch_placed (s := softResetValues pins s) (entriesPlaced_softReset s.store)
  · exact hs

/-! ## Register writes -/

theorem badCommand_placed (w : Word) : EntriesPlaced (badCommand w s).store := by
  unfold badCommand
  split
  · exact hs
  · refine serveWrite_placed _ (fun s hs => ?_) hs
    split <;> exact hs

/-- Ahead of a register write at most an APPEND is taken (R67). -/
theorem beforeWrite_placed (a : Addr) : EntriesPlaced (beforeWrite a s).store := by
  unfold beforeWrite
  split
  · exact runCommand_placed (code := 0x01) (fun a _ hs => appendTake_placed hs a) .take hs
  · exact hs

theorem registerWrite_placed (a : Addr) (w : Word) : EntriesPlaced (registerWrite a w s).store := by
  unfold registerWrite
  split
  · exact hs
  · refine serveWrite_placed _ (fun s hs => ?_) hs
    exact beforeWrite_placed hs a

end Placed

/-- A power-on reset leaves no entry, whatever came before (R13). -/
theorem powerOnReset_placed (haltn csn : Bool) (pins : Pins) (s : State) :
    EntriesPlaced (powerOnReset haltn csn pins s).store :=
  relatch_placed Proofs.entriesPlaced_reset

/-! ## Every command -/

/-- R90, R110, note after R23: every command keeps the entries placed. -/
theorem exec_placed {c : Instr} {s t : State} (hs : EntriesPlaced s.store) (h : exec c s = .next t) :
    EntriesPlaced t.store := by
  have event : ∀ {f : State → State}, unlessInReset s f = .next t → EntriesPlaced (f s).store →
      EntriesPlaced t.store := by
    intro f h placed
    obtain rfl | ⟨-, rfl⟩ := unlessInReset_eq h
    · exact hs
    · exact placed
  have host : ∀ {code : Byte} {handler : Handler} {p : CmdStep},
      unlessInReset s (runCommand code handler p) = .next t →
      (∀ {s}, EntriesPlaced s.store → ∀ a, AnswersPlaced s (handler a s)) → EntriesPlaced t.store :=
    fun h hh => event h (runCommand_placed (fun a _ hs => hh hs a) _ hs)
  have beside : ∀ {f : State → State}, unlessInReset s f = .next t → LeavesPool s (f s) → EntriesPlaced t.store :=
    fun h hf => event h (hf.entriesPlaced hs)
  have write : ∀ {a : Addr} {f : State → State}, unlessInReset s (serveWrite a f) = .next t →
      (∀ s, (f s).store = s.store) → EntriesPlaced t.store :=
    fun h hf => event h (serveWrite_placed _ (fun s hs => (hf s).symm ▸ hs) hs)
  cases c with
  | append p => exact host h appendTake_placed
  | discard p => exact host h discardTake_placed
  | commit p => exact host h commitTake_placed
  | commitStart => exact event h (commitStart_placed hs)
  | mergeCompletion => exact event h (mergeCompletion_placed hs)
  | abort w => exact event h (abortWrite_placed hs w)
  | cancel p => exact host h cancelTake_placed
  | query p => exact host h queryTake_placed
  | suspend p => exact host h suspendTake_placed
  | resume p => exact host h resumeTake_placed
  | cancelGroup p => exact host h cancelGroupTake_placed
  | setGroup p => exact host h setGroupTake_placed
  | start p pins => exact host h fun hs => startTake_placed hs pins
  | stop p => exact host h stopTake_placed
  | armSync p sync => exact host h fun hs => armSyncTake_placed hs sync
  | setTime p => exact host h setTimeTake_placed
  | setTrim p => exact host h setTrimTake_placed
  | fireCue p => exact host h fireCueTake_placed
  | configOut p => exact host h configOutTake_placed
  | configIn p => exact host h configInTake_placed
  | halt p => exact host h haltTake_placed
  | release p => exact host h releaseTake_placed
  | badcmd w => exact event h (badCommand_placed hs w)
  | softReset w pins => exact event h (softReset_placed hs w pins)
  | powerOnReset haltn csn pins =>
    cases h
    exact powerOnReset_placed haltn csn pins s
  | haltEvent p => exact beside h (haltEvent_leavesPool p s)
  | haltnRise => exact event h hs
  | haltGroupRequest => exact event h (haltGroupRequest_placed hs)
  | syncEdge pins => exact beside h (syncEdge_leavesPool pins s)
  | tickEvent => exact beside h (tickEvent_leavesPool s)
  | dispatch => exact event h (dispatch_placed hs)
  | triggerEvent pick => exact event h (triggerEvent_placed hs pick)
  | delivery => exact beside h (delivery_leavesPool s)
  | runDown => exact beside h (runDown_leavesPool s)
  | pulseEnd => exact beside h (pulseEnd_leavesPool s)
  | sample pins => exact beside h (sample_leavesPool pins s)
  | confirmation pins => exact beside h (confirmation_leavesPool pins s)
  | recordOffer b => exact beside h (recordOffer_leavesPool b s)
  | pop w => exact write h fun s => s.withEq_store _
  | outDirect w => exact write h fun s => s.withOu_store _
  | irqFlags w => exact write h fun s => s.withEq_store _
  | irqEnable w => exact write h fun s => s.withEq_store _
  | thresh w => exact write h fun s => s.withEq_store _
  | time0 => exact beside h (time0Read_leavesPool s)
  | registerWrite a w => exact event h (registerWrite_placed hs a w)
  | headerByte b => exact beside h (headerByte_leavesPool b s)
  | syncFall => exact beside h (syncFall_leavesPool s)
  | resetnAsserted =>
    cases h
    exact hs
  | frameEnd =>
    cases h
    exact hs

end Sys2Proof.Machine

/-!
The statements of the family "Triggers and held entries".
-/

namespace Sys2Proof.Proofs

open Sys2Proof.Machine Sys2Proof.Safety Sys2Proof.Stated

/-- Settles O5: a step is a command on the rest of the queue, and every command keeps the entries placed. -/
theorem stepKeepsEntriesPlaced : Obligations.StepKeepsEntriesPlaced := by
  intro s t hs h
  unfold step at h
  split at h
  · injection h with h
    exact h ▸ hs
  · rename_i c rest _
    exact exec_placed (s := s.withPending rest) hs h

/-- Settles O42, by the walk's recursion over the held list and by the placements of a trigger event. -/
theorem triggerEventWalk : Obligations.TriggerEventWalk :=
  ⟨fun suspended l =>
    ⟨walkHeld_stay suspended l, walkHeld_armed suspended l, walkHeld_passed suspended l,
      walkHeld_lowered_add_passed suspended l⟩,
    fun st now t source => st.trigger_eq now source t⟩

/-- Settles O41, by the event that waits on the source, and by the two ways FIRE-CUE's handler can answer. -/
theorem triggerOutcomes : Obligations.TriggerOutcomes := by
  intro s released
  refine ⟨fun n t rest waiting => ?_, fun empty => ?_, fun k t before after waiting oldest => ?_,
    fun k noneWaits => ?_, fun p ht => ⟨fun above => ?_, fun n below => ?_⟩⟩
  · exact event_released released (triggerEvent_cue_waiting waiting)
  · exact event_released released (triggerEvent_cue_none empty)
  · exact event_released released (triggerEvent_input_waiting waiting oldest)
  · exact event_released released (triggerEvent_input_none noneWaits)
  · exact exec_whole_refused ht (fireCueTake_badArg _ above)
  · exact exec_whole_answered ht (fireCueTake_fires (s := s.accepted p 0x40) _ below)

end Sys2Proof.Proofs

/-!
Groups (chapter 6): what each operation of the Schedule Store on one group leaves, and what the handlers of the group
commands and the halt group request answer.
-/

namespace Sys2Proof.Machine

/-! ## SUSPEND and RESUME at the Schedule Store (R113, R114) -/

/-- SUSPEND of a running group parks its pending members with their distances and sets its flag (R113). -/
theorem Store.suspendGroup_running {st : Store} {g : Fin 16} (now : Time) (running : st.suspended g = false) :
    st.suspendGroup now g =
      { st with
        agenda := st.agenda.filter fun x => !x.live.inGroup g
        parked :=
          st.parked.set g
            (st.parked[g] ++ (st.pendingOf g).map fun x => ⟨x.live, remainingAt now x.due⟩)
        groups := st.groups.set g { st.groups[g] with suspended := true } } := by
  simp [Store.suspendGroup, running, Store.setSuspended]

/-- RESUME of a suspended group places its parked members, each at its remaining time from now, and clears its flag
(R114). -/
theorem Store.resumeGroup_suspended {st : Store} {g : Fin 16} (now : Time) (suspended : st.suspended g = true) :
    st.resumeGroup now g =
      { st with
        agenda :=
          st.parked[g].foldl (fun agenda q => insertPending now ⟨q.live, later now q.remaining⟩ agenda) st.agenda
        parked := st.parked.set g []
        groups := st.groups.set g { st.groups[g] with suspended := false } } := by
  simp [Store.resumeGroup, suspended, Store.placeAll_eq, Store.setSuspended, List.foldl_map]

/-! ## The handlers of the group commands (R112, R113, R114, R116, R117) -/

theorem argBelow16_none {w : Word} (h : 16 ≤ w.toNat) : argBelow16 w = none := dif_neg (Nat.not_lt.mpr h)

theorem argBelow16_some {w : Word} {g : Fin 16} (h : w.toNat = g.val) : argBelow16 w = some g := by
  have below : w.toNat < 16 := h ▸ g.isLt
  exact (dif_pos below).trans (congrArg some (Fin.ext h))

/-- The codes of halt actions are 0, 1 and 2 (R117). -/
theorem HaltAction.ofWord_none {w : Word} (h : 3 ≤ w.toNat) : HaltAction.ofWord w = none := by
  have other : ∀ code : Word, code.toNat < 3 → w ≠ code := by
    rintro code below rfl
    omega
  rw [HaltAction.ofWord, if_neg (other 0 (by decide)), if_neg (other 1 (by decide)), if_neg (other 2 (by decide))]

section GroupCommands

variable {s : State} {g : Fin 16} (a : Args)

theorem suspendTake_badArg (above : 16 ≤ a.a0.toNat) : suspendTake a s = answer { code := .badArg } s := by
  simp only [suspendTake, argBelow16_none above]

theorem suspendTake_suspended (below : a.a0.toNat = g.val) (suspended : s.store.suspended g = true) :
    suspendTake a s = answer { code := .ok } s := by
  simp only [suspendTake, argBelow16_some below, suspended, if_true]

theorem suspendTake_running (below : a.a0.toNat = g.val) (running : s.store.suspended g = false) :
    suspendTake a s =
      answer
        { code := .ok, w1 := word (s.store.pendingOf g).length, w2 := word (s.store.heldOf g).length }
        (s.withStore (s.store.suspendGroup s.tb.time g)) := by
  simp [suspendTake, argBelow16_some below, running]

theorem resumeTake_badArg (above : 16 ≤ a.a0.toNat) : resumeTake a s = answer { code := .badArg } s := by
  simp only [resumeTake, argBelow16_none above]

theorem resumeTake_running (below : a.a0.toNat = g.val) (running : s.store.suspended g = false) :
    resumeTake a s = answer { code := .ok } s := by
  simp [resumeTake, argBelow16_some below, running]

theorem resumeTake_suspended (below : a.a0.toNat = g.val) (suspended : s.store.suspended g = true) :
    resumeTake a s =
      answer { code := .ok, w1 := word s.store.parked[g].length }
        (s.withStore (s.store.resumeGroup s.tb.time g)) := by
  simp only [resumeTake, argBelow16_some below, suspended, if_true]

theorem cancelGroupTake_badArg (above : 16 ≤ a.a0.toNat) : cancelGroupTake a s = answer { code := .badArg } s := by
  simp only [cancelGroupTake, argBelow16_none above]

theorem cancelGroupTake_cancels (below : a.a0.toNat = g.val) :
    cancelGroupTake a s =
      answer
        { code := .ok
          w1 := word ((s.store.pendingOf g).length + (s.store.heldOf g).length + s.store.parked[g].length)
          w2 := word (s.store.pendingOf g).length
          w3 := word (s.store.heldOf g).length
          w4 := word s.store.parked[g].length }
        (offerStore (s.store.cancelGroup .cancelled g).2
          (s.withStore (s.store.cancelGroup .cancelled g).1)) := by
  have members : (s.store.membersOf g).length =
      (s.store.pendingOf g).length + (s.store.heldOf g).length + s.store.parked[g].length := by
    simp only [Store.membersOf, List.length_append, List.length_map]
  simp only [cancelGroupTake, argBelow16_some below, members]

theorem setGroupTake_badArg (refused : 16 ≤ a.a0.toNat ∨ 3 ≤ a.a1.toNat) :
    setGroupTake a s = answer { code := .badArg } s := by
  obtain above | noAction := refused
  · simp only [setGroupTake, argBelow16_none above]
  · simp only [setGroupTake, HaltAction.ofWord_none noAction]
    cases argBelow16 a.a0 <;> rfl

/-- A SET-GROUP with halt group requests ahead of it is not taken yet (R112). -/
theorem setGroupTake_waits {action : HaltAction} (below : a.a0.toNat = g.val)
    (named : HaltAction.ofWord a.a1 = some action) (ahead : s.ce.engine.haltsAhead ≠ 0) : setGroupTake a s = none := by
  simp only [setGroupTake, argBelow16_some below, named, if_neg ahead]

theorem word_bitNat (b : Bool) : word (bitNat b) = if b then 1 else 0 := by cases b <;> rfl

/-- A SET-GROUP that is taken writes the halt action of its group alone (R112). -/
theorem setGroupTake_writes {action : HaltAction} (below : a.a0.toNat = g.val)
    (named : HaltAction.ofWord a.a1 = some action) (noneAhead : s.ce.engine.haltsAhead = 0) :
    setGroupTake a s =
      answer
        { code := .ok
          w1 := word s.store.groups[g].haltAction.code
          w2 := if s.store.suspended g then 1 else 0 }
        (s.withStore
          { s.store with groups := s.store.groups.set g { s.store.groups[g] with haltAction := action } }) := by
  simp only [setGroupTake, argBelow16_some below, named, if_pos noneAhead, word_bitNat]

end GroupCommands

/-! ## The taking of a request on its own (R181, R182) -/

section Takes

variable {s : State} {code : Byte} {handler : Handler} {a : Args} {n : Nat}
  (busy : s.ce.engine = .busy code a (.accepted n))
include busy

theorem commandTake_answers {s' : State} {stage : Stage} (answers : handler a s = some (s', stage)) :
    commandTake code handler s = s'.withCe { s'.ce with engine := .busy code a stage } := by
  simp [commandTake, busy, answers]

theorem commandTake_waits (waits : handler a s = none) : commandTake code handler s = s := by
  simp [commandTake, busy, waits]

end Takes

/-! ## The cancel of a group (R116) -/

/-- A group cancel takes the members out of every collection and frees their slots in walk order. -/
theorem Store.cancelGroup_store (st : Store) (reason : DoneReason) (g : Fin 16) :
    ∃ gens, (st.cancelGroup reason g).1 =
        { st with
          gens := gens
          free := st.free ++ (st.membersOf g).map (·.slot)
          agenda := st.agenda.filter fun x => !x.live.inGroup g
          held := mapBank st.held fun _ l => l.filter fun x => !x.live.inGroup g
          parked := st.parked.set g [] } ∧
      ∀ k : Fin 128, gens[k] = st.gens[k] + BitVec.ofNat 4 (((st.membersOf g).map (·.slot)).count k) :=
  Store.freeLives_store reason (st.membersOf g) _

/-- Freeing entries whose slots differ offers, for each that reports, its DONE record with the handle it had before
(R14, R40). -/
theorem Store.freeLives_offers (reason : DoneReason) (ls : List Live) (st : Store) (apart : (ls.map (·.slot)).Nodup) :
    (st.freeLives reason ls).2 =
      (ls.filter fun l => decide (l.entry.report ≠ .none)).map fun l =>
        .done (st.handleOf l.slot) l.entry.group l.entry.tag reason l.firings false := by
  induction ls generalizing st with
  | nil => rfl
  | cons l ls ih =>
    obtain ⟨alone, apart⟩ := List.nodup_cons.mp apart
    have kept : ∀ x ∈ ls, (st.freeSlot l.slot).handleOf x.slot = st.handleOf x.slot := by
      intro x hx
      have other : x.slot ≠ l.slot := fun same => alone (List.mem_map.mpr ⟨x, hx, same⟩)
      rw [Store.handleOf, Store.freeSlot_gens, getElem_fin_set, if_neg other, Store.handleOf]
    have rest := ih (st.freeSlot l.slot) apart
    rw [List.map_congr_left fun x hx => by rw [kept x (List.mem_of_mem_filter hx)]] at rest
    rw [Store.freeLives, rest, Proofs.doneRecords_eq]
    by_cases silent : l.entry.report = .none <;> simp [silent]

end Sys2Proof.Machine

namespace Sys2Proof.Safety

open Sys2Proof.Machine

/-- In a whole pool the members of a group lie in slots of their own. -/
theorem PoolWhole.nodup_members {st : Store} (whole : PoolWhole st) (g : Fin 16) :
    ((st.membersOf g).map (·.slot)).Nodup := by
  obtain ⟨freed, free, -, -, perm⟩ := Moves.cancelGroup st .cancelled g
  obtain ⟨gens, e, -⟩ := st.cancelGroup_store .cancelled g
  rw [e] at free
  rw [List.append_cancel_left free]
  have slots := (perm.map (·.1)).nodup_iff.mpr whole.nodup
  rw [List.map_append] at slots
  exact slots.of_append_left

/-- A cancel empties the parked set of the group, and the others hold no member (R110). -/
theorem ParkedPlaced.set_nil {st : Store} (placed : ParkedPlaced st) (g i : Fin 16) :
    (st.parked.set g [])[i] = st.parked[i].filter fun x => !x.live.inGroup g := by
  have member : ∀ x ∈ st.parked[i], x.live.inGroup g = decide (i = g) := by
    intro x hx
    simp only [Live.inGroup, (placed i x hx).1]
    rfl
  rw [getElem_fin_set, List.filter_congr fun x hx => by rw [member x hx]]
  by_cases here : i = g <;> simp [here]

end Sys2Proof.Safety

namespace Sys2Proof.Machine

/-! ## The distance of a pending entry across a suspension (R111, R114) -/

/-- A remaining time taken from a due time that is not overdue is the distance (R110). -/
theorem dist_later_remainingAt {now due : Time} (ahead : 0 ≤ dist now due) (t : Time) :
    dist t (later t (remainingAt now due)) = dist now due := by
  have bound : dist now due < 2 ^ 47 := BitVec.toInt_lt
  rw [dist_later t (by unfold remainingAt; omega), remainingAt, Int.toNat_of_nonneg ahead]

/-- RESUME places every parked member of the group (R114). -/
theorem Store.mem_resumeGroup {st : Store} {g : Fin 16} (now : Time) (suspended : st.suspended g = true)
    {q : ParkedEntry} (parked : q ∈ st.parked[g]) :
    ⟨q.live, later now q.remaining⟩ ∈ (st.resumeGroup now g).agenda := by
  rw [Store.resumeGroup_suspended now suspended, (foldl_insertPending_perm now _ _ _).mem_iff]
  exact List.mem_append_left _ (List.mem_map.mpr ⟨q, parked, rfl⟩)

/-- SUSPEND parks every pending member of a running group (R113). -/
theorem Store.mem_suspendGroup {st : Store} {g : Fin 16} (now : Time) (running : st.suspended g = false)
    {x : PendingEntry} (pending : x ∈ st.agenda) (member : x.live.inGroup g = true) :
    ⟨x.live, remainingAt now x.due⟩ ∈ (st.suspendGroup now g).parked[g] := by
  rw [Store.suspendGroup_running now running, getElem_fin_set, if_pos rfl]
  exact List.mem_append_right _ (List.mem_map.mpr ⟨x, List.mem_filter.mpr ⟨pending, member⟩, rfl⟩)

/-- After SUSPEND the flag of the group is set. -/
theorem Store.suspended_suspendGroup (st : Store) (now : Time) (g : Fin 16) :
    (st.suspendGroup now g).suspended g = true := by
  unfold Store.suspendGroup
  split
  · assumption
  · simp

/-! ## The halt group request (R118, R166) -/

section HaltGroups

variable {st : Store} {g : Fin 16} (now : Time) (gs : List (Fin 16))

theorem Store.haltGroups_keep (keep : st.groups[g].haltAction = .keep) :
    st.haltGroups now (g :: gs) = st.haltGroups now gs := by
  simp only [Store.haltGroups, Store.haltGroup, keep, List.nil_append]

theorem Store.haltGroups_cancel (cancel : st.groups[g].haltAction = .cancel) :
    st.haltGroups now (g :: gs) =
      (((st.cancelGroup .halted g).1.haltGroups now gs).1,
        (st.cancelGroup .halted g).2 ++ ((st.cancelGroup .halted g).1.haltGroups now gs).2) := by
  simp only [Store.haltGroups, Store.haltGroup, cancel]

theorem Store.haltGroups_suspend (suspend : st.groups[g].haltAction = .suspend) :
    st.haltGroups now (g :: gs) = (st.suspendGroup now g).haltGroups now gs := by
  simp only [Store.haltGroups, Store.haltGroup, suspend, List.nil_append]

end HaltGroups

theorem haltGroupRequest_none {s : State} (none : s.mail.haltRequests = 0) : haltGroupRequest s = s := by
  simp only [haltGroupRequest, none]

/-- The state in which the halt group request that was oldest of `n + 1` is taken: one fewer is on its way, and one
fewer stands ahead of an accepted command (R112). -/
def State.requestTaken (s : State) (n : Nat) : State :=
  (s.withMail { s.mail with haltRequests := n }).withCe { s.ce with engine := s.ce.engine.haltTaken }

theorem haltGroupRequest_waiting {s : State} {n : Nat} (waiting : s.mail.haltRequests = n + 1) :
    haltGroupRequest s = abandon .halted (applyHaltActions (s.requestTaken n)) := by
  simp only [haltGroupRequest, waiting, State.requestTaken]

/-- The halt actions of all groups, in number order, on the store and its offers (R118). -/
theorem applyHaltActions_requestTaken {s : State} {n : Nat} {st : Store} {records : List EventRecord}
    (walk : s.store.haltGroups s.tb.time (List.finRange 16) = (st, records)) :
    applyHaltActions (s.requestTaken n) =
      { s with
        ce := { s.ce with engine := s.ce.engine.haltTaken }
        store := st
        mail := { s.mail with haltRequests := n, storeOffers := s.mail.storeOffers ++ records } } := by
  have walk' : (s.requestTaken n).store.haltGroups (s.requestTaken n).tb.time (List.finRange 16) = (st, records) := walk
  rw [applyHaltActions, walk']
  rfl

theorem Engine.haltTaken_of_not_accepted {e : Engine} (other : ∀ c a n, e ≠ .busy c a (.accepted n)) :
    e.haltTaken = e :=
  e.haltTaken_eq.resolve_right fun ⟨c, a, n, accepted, _⟩ => other c a n accepted

/-- Taking a halt group request neither begins nor ends a merge. -/
theorem Engine.haltTaken_eq_committing_iff (e : Engine) (a : Args) : e.haltTaken = .committing a ↔ e = .committing a := by
  obtain same | ⟨c, x, n, rfl, taken⟩ := e.haltTaken_eq
  · rw [same]
  · simp [taken]

end Sys2Proof.Machine

/-!
The group records (R108): which commands write a halt action, which write a suspended flag, and which leave both alone.
-/

namespace Sys2Proof.Machine

/-! ## The operations of the Schedule Store -/

@[simp] theorem Store.cancelGroup_groups (st : Store) (reason : DoneReason) (g : Fin 16) :
    (st.cancelGroup reason g).1.groups = st.groups := by
  obtain ⟨gens, e, -⟩ := st.cancelGroup_store reason g
  rw [e]

@[simp] theorem Store.goLiveAll_groups (st : Store) (tc : Time) (batch : List (Fin 128 × Entry)) :
    (st.goLiveAll tc batch).groups = st.groups := by
  refine Store.goLiveAll_keeps (P := (·.groups = st.groups)) tc (fun st' k e kept => ?_) batch st rfl
  obtain ⟨-, -, -, groups⟩ := st'.goLive_frame tc k e
  exact groups.trans kept

@[simp] theorem Store.dispatch_groups (st : Store) (T : Time) (lines : Vector LineRecord 16) :
    (st.dispatch T lines).store.groups = st.groups :=
  st.dispatch_keeps (P := (·.store.groups = st.groups)) T lines rfl fun d p _ kept =>
    (d.store.settleEntry_groups T p.live (accountFor T p)).trans kept

/-- Every group has the halt action that it has in the other store. -/
def Store.SameActions (st st' : Store) : Prop :=
  ∀ g : Fin 16, st'.groups[g].haltAction = st.groups[g].haltAction

theorem Store.SameActions.of_groups {st st' : Store} (groups : st'.groups = st.groups) : st.SameActions st' := by
  intro g
  rw [groups]

theorem Store.SameActions.trans {st st' st'' : Store} (h : st.SameActions st') (h' : st'.SameActions st'') :
    st.SameActions st'' :=
  fun g => (h' g).trans (h g)

/-- SUSPEND writes no halt action (R108, R113). -/
theorem Store.sameActions_suspendGroup (st : Store) (now : Time) (g : Fin 16) :
    st.SameActions (st.suspendGroup now g) := by
  intro i
  unfold Store.suspendGroup
  split
  · rfl
  · exact Store.haltAction_setSuspended _ g i true

/-- RESUME writes no halt action (R108, R114). -/
theorem Store.sameActions_resumeGroup (st : Store) (now : Time) (g : Fin 16) :
    st.SameActions (st.resumeGroup now g) := by
  intro i
  unfold Store.resumeGroup
  split
  · rw [Store.haltAction_setSuspended, Store.placeAll_groups]
  · rfl

/-- The halt actions of the groups are read and not written (R108, R118). -/
theorem Store.sameActions_haltGroups (st : Store) (now : Time) (gs : List (Fin 16)) :
    st.SameActions (st.haltGroups now gs).1 :=
  Store.haltGroups_keeps (P := st.SameActions) now
    (fun st' g kept => kept.trans (.of_groups (st'.cancelGroup_groups .halted g)))
    (fun st' g kept => kept.trans (st'.sameActions_suspendGroup now g)) gs st (.of_groups rfl)

/-- A soft reset clears the suspended flags and keeps the halt actions (R108). -/
theorem Store.sameActions_softReset (st : Store) : st.SameActions st.softReset := by
  intro g
  rw [Store.softReset, getElem_fin_mapBank]

/-- A new halt action leaves the suspended flags as they are (R112). -/
theorem Store.suspended_setHaltAction (st : Store) (g i : Fin 16) (action : HaltAction) :
    (st.groups.set g { st.groups[g] with haltAction := action })[i].suspended = st.groups[i].suspended := by
  rw [getElem_fin_set]
  split
  · rename_i here
    rw [here]
  · rfl

/-! ## What one command can do to the group records -/

/-- The commands that write a suspended flag (R108). -/
def WritesFlags (c : Instr) : Prop :=
  (∃ p, c = .suspend p) ∨ (∃ p, c = .resume p) ∨ c = .haltGroupRequest ∨ ∃ w p, c = .softReset w p

/-- Everything that a command other than a power-on reset can do to the group records. -/
inductive GroupStep (s t : State) : Instr → Prop
  /-- No record changes. -/
  | keeps {c : Instr} (groups : t.store.groups = s.store.groups) : GroupStep s t c
  /-- SET-GROUP writes no suspended flag (R112). -/
  | setsAction {p : CmdStep} (flags : ∀ g : Fin 16, t.store.groups[g].suspended = s.store.groups[g].suspended) :
      GroupStep s t (.setGroup p)
  /-- A command that writes suspended flags writes no halt action, and leaves no merge in flight (R79, R120). -/
  | setsFlags {c : Instr} (own : WritesFlags c) (actions : s.store.SameActions t.store)
      (noMerge : ∀ a, t.ce.engine ≠ .committing a) : GroupStep s t c

theorem LeavesPool.groups {s t : State} (h : LeavesPool s t) : t.store.groups = s.store.groups := by rw [h.1]

/-! ## The handlers of the host commands -/

/-- A handler's answer, if it gives one, changes no group record and leaves the engine's state to the command. -/
def AnswersBesideGroups (s : State) (o : Option (State × Stage)) : Prop :=
  ∀ s' stage, o = some (s', stage) → s'.store.groups = s.store.groups ∧ s'.ce.engine = s.ce.engine

section Answers

variable {s : State}

theorem AnswersBesideGroups.waits : AnswersBesideGroups s none := by
  intro s' stage h
  cases h

theorem AnswersBesideGroups.of_groups {s' : State} {stage : Stage} (groups : s'.store.groups = s.store.groups)
    (engine : s'.ce.engine = s.ce.engine) : AnswersBesideGroups s (some (s', stage)) := by
  rintro _ _ ⟨⟩
  exact ⟨groups, engine⟩

/-- An answer with an effect beside the Schedule Store and the engine. -/
theorem AnswersBesideGroups.beside {s' : State} {stage : Stage} (h : LeavesPool s s') :
    AnswersBesideGroups s (some (s', stage)) :=
  .of_groups h.groups (congrArg CommandEngine.engine h.2)

theorem AnswersBesideGroups.unchanged {stage : Stage} : AnswersBesideGroups s (some (s, stage)) := .of_groups rfl rfl

variable (a : Args) (s)

theorem appendTake_besideGroups : AnswersBesideGroups s (appendTake a s) := by
  unfold appendTake
  split
  · exact .unchanged
  · split <;> exact .of_groups rfl rfl

theorem discardTake_besideGroups : AnswersBesideGroups s (discardTake a s) := .of_groups rfl rfl

theorem commitTake_besideGroups : AnswersBesideGroups s (commitTake a s) := by
  unfold commitTake
  split <;> exact .unchanged

theorem cancelTake_besideGroups : AnswersBesideGroups s (cancelTake a s) := by
  unfold cancelTake
  split
  · exact .unchanged
  · split <;> exact .of_groups rfl rfl

theorem queryTake_besideGroups : AnswersBesideGroups s (queryTake a s) := by
  unfold queryTake
  split
  · exact .unchanged
  · split <;> exact .of_groups rfl rfl

theorem cancelGroupTake_besideGroups : AnswersBesideGroups s (cancelGroupTake a s) := by
  unfold cancelGroupTake
  split
  · exact .unchanged
  · exact .of_groups (Store.cancelGroup_groups _ _ _) rfl

theorem startTake_besideGroups (pins : Pins) : AnswersBesideGroups s (startTake pins a s) := by
  unfold startTake
  split
  · exact .beside (beginRunning_leavesPool pins s)
  · exact .unchanged

theorem stopTake_besideGroups : AnswersBesideGroups s (stopTake a s) := by
  unfold stopTake
  split
  · exact .unchanged
  · exact .beside (((LeavesPool.refl s).withTb _).trans (endRunning_leavesPool _))

theorem armSyncTake_besideGroups (sync : Bool) : AnswersBesideGroups s (armSyncTake sync a s) := by
  unfold armSyncTake
  split <;> exact .of_groups rfl rfl

theorem setTimeTake_besideGroups : AnswersBesideGroups s (setTimeTake a s) := by
  unfold setTimeTake
  split
  · split
    · split <;> exact .of_groups rfl rfl
    · exact .waits
  · exact .unchanged

theorem setTrimTake_besideGroups : AnswersBesideGroups s (setTrimTake a s) := by
  unfold setTrimTake
  split
  · exact .unchanged
  · split <;> exact .of_groups rfl rfl

theorem fireCueTake_besideGroups : AnswersBesideGroups s (fireCueTake a s) := by
  unfold fireCueTake
  split
  · exact .unchanged
  · exact .of_groups (Store.trigger_groups _ _ _ _) rfl

theorem configOutTake_besideGroups : AnswersBesideGroups s (configOutTake a s) := by
  unfold configOutTake
  split
  · split <;> exact .of_groups rfl rfl
  · exact .unchanged

theorem configInTake_besideGroups : AnswersBesideGroups s (configInTake a s) := by
  unfold configInTake
  split <;> exact .of_groups rfl rfl

theorem haltTake_besideGroups : AnswersBesideGroups s (haltTake a s) := .beside (haltEventTaken_leavesPool .command s)

theorem releaseTake_besideGroups : AnswersBesideGroups s (releaseTake a s) := by
  unfold releaseTake
  split
  · exact .unchanged
  · split <;> exact .of_groups rfl rfl

/-- SET-GROUP writes no suspended flag (R112). -/
theorem setGroupTake_flags {s' : State} {stage : Stage} (answered : setGroupTake a s = some (s', stage)) :
    (∀ g : Fin 16, s'.store.groups[g].suspended = s.store.groups[g].suspended) ∧ s'.ce.engine = s.ce.engine := by
  unfold setGroupTake at answered
  split at answered
  · split at answered <;> cases answered
    exact ⟨fun i => s.store.suspended_setHaltAction _ i _, rfl⟩
  · cases answered
    exact ⟨fun _ => rfl, rfl⟩

/-- SUSPEND writes no halt action (R113). -/
theorem suspendTake_actions {s' : State} {stage : Stage} (answered : suspendTake a s = some (s', stage)) :
    s.store.SameActions s'.store ∧ s'.ce.engine = s.ce.engine := by
  unfold suspendTake at answered
  split at answered
  · cases answered
    exact ⟨.of_groups rfl, rfl⟩
  · split at answered <;> cases answered
    · exact ⟨.of_groups rfl, rfl⟩
    · exact ⟨s.store.sameActions_suspendGroup _ _, rfl⟩

/-- RESUME writes no halt action (R114). -/
theorem resumeTake_actions {s' : State} {stage : Stage} (answered : resumeTake a s = some (s', stage)) :
    s.store.SameActions s'.store ∧ s'.ce.engine = s.ce.engine := by
  unfold resumeTake at answered
  split at answered
  · cases answered
    exact ⟨.of_groups rfl, rfl⟩
  · split at answered <;> cases answered
    · exact ⟨s.store.sameActions_resumeGroup _ _, rfl⟩
    · exact ⟨.of_groups rfl, rfl⟩

end Answers

/-! ## Host commands -/

/-- A property of the group records that the handler keeps is kept by every part of the host command. -/
theorem runCommand_keepsGroups {P : Vector GroupRecord 16 → Prop} {code : Byte} {handler : Handler}
    (hh : ∀ a s s' stage, handler a s = some (s', stage) → P s.store.groups →
      P s'.store.groups ∧ s'.ce.engine = s.ce.engine)
    (p : CmdStep) {s : State} (hs : P s.store.groups) : P (runCommand code handler p s).store.groups :=
  runCommand_keeps (P := (P ·.store.groups)) (fun _ _ h => h) (fun _ _ _ _ h => h) (fun _ _ _ _ h => h)
    (fun _ h => h) (fun a _ x x' stage _ answered h => hh a x x' stage answered h) p s hs

/-- Every part of a host command whose handler is beside the group records changes none of them. -/
theorem runCommand_groups {code : Byte} {handler : Handler} (hh : ∀ s a, AnswersBesideGroups s (handler a s))
    (p : CmdStep) (s : State) : (runCommand code handler p s).store.groups = s.store.groups :=
  runCommand_keepsGroups (P := (· = s.store.groups))
    (fun a x x' stage answered kept => (hh x a x' stage answered).imp_left (·.trans kept)) p rfl

theorem setGroup_groupStep (code : Byte) (p : CmdStep) (s : State) :
    GroupStep s (runCommand code setGroupTake p s) (.setGroup p) :=
  .setsAction <|
    runCommand_keepsGroups (P := fun groups => ∀ g : Fin 16, groups[g].suspended = s.store.groups[g].suspended)
      (fun a x _ _ answered kept => (setGroupTake_flags x a answered).imp_left fun flags g => (flags g).trans (kept g))
      p fun _ => rfl

/-- A host command whose handler writes suspended flags alone: it is taken in BUSY, so no merge is in flight (R79). -/
theorem runCommand_setsFlags {c : Instr} {code : Byte} {handler : Handler} (own : WritesFlags c)
    (hh : ∀ s a s' stage, handler a s = some (s', stage) → s.store.SameActions s'.store ∧ s'.ce.engine = s.ce.engine)
    (p : CmdStep) (s : State) : GroupStep s (runCommand code handler p s) c := by
  have kept : s.store.SameActions (runCommand code handler p s).store ∧
      ((runCommand code handler p s).store.groups = s.store.groups ∨
        ∀ a, (runCommand code handler p s).ce.engine ≠ .committing a) := by
    refine runCommand_keeps
      (P := fun x => s.store.SameActions x.store ∧ (x.store.groups = s.store.groups ∨ ∀ a, x.ce.engine ≠ .committing a))
      (fun _ _ h => h) ?_ ?_ (fun _ h => h) ?_ p s ⟨.of_groups rfl, .inl rfl⟩
    · exact fun x e _ outside ⟨actions, _⟩ => ⟨actions, .inr outside⟩
    · exact fun x c r _ ⟨actions, _⟩ => ⟨actions, .inr (by simp)⟩
    · intro a n x x' stage busy answered ⟨actions, _⟩
      obtain ⟨same, engine⟩ := hh x a x' stage answered
      exact ⟨⟨actions.trans same, .inr (by simp [engine, busy])⟩, engine⟩
  obtain ⟨actions, groups | noMerge⟩ := kept
  · exact .keeps groups
  · exact .setsFlags own actions noMerge

/-! ## Events and register writes -/

section Events

variable (s : State)

@[simp] theorem dispatch_groups : (dispatch s).store.groups = s.store.groups := by
  unfold dispatch
  split <;> simp

@[simp] theorem triggerEvent_groups (pick : TriggerPick) : (triggerEvent pick s).store.groups = s.store.groups := by
  cases pick <;> simp only [triggerEvent] <;> split <;> simp

@[simp] theorem commitStart_groups : (commitStart s).store.groups = s.store.groups := by
  unfold commitStart
  split
  · split
    · unfold commitStartTaken
      split
      · rfl
      · split <;> rfl
    · rfl
  · rfl

@[simp] theorem mergeCompletion_groups : (mergeCompletion s).store.groups = s.store.groups := by
  unfold mergeCompletion
  split
  · exact s.store.goLiveAll_groups _ _
  · rfl

@[simp] theorem abandon_groups (code : ResultCode) : (abandon code s).store.groups = s.store.groups := by
  unfold abandon
  split <;> rfl

/-- A served write whose effect is beside the group records is beside them. -/
theorem serveWrite_groups (a : Addr) {f : State → State} (hf : ∀ s, (f s).store.groups = s.store.groups) :
    (serveWrite a f s).store.groups = s.store.groups := by
  obtain e | ⟨p, -, e⟩ := serveWrite_cases a f s <;> simp [e, hf]

@[simp] theorem abortWrite_groups (w : Word) : (abortWrite w s).store.groups = s.store.groups := by
  unfold abortWrite
  split
  · exact serveWrite_groups s _ fun s => abandon_groups s .aborted
  · rfl

@[simp] theorem badCommand_groups (w : Word) : (badCommand w s).store.groups = s.store.groups := by
  unfold badCommand
  split
  · rfl
  · refine serveWrite_groups s _ fun s => ?_
    split <;> rfl

/-- Ahead of a register write at most an APPEND is taken (R67). -/
@[simp] theorem beforeWrite_groups (a : Addr) : (beforeWrite a s).store.groups = s.store.groups := by
  unfold beforeWrite
  split
  · exact runCommand_groups (code := 0x01) appendTake_besideGroups .take s
  · rfl

@[simp] theorem registerWrite_groups (a : Addr) (w : Word) :
    (registerWrite a w s).store.groups = s.store.groups := by
  unfold registerWrite
  split
  · rfl
  · exact serveWrite_groups s _ fun s => beforeWrite_groups s a

/-- Behind an abandonment no merge is in flight (R85, R86). -/
theorem abandon_noMerge (code : ResultCode) (a : Args) : (abandon code s).ce.engine ≠ .committing a := by
  by_cases merging : ∃ b, s.ce.engine = .committing b
  · obtain ⟨b, merging⟩ := merging
    simp [abandon_committing code merging]
  · rw [abandon_not_committing code (not_exists.mp merging)]
    exact not_exists.mp merging a

/-- The re-latch of a reset reads the halt actions and writes none (R173). -/
theorem relatch_sameActions : s.store.SameActions (relatch s).store := by
  cases level : s.hc.haltnHigh with
  | true =>
    rw [relatch_high level]
    exact .of_groups rfl
  | false =>
    rw [relatch_low level, State.withEq_store, applyHaltActions_store, (latchHalt_leavesPool .pin s).1]
    exact s.store.sameActions_haltGroups _ _

/-- A halt group request abandons the merge in flight, so none is in flight behind the flags that it writes
(R79, R86, R118). -/
theorem haltGroupRequest_groupStep : GroupStep s (haltGroupRequest s) .haltGroupRequest := by
  cases waiting : s.mail.haltRequests with
  | zero =>
    rw [haltGroupRequest_none waiting]
    exact .keeps rfl
  | succ n =>
    rw [haltGroupRequest_waiting waiting]
    refine .setsFlags (.inr (.inr (.inl rfl))) ?_ (abandon_noMerge _ .halted)
    refine .trans ?_ (.of_groups (abandon_groups _ .halted))
    rw [applyHaltActions_store]
    exact s.store.sameActions_haltGroups s.tb.time _

/-- A soft reset leaves the engine IDLE (R87). -/
theorem softReset_groupStep (w : Word) (pins : Pins) : GroupStep s (softReset w pins s) (.softReset w pins) := by
  unfold softReset
  split
  · obtain e | ⟨p, -, e⟩ := serveWrite_cases 0x02 (fun s => relatch (softResetValues pins s)) s <;> rw [e]
    · exact .keeps rfl
    · refine .setsFlags (.inr (.inr (.inr ⟨w, pins, rfl⟩))) ?_ ?_
      · exact s.store.sameActions_softReset.trans
          (relatch_sameActions (softResetValues pins (s.withHp { s.hp with port := p })))
      · simp [relatch_moves, softResetValues, CommandEngine.softReset]
  · exact .keeps rfl

end Events

/-! ## Every command -/

/-- R108, R79, R120: what every command but a power-on reset does to the group records. -/
theorem exec_groupStep {c : Instr} {s t : State} (h : exec c s = .next t)
    (hc : ∀ haltn csn pins, c ≠ .powerOnReset haltn csn pins) : GroupStep s t c := by
  have event : ∀ {f : State → State}, unlessInReset s f = .next t → GroupStep s (f s) c → GroupStep s t c := by
    intro f h step
    obtain rfl | ⟨-, rfl⟩ := unlessInReset_eq h
    · exact .keeps rfl
    · exact step
  have beside : ∀ {f : State → State}, unlessInReset s f = .next t → (f s).store.groups = s.store.groups →
      GroupStep s t c :=
    fun h groups => event h (.keeps groups)
  have write : ∀ {a : Addr} {f : State → State}, unlessInReset s (serveWrite a f) = .next t →
      (∀ s, (f s).store = s.store) → GroupStep s t c :=
    fun h hf => beside h (serveWrite_groups s _ fun s => congrArg Store.groups (hf s))
  have host : ∀ {code : Byte} {handler : Handler} {p : CmdStep},
      unlessInReset s (runCommand code handler p) = .next t → (∀ s a, AnswersBesideGroups s (handler a s)) →
      GroupStep s t c :=
    fun h hh => beside h (runCommand_groups hh _ s)
  cases c with
  | append p => exact host h appendTake_besideGroups
  | discard p => exact host h discardTake_besideGroups
  | commit p => exact host h commitTake_besideGroups
  | commitStart => exact beside h (commitStart_groups s)
  | mergeCompletion => exact beside h (mergeCompletion_groups s)
  | abort w => exact beside h (abortWrite_groups s w)
  | cancel p => exact host h cancelTake_besideGroups
  | query p => exact host h queryTake_besideGroups
  | suspend p => exact event h (runCommand_setsFlags (.inl ⟨p, rfl⟩) (fun s a _ _ => suspendTake_actions s a) p s)
  | resume p =>
    exact event h (runCommand_setsFlags (.inr (.inl ⟨p, rfl⟩)) (fun s a _ _ => resumeTake_actions s a) p s)
  | cancelGroup p => exact host h cancelGroupTake_besideGroups
  | setGroup p => exact event h (setGroup_groupStep 0x23 p s)
  | start p pins => exact host h fun s a => startTake_besideGroups s a pins
  | stop p => exact host h stopTake_besideGroups
  | armSync p sync => exact host h fun s a => armSyncTake_besideGroups s a sync
  | setTime p => exact host h setTimeTake_besideGroups
  | setTrim p => exact host h setTrimTake_besideGroups
  | fireCue p => exact host h fireCueTake_besideGroups
  | configOut p => exact host h configOutTake_besideGroups
  | configIn p => exact host h configInTake_besideGroups
  | halt p => exact host h haltTake_besideGroups
  | release p => exact host h releaseTake_besideGroups
  | badcmd w => exact beside h (badCommand_groups s w)
  | softReset w pins => exact event h (softReset_groupStep s w pins)
  | powerOnReset haltn csn pins => exact absurd rfl (hc haltn csn pins)
  | haltEvent p => exact beside h (haltEvent_leavesPool p s).groups
  | haltnRise => exact beside h rfl
  | haltGroupRequest => exact event h (haltGroupRequest_groupStep s)
  | syncEdge pins => exact beside h (syncEdge_leavesPool pins s).groups
  | tickEvent => exact beside h (tickEvent_leavesPool s).groups
  | dispatch => exact beside h (dispatch_groups s)
  | triggerEvent pick => exact beside h (triggerEvent_groups s pick)
  | delivery => exact beside h (delivery_leavesPool s).groups
  | runDown => exact beside h (runDown_leavesPool s).groups
  | pulseEnd => exact beside h (pulseEnd_leavesPool s).groups
  | sample pins => exact beside h (sample_leavesPool pins s).groups
  | confirmation pins => exact beside h (confirmation_leavesPool pins s).groups
  | recordOffer b => exact beside h (recordOffer_leavesPool b s).groups
  | pop w => exact write h fun s => s.withEq_store _
  | outDirect w => exact write h fun s => s.withOu_store _
  | irqFlags w => exact write h fun s => s.withEq_store _
  | irqEnable w => exact write h fun s => s.withEq_store _
  | thresh w => exact write h fun s => s.withEq_store _
  | time0 => exact beside h (time0Read_leavesPool s).groups
  | registerWrite a w => exact beside h (registerWrite_groups s a w)
  | headerByte b => exact beside h (headerByte_leavesPool b s).groups
  | syncFall => exact beside h (syncFall_leavesPool s).groups
  | resetnAsserted =>
    cases h
    exact .keeps rfl
  | frameEnd =>
    cases h
    exact .keeps rfl

end Sys2Proof.Machine

/-!
The statements of the family "Groups and parked entries".
-/

namespace Sys2Proof.Proofs

open Sys2Proof.Machine Sys2Proof.Safety Sys2Proof.Stated

/-- Settles O14, by what each command can do to the group records. -/
theorem groupRecordsChangeOnlyByTheirCommands : Obligations.GroupRecordsChangeOnlyByTheirCommands := by
  intro c s t h notPowerOn g
  cases exec_groupStep h notPowerOn with
  | keeps groups =>
    rw [groups]
    exact ⟨fun changed => absurd rfl changed, fun changed => absurd rfl changed, fun _ _ _ _ => rfl⟩
  | setsAction flags => exact ⟨fun _ => ⟨_, rfl⟩, fun changed => absurd (flags g) changed, fun _ _ _ _ => flags g⟩
  | setsFlags own actions noMerge =>
    exact ⟨fun changed => absurd (actions g) changed, fun _ => own, fun _ b _ merging => absurd merging (noMerge b)⟩

/-- Settles O28, by the three ways each of the two handlers can answer. -/
theorem suspendAndResumeOutcomes : Obligations.SuspendAndResumeOutcomes := by
  intro s p ht
  refine ⟨fun above => ⟨?_, ?_⟩, fun g below =>
    ⟨fun suspended => ?_, fun running => ?_, fun running => ?_, fun suspended => ?_⟩⟩
  · exact exec_whole_refused ht (suspendTake_badArg _ above)
  · exact exec_whole_refused ht (resumeTake_badArg _ above)
  · exact exec_whole_refused ht (suspendTake_suspended _ below suspended)
  · refine (exec_whole_answered ht (suspendTake_running (s := s.accepted p 0x20) _ below running)).trans ?_
    rw [State.accepted_store, Store.suspendGroup_running _ running]
    rfl
  · exact exec_whole_refused ht (resumeTake_running _ below running)
  · refine (exec_whole_answered ht (resumeTake_suspended (s := s.accepted p 0x21) _ below suspended)).trans ?_
    rw [State.accepted_store, Store.resumeGroup_suspended _ suspended]
    rfl

/-- Settles O30, by the answers of the two handlers, with and without a halt group request ahead of SET-GROUP. -/
theorem cancelGroupAndSetGroupOutcomes : Obligations.CancelGroupAndSetGroupOutcomes := by
  refine ⟨fun s p ht => ⟨fun above => ?_, fun refused => ?_, fun g below =>
    ⟨?_, fun action named => ⟨fun noneAhead => ?_, fun ahead => ?_⟩⟩⟩,
    fun s a n g action released busy below named => ⟨fun ahead => ?_, ?_⟩⟩
  · exact exec_whole_refused ht (cancelGroupTake_badArg _ above)
  · exact exec_whole_refused ht (setGroupTake_badArg _ refused)
  · exact exec_whole_answered ht (cancelGroupTake_cancels (s := s.accepted p 0x22) _ below)
  · exact exec_whole_answered ht (setGroupTake_writes (s := s.accepted p 0x23) _ below named noneAhead)
  · exact exec_whole_waits ht (setGroupTake_waits (s := s.accepted p 0x23) _ below named ahead)
  · refine event_released released (commandTake_waits busy (setGroupTake_waits a below named ?_))
    rwa [busy, Engine.haltsAhead_accepted]
  · rintro rfl
    refine event_released released (commandTake_answers busy (setGroupTake_writes a below named ?_))
    rw [busy, Engine.haltsAhead_accepted]

/-- Settles O29: the remaining time with which SUSPEND parks the entry is its distance, and RESUME places it at that
distance from the time of its own. -/
theorem suspensionKeepsDistance : Obligations.SuspensionKeepsDistance := by
  intro st g now later x running pending member ahead
  have parked := Store.mem_suspendGroup now running pending member
  exact ⟨_, Store.mem_resumeGroup later (st.suspended_suspendGroup now g) parked, rfl,
    dist_later_remainingAt ahead later⟩

/-- Settles O31: the walk frees slots that differ, so each is freed once, and each record is made with the handle that
its entry had before the walk. -/
theorem groupCancelFreesEveryMember : Obligations.GroupCancelFreesEveryMember := by
  rintro st reason g st' members whole placed rfl walk
  obtain rfl : members = st.membersOf g := walk
  have apart := whole.nodup_members g
  obtain ⟨gens, e, advanced⟩ := st.cancelGroup_store reason g
  rw [e]
  refine ⟨rfl, fun i => getElem_fin_mapBank _ _ i, placed.set_nil g, rfl, rfl, rfl, fun k => ?_,
    Store.freeLives_offers reason _ _ apart⟩
  rw [advanced k, apart.count]
  split
  · rfl
  · exact BitVec.add_zero _

/-- Settles O55, by the request that waits, by the merge in flight, and by the halt action of each group. -/
theorem haltGroupRequestOutcomes : Obligations.HaltGroupRequestOutcomes := by
  refine ⟨fun s released => ⟨fun none => ?_, fun n st records waiting walk => ⟨fun outside => ?_, fun a merging => ?_⟩⟩,
    fun st now g gs => ⟨rfl, Store.haltGroups_keep now gs, ?_, fun suspend suspended => ?_, ?_⟩⟩
  · exact event_released released (haltGroupRequest_none none)
  · refine event_released released ((haltGroupRequest_waiting waiting).trans ?_)
    have noMerge : ∀ a, (applyHaltActions (s.requestTaken n)).ce.engine ≠ .committing a := by
      simpa [State.requestTaken, Engine.haltTaken_eq_committing_iff] using outside
    rw [abandon_not_committing .halted noMerge, applyHaltActions_requestTaken walk]
    split
    · rename_i accepted
      rw [accepted, Engine.haltTaken_accepted]
    · rename_i notAccepted
      rw [Engine.haltTaken_of_not_accepted notAccepted]
  · refine event_released released ((haltGroupRequest_waiting waiting).trans ?_)
    have inFlight : (applyHaltActions (s.requestTaken n)).ce.engine = .committing a := by
      simpa [State.requestTaken, Engine.haltTaken_eq_committing_iff] using merging
    rw [abandon_committing .halted inFlight, applyHaltActions_requestTaken walk]
    rfl
  · rintro st' records cancel walk
    rw [Store.haltGroups_cancel now gs cancel, walk]
  · rw [Store.haltGroups_suspend now gs suspend, Store.suspendGroup_suspended now suspended]
  · rintro st' suspend running rfl
    rw [Store.haltGroups_suspend now gs suspend, Store.suspendGroup_running now running]
    rfl

end Sys2Proof.Proofs

/-!
The drive of the output lines: the part of a state that the pins and the ends of pulses depend on, which operations
leave it alone, and what the others do to it.
-/

namespace Sys2Proof.Machine

/-! ## The end of a pulse that is left behind, line by line (R123, R131) -/

/-- A pulse whose last tick has been counted is so behind the event only if it was so before it, and the event neither
ended that pulse nor closed its line. -/
def LineRecord.KeepsEnd (l l' : LineRecord) : Prop :=
  l'.ending = true → l.ending = true ∧ l'.pulse = l.pulse ∧ (l.closed = false → l'.closed = false)

section Line

variable {l l' : LineRecord}

theorem LineRecord.KeepsEnd.refl (l : LineRecord) : l.KeepsEnd l := fun ending => ⟨ending, rfl, id⟩

theorem LineRecord.KeepsEnd.trans {l'' : LineRecord} (h : l.KeepsEnd l') (h' : l'.KeepsEnd l'') : l.KeepsEnd l'' := by
  intro ending
  obtain ⟨ending', pulse', isOpen'⟩ := h' ending
  obtain ⟨ending, pulse, isOpen⟩ := h ending'
  exact ⟨ending, pulse'.trans pulse, isOpen' ∘ isOpen⟩

/-- An event that leaves no end behind keeps the ends. -/
theorem LineRecord.KeepsEnd.of_not_ending (h : l'.ending = false) : l.KeepsEnd l' := by
  intro ending
  rw [h] at ending
  cases ending

variable (l)

/-- An effect that the line takes ends its pulse or starts a new one (R128, R129). -/
theorem LineRecord.effect_keepsEnd (last : Option Time) (T : Time) (k : Fin 16) (e : Effect) :
    l.KeepsEnd (l.effect last T k e) := by
  unfold LineRecord.effect
  split
  · exact .of_not_ending (by cases e <;> rfl)
  · exact .refl l

theorem LineRecord.effects_keepsEnd (last : Option Time) (T : Time) (k : Fin 16) (es : List Effect) :
    l.KeepsEnd (l.effects last T k es) := by
  induction es generalizing l with
  | nil => exact .refl l
  | cons e es ih => exact (l.effect_keepsEnd last T k e).trans (ih _)

/-- The halt forcing ends the pulse of every line that it masks (R134). -/
theorem LineRecord.forced_keepsEnd : l.KeepsEnd l.forced := by
  unfold LineRecord.forced
  split
  · exact .of_not_ending rfl
  · exact .refl l

/-- A change of mode ends the pulse of the line (R126; assumption log 30). -/
theorem LineRecord.configured_keepsEnd (mode : LineMode) (safe member : Bool) :
    l.KeepsEnd (l.configured mode safe member) := by
  by_cases same : mode = l.mode
  · subst same
    exact fun ending => ⟨by simpa [LineRecord.configured] using ending, by simp [LineRecord.configured], id⟩
  · exact .of_not_ending (by simp [LineRecord.configured, same])

end Line

/-! ## The drive (R123) -/

/-- What the pins and the ends of pulses depend on: the Output Unit, the tick event that waits at it, and whether RESETn
is asserted. -/
structure Drive where
  ou : OutputUnit
  tick : Option Time
  inReset : Bool

/-- The drive of a state. -/
def State.drive (s : State) : Drive := ⟨s.ou, s.mail.outputTick, s.hp.inReset⟩

@[simp] theorem State.drive_ou (s : State) : s.drive.ou = s.ou := rfl
@[simp] theorem State.drive_tick (s : State) : s.drive.tick = s.mail.outputTick := rfl
@[simp] theorem State.drive_inReset (s : State) : s.drive.inReset = s.hp.inReset := rfl
@[simp] theorem State.drive_withEq (s : State) (x : EventQueue) : (s.withEq x).drive = s.drive := rfl
@[simp] theorem State.drive_withOu (s : State) (x : OutputUnit) : (s.withOu x).drive = { s.drive with ou := x } := rfl

/-- An event that keeps the ends of pulses and takes no run-down, whatever it does to the levels. -/
def Drive.Moves (d d' : Drive) : Prop :=
  (∀ k : Fin 16, d.ou.lines[k].KeepsEnd d'.ou.lines[k]) ∧ d'.tick = d.tick ∧ d'.inReset = d.inReset

/-- An event that keeps every level too. -/
def Drive.Holds (d d' : Drive) : Prop :=
  d.Moves d' ∧ ∀ k : Fin 16, d'.ou.lines[k].level = d.ou.lines[k].level

theorem Drive.Moves.refl (d : Drive) : d.Moves d := ⟨fun _ => .refl _, rfl, rfl⟩

theorem Drive.Moves.trans {d d' d'' : Drive} (h : d.Moves d') (h' : d'.Moves d'') : d.Moves d'' :=
  ⟨fun k => (h.1 k).trans (h'.1 k), h'.2.1.trans h.2.1, h'.2.2.trans h.2.2⟩

theorem Drive.Holds.refl (d : Drive) : d.Holds d := ⟨.refl d, fun _ => rfl⟩

theorem Drive.Holds.trans {d d' d'' : Drive} (h : d.Holds d') (h' : d'.Holds d'') : d.Holds d'' :=
  ⟨h.1.trans h'.1, fun k => (h'.2 k).trans (h.2 k)⟩

section Unit

variable (d : Drive)

/-- A change of the Output Unit alone moves the drive as it moves each line. -/
theorem Drive.Moves.of_lines {d : Drive} {u : OutputUnit} (ends : ∀ k : Fin 16, d.ou.lines[k].KeepsEnd u.lines[k]) :
    d.Moves { d with ou := u } :=
  ⟨ends, rfl, rfl⟩

theorem Drive.Moves.of_not_ending {d : Drive} {u : OutputUnit} (ended : ∀ k : Fin 16, u.lines[k].ending = false) :
    d.Moves { d with ou := u } :=
  .of_lines fun k => .of_not_ending (ended k)

/-- The halt forcing moves levels, and no end is left on a line that it masks (R134). -/
theorem Drive.force_moves : d.Moves { d with ou := d.ou.force } := by
  refine .of_lines fun k => ?_
  rw [OutputUnit.force_line]
  exact d.ou.lines[k].forced_keepsEnd

/-- The lifting leaves every level where the forcing put it (R135). -/
theorem Drive.lift_holds : d.Holds { d with ou := d.ou.lift } := by
  refine ⟨.of_lines fun k => ?_, fun k => ?_⟩
  · rw [OutputUnit.lift_line]
    exact fun ending => ⟨ending, rfl, fun isOpen => by simp_all [LineRecord.closed]⟩
  · simp only [OutputUnit.lift_line]

/-- CONFIG-OUT keeps every level (R125). -/
theorem Drive.configure_holds (k : Fin 16) (mode : LineMode) (safe member : Bool) :
    d.Holds { d with ou := d.ou.configure k mode safe member } := by
  refine ⟨.of_lines fun i => ?_, fun i => ?_⟩
  · rw [OutputUnit.configure_line]
    split
    · rename_i same
      exact same ▸ LineRecord.configured_keepsEnd _ mode safe member
    · exact .refl _
  · simp only [OutputUnit.configure_line]
    split
    · rename_i same
      exact same ▸ rfl
    · rfl

theorem Drive.deliver_moves (T : Time) (es : List Effect) : d.Moves { d with ou := d.ou.deliver T es } := by
  refine .of_lines fun k => ?_
  rw [OutputUnit.deliver_line]
  exact LineRecord.effects_keepsEnd _ _ _ _ _

theorem Drive.directWrite_moves (w : BitVec 16) : d.Moves { d with ou := d.ou.directWrite w } := by
  refine .of_lines fun k => ?_
  rw [OutputUnit.directWrite_line]
  split
  · exact fun ending => ⟨ending, rfl, id⟩
  · exact .refl _

theorem Drive.endPulses_moves (awaited : Fin 16 → Bool) : d.Moves { d with ou := d.ou.endPulses awaited } := by
  refine .of_lines fun k => ?_
  rw [OutputUnit.endPulses_line]
  split
  · exact .of_not_ending (LineRecord.returned_ending _)
  · exact .refl _

/-- A soft reset ends every pulse and puts every line at its safe level (R137). -/
theorem Drive.softReset_moves : d.Moves { d with ou := d.ou.softReset } :=
  .of_not_ending fun k => by rw [OutputUnit.softReset_line]

end Unit

/-! ## Events beside the drive -/

section Beside

variable (s : State)

theorem sample_drive (pins : Pins) : (sample pins s).drive = s.drive := by
  obtain ⟨-, e⟩ | ⟨T, -, e⟩ := sample_cases pins s <;> rw [e]
  rfl

theorem confirmation_drive (pins : Pins) : (confirmation pins s).drive = s.drive := by
  unfold confirmation
  split
  · split <;> rfl
  · rfl

theorem beginRunning_drive (pins : Pins) : (beginRunning pins s).drive = s.drive :=
  sample_drive (s.withTb s.tb.boundary) pins

theorem endRunning_drive : (endRunning s).drive = s.drive := by
  obtain ⟨-, e⟩ | ⟨-, e⟩ := endRunning_cases s <;> rw [e] <;> rfl

theorem syncEdge_drive (pins : Pins) : (syncEdge pins s).drive = s.drive := by
  unfold syncEdge
  split
  · exact beginRunning_drive s pins
  · rfl

theorem syncFall_drive : (syncFall s).drive = s.drive := by
  unfold syncFall
  split <;> rfl

theorem time0Read_drive : (time0Read s).drive = s.drive := by
  rw [time0Read_eq]
  split <;> rfl

theorem recordOffer_drive (b : Offerer) : (recordOffer b s).drive = s.drive := by
  cases b <;> simp only [recordOffer] <;> split <;> rfl

theorem headerByte_drive (b : Byte) : (headerByte b s).drive = s.drive := by
  unfold headerByte
  split <;> rfl

theorem dispatch_drive : (dispatch s).drive = s.drive := by
  unfold dispatch
  split <;> rfl

theorem triggerEvent_drive (pick : TriggerPick) : (triggerEvent pick s).drive = s.drive := by
  cases pick <;> simp only [triggerEvent] <;> split <;> rfl

theorem commitStart_drive : (commitStart s).drive = s.drive := by
  unfold commitStart
  split
  · split
    · unfold commitStartTaken
      split
      · rfl
      · split <;> rfl
    · rfl
  · rfl

theorem mergeCompletion_drive : (mergeCompletion s).drive = s.drive := by
  unfold mergeCompletion
  split <;> rfl

theorem abandon_drive (code : ResultCode) : (abandon code s).drive = s.drive := by
  unfold abandon
  split <;> rfl

theorem applyHaltActions_drive : (applyHaltActions s).drive = s.drive := by
  simp [applyHaltActions, State.drive]

theorem haltGroupRequest_drive : (haltGroupRequest s).drive = s.drive := by
  unfold haltGroupRequest
  split
  · rfl
  · rw [abandon_drive, applyHaltActions_drive]
    rfl

theorem recogniseFall_drive : (recogniseFall s).drive = s.drive := by
  unfold recogniseFall
  split <;> rfl

/-- A served write whose effect is beside the drive is beside it. -/
theorem serveWrite_drive (a : Addr) {f : State → State} (hf : ∀ s, (f s).drive = s.drive) :
    (serveWrite a f s).drive = s.drive := by
  obtain e | ⟨p, -, e⟩ := serveWrite_cases a f s <;> rw [e]
  exact hf _

/-- A served write moves the drive as its effect does. -/
theorem serveWrite_moves (a : Addr) {f : State → State} (hf : ∀ s : State, s.drive.Moves (f s).drive) :
    s.drive.Moves (serveWrite a f s).drive := by
  obtain e | ⟨p, -, e⟩ := serveWrite_cases a f s <;> rw [e]
  · exact .refl _
  · exact hf (s.withHp { s.hp with port := p })

theorem abortWrite_drive (w : Word) : (abortWrite w s).drive = s.drive := by
  unfold abortWrite
  split
  · exact serveWrite_drive s _ fun s => abandon_drive s .aborted
  · rfl

theorem badCommand_drive (w : Word) : (badCommand w s).drive = s.drive := by
  unfold badCommand
  split
  · rfl
  · refine serveWrite_drive s _ fun s => ?_
    split <;> rfl

end Beside

/-! ## The handlers of the host commands -/

/-- A handler's answer, if it gives one, holds the drive and leaves the engine's state to the command. -/
def AnswersHoldingDrive (s : State) (o : Option (State × Stage)) : Prop :=
  ∀ s' stage, o = some (s', stage) → s.drive.Holds s'.drive ∧ s'.ce.engine = s.ce.engine

section Answers

variable {s : State}

theorem AnswersHoldingDrive.waits : AnswersHoldingDrive s none := by
  intro s' stage h
  cases h

theorem AnswersHoldingDrive.of_holds {s' : State} {stage : Stage} (holds : s.drive.Holds s'.drive)
    (engine : s'.ce.engine = s.ce.engine) : AnswersHoldingDrive s (some (s', stage)) := by
  rintro _ _ ⟨⟩
  exact ⟨holds, engine⟩

/-- An answer with an effect beside the drive. -/
theorem AnswersHoldingDrive.beside {s' : State} {stage : Stage} (drive : s'.drive = s.drive)
    (engine : s'.ce.engine = s.ce.engine) : AnswersHoldingDrive s (some (s', stage)) :=
  .of_holds (drive ▸ .refl _) engine

theorem AnswersHoldingDrive.unchanged {stage : Stage} : AnswersHoldingDrive s (some (s, stage)) := .beside rfl rfl

variable (a : Args) (s)

theorem appendTake_holdsDrive : AnswersHoldingDrive s (appendTake a s) := by
  unfold appendTake
  split
  · exact .unchanged
  · split <;> exact .beside rfl rfl

theorem discardTake_holdsDrive : AnswersHoldingDrive s (discardTake a s) := .beside rfl rfl

theorem commitTake_holdsDrive : AnswersHoldingDrive s (commitTake a s) := by
  unfold commitTake
  split <;> exact .unchanged

theorem cancelTake_holdsDrive : AnswersHoldingDrive s (cancelTake a s) := by
  unfold cancelTake
  split
  · exact .unchanged
  · split <;> exact .beside rfl rfl

theorem queryTake_holdsDrive : AnswersHoldingDrive s (queryTake a s) := by
  unfold queryTake
  split
  · exact .unchanged
  · split <;> exact .beside rfl rfl

theorem suspendTake_holdsDrive : AnswersHoldingDrive s (suspendTake a s) := by
  unfold suspendTake
  split
  · exact .unchanged
  · split <;> exact .beside rfl rfl

theorem resumeTake_holdsDrive : AnswersHoldingDrive s (resumeTake a s) := by
  unfold resumeTake
  split
  · exact .unchanged
  · split <;> exact .beside rfl rfl

theorem cancelGroupTake_holdsDrive : AnswersHoldingDrive s (cancelGroupTake a s) := by
  unfold cancelGroupTake
  split <;> exact .beside rfl rfl

theorem setGroupTake_holdsDrive : AnswersHoldingDrive s (setGroupTake a s) := by
  unfold setGroupTake
  split
  · split
    · exact .beside rfl rfl
    · exact .waits
  · exact .unchanged

theorem startTake_holdsDrive (pins : Pins) : AnswersHoldingDrive s (startTake pins a s) := by
  unfold startTake
  split
  · exact .beside (beginRunning_drive s pins) (congrArg CommandEngine.engine (beginRunning_leavesPool pins s).2)
  · exact .unchanged

theorem stopTake_holdsDrive : AnswersHoldingDrive s (stopTake a s) := by
  unfold stopTake
  split
  · exact .unchanged
  · exact .beside (endRunning_drive (s.withTb s.tb.stop))
      (congrArg CommandEngine.engine (endRunning_leavesPool (s.withTb s.tb.stop)).2)

theorem armSyncTake_holdsDrive (sync : Bool) : AnswersHoldingDrive s (armSyncTake sync a s) := by
  unfold armSyncTake
  split <;> exact .beside rfl rfl

/-- SET-TIME moves the tick last run down, and no line (R58). -/
theorem setTimeTake_holdsDrive : AnswersHoldingDrive s (setTimeTake a s) := by
  unfold setTimeTake
  split
  · split
    · split
      · exact .of_holds ⟨⟨fun _ => .refl _, rfl, rfl⟩, fun _ => rfl⟩ rfl
      · exact .unchanged
    · exact .waits
  · exact .unchanged

theorem setTrimTake_holdsDrive : AnswersHoldingDrive s (setTrimTake a s) := by
  unfold setTrimTake
  split
  · exact .unchanged
  · split <;> exact .beside rfl rfl

theorem fireCueTake_holdsDrive : AnswersHoldingDrive s (fireCueTake a s) := by
  unfold fireCueTake
  split <;> exact .beside rfl rfl

theorem configOutTake_holdsDrive : AnswersHoldingDrive s (configOutTake a s) := by
  unfold configOutTake
  split
  · split
    · exact .unchanged
    · exact .of_holds (s.drive.configure_holds _ _ _ _) rfl
  · exact .unchanged

theorem configInTake_holdsDrive : AnswersHoldingDrive s (configInTake a s) := by
  unfold configInTake
  split <;> exact .beside rfl rfl

theorem releaseTake_holdsDrive : AnswersHoldingDrive s (releaseTake a s) := by
  unfold releaseTake
  split
  · exact .unchanged
  · split
    · exact .unchanged
    · exact .of_holds s.drive.lift_holds rfl

end Answers

/-! ## Host commands -/

/-- A property of the drive that the handler keeps is kept by every part of the host command. -/
theorem runCommand_keepsDrive {P : Drive → Prop} {code : Byte} {handler : Handler}
    (hh : ∀ a s s' stage, handler a s = some (s', stage) → P s.drive → P s'.drive ∧ s'.ce.engine = s.ce.engine)
    (p : CmdStep) {s : State} (hs : P s.drive) : P (runCommand code handler p s).drive :=
  runCommand_keeps (P := (P ·.drive)) (fun _ _ h => h) (fun _ _ _ _ h => h) (fun _ _ _ _ h => h)
    (fun _ h => h) (fun a _ x x' stage _ answered h => hh a x x' stage answered h) p s hs

theorem runCommand_holds {code : Byte} {handler : Handler} (hh : ∀ s a, AnswersHoldingDrive s (handler a s))
    (p : CmdStep) (s : State) : s.drive.Holds (runCommand code handler p s).drive :=
  runCommand_keepsDrive (P := s.drive.Holds)
    (fun a x x' stage answered held => (hh x a x' stage answered).imp_left held.trans) p (.refl _)

end Sys2Proof.Machine

/-!
What one command can do to the drive of the output lines (R123, R131, R137; assumption logs 27, 29).
-/

namespace Sys2Proof.Machine

open Sys2Proof.Safety

/-! ## Events that move levels -/

/-- The commands that can move the level of a line (R123). -/
def MovesLevels (c : Instr) : Prop :=
  c = .delivery ∨ c = .runDown ∨ c = .pulseEnd ∨ (∃ w, c = .outDirect w) ∨ (∃ p, c = .haltEvent p) ∨
    (∃ p, c = .halt p) ∨ (∃ w p, c = .softReset w p) ∨ (∃ h f p, c = .powerOnReset h f p)

section Moving

variable (s : State)

theorem delivery_moves : s.drive.Moves (delivery s).drive := by
  unfold delivery
  split
  · exact .refl _
  · exact s.drive.deliver_moves _ _

@[simp] theorem latchHalt_drive (cause : HaltCause) :
    (latchHalt cause s).drive = { s.drive with ou := s.ou.force } := rfl

/-- A halt event forces the lines, or finds the latch set and does nothing (R166, R167). -/
theorem haltEventTaken_moves (cause : HaltCause) : s.drive.Moves (haltEventTaken cause s).drive := by
  cases latch : s.hc.latch with
  | some c => rw [haltEventTaken_latched cause latch]; exact .refl _
  | none =>
    have forced : (haltEventTaken cause s).drive = (latchHalt cause s).drive := by
      rw [haltEventTaken_clear cause latch]
      rfl
    rw [forced, latchHalt_drive]
    exact s.drive.force_moves

theorem takeFall_moves : s.drive.Moves (takeFall s).drive := by
  cases owed : s.hc.fallsOwed with
  | zero => rw [takeFall_none owed]; exact .refl _
  | succ n => rw [takeFall_owed owed]; exact haltEventTaken_moves (s.withHc { s.hc with fallsOwed := n }) .pin

theorem haltEvent_moves (p : FallStep) : s.drive.Moves (haltEvent p s).drive := by
  have recognised : s.drive.Moves (recogniseFall s).drive := recogniseFall_drive s ▸ .refl _
  cases p with
  | whole =>
    simp only [haltEvent]
    split
    · exact recognised.trans (takeFall_moves _)
    · exact .refl _
  | recognise => exact recognised
  | take => exact takeFall_moves s

theorem halt_moves (p : CmdStep) : s.drive.Moves (runCommand 0x60 haltTake p s).drive := by
  refine runCommand_keepsDrive (P := s.drive.Moves) ?_ p (.refl _)
  rintro a x _ _ ⟨⟩ moved
  exact ⟨moved.trans (haltEventTaken_moves x .command),
    congrArg CommandEngine.engine (haltEventTaken_leavesPool .command x).2⟩

/-- The re-latch of a reset forces the lines (R173, R174). -/
theorem relatch_movesDrive : s.drive.Moves (relatch s).drive := by
  cases level : s.hc.haltnHigh with
  | true => rw [relatch_high level]; exact .refl _
  | false =>
    rw [relatch_low level, State.drive_withEq, applyHaltActions_drive, latchHalt_drive]
    exact s.drive.force_moves

theorem softResetValues_moves (pins : Pins) : s.drive.Moves (softResetValues pins s).drive := s.drive.softReset_moves

theorem softReset_moves (w : Word) (pins : Pins) : s.drive.Moves (softReset w pins s).drive := by
  unfold softReset
  split
  · exact serveWrite_moves s _ fun s => (softResetValues_moves s pins).trans (relatch_movesDrive _)
  · exact .refl _

/-! ## Register writes -/

/-- Ahead of a register write at most an APPEND is taken (R67). -/
theorem beforeWrite_holds (a : Addr) : s.drive.Holds (beforeWrite a s).drive := by
  unfold beforeWrite
  split
  · exact runCommand_holds (code := 0x01) appendTake_holdsDrive .take s
  · exact .refl _

theorem registerWrite_holds (a : Addr) (w : Word) : s.drive.Holds (registerWrite a w s).drive := by
  unfold registerWrite
  split
  · exact .refl _
  · obtain e | ⟨p, -, e⟩ := serveWrite_cases a _ s <;> rw [e]
    · exact .refl _
    · exact beforeWrite_holds (s.withHp { s.hp with port := p }) a

end Moving

/-! ## The run-down, the tick and the power-on reset -/

/-- A run-down leaves a pulse to end only on an open line, and the pulse is still there (R131). -/
theorem LineRecord.runDown_left {b : Bool} {l : LineRecord} (ending : (l.runDown b).ending = true) :
    (l.runDown b).closed = false ∧ (l.runDown b).pulse ≠ none := by
  obtain ⟨rfl, isOpen, ends, -⟩ := LineRecord.runDown_ending ending
  obtain ⟨p, hp⟩ := LineRecord.pulse_of_aboutToEnd ends
  refine ⟨(LineRecord.runDown_closed true l).trans isOpen, ?_⟩
  simp [LineRecord.runDown_awaited isOpen, hp]

/-- The run-down of the tick is taken, and what it leaves behind are pulses on open lines. -/
def Drive.RunsDown (d d' : Drive) : Prop :=
  (∀ k : Fin 16, d'.ou.lines[k].ending = true → d'.ou.lines[k].closed = false ∧ d'.ou.lines[k].pulse ≠ none) ∧
    d'.tick = none ∧ d'.inReset = d.inReset

theorem Drive.RunsDown.moves {d d' d'' : Drive} (h : d.RunsDown d') (h' : d'.Moves d'') : d.RunsDown d'' := by
  obtain ⟨left, tick, inReset⟩ := h
  obtain ⟨ends, tick', inReset'⟩ := h'
  refine ⟨fun k ending => ?_, tick'.trans tick, inReset'.trans inReset⟩
  obtain ⟨before, pulse, isOpen⟩ := ends k ending
  exact ⟨isOpen (left k before).1, pulse ▸ (left k before).2⟩

theorem runDownWork_runsDown (T : Time) (s : State) : s.drive.RunsDown (runDownWork T s).drive := by
  refine ⟨fun k => ?_, by simp [State.drive], by simp [State.drive]⟩
  simp only [State.drive, runDownWork_ou, OutputUnit.runDown_line]
  exact LineRecord.runDown_left

theorem runDown_drive_cases (s : State) : runDown s = s ∨ s.drive.RunsDown (runDown s).drive := by
  obtain ⟨-, e⟩ | ⟨T, -, e⟩ := runDown_cases s
  · exact .inl e
  · exact .inr (e ▸ runDownWork_runsDown T s)

/-- The tick ends behind the end of every pulse that ends with it (R49; assumption logs 25, 27). -/
theorem State.not_ending_of_tickWorkTaken {s : State} (taken : s.tickWorkTaken = true) (k : Fin 16) :
    s.ou.lines[k].ending = false := by
  simp only [State.tickWorkTaken, Bool.and_eq_true, List.all_eq_true, Bool.not_eq_true'] at taken
  exact taken.2 _ (by simp)

/-- No pulse is left to end behind a power-on reset (R137, R174). -/
theorem powerOnReset_not_ending (haltn csn : Bool) (pins : Pins) (s : State) (k : Fin 16) :
    (powerOnReset haltn csn pins s).ou.lines[k].ending = false := by
  rw [Bool.eq_false_iff]
  intro ending
  obtain ⟨before, -, -⟩ := (relatch_movesDrive _).1 k ending
  simp [State.drive, State.reset, OutputUnit.reset] at before

/-! ## Every command -/

/-- What one command can do to the drive. -/
inductive DriveStep (c : Instr) (d d' : Drive) : Prop
  | holds (held : d.Holds d')
  | moves (own : MovesLevels c) (moved : d.Moves d')
  | runsDown (own : MovesLevels c) (ran : d.RunsDown d')
  | ticks (lines : d'.ou = d.ou) (ended : ∀ k : Fin 16, d.ou.lines[k].ending = false)
      (inReset : d'.inReset = d.inReset)
  | powersOn (own : ∃ h f p, c = .powerOnReset h f p) (ended : ∀ k : Fin 16, d'.ou.lines[k].ending = false)
  | assertsReset (own : c = .resetnAsserted) (lines : d'.ou = d.ou) (tick : d'.tick = d.tick)
      (asserted : d'.inReset = true)

theorem runDown_driveStep (s : State) : DriveStep .runDown s.drive (runDown s).drive := by
  obtain e | ran := runDown_drive_cases s
  · rw [e]
    exact .holds (.refl _)
  · exact .runsDown (.inr (.inl rfl)) ran

theorem pulseEnd_driveStep (s : State) : DriveStep .pulseEnd s.drive (pulseEnd s).drive := by
  have own : MovesLevels .pulseEnd := .inr (.inr (.inl rfl))
  obtain ⟨r, hr, e⟩ := pulseEnd_cases s
  have ends := r.drive.endPulses_moves r.effectToCome
  rw [e]
  obtain rfl | rfl := hr
  · exact .moves own ends
  · obtain still | ran := runDown_drive_cases s
    · rw [still] at ends ⊢
      exact .moves own ends
    · exact .runsDown own (ran.moves ends)

theorem tickEvent_driveStep (s : State) : DriveStep .tickEvent s.drive (tickEvent s).drive := by
  unfold tickEvent
  split
  · split
    · rename_i taken
      exact .ticks rfl (State.not_ending_of_tickWorkTaken taken) rfl
    · exact .holds (.refl _)
  · exact .holds (.refl _)

theorem exec_driveStep {c : Instr} {s t : State} (h : exec c s = .next t) : DriveStep c s.drive t.drive := by
  have event : ∀ {f : State → State}, unlessInReset s f = .next t → DriveStep c s.drive (f s).drive →
      DriveStep c s.drive t.drive := by
    intro f h step
    obtain rfl | ⟨-, rfl⟩ := unlessInReset_eq h
    · exact .holds (.refl _)
    · exact step
  have beside : ∀ {f : State → State}, unlessInReset s f = .next t → (∀ s, (f s).drive = s.drive) →
      DriveStep c s.drive t.drive :=
    fun h hf => event h (.holds (hf s ▸ .refl _))
  have write : ∀ {a : Addr} {f : State → State}, unlessInReset s (serveWrite a f) = .next t →
      (∀ s, (f s).drive = s.drive) → DriveStep c s.drive t.drive :=
    fun h hf => beside h fun s => serveWrite_drive s _ hf
  have host : ∀ {code : Byte} {handler : Handler} {p : CmdStep},
      unlessInReset s (runCommand code handler p) = .next t → (∀ s a, AnswersHoldingDrive s (handler a s)) →
      DriveStep c s.drive t.drive :=
    fun h hh => event h (.holds (runCommand_holds hh _ s))
  cases c with
  | append p => exact host h appendTake_holdsDrive
  | discard p => exact host h discardTake_holdsDrive
  | commit p => exact host h commitTake_holdsDrive
  | commitStart => exact beside h commitStart_drive
  | mergeCompletion => exact beside h mergeCompletion_drive
  | abort w => exact beside h (abortWrite_drive · w)
  | cancel p => exact host h cancelTake_holdsDrive
  | query p => exact host h queryTake_holdsDrive
  | suspend p => exact host h suspendTake_holdsDrive
  | resume p => exact host h resumeTake_holdsDrive
  | cancelGroup p => exact host h cancelGroupTake_holdsDrive
  | setGroup p => exact host h setGroupTake_holdsDrive
  | start p pins => exact host h fun s a => startTake_holdsDrive s a pins
  | stop p => exact host h stopTake_holdsDrive
  | armSync p sync => exact host h fun s a => armSyncTake_holdsDrive s a sync
  | setTime p => exact host h setTimeTake_holdsDrive
  | setTrim p => exact host h setTrimTake_holdsDrive
  | fireCue p => exact host h fireCueTake_holdsDrive
  | configOut p => exact host h configOutTake_holdsDrive
  | configIn p => exact host h configInTake_holdsDrive
  | release p => exact host h releaseTake_holdsDrive
  | badcmd w => exact beside h (badCommand_drive · w)
  | haltnRise => exact beside h fun _ => rfl
  | haltGroupRequest => exact beside h haltGroupRequest_drive
  | syncEdge pins => exact beside h (syncEdge_drive · pins)
  | tickEvent => exact event h (tickEvent_driveStep s)
  | dispatch => exact beside h dispatch_drive
  | triggerEvent pick => exact beside h (triggerEvent_drive · pick)
  | sample pins => exact beside h (sample_drive · pins)
  | confirmation pins => exact beside h (confirmation_drive · pins)
  | recordOffer b => exact beside h (recordOffer_drive · b)
  | pop w => exact write h fun _ => rfl
  | irqFlags w => exact write h fun _ => rfl
  | irqEnable w => exact write h fun _ => rfl
  | thresh w => exact write h fun _ => rfl
  | time0 => exact beside h time0Read_drive
  | registerWrite a w => exact event h (.holds (registerWrite_holds s a w))
  | headerByte b => exact beside h (headerByte_drive · b)
  | syncFall => exact beside h syncFall_drive
  | halt p => exact event h (.moves (by simp [MovesLevels]) (halt_moves s p))
  | haltEvent p => exact event h (.moves (by simp [MovesLevels]) (haltEvent_moves s p))
  | softReset w pins => exact event h (.moves (by simp [MovesLevels]) (softReset_moves s w pins))
  | delivery => exact event h (.moves (by simp [MovesLevels]) (delivery_moves s))
  | outDirect w =>
    exact event h (.moves (by simp [MovesLevels]) (serveWrite_moves s _ fun s => s.drive.directWrite_moves w))
  | runDown => exact event h (runDown_driveStep s)
  | pulseEnd => exact event h (pulseEnd_driveStep s)
  | powerOnReset haltn csn pins =>
    cases h
    exact .powersOn ⟨haltn, csn, pins, rfl⟩ (powerOnReset_not_ending haltn csn pins s)
  | resetnAsserted =>
    cases h
    exact .assertsReset rfl rfl rfl rfl
  | frameEnd =>
    cases h
    exact .holds (.refl _)

section Kept

variable {c : Instr} {s t : State} (step : DriveStep c s.drive t.drive)
include step

/-- Every command leaves the ends of pulses behind the run-down of their tick, on open lines (R123, R131). -/
theorem DriveStep.pulsesSound (hs : PulsesSound s) : PulsesSound t := by
  have kept : (∀ k : Fin 16, s.ou.lines[k].KeepsEnd t.ou.lines[k]) → t.mail.outputTick = s.mail.outputTick →
      PulsesSound t := by
    intro ends tick k ending
    obtain ⟨before, pulse, isOpen⟩ := ends k ending
    obtain ⟨wasOpen, pulsing, taken⟩ := hs k before
    exact ⟨isOpen wasOpen, fun none => pulsing (pulse.symm.trans none), tick.trans taken⟩
  cases step with
  | holds held => exact kept held.1.1 held.1.2.1
  | moves own moved => exact kept moved.1 moved.2.1
  | assertsReset own lines tick asserted =>
    rw [State.drive_ou, State.drive_ou] at lines
    exact kept (fun k => lines ▸ .refl _) tick
  | runsDown own ran =>
    obtain ⟨left, tick, -⟩ := ran
    intro k ending
    obtain ⟨isOpen, pulsing⟩ := left k ending
    exact ⟨isOpen, pulsing, tick⟩
  | ticks lines ended inReset =>
    intro k ending
    have before : s.ou.lines[k].ending = false := ended k
    rw [show t.ou = s.ou from lines, before] at ending
    cases ending
  | powersOn own ended =>
    intro k ending
    cases (ended k).symm.trans ending

/-- Only the commands of R123 move a level. -/
theorem DriveStep.movesLevels {k : Fin 16} (moved : t.ou.lines[k].level ≠ s.ou.lines[k].level) : MovesLevels c := by
  cases step with
  | holds held => exact absurd (held.2 k) moved
  | moves own | runsDown own => exact own
  | ticks lines | assertsReset own lines =>
    rw [State.drive_ou, State.drive_ou] at lines
    exact absurd (by rw [lines]) moved
  | powersOn own => exact .inr (.inr (.inr (.inr (.inr (.inr (.inr own))))))

/-- RESETn changes only at its assertion and at its release (R176, R188). -/
theorem DriveStep.inReset_cases :
    t.hp.inReset = s.hp.inReset ∨ (∃ h f p, c = .powerOnReset h f p) ∨ c = .resetnAsserted ∧ t.hp.inReset = true := by
  cases step with
  | holds held => exact .inl held.1.2.2
  | moves own moved => exact .inl moved.2.2
  | runsDown own ran => exact .inl ran.2.2
  | ticks lines ended inReset => exact .inl inReset
  | powersOn own => exact .inr (.inl own)
  | assertsReset own lines tick asserted => exact .inr (.inr ⟨own, asserted⟩)

/-- A pin moves with the level of its line, or with RESETn (R123, R137). -/
theorem DriveStep.outPin_cases {k : Fin 16} (moved : t.outPin k ≠ s.outPin k) :
    t.ou.lines[k].level ≠ s.ou.lines[k].level ∨ (∃ h f p, c = .powerOnReset h f p) ∨
      c = .resetnAsserted ∧ t.outPin k = false := by
  obtain kept | own | ⟨own, asserted⟩ := step.inReset_cases
  · exact .inl fun level => moved (outPin_congr kept level)
  · exact .inr (.inl own)
  · exact .inr (.inr ⟨own, by simp [State.outPin, asserted]⟩)

end Kept

end Sys2Proof.Machine

/-!
One output line at a time (chapter 7): what its run-down, the end of its pulse and each effect leave of its record, and
what the Output Unit's events and CONFIG-OUT make of the state.
-/

namespace Sys2Proof.Machine

open Sys2Proof.Stated

/-! ## The run-down of one line and the end of its pulse (R131) -/

section Line

variable {l : LineRecord}

/-- A run-down ends the pulse of the line, or has counted its last tick already. -/
theorem LineRecord.aboutToEnd_iff :
    l.aboutToEnd = true ↔ ∃ x, l.pulse = some x ∧ (l.ending = true ∨ x.fresh = false ∧ x.remaining ≤ 1) := by
  unfold LineRecord.aboutToEnd
  cases l.pulse with
  | none => simp
  | some x => simp [Nat.sub_eq_zero_iff_le]

theorem LineRecord.aboutToEnd_eq_false
    (goesOn : ∀ x, l.pulse = some x → l.ending = false ∧ (x.fresh = true ∨ 1 < x.remaining)) :
    l.aboutToEnd = false := by
  rw [Bool.eq_false_iff, Ne, LineRecord.aboutToEnd_iff]
  rintro ⟨x, pulsing, ending | ⟨notFresh, last⟩⟩ <;> obtain ⟨going, fresh | more⟩ := goesOn x pulsing
  · simp [going] at ending
  · simp [going] at ending
  · simp [fresh] at notFresh
  · omega

theorem LineRecord.returned_steady (steady : l.pulse = none) : l.returned = { l with ending := false } := by
  simp [LineRecord.returned, steady]

section Pulsing

variable {x : Pulse} (pulsing : l.pulse = some x)
include pulsing

theorem LineRecord.returned_pulsing :
    l.returned = { l with level := x.returnLevel, pulse := none, ending := false } := by
  simp [LineRecord.returned, pulsing]

/-- A run-down that does not end the pulse counts it, and nothing else (R131). -/
theorem LineRecord.runDown_counts (b : Bool) (going : l.ending = false) (goesOn : x.fresh = true ∨ 1 < x.remaining) :
    l.runDown b = { l with pulse := some x.counted } := by
  rw [LineRecord.runDown_goes_on b pulsing going goesOn, ← going]

/-- The run-down that ends the pulse returns the line, when no effect may come for it or it takes none (R131). -/
theorem LineRecord.runDown_returns {b : Bool} (ends : l.ending = true ∨ x.fresh = false ∧ x.remaining ≤ 1)
    (noEffect : b = false ∨ l.closed = true) : l.runDown b = l.returned := by
  rw [LineRecord.runDown_ends b pulsing ends, LineRecord.returned_pulsing pulsing, if_neg]
  obtain h | h := noEffect <;> simp [h]

/-- On an open line for which an effect may come it counts the pulse's last tick and leaves the end (R131, R132). -/
theorem LineRecord.runDown_leaves (ends : l.ending = true ∨ x.fresh = false ∧ x.remaining ≤ 1)
    (isOpen : l.closed = false) : l.runDown true = { l with pulse := some x.counted, ending := true } := by
  rw [LineRecord.runDown_ends true pulsing ends, isOpen]
  rfl

end Pulsing

/-! ## One effect on one line (R127, R128, R129, R132) -/

section Effect

variable {last : Option Time} {T : Time} {k : Fin 16}

/-- An open line takes an effect that addresses it on its settled record (R127, R132). -/
theorem LineRecord.effect_taken {e : Effect} (isOpen : l.closed = false) (addressed : e.addresses k = true) :
    l.effect last T k e = (l.settled last T).take last T k e := by
  simp [LineRecord.effect, isOpen, addressed]

/-- A pulse ends at `T` when its last tick has been counted, or would be by the run-down of `T` still to come (R132). -/
theorem LineRecord.endsAt_iff {x : Pulse} (pulsing : l.pulse = some x) :
    l.endsAt last T = true ↔ l.ending = true ∨ x.fresh = false ∧ x.remaining ≤ 1 ∧ last ≠ some T := by
  simp only [LineRecord.endsAt, LineRecord.aboutToEnd, pulsing]
  cases l.ending <;> simp [Nat.sub_eq_zero_iff_le, and_assoc]

/-- A line without a pulse settles as it is. -/
theorem LineRecord.settled_steady (steady : l.pulse = none) : l.settled last T = { l with ending := false } := by
  unfold LineRecord.settled
  split
  · exact LineRecord.returned_steady steady
  · rename_i stays
    have going : l.ending = false := by
      simp only [LineRecord.endsAt, Bool.or_eq_true, not_or, Bool.not_eq_true] at stays
      exact stays.1
    rw [← going]

/-- A settled record is the record returned from a pulse that ends at `T`, or the record itself (R132). -/
theorem LineRecord.settled_eq {b : LineRecord}
    (ends : ∀ x, l.pulse = some x → l.ending = true ∨ x.fresh = false ∧ x.remaining ≤ 1 ∧ last ≠ some T →
      b = { l with level := x.returnLevel, pulse := none })
    (stays : (∀ x, l.pulse = some x → ¬ (l.ending = true ∨ x.fresh = false ∧ x.remaining ≤ 1 ∧ last ≠ some T)) →
      b = l) :
    l.settled last T = { b with ending := false } := by
  cases pulsing : l.pulse with
  | none =>
    rw [stays (by simp [pulsing])]
    exact LineRecord.settled_steady pulsing
  | some x =>
    by_cases endsNow : l.ending = true ∨ x.fresh = false ∧ x.remaining ≤ 1 ∧ last ≠ some T
    · rw [ends x pulsing endsNow, LineRecord.settled, if_pos ((LineRecord.endsAt_iff pulsing).mpr endsNow)]
      exact LineRecord.returned_pulsing pulsing
    · have going : l.ending = false := Bool.eq_false_iff.mpr fun ending => endsNow (.inl ending)
      rw [stays (by simpa [pulsing] using endsNow), LineRecord.settled,
        if_neg (mt (LineRecord.endsAt_iff pulsing).mp endsNow), ← going]

/-- What an effect makes of a settled record does not depend on whether an end was left behind. -/
theorem LineRecord.take_ending (b : LineRecord) (ending : Bool) (e : Effect) :
    LineRecord.take { b with ending := ending } last T k e = b.take last T k e := by
  cases e <;> rfl

/-- An open line takes an effect that addresses it on the record `b` that R132 gives. -/
theorem LineRecord.effect_settled {b : LineRecord} {e : Effect} (isOpen : l.closed = false)
    (addressed : e.addresses k = true) (settled : l.settled last T = { b with ending := false }) :
    l.effect last T k e = b.take last T k e := by
  rw [LineRecord.effect_taken isOpen addressed, settled, LineRecord.take_ending]

theorem LineRecord.take_pulse (b : LineRecord) (j : Fin 16) (v : Bool) (w : BitVec 16) :
    b.take last T k (.pulse j v w) =
      { b with
        level := v
        pulse := some ⟨w.toNat, (b.pulse.map Pulse.returnLevel).getD b.level, decide (last ≠ some T)⟩
        ending := false } := by
  have fresh : (last != some T) = decide (last ≠ some T) := by
    rw [Bool.eq_iff_iff]
    simp
  rw [← fresh]
  cases hb : b.pulse <;> simp [LineRecord.take, hb]

/-! ## A pulse from its start to its end (R131) -/

/-- The record of a line in a pulse to level `v` with `n` ticks left, started on the record `l`. -/
def LineRecord.inPulse (l : LineRecord) (v : Bool) (n : Nat) : LineRecord :=
  { l with level := v, pulse := some ⟨n, l.level, false⟩, ending := false }

/-- The pulse that an effect starts, with the run-down of its tick before it or behind it (R129, R131). -/
theorem LineRecord.pulse_started {line : LineRecord} {v : Bool} {w : BitVec 16} {b : Bool} (isOpen : l.closed = false)
    (steady : l.pulse = none) (early : last ≠ some T)
    (both : line = (l.effect last T k (.pulse k v w)).runDown b ∨
      line = (l.runDown b).effect (some T) T k (.pulse k v w)) : line = l.inPulse v w.toNat := by
  have addressed : (Effect.pulse k v w).addresses k = true := beq_self_eq_true k
  have renewed := LineRecord.effect_renewed k early isOpen addressed
  have behind : (l.runDown b).effect (some T) T k (.pulse k v w) = l.inPulse v w.toNat := by
    rw [LineRecord.runDown_steady b steady,
      LineRecord.effect_taken (l := { l with ending := false }) isOpen addressed,
      LineRecord.settled_steady (l := { l with ending := false }) steady, LineRecord.take_pulse]
    simp [LineRecord.inPulse, steady]
  obtain rfl | rfl := both
  · rw [renewed.runDown, ← renewed.runDown false, ← LineRecord.effect_runDown k early isOpen addressed,
      LineRecord.runDown_steady true steady, ← LineRecord.runDown_steady b steady, behind]
  · exact behind

end Effect

section InPulse

variable (l) (v b : Bool) (n : Nat)

/-- A tick with no effect for the line takes one tick off its pulse (R131). -/
theorem lineTick_inPulse : lineTick b (l.inPulse v (n + 2)) = l.inPulse v (n + 1) := by
  have counted : (l.inPulse v (n + 2)).runDown b = l.inPulse v (n + 1) :=
    LineRecord.runDown_counts (x := ⟨n + 2, l.level, false⟩) rfl b rfl (.inr (by simp))
  rw [lineTick, counted]
  rfl

/-- The pulse's last tick returns the line, with its run-down or with the end behind it (R131; assumption log 27). -/
theorem lineTick_inPulse_last : lineTick b (l.inPulse v 1) = { l with pulse := none, ending := false } := by
  have ended := LineRecord.runDown_ends b (l := l.inPulse v 1) rfl (.inr ⟨rfl, le_rfl⟩)
  rw [lineTick, ended]
  split <;> rfl

theorem iterate_lineTick_inPulse (m : Nat) : (lineTick b)^[n] (l.inPulse v (m + 1 + n)) = l.inPulse v (m + 1) := by
  induction n generalizing m with
  | zero => rfl
  | succ n ih =>
    rw [Function.iterate_succ_apply', show m + 1 + (n + 1) = (m + 1) + 1 + n by omega, ih, lineTick_inPulse]

end InPulse

end Line

/-! ## The Output Unit's events (R124, R127, R131) -/

section Events

variable {s : State}

theorem delivery_waiting {d : Delivery} {rest : List Delivery} (waiting : s.mail.deliveries = d :: rest) :
    delivery s = { s with ou := s.ou.deliver d.stamp d.effects, mail := { s.mail with deliveries := rest } } := by
  simp only [delivery, waiting]
  rfl

theorem delivery_none (none : s.mail.deliveries = []) : delivery s = s := by
  simp only [delivery, none]

theorem runDownWork_eq (T : Time) (s : State) :
    runDownWork T s =
      { s with
        ou :=
          { s.ou with
            lines := mapBank s.ou.lines fun k l => l.runDown (s.effectToCome k)
            lastTick := some T }
        mail := { s.mail with outputTick := none } } := rfl

/-- Behind a run-down there is no end to be made at once: it left only those for which an effect may come. -/
theorem OutputUnit.endPulses_runDown_same (u : OutputUnit) (T : Time) (awaited : Fin 16 → Bool) :
    (u.runDown T awaited).endPulses awaited = u.runDown T awaited := by
  refine OutputUnit.ext_lines (fun k => ?_) rfl rfl rfl
  rw [OutputUnit.endPulses_line, OutputUnit.runDown_line, if_neg]
  rw [Bool.and_eq_true, Bool.not_eq_true', not_and, Bool.not_eq_false]
  exact fun ending => (LineRecord.runDown_ending ending).1

theorem OutputUnit.any_aboutToEnd_iff (u : OutputUnit) :
    u.lines.toList.any (·.aboutToEnd) = true ↔ ∃ k : Fin 16, u.lines[k].aboutToEnd = true := by
  rw [List.any_eq_true]
  constructor
  · rintro ⟨l, member, ends⟩
    obtain ⟨i, inBank, rfl⟩ := Vector.mem_iff_getElem.mp (Vector.mem_toList_iff.mp member)
    exact ⟨⟨i, inBank⟩, ends⟩
  · rintro ⟨k, ends⟩
    exact ⟨_, by simp, ends⟩

/-- In a tick that ends a pulse PULSE_END is the run-down (assumption log 7). -/
theorem pulseEnd_ends {T : Time} (waiting : s.mail.outputTick = some T)
    (ends : ∃ k : Fin 16, s.ou.lines[k].aboutToEnd = true) : pulseEnd s = runDownWork T s := by
  unfold pulseEnd
  rw [if_pos (s.ou.any_aboutToEnd_iff.mpr ends), runDown_waiting waiting]
  simp only [runDownWork_effectToCome, runDownWork_ou, OutputUnit.endPulses_runDown_same]
  rw [← runDownWork_ou, State.withOu_self]

/-- Otherwise it makes the ends that can be made (assumption log 29). -/
theorem pulseEnd_goes_on (goesOn : ∀ k : Fin 16, s.ou.lines[k].aboutToEnd = false) :
    pulseEnd s = s.withOu (s.ou.endPulses s.effectToCome) := by
  unfold pulseEnd
  rw [if_neg]
  rw [OutputUnit.any_aboutToEnd_iff, not_exists]
  simpa using goesOn

end Events

/-! ## CONFIG-OUT (R125) -/

theorem LineMode.ofWord_none {w : Word} (h : 2 ≤ w.toNat) : LineMode.ofWord w = none := by
  have other : ∀ code : Word, code.toNat < 2 → w ≠ code := by
    rintro code below rfl
    omega
  rw [LineMode.ofWord, if_neg (other 0 (by decide)), if_neg (other 1 (by decide))]

theorem argBit_none {w : Word} (h : 2 ≤ w.toNat) : argBit w = none := by
  have other : ∀ code : Word, code.toNat < 2 → w ≠ code := by
    rintro code below rfl
    omega
  rw [argBit, if_neg (other 0 (by decide)), if_neg (other 1 (by decide))]

section ConfigOut

variable {s : State} (a : Args)

theorem configOutTake_badArg (refused : 16 ≤ a.a0.toNat ∨ 2 ≤ a.a1.toNat ∨ 2 ≤ a.a2.toNat) :
    configOutTake a s = answer { code := .badArg } s := by
  unfold configOutTake
  split
  · rename_i k mode safe line named bit
    obtain above | above | above := refused
    · rw [argBelow16_none above] at line
      cases line
    · rw [LineMode.ofWord_none above] at named
      cases named
    · rw [argBit_none above] at bit
      cases bit
  · rfl

variable {a} {k : Fin 16} {mode : LineMode} {safe : Bool} (line : a.a0.toNat = k.val)
  (named : LineMode.ofWord a.a1 = some mode) (bit : argBit a.a2 = some safe)
include line named bit

theorem configOutTake_forced (forced : s.ou.forced = true) : configOutTake a s = answer { code := .wrongState } s := by
  simp only [configOutTake, argBelow16_some line, named, bit, forced, if_true]

theorem configOutTake_configures (free : s.ou.forced = false) :
    configOutTake a s =
      answer
        { code := .ok
          w1 := s.ou.lines[k].configWord
          w2 := (s.ou.lines[k].configured mode safe (a.a3.getLsbD 0)).stateWord }
        (s.withOu (s.ou.configure k mode safe (a.a3.getLsbD 0))) := by
  simp only [configOutTake, argBelow16_some line, named, bit, free, OutputUnit.configure_line, if_true]
  rfl

end ConfigOut

end Sys2Proof.Machine

/-!
The statements of the family "Output lines".
-/

namespace Sys2Proof.Proofs

open Sys2Proof.Machine Sys2Proof.Safety Sys2Proof.Stated

/-- Settles O46, by what one command can do to the drive of the output lines. -/
theorem pinsMoveOnlyAsStated : Obligations.PinsMoveOnlyAsStated := by
  refine ⟨fun s t hs h => ?_, fun _ _ => rfl, fun c s t k h => ?_⟩
  · unfold step at h
    split at h
    · injection h with h
      exact h ▸ hs
    · rename_i c rest _
      exact (exec_driveStep h).pulsesSound (s := s.withPending rest) hs
  · have step := exec_driveStep h
    exact ⟨step.movesLevels, step.outPin_cases⟩

/-- Settles O44: the events by what waits for them, then one line under a run-down by its pulse, and under an effect
by its settled record. -/
theorem lineEventOutcomes : Obligations.LineEventOutcomes := by
  refine ⟨fun s released => ⟨fun d rest waiting => ?_, fun none => ?_, fun awaited mayCome => ?_, fun none => ?_,
    fun p w carried => ?_⟩, fun u T e es => ⟨rfl, rfl⟩,
    fun l awaited => ⟨fun steady => ?_, fun x pulsing => ?_⟩,
    fun l b last T k => ⟨fun e closed => ?_, fun j v w other => ?_, fun mask levels outside => ?_,
      fun agenda unmasked ends stays => ?_⟩⟩
  · exact event_released released (delivery_waiting waiting)
  · exact event_released released (delivery_none none)
  · obtain rfl : awaited = s.effectToCome := by
      funext k
      rw [Bool.eq_iff_iff, mayCome, State.effectToCome_iff]
      rfl
    refine ⟨?_, fun noRunDown => event_released released ?_⟩
    · rintro T _ waiting rfl
      rw [← runDownWork_eq]
      refine ⟨event_released released (runDown_waiting waiting), fun ⟨k, endsNow⟩ => event_released released ?_⟩
      exact pulseEnd_ends waiting ⟨k, LineRecord.aboutToEnd_iff.mpr endsNow⟩
    · obtain idle | goesOn := noRunDown
      · exact pulseEnd_idle idle
      · exact pulseEnd_goes_on fun k => LineRecord.aboutToEnd_eq_false (goesOn k)
  · exact event_released released (runDown_idle none)
  · exact event_released released (serveWrite_carried _ carried)
  · exact ⟨LineRecord.runDown_steady awaited steady, LineRecord.returned_steady steady⟩
  · refine ⟨LineRecord.returned_pulsing pulsing, fun fresh going => ?_, fun notFresh more going => ?_,
      fun endsNow => ⟨fun noEffect => ?_, ?_⟩⟩
    · rw [LineRecord.runDown_counts pulsing awaited going (.inl fresh), Pulse.counted, if_pos fresh]
    · rw [LineRecord.runDown_counts pulsing awaited going (.inr more), Pulse.counted, if_neg (by simp [notFresh])]
    · exact LineRecord.runDown_returns pulsing endsNow (noEffect.imp_right l.closed_iff.mpr)
    · rintro rfl agenda unmasked
      exact LineRecord.runDown_leaves pulsing endsNow (LineRecord.not_closed agenda unmasked)
  · exact LineRecord.effect_not_taken (.inr (l.closed_iff.mpr closed))
  · have elsewhere : (j == k) = false := beq_eq_false_iff_ne.mpr other
    exact ⟨LineRecord.effect_not_taken (.inl elsewhere), LineRecord.effect_not_taken (.inl elsewhere),
      LineRecord.effect_not_taken (.inl elsewhere), LineRecord.effect_not_taken (.inl elsewhere)⟩
  · exact LineRecord.effect_not_taken (.inl outside)
  · have settled := LineRecord.settled_eq ends stays
    have taken : ∀ e : Effect, e.addresses k = true → l.effect last T k e = b.take last T k e :=
      fun e addressed => LineRecord.effect_settled (LineRecord.not_closed agenda unmasked) addressed settled
    have here : (k == k) = true := beq_self_eq_true k
    refine ⟨taken _ here, taken _ here, taken _ here, fun mask levels inside => taken _ inside,
      fun v w => ⟨fun steady => ?_, fun x pulsing => ?_⟩⟩
    · rw [taken (.pulse k v w) here, LineRecord.take_pulse, steady]
      rfl
    · rw [taken (.pulse k v w) here, LineRecord.take_pulse, pulsing]
      rfl

/-- Settles O47: the line is in its pulse after both, and each tick takes one tick off it. -/
theorem pulseHoldsItsWidth : Obligations.PulseHoldsItsWidth := by
  intro l line last T k v w b isOpen steady early positive both n
  rw [LineRecord.pulse_started isOpen steady early both]
  refine ⟨fun before => ?_, ?_⟩
  · obtain ⟨m, width⟩ : ∃ m, w.toNat = m + 1 + n := ⟨w.toNat - n - 1, by omega⟩
    rw [width, iterate_lineTick_inPulse]
    exact ⟨rfl, rfl⟩
  · rintro rfl
    obtain ⟨m, width⟩ : ∃ m, w.toNat = m + 1 :=
      Nat.exists_eq_succ_of_ne_zero fun zero => positive (BitVec.eq_of_toNat_eq zero)
    have lastTick := iterate_lineTick_inPulse l v b m 0
    rw [show 0 + 1 + m = m + 1 by omega] at lastTick
    rw [width, Function.iterate_succ_apply', lastTick, lineTick_inPulse_last]
    exact ⟨rfl, rfl⟩

/-- Settles O43, by the three ways CONFIG-OUT's handler can answer. -/
theorem configOutOutcomes : Obligations.ConfigOutOutcomes := by
  intro s p ht
  refine ⟨fun refused => ?_, fun k mode safe l line named bit => ⟨fun forced => ?_, ?_⟩⟩
  · exact exec_whole_refused ht (configOutTake_badArg _ refused)
  · exact exec_whole_refused ht (configOutTake_forced line named bit forced)
  · rintro free rfl
    exact exec_whole_answered ht (configOutTake_configures (s := s.accepted p 0x50) line named bit free)

end Sys2Proof.Proofs

/-!
Input lines (chapter 8): which samples confirm a change, what a sample leaves of a record, what a confirmed change
hands out, and what the Input Unit's events and CONFIG-IN make of the state.
-/

namespace Sys2Proof.Machine

open Sys2Proof.Stated

/-! ## One sample of one line (R140, R141, R143, R144) -/

section Record

variable {r : InputRecord} {T t0 : Time} {v : Bool}

/-- A sample confirms a change at once with filter 0, and otherwise as soon as the candidate is `filter` ticks old. -/
theorem InputRecord.confirms?_eq_some :
    r.confirms? T v = some t0 ↔
      v ≠ r.accepted ∧
        ((r.candidate = none ∧ r.filter = 0 ∧ t0 = T) ∨
          (r.candidate = some t0 ∧ r.filter.val ≤ (T - t0).toNat)) := by
  unfold InputRecord.confirms? latenessAt
  by_cases same : v = r.accepted
  · simp [same]
  · cases r.candidate with
    | none => simp [same, eq_comm]
    | some seen =>
      rw [if_neg same, Option.ite_none_left_eq_some, Nat.not_lt]
      constructor
      · rintro ⟨old, ⟨⟩⟩
        exact ⟨same, .inr ⟨rfl, old⟩⟩
      · rintro ⟨-, ⟨⟨⟩, -⟩ | ⟨⟨⟩, old⟩⟩
        exact ⟨old, rfl⟩

/-- The first sample of the other level confirms nothing when there is a filter. -/
theorem InputRecord.confirms?_first (steady : r.candidate = none) (filtered : r.filter ≠ 0) :
    r.confirms? T v = none := by
  simp [InputRecord.confirms?, steady, filtered]

/-- A candidate younger than the filter confirms nothing. -/
theorem InputRecord.confirms?_young (seen : r.candidate = some t0) (young : latenessAt T t0 < r.filter.val) :
    r.confirms? T v = none := by
  simp [InputRecord.confirms?, seen, young]

/-- A sample of the accepted level drops the candidate (R140). -/
theorem InputRecord.sampled_accepted (same : v = r.accepted) : r.sampled T v = { r with candidate := none } :=
  if_pos same

/-- A sample of the other level that confirms nothing keeps the first-seen tick, or is the first (R140). -/
theorem InputRecord.sampled_holds (changed : v ≠ r.accepted) (unconfirmed : r.confirms? T v = none) :
    r.sampled T v = { r with candidate := some (r.candidate.getD T) } := by
  simp only [InputRecord.sampled, if_neg changed, unconfirmed]

/-- A sample that confirms a change accepts the level, and begins or ends a span (R141, R144). -/
theorem InputRecord.sampled_confirms (confirmed : r.confirms? T v = some t0) :
    r.sampled T v =
      { r with
        accepted := v
        candidate := none
        spanStart := if r.capture = .span ∧ v = r.activeLevel then some t0 else none } := by
  have changed := (InputRecord.confirms?_eq_some.mp confirmed).1
  simp [InputRecord.sampled, changed, confirmed, InputRecord.confirm]

/-- The edge select accepts a rise, a fall, or both (R141). -/
theorem EdgeSelect.accepts_iff {e : EdgeSelect} :
    e.accepts v = true ↔ e = .both ∨ (e = .rising ∧ v = true) ∨ (e = .falling ∧ v = false) := by
  cases e <;> simp [EdgeSelect.accepts]

/-- A confirmed change is captured as an EDGE, or as the SPAN that it ends (R143, R144). -/
theorem InputRecord.capture?_eq_some {k : Fin 8} {c : Capture} :
    r.capture? k v t0 = some c ↔
      (r.capture = .edge ∧ c = .edge k v t0 r.missed) ∨
        (r.capture = .span ∧ v ≠ r.activeLevel ∧
          ∃ start, r.spanStart = some start ∧ c = .span k r.activeLevel start (t0 - start) r.missed) := by
  unfold InputRecord.capture?
  cases r.capture with
  | off => simp
  | edge => simp [eq_comm]
  | span => simp [eq_comm]

/-- A capture record names the line whose change it captures. -/
theorem InputRecord.line_of_capture? {k : Fin 8} {c : Capture} (captured : r.capture? k v t0 = some c) :
    c.line = k := by
  obtain ⟨-, rfl⟩ | ⟨-, -, start, -, rfl⟩ := InputRecord.capture?_eq_some.mp captured <;> rfl

end Record

/-! ## A level held over several ticks (R140) -/

/-- Over a short run of ticks no time wraps. -/
theorem ticks_since (T0 : Time) {n : Nat} (short : n < 16) : (T0 + BitVec.ofNat 48 n - T0).toNat = n := by
  rw [add_sub_cancel_left, BitVec.toNat_ofNat]
  exact Nat.mod_eq_of_lt (by omega)

/-- The record behind the samples `v` of the `n` ticks from `T0` on. -/
def InputRecord.sampledFor (r : InputRecord) (T0 : Time) (v : Bool) (n : Nat) : InputRecord :=
  (List.range n).foldl (fun x i => x.sampled (T0 + BitVec.ofNat 48 i) v) r

section Held

variable {r : InputRecord} (T0 : Time) {v : Bool}

theorem InputRecord.sampledFor_succ (r : InputRecord) (v : Bool) (n : Nat) :
    r.sampledFor T0 v (n + 1) = (r.sampledFor T0 v n).sampled (T0 + BitVec.ofNat 48 n) v := by
  simp [InputRecord.sampledFor, List.range_succ]

variable (steady : r.candidate = none) (changed : v ≠ r.accepted)
include steady changed

/-- While the level has been held for fewer ticks than the filter asks, `T0` stays the first-seen tick. -/
theorem InputRecord.sampledFor_short {n : Nat} (short : n < r.filter.val) :
    r.sampledFor T0 v (n + 1) = { r with candidate := some T0 } := by
  have filtered : r.filter ≠ 0 := fun zero => by simp [zero] at short
  induction n with
  | zero =>
    rw [InputRecord.sampledFor_succ, BitVec.add_zero]
    exact (InputRecord.sampled_holds changed (InputRecord.confirms?_first steady filtered)).trans (by rw [steady]; rfl)
  | succ n ih =>
    rw [InputRecord.sampledFor_succ, ih (by omega)]
    refine InputRecord.sampled_holds (r := { r with candidate := some T0 }) changed (InputRecord.confirms?_young rfl ?_)
    rw [latenessAt, ticks_since T0 (short.trans r.filter.isLt)]
    exact short

/-- The sample at which the level has been held as long as the filter asks confirms the change first seen at `T0`. -/
theorem InputRecord.sampledFor_confirms :
    (r.sampledFor T0 v r.filter.val).confirms? (T0 + BitVec.ofNat 48 r.filter.val) v = some T0 := by
  rw [InputRecord.confirms?_eq_some]
  cases width : r.filter.val with
  | zero => exact ⟨changed, .inl ⟨steady, Fin.ext width, (BitVec.add_zero T0).symm⟩⟩
  | succ m =>
    rw [InputRecord.sampledFor_short T0 steady changed (by omega), ticks_since T0 (width ▸ r.filter.isLt)]
    exact ⟨changed, .inr ⟨rfl, width.le⟩⟩

end Held

/-! ## The unit (R139, R141) -/

section Unit

variable (u : InputUnit) (T : Time) (pins : Pins)

theorem InputUnit.mem_confirmed {k : Fin 8} {t0 : Time} :
    (k, t0) ∈ u.confirmed T pins ↔ u.lines[k].confirms? T (pins.getLsbD k) = some t0 := by
  simp [InputUnit.confirmed]

/-- The lines that confirm a change stand in line order, each once. -/
theorem InputUnit.confirmed_pairwise : (u.confirmed T pins).Pairwise (fun x y => x.1 < y.1) := by
  refine List.pairwise_filterMap.mpr ((List.pairwise_lt_finRange 8).imp ?_)
  simp only [Option.map_eq_some_iff]
  rintro i j before _ ⟨_, -, rfl⟩ _ ⟨_, -, rfl⟩
  exact before

theorem InputUnit.confirmed_isEmpty_iff :
    (u.confirmed T pins).isEmpty = true ↔ ∀ k : Fin 8, u.lines[k].confirms? T (pins.getLsbD k) = none := by
  simp [InputUnit.confirmed]

theorem InputUnit.mem_triggers {k : Fin 8} {t0 : Time} :
    (k, t0) ∈ u.triggers T pins ↔
      u.lines[k].confirms? T (pins.getLsbD k) = some t0 ∧ u.lines[k].edgeSelect.accepts (pins.getLsbD k) = true := by
  rw [InputUnit.triggers, List.mem_filter, InputUnit.mem_confirmed]

theorem InputUnit.triggers_pairwise : (u.triggers T pins).Pairwise (fun x y => x.1 < y.1) :=
  (u.confirmed_pairwise T pins).filter _

theorem InputUnit.mem_captures {c : Capture} :
    c ∈ u.captures T pins ↔
      ∃ (k : Fin 8) (t0 : Time), u.lines[k].confirms? T (pins.getLsbD k) = some t0 ∧
        u.lines[k].capture? k (pins.getLsbD k) t0 = some c := by
  simp only [InputUnit.captures, List.mem_filterMap, Prod.exists, InputUnit.mem_confirmed]

theorem InputUnit.captures_pairwise : (u.captures T pins).Pairwise (fun x y => x.line < y.line) := by
  refine List.pairwise_filterMap.mpr ((u.confirmed_pairwise T pins).imp fun before c captured c' captured' => ?_)
  rwa [InputRecord.line_of_capture? captured, InputRecord.line_of_capture? captured']

end Unit

/-! ## The events (R139, R141, R142; assumption logs 4, 7, 12) -/

section Events

variable {s : State} {pins : Pins}

theorem inputWork_eq (T : Time) (pins : Pins) (s : State) :
    inputWork T pins s =
      { s with
        iu :=
          if s.mail.endsNotice then ended ⟨mapBank s.iu.lines fun k r => r.sampled T (pins.getLsbD k)⟩
          else ⟨mapBank s.iu.lines fun k r => r.sampled T (pins.getLsbD k)⟩
        mail :=
          { s.mail with
            inputTick := none
            inputTriggers := s.mail.inputTriggers ++ s.iu.triggers T pins
            inputOffers := s.mail.inputOffers ++ s.iu.captures T pins
            endsNotice := false } } := rfl

theorem sample_idle (idle : s.mail.inputTick = none) : sample pins s = s := by
  simp only [sample, idle]

theorem confirmation_idle (idle : s.mail.inputTick = none) : confirmation pins s = s := by
  simp only [confirmation, idle]

section Waiting

variable {T : Time} (waiting : s.mail.inputTick = some T)
include waiting

theorem sample_waiting : sample pins s = inputWork T pins s := by
  simp only [sample, waiting]

/-- CONFIRMATION is the work of a tick that confirms a change on some line. -/
theorem confirmation_confirms (confirms : ∃ k : Fin 8, (s.iu.lines[k].confirms? T (pins.getLsbD k)).isSome = true) :
    confirmation pins s = inputWork T pins s := by
  obtain ⟨k, confirmed⟩ := confirms
  simp only [confirmation, waiting]
  rw [if_neg]
  rw [InputUnit.confirmed_isEmpty_iff]
  intro none
  rw [none k] at confirmed
  cases confirmed

theorem confirmation_none (none : ∀ k : Fin 8, s.iu.lines[k].confirms? T (pins.getLsbD k) = none) :
    confirmation pins s = s := by
  simp only [confirmation, waiting, (s.iu.confirmed_isEmpty_iff T pins).mpr none, if_true]

end Waiting

end Events

/-! ## CONFIG-IN (R146, R184) -/

theorem argBelow8_some {w : Word} {k : Fin 8} (h : w.toNat = k.val) : argBelow8 w = some k := by
  rw [argBelow8, dif_pos (h ▸ k.isLt)]
  exact congrArg some (Fin.ext h)

/-- Every code above BOTH reads as NONE: in `EdgeSelect.ofWord` the last `none` is the edge select, not a refusal. -/
theorem EdgeSelect.ofWord_above {w : Word} (above : 4 ≤ w.toNat) :
    EdgeSelect.ofWord w = Option.some EdgeSelect.none := by
  have other : ∀ code : Word, code.toNat < 4 → w ≠ code := by
    rintro code below rfl
    omega
  rw [EdgeSelect.ofWord, if_neg (other 0 (by decide)), if_neg (other 1 (by decide)), if_neg (other 2 (by decide)),
    if_neg (other 3 (by decide))]

theorem argBit_some {w : Word} {b : Bool} (h : w.toNat = bitNat b) : argBit w = some b := by
  cases b with
  | false =>
    obtain rfl : w = 0 := BitVec.eq_of_toNat_eq h
    rfl
  | true =>
    obtain rfl : w = 1 := BitVec.eq_of_toNat_eq h
    rfl

/-- The high byte of a word, as a byte and as a number. -/
theorem toNat_highByte (w : Word) : (w >>> 8).toNat = (w.extractLsb' 8 8).toNat := by
  have := w.isLt
  simp only [BitVec.toNat_ushiftRight, BitVec.extractLsb'_toNat, Nat.shiftRight_eq_div_pow]
  omega

/-- The record that CONFIG-IN leaves (R146). -/
def InputRecord.configured (r : InputRecord) (edgeSelect : EdgeSelect) (capture : CaptureMode) (active : Bool)
    (filter : Fin 16) : InputRecord :=
  { r with
    edgeSelect := edgeSelect
    capture := capture
    activeLevel := active
    filter := filter
    candidate := none
    spanStart := none }

/-- With every argument accepted CONFIG-IN configures its line and reports what it held (R146, R184). -/
theorem configInTake_configures {s : State} {a : Args} {k : Fin 8} {edgeSelect : EdgeSelect} {capture : CaptureMode}
    {active : Bool} {filter : Fin 16} (line : a.a0.toNat = k.val) (edge : EdgeSelect.ofWord a.a1 = some edgeSelect)
    (mode : CaptureMode.ofByte (a.a2.extractLsb' 0 8) = some capture)
    (bit : (a.a2.extractLsb' 8 8).toNat = bitNat active) (ticks : a.a3.toNat = filter.val) :
    configInTake a s =
      answer { code := .ok, w1 := s.iu.lines[k].configWord, w2 := s.iu.lines[k].stateWord }
        (s.withIu ⟨s.iu.lines.set k (s.iu.lines[k].configured edgeSelect capture active filter)⟩) := by
  simp only [configInTake, argBelow8_some line, edge, mode, argBit_some ((toNat_highByte a.a2).trans bit),
    argBelow16_some ticks]
  rfl

end Sys2Proof.Machine

/-!
Record offers (chapter 9): the store rule of the Event Queue (R152, R158, R159), and what an answered offer does (R145,
R149).
-/

namespace Sys2Proof.Machine

/-! ## The store rule (R152, R158, R159) -/

section Offer

variable {q : EventQueue} (r : EventRecord)

/-- With a marker last and no room for two records, an offer is counted in that marker (R152). -/
theorem EventQueue.offer_counted {older : List EventRecord} {n : Nat} (last : q.records = older ++ [.overflow n])
    (full : 63 ≤ q.records.length) :
    q.offer r = ({ q with records := older ++ [.overflow (min 65535 (n + 1))] }, false) := by
  have marker : q.records.getLast? = some (.overflow n) := by simp [last]
  obtain ⟨room, -⟩ | ⟨-, m, counted, e⟩ | ⟨-, noMarker, -⟩ | ⟨-, noMarker, -⟩ := q.offer_cases r
  · omega
  · obtain ⟨⟩ := marker.symm.trans counted
    rw [e, last, List.dropLast_concat]
    rfl
  · exact absurd marker (noMarker n)
  · exact absurd marker (noMarker n)

/-- With room the record is stored; EVQ is set when the count rises to the threshold (R152, R158). -/
theorem EventQueue.offer_stored (room : q.records.length < 63) :
    q.offer r =
      ({ q with
          records := q.records ++ [r]
          flags := { q.flags with evq := q.flags.evq || decide (q.records.length + 1 = q.threshold) } }, true) := by
  obtain ⟨-, e⟩ | ⟨full, -⟩ | ⟨full, -⟩ | ⟨full, -⟩ := q.offer_cases r
  · rw [e]
    rfl
  all_goals omega

/-- At 63 records without a marker last, an offer is lost and a marker created; OVF is set (R152, R159). -/
theorem EventQueue.offer_overflows (full : q.records.length = 63)
    (noMarker : ∀ older n, q.records ≠ older ++ [.overflow n]) :
    q.offer r =
      ({ q with
          records := q.records ++ [.overflow 1]
          flags := { q.flags with evq := q.flags.evq || decide (64 = q.threshold), ovf := true } }, false) := by
  obtain ⟨room, -⟩ | ⟨-, n, marker, -⟩ | ⟨-, -, e⟩ | ⟨more, -⟩ := q.offer_cases r
  · omega
  · obtain ⟨older, last⟩ := List.getLast?_eq_some_iff.mp marker
    exact absurd last (noMarker older n)
  · rw [e, EventQueue.join, full]
    rfl
  · omega

end Offer

/-! ## The offer that waits (R145, R149; assumption logs 4, 14) -/

section Waiting

variable {s : State}

theorem recordOffer_store_waiting {r : EventRecord} {rest : List EventRecord}
    (waiting : s.mail.storeOffers = r :: rest) :
    recordOffer .store s = { s with eq := (s.eq.offer r).1, mail := { s.mail with storeOffers := rest } } := by
  simp only [recordOffer, waiting]
  rfl

theorem recordOffer_halt_waiting {r : EventRecord} {rest : List EventRecord}
    (waiting : s.mail.haltOffers = r :: rest) :
    recordOffer .halt s = { s with eq := (s.eq.offer r).1, mail := { s.mail with haltOffers := rest } } := by
  simp only [recordOffer, waiting]
  rfl

/-- The answer to a capture record sets or clears the missed flag of its line, also in the records of the line that wait
behind it (R145; assumption log 14). -/
theorem recordOffer_inputs_waiting {c : Capture} {rest : List Capture} (waiting : s.mail.inputOffers = c :: rest) :
    recordOffer .inputs s =
      { s with
        eq := (s.eq.offer c.toRecord).1
        iu := s.iu.answered c.line (s.eq.offer c.toRecord).2
        mail :=
          { s.mail with inputOffers := rest.map (Capture.reflagged c.line !(s.eq.offer c.toRecord).2) } } := by
  simp only [recordOffer, waiting]
  rfl

theorem recordOffer_store_none (none : s.mail.storeOffers = []) : recordOffer .store s = s := by
  simp only [recordOffer, none]

theorem recordOffer_halt_none (none : s.mail.haltOffers = []) : recordOffer .halt s = s := by
  simp only [recordOffer, none]

theorem recordOffer_inputs_none (none : s.mail.inputOffers = []) : recordOffer .inputs s = s := by
  simp only [recordOffer, none]

end Waiting

end Sys2Proof.Machine

/-!
The Input Unit's records (R138, R148, R170): which events, handlers and register writes leave them alone, and which
commands reach them.
-/

namespace Sys2Proof.Machine

/-! ## Events beside the input records -/

section Beside

variable (s : State)

theorem commitStart_iu : (commitStart s).iu = s.iu := by
  unfold commitStart
  split
  · split
    · unfold commitStartTaken
      split
      · rfl
      · split <;> rfl
    · rfl
  · rfl

theorem mergeCompletion_iu : (mergeCompletion s).iu = s.iu := by
  unfold mergeCompletion
  split <;> rfl

theorem abandon_iu (code : ResultCode) : (abandon code s).iu = s.iu := by
  unfold abandon
  split <;> rfl

theorem applyHaltActions_iu : (applyHaltActions s).iu = s.iu := by
  simp [applyHaltActions]

/-- A halt group request acts on the groups and on the merge in flight (R138, R170). -/
theorem haltGroupRequest_iu : (haltGroupRequest s).iu = s.iu := by
  unfold haltGroupRequest
  split
  · rfl
  · rw [abandon_iu, applyHaltActions_iu]
    rfl

/-- A halt event forces the output lines and leaves the input lines (R138, R166). -/
theorem haltEventTaken_iu (cause : HaltCause) : (haltEventTaken cause s).iu = s.iu := by
  unfold haltEventTaken
  split <;> simp [latchHalt]

theorem takeFall_iu : (takeFall s).iu = s.iu := by
  unfold takeFall
  split
  · rfl
  · exact haltEventTaken_iu _ .pin

theorem recogniseFall_iu : (recogniseFall s).iu = s.iu := by
  unfold recogniseFall
  split <;> rfl

theorem haltEvent_iu (p : FallStep) : (haltEvent p s).iu = s.iu := by
  cases p with
  | whole =>
    simp only [haltEvent]
    split
    · exact (takeFall_iu _).trans (recogniseFall_iu s)
    · rfl
  | recognise => exact recogniseFall_iu s
  | take => exact takeFall_iu s

/-- The tick event is handed to the Input Unit, which takes it in its own step (R51, R139). -/
theorem tickEvent_iu : (tickEvent s).iu = s.iu := by
  unfold tickEvent
  split
  · split <;> rfl
  · rfl

theorem syncFall_iu : (syncFall s).iu = s.iu := by
  unfold syncFall
  split <;> rfl

theorem time0Read_iu : (time0Read s).iu = s.iu := by
  rw [time0Read_eq]
  split <;> rfl

theorem dispatch_iu : (dispatch s).iu = s.iu := by
  unfold dispatch
  split <;> rfl

theorem triggerEvent_iu (pick : TriggerPick) : (triggerEvent pick s).iu = s.iu := by
  cases pick <;> simp only [triggerEvent] <;> split <;> rfl

theorem delivery_iu : (delivery s).iu = s.iu := by
  unfold delivery
  split <;> rfl

theorem runDown_iu : (runDown s).iu = s.iu := by
  obtain ⟨-, e⟩ | ⟨T, -, e⟩ := runDown_cases s <;> simp [e, runDownWork]

theorem pulseEnd_iu : (pulseEnd s).iu = s.iu := by
  obtain ⟨r, rfl | rfl, e⟩ := pulseEnd_cases s <;> simp [e, runDown_iu]

/-- Only the answer to a capture record reaches the input records (R145). -/
theorem recordOffer_iu {b : Offerer} (other : b ≠ .inputs) : (recordOffer b s).iu = s.iu := by
  cases b with
  | store | halt => simp only [recordOffer]; split <;> rfl
  | inputs => contradiction

theorem headerByte_iu (b : Byte) : (headerByte b s).iu = s.iu := by
  unfold headerByte
  split <;> rfl

/-- A served write whose effect is beside the input records is beside them. -/
theorem serveWrite_iu (a : Addr) {f : State → State} (hf : ∀ s, (f s).iu = s.iu) :
    (serveWrite a f s).iu = s.iu := by
  obtain e | ⟨p, -, e⟩ := serveWrite_cases a f s <;> rw [e]
  exact hf _

theorem abortWrite_iu (w : Word) : (abortWrite w s).iu = s.iu := by
  unfold abortWrite
  split
  · exact serveWrite_iu s _ fun s => abandon_iu s .aborted
  · rfl

theorem badCommand_iu (w : Word) : (badCommand w s).iu = s.iu := by
  unfold badCommand
  split
  · rfl
  · refine serveWrite_iu s _ fun s => ?_
    split <;> rfl

end Beside

/-! ## The handlers of the host commands -/

/-- A handler's answer, if it gives one, leaves the input records alone and the engine's state to the command. -/
def AnswersBesideInputs (s : State) (o : Option (State × Stage)) : Prop :=
  ∀ s' stage, o = some (s', stage) → s'.iu = s.iu ∧ s'.ce.engine = s.ce.engine

section Answers

variable {s : State}

theorem AnswersBesideInputs.waits : AnswersBesideInputs s none := by
  intro s' stage h
  cases h

theorem AnswersBesideInputs.beside {s' : State} {stage : Stage} (iu : s'.iu = s.iu)
    (engine : s'.ce.engine = s.ce.engine) : AnswersBesideInputs s (some (s', stage)) := by
  rintro _ _ ⟨⟩
  exact ⟨iu, engine⟩

theorem AnswersBesideInputs.unchanged {stage : Stage} : AnswersBesideInputs s (some (s, stage)) := .beside rfl rfl

variable (a : Args) (s)

theorem appendTake_besideInputs : AnswersBesideInputs s (appendTake a s) := by
  unfold appendTake
  split
  · exact .unchanged
  · split <;> exact .beside rfl rfl

theorem discardTake_besideInputs : AnswersBesideInputs s (discardTake a s) := .beside rfl rfl

theorem commitTake_besideInputs : AnswersBesideInputs s (commitTake a s) := by
  unfold commitTake
  split <;> exact .unchanged

theorem cancelTake_besideInputs : AnswersBesideInputs s (cancelTake a s) := by
  unfold cancelTake
  split
  · exact .unchanged
  · split <;> exact .beside rfl rfl

theorem queryTake_besideInputs : AnswersBesideInputs s (queryTake a s) := by
  unfold queryTake
  split
  · exact .unchanged
  · split <;> exact .beside rfl rfl

theorem suspendTake_besideInputs : AnswersBesideInputs s (suspendTake a s) := by
  unfold suspendTake
  split
  · exact .unchanged
  · split <;> exact .beside rfl rfl

theorem resumeTake_besideInputs : AnswersBesideInputs s (resumeTake a s) := by
  unfold resumeTake
  split
  · exact .unchanged
  · split <;> exact .beside rfl rfl

theorem cancelGroupTake_besideInputs : AnswersBesideInputs s (cancelGroupTake a s) := by
  unfold cancelGroupTake
  split <;> exact .beside rfl rfl

theorem setGroupTake_besideInputs : AnswersBesideInputs s (setGroupTake a s) := by
  unfold setGroupTake
  split
  · split
    · exact .beside rfl rfl
    · exact .waits
  · exact .unchanged

theorem armSyncTake_besideInputs (sync : Bool) : AnswersBesideInputs s (armSyncTake sync a s) := by
  unfold armSyncTake
  split <;> exact .beside rfl rfl

theorem setTimeTake_besideInputs : AnswersBesideInputs s (setTimeTake a s) := by
  unfold setTimeTake
  split
  · split
    · split <;> exact .beside rfl rfl
    · exact .waits
  · exact .unchanged

theorem setTrimTake_besideInputs : AnswersBesideInputs s (setTrimTake a s) := by
  unfold setTrimTake
  split
  · exact .unchanged
  · split <;> exact .beside rfl rfl

theorem fireCueTake_besideInputs : AnswersBesideInputs s (fireCueTake a s) := by
  unfold fireCueTake
  split <;> exact .beside rfl rfl

theorem configOutTake_besideInputs : AnswersBesideInputs s (configOutTake a s) := by
  unfold configOutTake
  split
  · split <;> exact .beside rfl rfl
  · exact .unchanged

theorem haltTake_besideInputs : AnswersBesideInputs s (haltTake a s) :=
  .beside (haltEventTaken_iu s .command) (congrArg CommandEngine.engine (haltEventTaken_leavesPool .command s).2)

theorem releaseTake_besideInputs : AnswersBesideInputs s (releaseTake a s) := by
  unfold releaseTake
  split
  · exact .unchanged
  · split
    · exact .unchanged
    · exact .beside (by simp) (by simp)

end Answers

/-- Every part of a host command whose handler is beside the input records leaves them alone. -/
theorem runCommand_iu {code : Byte} {handler : Handler} (hh : ∀ s a, AnswersBesideInputs s (handler a s))
    (p : CmdStep) (s : State) : (runCommand code handler p s).iu = s.iu :=
  runCommand_keeps (P := (·.iu = s.iu)) (fun _ _ h => h) (fun _ _ _ _ h => h) (fun _ _ _ _ h => h) (fun _ h => h)
    (fun a _ x x' stage _ answered kept => (hh x a x' stage answered).imp_left (·.trans kept)) p s rfl

/-! ## Register writes -/

/-- Ahead of a register write at most an APPEND is taken (R67). -/
theorem beforeWrite_iu (a : Addr) (s : State) : (beforeWrite a s).iu = s.iu := by
  unfold beforeWrite
  split
  · exact runCommand_iu (code := 0x01) appendTake_besideInputs .take s
  · rfl

theorem registerWrite_iu (a : Addr) (w : Word) (s : State) : (registerWrite a w s).iu = s.iu := by
  unfold registerWrite
  split
  · rfl
  · exact serveWrite_iu s _ (beforeWrite_iu a)

/-! ## Every command -/

/-- The commands that reach the input records: the Input Unit's own, the timebase's notices, the answer to a capture
record and the resets (R138, R142, R145, R146, R148). -/
def ReachesInputs (c : Instr) : Prop :=
  (∃ p pins, c = .start p pins) ∨ (∃ p, c = .stop p) ∨ (∃ pins, c = .syncEdge pins) ∨ (∃ pins, c = .sample pins) ∨
    (∃ pins, c = .confirmation pins) ∨ (∃ p, c = .configIn p) ∨ c = .recordOffer .inputs ∨
    (∃ w p, c = .softReset w p) ∨ ∃ h f p, c = .powerOnReset h f p

/-- R138, R148, R170: every other command leaves the input records alone. -/
theorem exec_iu_cases {c : Instr} {s t : State} (h : exec c s = .next t) : ReachesInputs c ∨ t.iu = s.iu := by
  have beside : ∀ {f : State → State}, unlessInReset s f = .next t → (∀ s, (f s).iu = s.iu) →
      ReachesInputs c ∨ t.iu = s.iu := by
    intro f h hf
    obtain rfl | ⟨-, rfl⟩ := unlessInReset_eq h
    · exact .inr rfl
    · exact .inr (hf s)
  have write : ∀ {a : Addr} {f : State → State}, unlessInReset s (serveWrite a f) = .next t →
      (∀ s, (f s).iu = s.iu) → ReachesInputs c ∨ t.iu = s.iu :=
    fun h hf => beside h (serveWrite_iu · _ hf)
  have host : ∀ {code : Byte} {handler : Handler} {p : CmdStep},
      unlessInReset s (runCommand code handler p) = .next t → (∀ s a, AnswersBesideInputs s (handler a s)) →
      ReachesInputs c ∨ t.iu = s.iu :=
    fun h hh => beside h (runCommand_iu hh _)
  cases c with
  | start p pins | stop p | syncEdge pins | sample pins | confirmation pins | configIn p | softReset w pins
  | powerOnReset haltn csn pins => exact .inl (by simp [ReachesInputs])
  | recordOffer b =>
    by_cases inputs : b = .inputs
    · exact .inl (by simp [ReachesInputs, inputs])
    · exact beside h (recordOffer_iu · inputs)
  | append p => exact host h appendTake_besideInputs
  | discard p => exact host h discardTake_besideInputs
  | commit p => exact host h commitTake_besideInputs
  | commitStart => exact beside h commitStart_iu
  | mergeCompletion => exact beside h mergeCompletion_iu
  | abort w => exact beside h (abortWrite_iu · w)
  | cancel p => exact host h cancelTake_besideInputs
  | query p => exact host h queryTake_besideInputs
  | suspend p => exact host h suspendTake_besideInputs
  | resume p => exact host h resumeTake_besideInputs
  | cancelGroup p => exact host h cancelGroupTake_besideInputs
  | setGroup p => exact host h setGroupTake_besideInputs
  | armSync p sync => exact host h fun s a => armSyncTake_besideInputs s a sync
  | setTime p => exact host h setTimeTake_besideInputs
  | setTrim p => exact host h setTrimTake_besideInputs
  | fireCue p => exact host h fireCueTake_besideInputs
  | configOut p => exact host h configOutTake_besideInputs
  | halt p => exact host h haltTake_besideInputs
  | release p => exact host h releaseTake_besideInputs
  | badcmd w => exact beside h (badCommand_iu · w)
  | haltEvent p => exact beside h (haltEvent_iu · p)
  | haltnRise => exact beside h fun _ => rfl
  | haltGroupRequest => exact beside h haltGroupRequest_iu
  | tickEvent => exact beside h tickEvent_iu
  | dispatch => exact beside h dispatch_iu
  | triggerEvent pick => exact beside h (triggerEvent_iu · pick)
  | delivery => exact beside h delivery_iu
  | runDown => exact beside h runDown_iu
  | pulseEnd => exact beside h pulseEnd_iu
  | pop w => exact write h fun s => s.withEq_iu _
  | outDirect w => exact write h fun s => s.withOu_iu _
  | irqFlags w => exact write h fun s => s.withEq_iu _
  | irqEnable w => exact write h fun s => s.withEq_iu _
  | thresh w => exact write h fun s => s.withEq_iu _
  | time0 => exact beside h time0Read_iu
  | registerWrite a w => exact beside h (registerWrite_iu a w)
  | headerByte b => exact beside h (headerByte_iu · b)
  | syncFall => exact beside h syncFall_iu
  | resetnAsserted =>
    cases h
    exact .inr rfl
  | frameEnd =>
    cases h
    exact .inr rfl

end Sys2Proof.Machine

/-!
The statements of the family "Input lines and capture".
-/

namespace Sys2Proof.Proofs

open Sys2Proof.Machine Sys2Proof.Safety Sys2Proof.Stated

/-- Settles O16: a command that is not one of those listed leaves the Input Unit as it is. -/
theorem inputUnitIsolated : Obligations.InputUnitIsolated :=
  fun _ _ _ h changed => (exec_iu_cases h).resolve_right changed

/-- Settles O48: the events by the tick event that waits, the record by the sample, and what is handed out by the lines
that confirm a change. -/
theorem inputWorkOutcomes : Obligations.InputWorkOutcomes := by
  refine ⟨fun s pins released => ⟨?_, fun idle => ?_⟩, fun r T t0 v => ?_, fun u T pins => ?_⟩
  · rintro T _ waiting rfl
    rw [← inputWork_eq]
    exact ⟨event_released released (sample_waiting waiting),
      fun confirms => event_released released (confirmation_confirms waiting confirms),
      fun none => event_released released (confirmation_none waiting none)⟩
  · exact ⟨event_released released (sample_idle idle), event_released released (confirmation_idle idle)⟩
  · exact ⟨InputRecord.confirms?_eq_some, InputRecord.sampled_accepted, InputRecord.sampled_holds,
      InputRecord.sampled_confirms⟩
  · refine ⟨u.triggers_pairwise T pins, fun k t0 => ?_, u.captures_pairwise T pins, fun c => ?_⟩
    · rw [InputUnit.mem_triggers, EdgeSelect.accepts_iff]
    · simp only [InputUnit.mem_captures, InputRecord.capture?_eq_some]

/-- Settles O49: the samples before the last leave the candidate of `T0`, and the last one confirms it. -/
theorem filterConfirmsAfterFullRun : Obligations.FilterConfirmsAfterFullRun := by
  rintro r T0 v n steady changed q (rfl : q = r.sampledFor T0 v (n + 1))
  refine ⟨fun short => ?_, ?_⟩
  · rw [InputRecord.sampledFor_short T0 steady changed short]
    exact ⟨rfl, rfl⟩
  · rintro rfl
    rw [InputRecord.sampledFor_succ,
      InputRecord.sampled_confirms (InputRecord.sampledFor_confirms T0 steady changed)]
    exact ⟨rfl, rfl⟩

/-- Refutes O50: with ARG1 = 4 in the reset state, an edge select that R146 refuses, CONFIG-IN configures line 0 with
edge select NONE and completes with OK. -/
theorem not_configInOutcomes : ¬ Obligations.ConfigInOutcomes := by
  intro h
  have taken : TakesCommand (State.reset.withCe { CommandEngine.reset with args := ⟨0, 4, 0, 0⟩ }) .ready :=
    ⟨⟨rfl, rfl⟩, rfl⟩
  obtain ⟨refuses, -⟩ := h _ .ready taken
  have refused := refuses (.inr (.inl (by decide)))
  have configured := exec_whole_answered taken
    (configInTake_configures (s := State.accepted _ .ready 0x51) (k := 0) (capture := .off) (active := false)
      (filter := 0) rfl (EdgeSelect.ofWord_above (by decide)) rfl rfl rfl)
  have same := Host.Outcome.next.inj (refused.symm.trans configured)
  have codes : ResultCode.badArg = .ok := congrArg (·.ce.result.reply.code) same
  cases codes

/-- Settles O51: the store rule by the room in the queue and the marker that stands last, the events by the oldest offer
that waits. -/
theorem recordOfferOutcomes : Obligations.RecordOfferOutcomes := by
  refine ⟨fun q r => ⟨fun older n => EventQueue.offer_counted r, EventQueue.offer_stored r,
    EventQueue.offer_overflows r⟩, fun s released => ⟨fun r rest waiting => ?_, fun r rest waiting => ?_,
    fun c rest k r waiting captured => ?_, fun none => ?_, fun none => ?_, fun none => ?_⟩⟩
  · exact event_released released (recordOffer_store_waiting waiting)
  · exact event_released released (recordOffer_halt_waiting waiting)
  · obtain ⟨v, t, m, rfl, rfl⟩ | ⟨v, t, w, m, rfl, rfl⟩ := captured
    · exact event_released released (recordOffer_inputs_waiting waiting)
    · exact event_released released (recordOffer_inputs_waiting waiting)
  · exact event_released released (recordOffer_store_none none)
  · exact event_released released (recordOffer_halt_none none)
  · exact event_released released (recordOffer_inputs_none none)

end Sys2Proof.Proofs

/-!
The shape of the Event Queue (R152): what an offer and a POP leave of it, and that no block offers a marker.
-/

namespace Sys2Proof.Safety

open Sys2Proof.Machine

/-! ## Markers (R152) -/

/-- A record behind a list without adjacent markers keeps the markers apart unless it and the last are both markers. -/
theorem markersApart_concat {records : List EventRecord} {r : EventRecord} :
    MarkersApart (records ++ [r]) ↔
      MarkersApart records ∧ ∀ x ∈ records.getLast?, ¬ (isMarker x = true ∧ isMarker r = true) := by
  simp [MarkersApart, List.isChain_append]

/-- Only an OVERFLOW record is a marker. -/
theorem eq_overflow_of_isMarker {r : EventRecord} (marker : isMarker r = true) : ∃ n, r = .overflow n := by
  cases r with
  | overflow n => exact ⟨n, rfl⟩
  | fired | late | skipped | done | edge | span | halt => cases marker

/-- An empty queue has its shape (R162). -/
theorem QueueBounded.of_empty {q : EventQueue} (empty : q.records = []) : QueueBounded q := by
  rw [QueueBounded, empty]
  refine ⟨Nat.zero_le _, fun full => ?_, List.IsChain.nil⟩
  cases full

/-- The shape of the queue depends on its records alone. -/
theorem QueueBounded.of_records {q q' : EventQueue} (hq : QueueBounded q) (records : q'.records = q.records) :
    QueueBounded q' := by
  rw [QueueBounded, records]
  exact hq

/-- A queue whose head record is removed keeps its shape (R155). -/
theorem QueueBounded.pop {q : EventQueue} (hq : QueueBounded q) : QueueBounded q.pop := by
  obtain ⟨room, -, apart⟩ := hq
  have short : q.pop.records.length ≤ 63 := by
    rw [EventQueue.pop_records, List.length_drop]
    omega
  exact ⟨by omega, fun full => by omega, apart.drop 1⟩

/-- The store rule keeps the shape of the queue: an ordinary record comes at most 63rd, a marker is created behind an
ordinary record, and a marker that counts an offer stays where it is (R152). -/
theorem QueueBounded.offer {q : EventQueue} {r : EventRecord} (hq : QueueBounded q) (plain : isMarker r = false) :
    QueueBounded (q.offer r).1 := by
  obtain ⟨room, last, apart⟩ := hq
  obtain ⟨short, e⟩ | ⟨-, n, marker, e⟩ | ⟨full, noMarker, e⟩ | ⟨-, -, e⟩ := q.offer_cases r <;> rw [e]
  · refine ⟨?_, fun full => ?_, markersApart_concat.mpr ⟨apart, by simp [plain]⟩⟩
    · simp [EventQueue.join]
      omega
    · simp [EventQueue.join] at full
      omega
  · obtain ⟨older, records⟩ := List.getLast?_eq_some_iff.mp marker
    rw [records] at room apart
    obtain ⟨olderApart, behind⟩ := markersApart_concat.mp apart
    refine ⟨?_, fun _ => ⟨_, List.getLast?_concat⟩, ?_⟩
    · simpa [records] using room
    · rw [records, List.dropLast_concat]
      exact markersApart_concat.mpr ⟨olderApart, behind⟩
  · refine ⟨by simp [full], fun _ => ⟨1, List.getLast?_concat⟩, markersApart_concat.mpr ⟨apart, ?_⟩⟩
    rintro x lastRecord ⟨marker, -⟩
    obtain ⟨n, rfl⟩ := eq_overflow_of_isMarker marker
    exact noMarker n lastRecord
  · exact ⟨room, last, apart⟩

/-! ## The records that the blocks offer (R149) -/

/-- No record of the list is a marker. -/
def Plain (records : List EventRecord) : Prop := ∀ r ∈ records, isMarker r = false

theorem Plain.nil : Plain [] := List.forall_mem_nil _

theorem Plain.singleton {r : EventRecord} (plain : isMarker r = false) : Plain [r] :=
  List.forall_mem_singleton.mpr plain

theorem Plain.append {records records' : List EventRecord} (h : Plain records) (h' : Plain records') :
    Plain (records ++ records') := List.forall_mem_append.mpr ⟨h, h'⟩

theorem plain_cons {r : EventRecord} {records : List EventRecord} :
    Plain (r :: records) ↔ isMarker r = false ∧ Plain records := List.forall_mem_cons

section Records

variable (st : Store) (T : Time) (h : Handle) (e : Entry) (l : Live) (masked : Bool) (a : Account)

theorem doneRecords_plain (reason : DoneReason) (reheld : Bool) : Plain (st.doneRecords l reason reheld) := by
  unfold Store.doneRecords
  split
  · exact .nil
  · exact .singleton rfl

theorem freeLives_plain (reason : DoneReason) (ls : List Live) : Plain (st.freeLives reason ls).2 := by
  induction ls generalizing st with
  | nil => exact .nil
  | cons l ls ih => exact (doneRecords_plain st l reason false).append (ih _)

theorem cancelGroup_plain (reason : DoneReason) (g : Fin 16) : Plain (st.cancelGroup reason g).2 :=
  freeLives_plain _ reason _

theorem haltGroup_plain (now : Time) (g : Fin 16) : Plain (st.haltGroup now g).2 := by
  unfold Store.haltGroup
  split
  · exact .nil
  · exact cancelGroup_plain st .halted g
  · exact .nil

theorem haltGroups_plain (now : Time) (gs : List (Fin 16)) : Plain (st.haltGroups now gs).2 := by
  induction gs generalizing st with
  | nil => exact .nil
  | cons g gs ih => exact (haltGroup_plain st now g).append (ih _)

theorem firingRecords_plain : Plain (firingRecords T h e masked a) := by
  unfold firingRecords
  split
  · exact .nil
  · split <;> exact .singleton rfl

theorem skipRecords_plain : Plain (skipRecords h e a) := by
  unfold skipRecords
  split
  · exact .nil
  · exact .singleton rfl

theorem occurrenceRecords_plain : Plain (occurrenceRecords T h e masked a) := by
  have firing := firingRecords_plain T h e masked a
  have skip := skipRecords_plain h e a
  unfold occurrenceRecords
  split
  · split
    · exact firing.append skip
    · exact skip.append firing
  · exact .nil

theorem finishRecords_plain : Plain (finishRecords st l a) := by
  unfold finishRecords
  split
  · exact doneRecords_plain _ _ _ _
  · exact .nil

/-- No record of a dispatch is a marker (R40, R41). -/
theorem dispatch_plain (lines : Vector LineRecord 16) : Plain (st.dispatch T lines).records := by
  refine Store.dispatch_keeps (P := (Plain ·.records)) st T lines .nil fun d p _ hd => ?_
  exact (hd.append (occurrenceRecords_plain _ _ _ _ _)).append (finishRecords_plain _ _ _)

end Records

/-- A capture record is stored as an EDGE or a SPAN record (R143, R144). -/
theorem toRecord_plain (c : Capture) : isMarker c.toRecord = false := by
  cases c <;> rfl

end Sys2Proof.Safety

/-!
The feed of the Event Queue: the queue and the records on their way to it, which events leave it alone, and what one
command can do to it (R149, R152, R159, R160, R162).
-/

namespace Sys2Proof.Machine

open Sys2Proof.Safety

/-! ## The interrupt flags (R159, R160) -/

/-- Every flag that is set stays set. -/
def IrqBits.Kept (f g : IrqBits) : Prop :=
  (f.evq = true → g.evq = true) ∧ (f.ovf = true → g.ovf = true) ∧ (f.done = true → g.done = true) ∧
    (f.rej = true → g.rej = true) ∧ (f.halt = true → g.halt = true)

theorem IrqBits.Kept.refl (f : IrqBits) : f.Kept f := ⟨id, id, id, id, id⟩

theorem IrqBits.Kept.trans {f g k : IrqBits} (h : f.Kept g) (h' : g.Kept k) : f.Kept k := by
  obtain ⟨evq, ovf, done, rej, halt⟩ := h
  obtain ⟨evq', ovf', done', rej', halt'⟩ := h'
  exact ⟨evq' ∘ evq, ovf' ∘ ovf, done' ∘ done, rej' ∘ rej, halt' ∘ halt⟩

/-- A completion sets DONE (R159). -/
theorem EventQueue.raiseDone_kept (q : EventQueue) : q.flags.Kept q.raiseDone.flags := ⟨id, id, fun _ => rfl, id, id⟩

/-- A refusal sets REJ (R159). -/
theorem EventQueue.raiseRej_kept (q : EventQueue) : q.flags.Kept q.raiseRej.flags := ⟨id, id, id, fun _ => rfl, id⟩

/-- A halt that latches sets HALT (R159). -/
theorem EventQueue.raiseHalt_kept (q : EventQueue) : q.flags.Kept q.raiseHalt.flags := ⟨id, id, id, id, fun _ => rfl⟩

/-- An offer sets EVQ and OVF, and clears nothing (R158, R159). -/
theorem EventQueue.offer_kept (q : EventQueue) (r : EventRecord) : q.flags.Kept (q.offer r).1.flags := by
  obtain ⟨-, -, done, rej, halt, evq, ovf⟩ := q.offer_frame r
  exact ⟨evq, ovf, done.symm ▸ id, rej.symm ▸ id, halt.symm ▸ id⟩

/-- THRESH does not reach the flags (R157). -/
theorem EventQueue.setThreshold_flags (q : EventQueue) (w : Word) : (q.setThreshold w).flags = q.flags := by
  unfold EventQueue.setThreshold
  split <;> rfl

/-- THRESH does not reach the records (R157). -/
theorem EventQueue.setThreshold_records (q : EventQueue) (w : Word) : (q.setThreshold w).records = q.records := by
  unfold EventQueue.setThreshold
  split <;> rfl

/-! ## The feed (R149, R152) -/

/-- The event leaves the queue and the records on their way to it as they are. -/
def SameFeed (s t : State) : Prop :=
  t.eq = s.eq ∧ t.mail.storeOffers = s.mail.storeOffers ∧ t.mail.haltOffers = s.mail.haltOffers

theorem SameFeed.refl (s : State) : SameFeed s s := ⟨rfl, rfl, rfl⟩

theorem SameFeed.trans {s t u : State} (h : SameFeed s t) (h' : SameFeed t u) : SameFeed s u := by
  obtain ⟨queue, store, halt⟩ := h
  obtain ⟨queue', store', halt'⟩ := h'
  exact ⟨queue'.trans queue, store'.trans store, halt'.trans halt⟩

theorem SameFeed.withStore (s : State) (x : Store) : SameFeed s (s.withStore x) := ⟨rfl, rfl, rfl⟩
theorem SameFeed.withOu (s : State) (x : OutputUnit) : SameFeed s (s.withOu x) := ⟨rfl, rfl, rfl⟩
theorem SameFeed.withHc (s : State) (x : HaltController) : SameFeed s (s.withHc x) := ⟨rfl, rfl, rfl⟩

theorem SameFeed.withMail (s : State) {x : Mail} (store : x.storeOffers = s.mail.storeOffers)
    (halt : x.haltOffers = s.mail.haltOffers) : SameFeed s (s.withMail x) := ⟨rfl, store, halt⟩

/-- The event keeps the queue's shape and clears no flag. -/
def FeedsQueue (s t : State) : Prop := (QueueSound s → QueueSound t) ∧ s.eq.flags.Kept t.eq.flags

section FeedsQueue

variable {s t : State}

theorem FeedsQueue.refl (s : State) : FeedsQueue s s := ⟨id, .refl _⟩

theorem FeedsQueue.trans {u : State} (h : FeedsQueue s t) (h' : FeedsQueue t u) : FeedsQueue s u :=
  ⟨h'.1 ∘ h.1, h.2.trans h'.2⟩

theorem FeedsQueue.of_parts (queue : QueueBounded s.eq → QueueBounded t.eq)
    (store : Plain s.mail.storeOffers → Plain t.mail.storeOffers)
    (halt : Plain s.mail.haltOffers → Plain t.mail.haltOffers) (kept : s.eq.flags.Kept t.eq.flags) : FeedsQueue s t :=
  ⟨fun ⟨bounded, storePlain, haltPlain⟩ => ⟨queue bounded, store storePlain, halt haltPlain⟩, kept⟩

theorem SameFeed.feeds (h : SameFeed s t) : FeedsQueue s t := by
  obtain ⟨queue, store, halt⟩ := h
  exact .of_parts (queue ▸ id) (store ▸ id) (halt ▸ id) (queue ▸ .refl _)

/-- The registers of the queue are set, and its records are left (R157, R159, R161). -/
theorem FeedsQueue.withEq (s : State) {q : EventQueue} (records : q.records = s.eq.records)
    (kept : s.eq.flags.Kept q.flags) : FeedsQueue s (s.withEq q) :=
  .of_parts (·.of_records records) id id kept

end FeedsQueue

/-! ## Events beside the feed -/

section Beside

variable (s : State)

theorem sample_sameFeed (pins : Pins) : SameFeed s (sample pins s) := by
  obtain ⟨-, e⟩ | ⟨T, -, e⟩ := sample_cases pins s <;> rw [e]
  · exact .refl s
  · exact ⟨rfl, rfl, rfl⟩

theorem confirmation_sameFeed (pins : Pins) : SameFeed s (confirmation pins s) := by
  unfold confirmation
  split
  · split <;> exact ⟨rfl, rfl, rfl⟩
  · exact .refl s

theorem beginRunning_sameFeed (pins : Pins) : SameFeed s (beginRunning pins s) :=
  sample_sameFeed (s.withTb s.tb.boundary) pins

theorem endRunning_sameFeed : SameFeed s (endRunning s) := by
  obtain ⟨-, e⟩ | ⟨-, e⟩ := endRunning_cases s <;> rw [e] <;> exact ⟨rfl, rfl, rfl⟩

theorem syncEdge_sameFeed (pins : Pins) : SameFeed s (syncEdge pins s) := by
  unfold syncEdge
  split
  · exact beginRunning_sameFeed s pins
  · exact .refl s

theorem syncFall_sameFeed : SameFeed s (syncFall s) := by
  unfold syncFall
  split <;> exact ⟨rfl, rfl, rfl⟩

theorem tickEvent_sameFeed : SameFeed s (tickEvent s) := by
  unfold tickEvent
  split
  · split <;> exact ⟨rfl, rfl, rfl⟩
  · exact .refl s

theorem time0Read_sameFeed : SameFeed s (time0Read s) := by
  rw [time0Read_eq]
  split <;> exact ⟨rfl, rfl, rfl⟩

theorem triggerEvent_sameFeed (pick : TriggerPick) : SameFeed s (triggerEvent pick s) := by
  cases pick <;> simp only [triggerEvent] <;> split <;> exact ⟨rfl, rfl, rfl⟩

theorem delivery_sameFeed : SameFeed s (delivery s) := by
  unfold delivery
  split <;> exact ⟨rfl, rfl, rfl⟩

theorem runDown_sameFeed : SameFeed s (runDown s) := by
  obtain ⟨-, e⟩ | ⟨T, -, e⟩ := runDown_cases s <;> rw [e]
  · exact .refl s
  · exact (SameFeed.withOu s _).trans (.withMail _ rfl rfl)

theorem pulseEnd_sameFeed : SameFeed s (pulseEnd s) := by
  obtain ⟨r, rfl | rfl, e⟩ := pulseEnd_cases s <;> rw [e]
  · exact .withOu _ _
  · exact (runDown_sameFeed s).trans (.withOu _ _)

theorem recogniseFall_sameFeed : SameFeed s (recogniseFall s) := by
  unfold recogniseFall
  split <;> exact ⟨rfl, rfl, rfl⟩

theorem headerByte_sameFeed (b : Byte) : SameFeed s (headerByte b s) := by
  unfold headerByte
  split <;> exact ⟨rfl, rfl, rfl⟩

end Beside

/-! ## Events that feed the queue -/

section Events

variable (s : State)

/-- A completion sets DONE (R159). -/
theorem complete_feeds (c : Byte) (r : Reply) : FeedsQueue s (complete c r s) :=
  .of_parts id id id s.eq.raiseDone_kept

/-- A refused COMMAND write sets REJ (R159). -/
theorem raiseRej_feeds : FeedsQueue s (s.withEq s.eq.raiseRej) := .withEq s rfl s.eq.raiseRej_kept

theorem commitStart_feeds : FeedsQueue s (commitStart s) := by
  unfold commitStart
  split
  · split
    · unfold commitStartTaken
      split
      · exact complete_feeds s _ _
      · split
        · exact complete_feeds s _ _
        · exact .refl _
    · exact .refl _
  · exact .refl _

theorem mergeCompletion_feeds : FeedsQueue s (mergeCompletion s) := by
  unfold mergeCompletion
  split
  · exact complete_feeds ((s.withStore (batchLive s)).withCe { s.ce with staging := [], handles := batchHandles s }) _ _
  · exact .refl _

theorem abandon_feeds (code : ResultCode) : FeedsQueue s (abandon code s) := by
  unfold abandon
  split
  · exact complete_feeds (s.withStore s.store.giveBack) _ _
  · exact .refl _

/-- The Schedule Store offers records that are no markers (R149). -/
theorem offerStore_feeds {records : List EventRecord} (plain : Plain records) :
    FeedsQueue s (offerStore records s) :=
  .of_parts id (·.append plain) id (.refl _)

/-- The halt actions offer the DONE records of the entries they free (R118). -/
theorem applyHaltActions_feeds : FeedsQueue s (applyHaltActions s) :=
  (SameFeed.withStore s _).feeds.trans (offerStore_feeds _ (haltGroups_plain s.store s.tb.time _))

theorem haltGroupRequest_feeds : FeedsQueue s (haltGroupRequest s) := by
  cases waiting : s.mail.haltRequests with
  | zero =>
    rw [haltGroupRequest_none waiting]
    exact .refl _
  | succ n =>
    rw [haltGroupRequest_waiting waiting]
    exact (applyHaltActions_feeds (s.requestTaken n)).trans (abandon_feeds _ .halted)

/-- A dispatch offers the records of the entries it serves (R41, R149). -/
theorem dispatch_feeds : FeedsQueue s (dispatch s) := by
  unfold dispatch
  split
  · exact .refl _
  · exact .of_parts id (·.append (dispatch_plain s.store _ s.ou.lines)) id (.refl _)

/-- A halt that latches sets HALT (R159, R166). -/
theorem latchHalt_feeds (cause : HaltCause) : FeedsQueue s (latchHalt cause s) := by
  rw [latchHalt]
  exact ((SameFeed.withHc s _).trans (.withOu _ _)).feeds.trans (.withEq _ rfl s.eq.raiseHalt_kept)

/-- A halt event that latches offers the HALT record (R166). -/
theorem haltEventTaken_feeds (cause : HaltCause) : FeedsQueue s (haltEventTaken cause s) := by
  cases latch : s.hc.latch with
  | some c =>
    rw [haltEventTaken_latched cause latch]
    exact .refl _
  | none =>
    rw [haltEventTaken_clear cause latch]
    exact (latchHalt_feeds s cause).trans (.of_parts id id (·.append (.singleton rfl)) (.refl _))

theorem takeFall_feeds : FeedsQueue s (takeFall s) := by
  cases owed : s.hc.fallsOwed with
  | zero =>
    rw [takeFall_none owed]
    exact .refl _
  | succ n =>
    rw [takeFall_owed owed]
    exact haltEventTaken_feeds (s.withHc { s.hc with fallsOwed := n }) .pin

theorem haltEvent_feeds (p : FallStep) : FeedsQueue s (haltEvent p s) := by
  cases p with
  | whole =>
    simp only [haltEvent]
    split
    · exact (recogniseFall_sameFeed s).feeds.trans (takeFall_feeds _)
    · exact .refl _
  | recognise => exact (recogniseFall_sameFeed s).feeds
  | take => exact takeFall_feeds s

/-- The queue takes the oldest offer of a block, which is no marker (R149, R152). -/
theorem recordOffer_feeds (b : Offerer) : FeedsQueue s (recordOffer b s) := by
  cases b with
  | store =>
    cases waiting : s.mail.storeOffers with
    | nil =>
      rw [recordOffer_store_none waiting]
      exact .refl _
    | cons r rest =>
      rw [recordOffer_store_waiting waiting]
      refine ⟨fun ⟨bounded, store, halt⟩ => ?_, s.eq.offer_kept r⟩
      obtain ⟨plain, store⟩ := plain_cons.mp (waiting ▸ store : Plain (r :: rest))
      exact ⟨bounded.offer plain, store, halt⟩
  | halt =>
    cases waiting : s.mail.haltOffers with
    | nil =>
      rw [recordOffer_halt_none waiting]
      exact .refl _
    | cons r rest =>
      rw [recordOffer_halt_waiting waiting]
      refine ⟨fun ⟨bounded, store, halt⟩ => ?_, s.eq.offer_kept r⟩
      obtain ⟨plain, halt⟩ := plain_cons.mp (waiting ▸ halt : Plain (r :: rest))
      exact ⟨bounded.offer plain, store, halt⟩
  | inputs =>
    cases waiting : s.mail.inputOffers with
    | nil =>
      rw [recordOffer_inputs_none waiting]
      exact .refl _
    | cons c rest =>
      rw [recordOffer_inputs_waiting waiting]
      exact .of_parts (·.offer (toRecord_plain c)) id id (s.eq.offer_kept _)

/-- The re-latch of a reset stores the HALT record in its own step (R173, R174). -/
theorem relatch_feeds : FeedsQueue s (relatch s) := by
  cases level : s.hc.haltnHigh with
  | true =>
    rw [relatch_high level]
    exact .refl _
  | false =>
    rw [relatch_low level]
    exact ((latchHalt_feeds s .pin).trans (applyHaltActions_feeds _)).trans
      (.of_parts (·.offer rfl) id id (EventQueue.offer_kept _ _))

/-- A served write does to the feed what its effect does. -/
theorem serveWrite_feeds (a : Addr) {f : State → State} (hf : ∀ s : State, FeedsQueue s (f s)) :
    FeedsQueue s (serveWrite a f s) := by
  obtain e | ⟨p, -, e⟩ := serveWrite_cases a f s <;> rw [e]
  · exact .refl _
  · exact hf (s.withHp { s.hp with port := p })

/-- POP removes the head record and leaves the flags (R155). -/
theorem pop_feeds : FeedsQueue s (s.withEq s.eq.pop) :=
  ⟨fun ⟨bounded, offers⟩ => ⟨bounded.pop, offers⟩, .refl _⟩

theorem setThreshold_feeds (w : Word) : FeedsQueue s (s.withEq (s.eq.setThreshold w)) :=
  .withEq s (s.eq.setThreshold_records w) ((s.eq.setThreshold_flags w).symm ▸ .refl _)

theorem abortWrite_feeds (w : Word) : FeedsQueue s (abortWrite w s) := by
  unfold abortWrite
  split
  · exact serveWrite_feeds s _ fun s => abandon_feeds s .aborted
  · exact .refl _

theorem badCommand_feeds (w : Word) : FeedsQueue s (badCommand w s) := by
  unfold badCommand
  split
  · exact .refl _
  · refine serveWrite_feeds s _ fun s => ?_
    split
    · exact complete_feeds s _ _
    · exact raiseRej_feeds s

end Events

/-! ## The handlers of the host commands -/

/-- A handler's answer, if it gives one, feeds the queue and leaves the engine's state to the command. -/
def AnswersFeeding (s : State) (o : Option (State × Stage)) : Prop :=
  ∀ s' stage, o = some (s', stage) → FeedsQueue s s' ∧ s'.ce.engine = s.ce.engine

section Answers

variable {s : State}

theorem AnswersFeeding.waits : AnswersFeeding s none := by
  intro s' stage h
  cases h

theorem AnswersFeeding.of_feeds {s' : State} {stage : Stage} (feeds : FeedsQueue s s')
    (engine : s'.ce.engine = s.ce.engine) : AnswersFeeding s (some (s', stage)) := by
  rintro _ _ ⟨⟩
  exact ⟨feeds, engine⟩

/-- An answer with an effect beside the feed. -/
theorem AnswersFeeding.beside {s' : State} {stage : Stage} (same : SameFeed s s')
    (engine : s'.ce.engine = s.ce.engine) : AnswersFeeding s (some (s', stage)) := .of_feeds same.feeds engine

theorem AnswersFeeding.unchanged {stage : Stage} : AnswersFeeding s (some (s, stage)) := .beside ⟨rfl, rfl, rfl⟩ rfl

variable (s) (a : Args)

theorem appendTake_feeding : AnswersFeeding s (appendTake a s) := by
  unfold appendTake
  split
  · exact .unchanged
  · split <;> exact .beside ⟨rfl, rfl, rfl⟩ rfl

theorem discardTake_feeding : AnswersFeeding s (discardTake a s) := .beside ⟨rfl, rfl, rfl⟩ rfl

theorem commitTake_feeding : AnswersFeeding s (commitTake a s) := by
  unfold commitTake
  split <;> exact .unchanged

/-- CANCEL offers the DONE record of the entry it frees (R14). -/
theorem cancelTake_feeding : AnswersFeeding s (cancelTake a s) := by
  unfold cancelTake
  split
  · exact .unchanged
  · split
    · exact .unchanged
    · exact .of_feeds ((SameFeed.withStore s _).feeds.trans (offerStore_feeds _ (doneRecords_plain _ _ _ _))) rfl

theorem queryTake_feeding : AnswersFeeding s (queryTake a s) := by
  unfold queryTake
  split
  · exact .unchanged
  · split <;> exact .beside ⟨rfl, rfl, rfl⟩ rfl

theorem suspendTake_feeding : AnswersFeeding s (suspendTake a s) := by
  unfold suspendTake
  split
  · exact .unchanged
  · split <;> exact .beside ⟨rfl, rfl, rfl⟩ rfl

theorem resumeTake_feeding : AnswersFeeding s (resumeTake a s) := by
  unfold resumeTake
  split
  · exact .unchanged
  · split <;> exact .beside ⟨rfl, rfl, rfl⟩ rfl

/-- CANCEL-GROUP offers the DONE records of the members it frees (R116). -/
theorem cancelGroupTake_feeding : AnswersFeeding s (cancelGroupTake a s) := by
  unfold cancelGroupTake
  split
  · exact .unchanged
  · exact .of_feeds ((SameFeed.withStore s _).feeds.trans (offerStore_feeds _ (cancelGroup_plain _ _ _))) rfl

theorem setGroupTake_feeding : AnswersFeeding s (setGroupTake a s) := by
  unfold setGroupTake
  split
  · split
    · exact .beside ⟨rfl, rfl, rfl⟩ rfl
    · exact .waits
  · exact .unchanged

theorem startTake_feeding (pins : Pins) : AnswersFeeding s (startTake pins a s) := by
  unfold startTake
  split
  · exact .beside (beginRunning_sameFeed s pins) (congrArg CommandEngine.engine (beginRunning_leavesPool pins s).2)
  · exact .unchanged

theorem stopTake_feeding : AnswersFeeding s (stopTake a s) := by
  unfold stopTake
  split
  · exact .unchanged
  · exact .beside (endRunning_sameFeed (s.withTb s.tb.stop))
      (congrArg CommandEngine.engine (endRunning_leavesPool (s.withTb s.tb.stop)).2)

theorem armSyncTake_feeding (sync : Bool) : AnswersFeeding s (armSyncTake sync a s) := by
  unfold armSyncTake
  split <;> exact .beside ⟨rfl, rfl, rfl⟩ rfl

theorem setTimeTake_feeding : AnswersFeeding s (setTimeTake a s) := by
  unfold setTimeTake
  split
  · split
    · split <;> exact .beside ⟨rfl, rfl, rfl⟩ rfl
    · exact .waits
  · exact .unchanged

theorem setTrimTake_feeding : AnswersFeeding s (setTrimTake a s) := by
  unfold setTrimTake
  split
  · exact .unchanged
  · split <;> exact .beside ⟨rfl, rfl, rfl⟩ rfl

theorem fireCueTake_feeding : AnswersFeeding s (fireCueTake a s) := by
  unfold fireCueTake
  split <;> exact .beside ⟨rfl, rfl, rfl⟩ rfl

theorem configOutTake_feeding : AnswersFeeding s (configOutTake a s) := by
  unfold configOutTake
  split
  · split <;> exact .beside ⟨rfl, rfl, rfl⟩ rfl
  · exact .unchanged

theorem configInTake_feeding : AnswersFeeding s (configInTake a s) := by
  unfold configInTake
  split <;> exact .beside ⟨rfl, rfl, rfl⟩ rfl

theorem haltTake_feeding : AnswersFeeding s (haltTake a s) :=
  .of_feeds (haltEventTaken_feeds s .command)
    (congrArg CommandEngine.engine (haltEventTaken_leavesPool .command s).2)

theorem releaseTake_feeding : AnswersFeeding s (releaseTake a s) := by
  unfold releaseTake
  split
  · exact .unchanged
  · split
    · exact .unchanged
    · exact .beside ((SameFeed.withHc s _).trans (.withOu _ _)) rfl

end Answers

/-- Every part of a host command feeds the queue when its handler does. -/
theorem runCommand_feeds {code : Byte} {handler : Handler} (hh : ∀ s a, AnswersFeeding s (handler a s)) (p : CmdStep)
    (s : State) : FeedsQueue s (runCommand code handler p s) := by
  refine runCommand_keeps (P := (FeedsQueue s)) (fun _ _ h => h) (fun _ _ _ _ h => h) ?_ ?_ ?_ p s (.refl _)
  · exact fun x c r _ fed => fed.trans (complete_feeds x c r)
  · exact fun x fed => fed.trans (raiseRej_feeds x)
  · exact fun a _ x x' stage _ answered fed => (hh x a x' stage answered).imp_left fed.trans

/-! ## Register writes and resets -/

/-- Ahead of a register write at most an APPEND is taken (R67). -/
theorem beforeWrite_feeds (a : Addr) (s : State) : FeedsQueue s (beforeWrite a s) := by
  unfold beforeWrite
  split
  · exact runCommand_feeds (code := 0x01) appendTake_feeding .take s
  · exact .refl _

theorem registerWrite_feeds (a : Addr) (w : Word) (s : State) : FeedsQueue s (registerWrite a w s) := by
  unfold registerWrite
  split
  · exact .refl _
  · exact serveWrite_feeds s _ (beforeWrite_feeds a)

/-- IRQ_FLAGS clears flags and leaves the records (R160). -/
theorem irqFlags_sound (w : Word) {s : State} (hs : QueueSound s) :
    QueueSound (serveWrite 0x15 (fun s => s.withEq { s.eq with flags := s.eq.flags.clear w }) s) := by
  obtain e | ⟨p, -, e⟩ := serveWrite_cases 0x15 (fun s => s.withEq { s.eq with flags := s.eq.flags.clear w }) s <;>
    rw [e] <;> exact hs

/-- A soft reset empties the queue and keeps what is on its way to it (R162, R163). -/
theorem softResetValues_sound (pins : Pins) {s : State} (hs : QueueSound s) :
    QueueSound (softResetValues pins s) := by
  unfold softResetValues
  exact ⟨.of_empty rfl, hs.2⟩

theorem softReset_sound (w : Word) (pins : Pins) {s : State} (hs : QueueSound s) :
    QueueSound (softReset w pins s) := by
  unfold softReset
  split
  · obtain e | ⟨p, -, e⟩ := serveWrite_cases 0x02 (fun s => relatch (softResetValues pins s)) s <;> rw [e]
    · exact hs
    · exact (relatch_feeds _).1 (softResetValues_sound pins (s := s.withHp { s.hp with port := p }) hs)
  · exact hs

/-- A power-on reset starts from an empty queue with nothing on its way to it (R162). -/
theorem powerOnReset_sound (haltn csn : Bool) (pins : Pins) (s : State) :
    QueueSound (powerOnReset haltn csn pins s) :=
  (relatch_feeds _).1 Proofs.queueSound_reset

/-! ## Every command -/

/-- The commands that clear interrupt flags: the write of IRQ_FLAGS and the resets (R160, R162). -/
def ClearsFlags (c : Instr) : Prop :=
  (∃ w, c = .irqFlags w) ∨ (∃ w p, c = .softReset w p) ∨ ∃ h f p, c = .powerOnReset h f p

/-- What one command can do to the feed: it clears no flag unless it is one of those that do, and it keeps the feed
sound. -/
def FeedStep (c : Instr) (s t : State) : Prop :=
  FeedsQueue s t ∨ (ClearsFlags c ∧ (QueueSound s → QueueSound t))

/-- Every command is such a step. -/
theorem exec_feedStep {c : Instr} {s t : State} (h : exec c s = .next t) : FeedStep c s t := by
  have event : ∀ {f : State → State}, unlessInReset s f = .next t → FeedsQueue s (f s) → FeedStep c s t := by
    intro f h hf
    obtain rfl | ⟨-, rfl⟩ := unlessInReset_eq h
    · exact .inl (.refl _)
    · exact .inl hf
  have beside : ∀ {f : State → State}, unlessInReset s f = .next t → SameFeed s (f s) → FeedStep c s t :=
    fun h hf => event h hf.feeds
  have write : ∀ {a : Addr} {f : State → State}, unlessInReset s (serveWrite a f) = .next t →
      (∀ s : State, FeedsQueue s (f s)) → FeedStep c s t :=
    fun h hf => event h (serveWrite_feeds s _ hf)
  have host : ∀ {code : Byte} {handler : Handler} {p : CmdStep},
      unlessInReset s (runCommand code handler p) = .next t → (∀ s a, AnswersFeeding s (handler a s)) →
      FeedStep c s t :=
    fun h hh => event h (runCommand_feeds hh _ s)
  have clears : ∀ {f : State → State}, ClearsFlags c → unlessInReset s f = .next t →
      (QueueSound s → QueueSound (f s)) → FeedStep c s t := by
    intro f hc h hf
    obtain rfl | ⟨-, rfl⟩ := unlessInReset_eq h
    · exact .inl (.refl _)
    · exact .inr ⟨hc, hf⟩
  cases c with
  | append p => exact host h appendTake_feeding
  | discard p => exact host h discardTake_feeding
  | commit p => exact host h commitTake_feeding
  | commitStart => exact event h (commitStart_feeds s)
  | mergeCompletion => exact event h (mergeCompletion_feeds s)
  | abort w => exact event h (abortWrite_feeds s w)
  | cancel p => exact host h cancelTake_feeding
  | query p => exact host h queryTake_feeding
  | suspend p => exact host h suspendTake_feeding
  | resume p => exact host h resumeTake_feeding
  | cancelGroup p => exact host h cancelGroupTake_feeding
  | setGroup p => exact host h setGroupTake_feeding
  | start p pins => exact host h fun s a => startTake_feeding s a pins
  | stop p => exact host h stopTake_feeding
  | armSync p sync => exact host h fun s a => armSyncTake_feeding s a sync
  | setTime p => exact host h setTimeTake_feeding
  | setTrim p => exact host h setTrimTake_feeding
  | fireCue p => exact host h fireCueTake_feeding
  | configOut p => exact host h configOutTake_feeding
  | configIn p => exact host h configInTake_feeding
  | halt p => exact host h haltTake_feeding
  | release p => exact host h releaseTake_feeding
  | badcmd w => exact event h (badCommand_feeds s w)
  | softReset w pins => exact clears (by simp [ClearsFlags]) h (softReset_sound w pins)
  | powerOnReset haltn csn pins =>
    cases h
    exact .inr ⟨by simp [ClearsFlags], fun _ => powerOnReset_sound haltn csn pins s⟩
  | haltEvent p => exact event h (haltEvent_feeds s p)
  | haltnRise => exact beside h (SameFeed.withHc s _)
  | haltGroupRequest => exact event h (haltGroupRequest_feeds s)
  | syncEdge pins => exact beside h (syncEdge_sameFeed s pins)
  | tickEvent => exact beside h (tickEvent_sameFeed s)
  | dispatch => exact event h (dispatch_feeds s)
  | triggerEvent pick => exact beside h (triggerEvent_sameFeed s pick)
  | delivery => exact beside h (delivery_sameFeed s)
  | runDown => exact beside h (runDown_sameFeed s)
  | pulseEnd => exact beside h (pulseEnd_sameFeed s)
  | sample pins => exact beside h (sample_sameFeed s pins)
  | confirmation pins => exact beside h (confirmation_sameFeed s pins)
  | recordOffer b => exact event h (recordOffer_feeds s b)
  | pop w => exact write h pop_feeds
  | outDirect w => exact write h fun s => (SameFeed.withOu s _).feeds
  | irqFlags w => exact clears (by simp [ClearsFlags]) h (irqFlags_sound w)
  | irqEnable w => exact write h fun s => .withEq s rfl (.refl _)
  | thresh w => exact write h fun s => setThreshold_feeds s w
  | time0 => exact beside h (time0Read_sameFeed s)
  | registerWrite a w => exact event h (registerWrite_feeds a w s)
  | headerByte b => exact beside h (headerByte_sameFeed s b)
  | syncFall => exact beside h (syncFall_sameFeed s)
  | resetnAsserted =>
    cases h
    exact .inl (.refl _)
  | frameEnd =>
    cases h
    exact .inl (.refl _)

end Sys2Proof.Machine

/-!
The registers of the Event Queue: POP, COUNT, THRESH, IRQ_FLAGS and IRQ_ENABLE (R155, R157, R160, R161, R178).
-/

namespace Sys2Proof.Machine

open Sys2Proof.Stated

/-! ## POP (R155) -/

theorem EventQueue.pop_eq (q : EventQueue) : q.pop = { q with records := q.records.tail } := by
  rw [EventQueue.pop, List.drop_one]

/-- The address of POP reads 0 (R177). -/
theorem State.readReg_pop (s : State) : s.readReg 0x34 = 0 := rfl

/-! ## THRESH and COUNT (R157) -/

theorem EventQueue.setThreshold_replaces {q : EventQueue} {w : Word} (low : 1 ≤ w.toNat) (high : w.toNat ≤ 64) :
    q.setThreshold w = { q with threshold := w.toNat } := if_pos ⟨low, high⟩

theorem EventQueue.setThreshold_ignored {q : EventQueue} {w : Word} (out : w = 0 ∨ 64 < w.toNat) :
    q.setThreshold w = q := by
  refine if_neg fun ⟨low, high⟩ => ?_
  obtain rfl | above := out
  · simp at low
  · omega

/-- THRESH shows a threshold that fits its word (R157, R178). -/
theorem State.readReg_thresh {s : State} (fits : s.eq.threshold ≤ 64) : (s.readReg 0x36).toNat = s.eq.threshold := by
  have shown : s.readReg 0x36 = word s.eq.threshold := rfl
  rw [shown, word, BitVec.toNat_ofNat, Nat.mod_eq_of_lt (by omega)]

/-- A write of COUNT that the port carries moves the port alone (R157). -/
theorem registerWrite_count {s : State} {p : Port} (w : Word) (carried : s.hp.port.admitWrite 0x35 = some p) :
    registerWrite 0x35 w s = atPort s p := by
  rw [registerWrite_carried (by simp [hasOwnRow]) carried, beforeWrite_beside s (by decide),
    s.ce.writeReg_ignored w (by decide)]
  rfl

/-! ## The interrupt registers (R160, R161, R178) -/

/-- The five bits of a register of flags or enables read back as they stand (R178). -/
theorem IrqBits.ofWord_toWord (f : IrqBits) : IrqBits.ofWord f.toWord = f := by
  simp [IrqBits.ofWord, IrqBits.toWord]

theorem IrqBits.anyEnabled_iff {f en : IrqBits} :
    f.anyEnabled en = true ↔
      (f.evq = true ∧ en.evq = true) ∨ (f.ovf = true ∧ en.ovf = true) ∨ (f.done = true ∧ en.done = true) ∨
        (f.rej = true ∧ en.rej = true) ∨ (f.halt = true ∧ en.halt = true) := by
  simp [IrqBits.anyEnabled, or_assoc]

/-- IRQn is released while RESETn is asserted, and otherwise follows the flags and their enables (R161). -/
theorem State.irqAsserted_iff {s : State} :
    s.irqAsserted = true ↔ s.hp.inReset = false ∧ s.eq.flags.anyEnabled s.eq.enables = true := by
  simp [State.irqAsserted]

end Sys2Proof.Machine

/-!
The statements of the family "The event queue and interrupt".
-/

namespace Sys2Proof.Proofs

open Sys2Proof.Machine Sys2Proof.Safety Sys2Proof.Stated

/-! ## What every step keeps (R152, R159, R160, R162) -/

/-- Settles O7: a step is a command on the rest of the queue, and every command keeps the feed of the Event Queue
sound. -/
theorem stepKeepsQueueSound : Obligations.StepKeepsQueueSound := by
  intro s t hs h
  unfold step at h
  split at h
  · injection h with h
    exact h ▸ hs
  · rename_i c rest _
    obtain feeds | ⟨-, sound⟩ := exec_feedStep h
    · exact feeds.1 hs
    · exact sound hs

/-- Settles O15: a command that clears a flag is one of the three that are left out. -/
theorem flagsClearedOnlyByHostOrReset : Obligations.FlagsClearedOnlyByHostOrReset := by
  intro c s t h notFlags notSoft notPowerOn
  obtain feeds | ⟨⟨w, e⟩ | ⟨w, p, e⟩ | ⟨haltn, csn, p, e⟩, -⟩ := exec_feedStep h
  · exact feeds.2
  · exact absurd e (notFlags w)
  · exact absurd e (notSoft w p)
  · exact absurd e (notPowerOn haltn csn p)

/-! ## The registers of the Event Queue (R155, R157, R160, R161, R178) -/

/-- A write that the port carries, with RESETn released, answers its effect (R176). -/
theorem write_served {s : State} {a : Addr} {p : Port} (f : State → State) (served : ServesWrite s a p) :
    unlessInReset s (serveWrite a f) = .next (f (atPort s p)) :=
  event_released served.1 (serveWrite_carried f served.2)

/-- A served write of POP removes the head record, whatever is written (R155). -/
theorem exec_pop {s : State} {p : Port} (w : Word) (served : ServesWrite s 0x34 p) :
    exec (.pop w) s = .next { atPort s p with eq := { s.eq with records := s.eq.records.tail } } :=
  (write_served _ served).trans (by rw [EventQueue.pop_eq]; rfl)

/-- In a write frame that stays at POP each word removes the head record, and the frame goes on (R155, R175). -/
theorem exec_pop_inFrame {s : State} (w : Word) (frame : s.hp = ⟨.frame false false 0x34, false⟩) :
    exec (.pop w) s = .next { s with eq := { s.eq with records := s.eq.records.tail } } := by
  have served : ServesWrite s 0x34 (.frame false false 0x34) := by
    rw [ServesWrite, frame]
    exact ⟨rfl, rfl⟩
  have stays : atPort s (.frame false false 0x34) = s := by
    rw [atPort, frame, ← frame]
  rw [exec_pop w served, stays]

/-- The words of such a frame remove one record each, from the head on (R155). -/
theorem exec_pops_inFrame {s : State} (ws : List Word) (frame : s.hp = ⟨.frame false false 0x34, false⟩) :
    ws.foldl (fun o w => thenDo o (exec (.pop w))) (.next s) =
      .next { s with eq := { s.eq with records := s.eq.records.drop ws.length } } := by
  induction ws generalizing s with
  | nil => rfl
  | cons w ws ih =>
    rw [List.foldl_cons, thenDo, exec_pop_inFrame w frame]
    refine (ih ?_).trans ?_
    · exact frame
    · simp

/-- Settles O52: one served write of POP, the words of a frame that stays at POP by induction on them, and the read. -/
theorem popRemovesHead : Obligations.PopRemovesHead :=
  ⟨fun _ _ w served => exec_pop w served, fun _ ws frame => exec_pops_inFrame ws frame, State.readReg_pop⟩

/-- Settles O53, register by register. -/
theorem thresholdAndInterruptRegisters : Obligations.ThresholdAndInterruptRegisters := by
  refine ⟨fun s p w served => ⟨fun low high => ?_, fun out => ?_⟩, fun s fits => State.readReg_thresh fits,
    fun s p w served => ?_, fun s p w served => ?_, fun s p w served => ?_, fun s => ⟨?_, ?_⟩, fun s => ?_⟩
  · exact (write_served _ served).trans (by rw [EventQueue.setThreshold_replaces low high]; rfl)
  · exact (write_served _ served).trans (by rw [EventQueue.setThreshold_ignored out]; rfl)
  · exact event_released served.1 (registerWrite_count w served.2)
  · exact write_served _ served
  · exact write_served _ served
  · exact s.eq.flags.ofWord_toWord
  · exact s.eq.enables.ofWord_toWord
  · rw [State.irqAsserted_iff, IrqBits.anyEnabled_iff]

end Sys2Proof.Proofs

/-!
The lines under a halt (R122, R134, R135, R169): what keeps one line sound, then the Output Unit, then the halting of a
state, which is the latch, the HALTn level and the Output Unit.
-/

namespace Sys2Proof.Machine

open Sys2Proof.Safety

/-! ## One line -/

/-- What `HaltSound` asks of one line, with the forcing in force or not. -/
def LineRecord.SoundUnder (forced : Bool) (l : LineRecord) : Prop :=
  LineSound l ∧ (forced = true → l.haltMember = true → l.masked = true ∧ l.level = l.safeLevel) ∧
    (forced = false → l.masked = false)

/-- The configuration and the mask of the line are kept; a closed line that is STEADY stays so, and then keeps its level
when it is masked. -/
structure LineRecord.KeepsShut (l l' : LineRecord) : Prop where
  frame : l'.mode = l.mode ∧ l'.safeLevel = l.safeLevel ∧ l'.haltMember = l.haltMember ∧ l'.masked = l.masked
  steady : l.closed = true → l.pulse = none → l'.pulse = none
  level : l.masked = true → l.pulse = none → l'.level = l.level

section Line

variable {l l' : LineRecord} {forced : Bool}

theorem LineRecord.closed_of_masked (masked : l.masked = true) : l.closed = true := l.closed_iff.mpr (.inr masked)

/-- An event that reaches no closed line keeps what is shut. -/
theorem LineRecord.KeepsShut.of_steady
    (frame : l'.mode = l.mode ∧ l'.safeLevel = l.safeLevel ∧ l'.haltMember = l.haltMember ∧ l'.masked = l.masked)
    (same : l.closed = true → l.pulse = none → l' = { l with ending := l'.ending }) : l.KeepsShut l' where
  frame := frame
  steady closed steady := by rw [same closed steady]; exact steady
  level masked steady := by rw [same (closed_of_masked masked) steady]

theorem LineRecord.KeepsShut.refl (l : LineRecord) : l.KeepsShut l := ⟨⟨rfl, rfl, rfl, rfl⟩, fun _ => id, fun _ _ => rfl⟩

theorem LineRecord.KeepsShut.soundUnder (kept : l.KeepsShut l') (sound : l.SoundUnder forced) :
    l'.SoundUnder forced := by
  obtain ⟨⟨mode, safeLevel, haltMember, masked⟩, steady, level⟩ := kept
  obtain ⟨⟨shut, atSafe⟩, members, free⟩ := sound
  have closed : l'.closed = l.closed := by rw [LineRecord.closed, mode, masked, LineRecord.closed]
  have held : l.masked = true → l'.level = l.level := fun m => level m (shut (closed_of_masked m))
  refine ⟨⟨fun c => ?_, fun m => ?_⟩, fun f member => ?_, fun f => masked.trans (free f)⟩
  · rw [closed] at c
    exact steady c (shut c)
  · rw [masked] at m
    rw [haltMember, held m, safeLevel]
    exact atSafe m
  · rw [haltMember] at member
    obtain ⟨m, safe⟩ := members f member
    rw [masked, held m, safeLevel]
    exact ⟨m, safe⟩

variable (l)

/-- A line that is closed takes no effect (R127). -/
theorem LineRecord.effect_keepsShut (last : Option Time) (T : Time) (k : Fin 16) (e : Effect) :
    l.KeepsShut (l.effect last T k e) :=
  .of_steady (l.effect_frame last T k e) fun closed _ => by rw [effect_not_taken (.inr closed)]

theorem LineRecord.runDown_keepsShut (awaited : Bool) : l.KeepsShut (l.runDown awaited) :=
  .of_steady (l.runDown_frame awaited) fun _ steady => by rw [runDown_steady awaited steady]

theorem LineRecord.returned_keepsShut : l.KeepsShut l.returned :=
  .of_steady l.returned_frame fun _ steady => by rw [returned_steady steady]

variable {l}

/-- The halt forcing masks every halt member at its safe level, and no line else is masked (R134). -/
theorem LineRecord.forced_soundUnder (sound : LineSound l) : l.forced.SoundUnder true := by
  unfold LineRecord.forced
  split
  · rename_i member
    exact ⟨⟨fun _ => rfl, fun _ => ⟨member, rfl⟩⟩, fun _ _ => ⟨rfl, rfl⟩, nofun⟩
  · rename_i other
    exact ⟨sound, fun _ member => absurd member other, nofun⟩

/-- The lifting opens at most lines in AGENDA mode (R135). -/
theorem LineRecord.lifted_soundUnder (sound : LineSound l) : LineRecord.SoundUnder false { l with masked := false } := by
  refine ⟨⟨fun closed => sound.1 ?_, nofun⟩, nofun, fun _ => rfl⟩
  simp only [LineRecord.closed_iff] at closed ⊢
  exact closed.imp_right fun masked => by cases masked

/-- CONFIG-OUT closes a line only by a change of mode, which ends its pulse (R126). -/
theorem LineRecord.configured_soundUnder (mode : LineMode) (safe member : Bool) (sound : l.SoundUnder false) :
    (l.configured mode safe member).SoundUnder false := by
  obtain ⟨⟨shut, -⟩, -, free⟩ := sound
  have unmasked : (l.configured mode safe member).masked = false := free rfl
  refine ⟨⟨fun closed => ?_, fun masked => ?_⟩, nofun, fun _ => unmasked⟩
  · by_cases same : mode = l.mode
    · subst same
      exact (if_pos rfl).trans (shut closed)
    · exact if_neg same
  · cases unmasked.symm.trans masked

end Line

/-! ## The Output Unit -/

/-- Every line is as `HaltSound` asks. -/
def OutputUnit.LinesSound (u : OutputUnit) : Prop := ∀ k : Fin 16, u.lines[k].SoundUnder u.forced

/-- The event leaves the forcing as it is, and the lines sound. -/
def OutputUnit.KeepsLines (u u' : OutputUnit) : Prop := u'.forced = u.forced ∧ (u.LinesSound → u'.LinesSound)

section Unit

theorem OutputUnit.KeepsLines.refl (u : OutputUnit) : u.KeepsLines u := ⟨rfl, id⟩

theorem OutputUnit.KeepsLines.of_eq {u u' : OutputUnit} (same : u' = u) : u.KeepsLines u' := same ▸ .refl u

theorem OutputUnit.KeepsLines.trans {u u' u'' : OutputUnit} (h : u.KeepsLines u') (h' : u'.KeepsLines u'') :
    u.KeepsLines u'' :=
  ⟨h'.1.trans h.1, h'.2 ∘ h.2⟩

theorem OutputUnit.KeepsLines.of_keepsShut {u u' : OutputUnit} (forced : u'.forced = u.forced)
    (lines : ∀ k : Fin 16, u.lines[k].KeepsShut u'.lines[k]) : u.KeepsLines u' :=
  ⟨forced, fun sound k => forced ▸ (lines k).soundUnder (sound k)⟩

variable (u : OutputUnit)

theorem OutputUnit.effect_keepsLines (T : Time) (e : Effect) : u.KeepsLines (u.effect T e) := by
  refine .of_keepsShut (u.effect_forced T e) fun k => ?_
  rw [effect_line]
  exact LineRecord.effect_keepsShut _ _ _ _ _

theorem OutputUnit.deliver_keepsLines (T : Time) (es : List Effect) : u.KeepsLines (u.deliver T es) := by
  induction es generalizing u with
  | nil => exact .refl u
  | cons e es ih =>
    rw [deliver]
    exact (u.effect_keepsLines T e).trans (ih _)

theorem OutputUnit.runDown_keepsLines (T : Time) (awaited : Fin 16 → Bool) : u.KeepsLines (u.runDown T awaited) := by
  refine .of_keepsShut (u.runDown_forced T awaited) fun k => ?_
  rw [runDown_line]
  exact LineRecord.runDown_keepsShut _ _

theorem OutputUnit.endPulses_keepsLines (awaited : Fin 16 → Bool) : u.KeepsLines (u.endPulses awaited) := by
  refine .of_keepsShut (u.endPulses_forced awaited) fun k => ?_
  rw [endPulses_line]
  split
  · exact LineRecord.returned_keepsShut _
  · exact .refl _

theorem OutputUnit.directWrite_forced (w : BitVec 16) : (u.directWrite w).forced = u.forced := by
  simp only [directWrite]

theorem OutputUnit.configure_forced (k : Fin 16) (mode : LineMode) (safe member : Bool) :
    (u.configure k mode safe member).forced = u.forced := by
  simp only [configure]

/-- A direct write moves the level of no line that is masked (R124). -/
theorem OutputUnit.directWrite_keepsLines (w : BitVec 16) : u.KeepsLines (u.directWrite w) := by
  refine .of_keepsShut (u.directWrite_forced w) fun k => ?_
  rw [directWrite_line]
  split
  · rename_i free
    refine ⟨⟨rfl, rfl, rfl, rfl⟩, fun _ => id, fun masked => ?_⟩
    rw [masked] at free
    simp at free
  · exact .refl _

/-- CONFIG-OUT, which is taken while no forcing is in force alone (R125). -/
theorem OutputUnit.configure_keepsLines (k : Fin 16) (mode : LineMode) (safe member : Bool) (free : u.forced = false) :
    u.KeepsLines (u.configure k mode safe member) := by
  refine ⟨u.configure_forced k mode safe member, fun sound i => ?_⟩
  rw [configure_forced, free, configure_line]
  split
  · exact LineRecord.configured_soundUnder mode safe member (free ▸ sound k)
  · exact free ▸ sound i

variable {u}

theorem OutputUnit.force_linesSound (sound : u.LinesSound) : u.force.LinesSound := by
  intro k
  rw [force_line]
  exact LineRecord.forced_soundUnder (sound k).1

theorem OutputUnit.lift_linesSound (sound : u.LinesSound) : u.lift.LinesSound := by
  intro k
  rw [lift_line]
  exact LineRecord.lifted_soundUnder (sound k).1

variable (u)

/-- A soft reset leaves every line STEADY, unmasked and at its safe level (R137). -/
theorem OutputUnit.softReset_linesSound : u.softReset.LinesSound := by
  intro k
  rw [softReset_line]
  exact ⟨⟨fun _ => rfl, nofun⟩, nofun, fun _ => rfl⟩

end Unit

/-! ## The halting of a state (R164, R165, R169) -/

/-- What a halt and a release read and write: the latch, the HALTn level last recognised, and the Output Unit. -/
structure Halting where
  latch : Option HaltCause
  haltnHigh : Bool
  ou : OutputUnit

def State.halting (s : State) : Halting := ⟨s.hc.latch, s.hc.haltnHigh, s.ou⟩

@[simp] theorem State.halting_withEq (s : State) (x : EventQueue) : (s.withEq x).halting = s.halting := rfl

/-- The forcing is in force exactly while the latch is set, and the lines follow it (R169). -/
def Halting.Sound (v : Halting) : Prop := v.ou.forced = v.latch.isSome ∧ v.ou.LinesSound

/-- `HaltSound` is about the halting of the state. -/
theorem State.halting_sound_iff (s : State) : s.halting.Sound ↔ HaltSound s := Iff.rfl

/-- A halt with this cause: the latch is set and the lines are forced (R166). -/
def Halting.halted (v : Halting) (cause : HaltCause) : Halting := { v with latch := some cause, ou := v.ou.force }

/-- A release: the latch is cleared and the lines are lifted (R171). -/
def Halting.released (v : Halting) : Halting := { v with latch := none, ou := v.ou.lift }

theorem Halting.Sound.halted {v : Halting} (sound : v.Sound) (cause : HaltCause) : (v.halted cause).Sound :=
  ⟨rfl, OutputUnit.force_linesSound sound.2⟩

theorem Halting.Sound.released {v : Halting} (sound : v.Sound) : v.released.Sound :=
  ⟨rfl, OutputUnit.lift_linesSound sound.2⟩

/-- Everything that one command can do to the halting of a state. -/
inductive HaltStep (c : Instr) (v v' : Halting) : Prop
  /-- The latch is kept, and the lines stay as it asks. -/
  | keeps (latch : v'.latch = v.latch) (lines : v.ou.KeepsLines v'.ou)
  /-- A halt event or HALT finds the latch CLEAR and sets it (R166, R168). -/
  | halts (own : (∃ p, c = .haltEvent p) ∨ ∃ p, c = .halt p) (clear : v.latch = none)
      (set : ∃ cause, v'.latch = some cause) (forced : v'.ou = v.ou.force)
  /-- RELEASE, with HALTn high, clears the latch (R171). -/
  | releases (own : ∃ p, c = .release p) (high : v.haltnHigh = true) (after : v' = v.released)
  /-- A reset, behind which all is as it should be, whatever was before (R173, R174). -/
  | resets (own : (∃ w p, c = .softReset w p) ∨ ∃ h f p, c = .powerOnReset h f p) (sound : v'.Sound)

theorem HaltStep.beside {c : Instr} {v v' : Halting} (same : v' = v) : HaltStep c v v' :=
  same ▸ .keeps rfl (.refl _)

/-- The latch is kept by an event of the Output Unit, and the lines by what the event does to them. -/
theorem HaltStep.of_hc {c : Instr} {s t : State} (hc : t.hc = s.hc) (lines : s.ou.KeepsLines t.ou) :
    HaltStep c s.halting t.halting :=
  .keeps (congrArg HaltController.latch hc) lines

/-- The same when the Output Unit is written behind an event `r` that left the Halt Controller alone. -/
theorem HaltStep.withOu {c : Instr} {s r : State} {u : OutputUnit} (hc : r.hc = s.hc) (lines : s.ou.KeepsLines u) :
    HaltStep c s.halting (r.withOu u).halting :=
  .of_hc hc lines

/-- An event beside the Halt Controller and the drive of the output lines is beside the halting. -/
theorem State.halting_congr {s t : State} (hc : t.hc = s.hc) (drive : t.drive = s.drive) : t.halting = s.halting := by
  have ou : t.ou = s.ou := congrArg Drive.ou drive
  rw [State.halting, hc, ou, State.halting]

/-- Every command keeps a sound halting sound. -/
theorem HaltStep.sound {c : Instr} {v v' : Halting} (step : HaltStep c v v') (before : v.Sound) : v'.Sound := by
  cases step with
  | keeps latch lines => exact ⟨lines.1.trans (latch ▸ before.1), lines.2 before.2⟩
  | halts own clear set forced =>
    obtain ⟨cause, set⟩ := set
    rw [Halting.Sound, forced, set]
    exact ⟨rfl, OutputUnit.force_linesSound before.2⟩
  | releases own high after => exact after ▸ before.released
  | resets own sound => exact sound

end Sys2Proof.Machine

/-!
What one command can do to the latch and to the lines under it (R164, R166, R168, R171, R173).
-/

namespace Sys2Proof.Machine

/-! ## Events beside the Halt Controller -/

section Beside

variable (s : State)

theorem commitStart_hc : (commitStart s).hc = s.hc := by
  unfold commitStart
  split
  · split
    · unfold commitStartTaken
      split
      · rfl
      · split <;> rfl
    · rfl
  · rfl

theorem mergeCompletion_hc : (mergeCompletion s).hc = s.hc := by
  unfold mergeCompletion
  split <;> rfl

theorem abandon_hc (code : ResultCode) : (abandon code s).hc = s.hc := by
  unfold abandon
  split <;> rfl

@[simp] theorem applyHaltActions_hc : (applyHaltActions s).hc = s.hc := by
  simp [applyHaltActions]

/-- The groups' part of a halt leaves the latch to the Halt Controller (R118, R166). -/
theorem haltGroupRequest_hc : (haltGroupRequest s).hc = s.hc := by
  unfold haltGroupRequest
  split
  · rfl
  · rw [abandon_hc, applyHaltActions_hc]
    rfl

theorem sample_hc (pins : Pins) : (sample pins s).hc = s.hc := by
  obtain ⟨-, e⟩ | ⟨T, -, e⟩ := sample_cases pins s <;> rw [e]
  rfl

theorem confirmation_hc (pins : Pins) : (confirmation pins s).hc = s.hc := by
  unfold confirmation
  split
  · split <;> rfl
  · rfl

theorem beginRunning_hc (pins : Pins) : (beginRunning pins s).hc = s.hc := sample_hc (s.withTb s.tb.boundary) pins

theorem endRunning_hc : (endRunning s).hc = s.hc := by
  obtain ⟨-, e⟩ | ⟨-, e⟩ := endRunning_cases s <;> rw [e] <;> rfl

theorem syncEdge_hc (pins : Pins) : (syncEdge pins s).hc = s.hc := by
  unfold syncEdge
  split
  · exact beginRunning_hc s pins
  · rfl

theorem syncFall_hc : (syncFall s).hc = s.hc := by
  unfold syncFall
  split <;> rfl

theorem tickEvent_hc : (tickEvent s).hc = s.hc := by
  unfold tickEvent
  split
  · split <;> rfl
  · rfl

theorem tickEvent_ou : (tickEvent s).ou = s.ou := by
  unfold tickEvent
  split
  · split <;> rfl
  · rfl

theorem time0Read_hc : (time0Read s).hc = s.hc := by
  rw [time0Read_eq]
  split <;> rfl

theorem recordOffer_hc (b : Offerer) : (recordOffer b s).hc = s.hc := by
  cases b <;> simp only [recordOffer] <;> split <;> rfl

theorem headerByte_hc (b : Byte) : (headerByte b s).hc = s.hc := by
  unfold headerByte
  split <;> rfl

theorem dispatch_hc : (dispatch s).hc = s.hc := by
  unfold dispatch
  split <;> rfl

theorem triggerEvent_hc (pick : TriggerPick) : (triggerEvent pick s).hc = s.hc := by
  cases pick <;> simp only [triggerEvent] <;> split <;> rfl

/-- A served write whose effect is beside the Halt Controller is beside it. -/
theorem serveWrite_hc (a : Addr) {f : State → State} (hf : ∀ s, (f s).hc = s.hc) : (serveWrite a f s).hc = s.hc := by
  obtain e | ⟨p, -, e⟩ := serveWrite_cases a f s <;> rw [e]
  exact hf _

theorem abortWrite_hc (w : Word) : (abortWrite w s).hc = s.hc := by
  unfold abortWrite
  split
  · exact serveWrite_hc s _ fun s => abandon_hc s .aborted
  · rfl

theorem badCommand_hc (w : Word) : (badCommand w s).hc = s.hc := by
  unfold badCommand
  split
  · rfl
  · refine serveWrite_hc s _ fun s => ?_
    split <;> rfl

end Beside

/-! ## Events of the Output Unit -/

section Lines

variable {c : Instr} (s : State)

theorem delivery_haltStep : HaltStep c s.halting (delivery s).halting := by
  unfold delivery
  split
  · exact .beside rfl
  · exact .of_hc rfl (s.ou.deliver_keepsLines _ _)

/-- A run-down, or none with no tick event waiting, leaves the Halt Controller and keeps the lines. -/
theorem runDown_keepsLines : (runDown s).hc = s.hc ∧ s.ou.KeepsLines (runDown s).ou := by
  obtain ⟨-, e⟩ | ⟨T, -, e⟩ := runDown_cases s <;> rw [e]
  · exact ⟨rfl, .refl _⟩
  · rw [runDownWork_ou]
    exact ⟨by simp [runDownWork], s.ou.runDown_keepsLines T _⟩

theorem runDown_haltStep : HaltStep c s.halting (runDown s).halting :=
  .of_hc (runDown_keepsLines s).1 (runDown_keepsLines s).2

theorem pulseEnd_haltStep : HaltStep c s.halting (pulseEnd s).halting := by
  obtain ⟨hc, lines⟩ := runDown_keepsLines s
  obtain ⟨r, rfl | rfl, e⟩ := pulseEnd_cases s <;> rw [e]
  · exact .withOu rfl (OutputUnit.endPulses_keepsLines _ _)
  · exact .withOu hc (lines.trans (OutputUnit.endPulses_keepsLines _ _))

theorem outDirect_haltStep (w : Word) :
    HaltStep c s.halting (serveWrite 0x12 (fun s => s.withOu (s.ou.directWrite w)) s).halting := by
  obtain e | ⟨p, -, e⟩ := serveWrite_cases 0x12 (fun s => s.withOu (s.ou.directWrite w)) s <;> rw [e]
  · exact .beside rfl
  · exact .withOu rfl (s.ou.directWrite_keepsLines w)

end Lines

/-! ## Halt events and resets -/

section Halts

variable (s : State)

theorem latchHalt_halting (cause : HaltCause) : (latchHalt cause s).halting = s.halting.halted cause := rfl

theorem applyHaltActions_halting : (applyHaltActions s).halting = s.halting :=
  State.halting_congr (applyHaltActions_hc s) (applyHaltActions_drive s)

/-- A halt event finds the latch LATCHED and does nothing, or finds it CLEAR and halts (R166, R167). -/
theorem haltEventTaken_halting_cases (cause : HaltCause) :
    (haltEventTaken cause s).halting = s.halting ∨
      s.hc.latch = none ∧ (haltEventTaken cause s).halting = s.halting.halted cause := by
  cases latch : s.hc.latch with
  | some c => exact .inl (by rw [haltEventTaken_latched cause latch])
  | none => exact .inr ⟨rfl, by rw [haltEventTaken_clear cause latch]; rfl⟩

theorem takeFall_halting_cases :
    (takeFall s).halting = s.halting ∨ s.hc.latch = none ∧ (takeFall s).halting = s.halting.halted .pin := by
  cases owed : s.hc.fallsOwed with
  | zero => exact .inl (by rw [takeFall_none owed])
  | succ n =>
    rw [takeFall_owed owed]
    exact haltEventTaken_halting_cases (s.withHc { s.hc with fallsOwed := n }) .pin

/-- The recognition of a fall leaves the latch to the taking of its halt event (R165). -/
theorem recogniseFall_frame : (recogniseFall s).hc.latch = s.hc.latch ∧ (recogniseFall s).ou = s.ou := by
  unfold recogniseFall
  split <;> exact ⟨rfl, rfl⟩

theorem recogniseFall_haltStep {c : Instr} : HaltStep c s.halting (recogniseFall s).halting := by
  obtain ⟨latch, ou⟩ := recogniseFall_frame s
  exact .keeps latch (.of_eq ou)

/-- The taking of a fall, behind events `x` that changed neither the latch nor the lines. -/
theorem takeFall_haltStep {x : State} (latch : x.hc.latch = s.hc.latch) (ou : x.ou = s.ou) (p : FallStep) :
    HaltStep (.haltEvent p) s.halting (takeFall x).halting := by
  obtain e | ⟨clear, e⟩ := takeFall_halting_cases x <;> rw [e]
  · exact .keeps latch (.of_eq ou)
  · exact .halts (.inl ⟨p, rfl⟩) (latch.symm.trans clear) ⟨.pin, rfl⟩ (congrArg OutputUnit.force ou)

theorem haltEvent_haltStep (p : FallStep) : HaltStep (.haltEvent p) s.halting (haltEvent p s).halting := by
  cases p with
  | whole =>
    simp only [haltEvent]
    split
    · exact takeFall_haltStep s (recogniseFall_frame s).1 (recogniseFall_frame s).2 .whole
    · exact .beside rfl
  | recognise => exact recogniseFall_haltStep s
  | take => exact takeFall_haltStep s rfl rfl .take

variable {s}

/-- The re-latch of a reset is a halt of the state that the reset left (R173, R174). -/
theorem relatch_halting_sound (sound : s.halting.Sound) : (relatch s).halting.Sound := by
  cases level : s.hc.haltnHigh with
  | true => rwa [relatch_high level]
  | false =>
    rw [relatch_low level, State.halting_withEq, applyHaltActions_halting, latchHalt_halting]
    exact sound.halted .pin

variable (s)

theorem softReset_haltStep (w : Word) (pins : Pins) :
    HaltStep (.softReset w pins) s.halting (softReset w pins s).halting := by
  unfold softReset
  split
  · obtain e | ⟨p, -, e⟩ := serveWrite_cases 0x02 (fun s => relatch (softResetValues pins s)) s <;> rw [e]
    · exact .beside rfl
    · exact .resets (.inl ⟨w, pins, rfl⟩) (relatch_halting_sound ⟨rfl, s.ou.softReset_linesSound⟩)
  · exact .beside rfl

theorem powerOnReset_haltStep (haltn csn : Bool) (pins : Pins) :
    HaltStep (.powerOnReset haltn csn pins) s.halting (powerOnReset haltn csn pins s).halting :=
  .resets (.inr ⟨haltn, csn, pins, rfl⟩) (relatch_halting_sound Proofs.haltSound_reset)

end Halts

/-! ## The handlers of the host commands -/

/-- A handler's answer to the command `c`, if it gives one, is a step of the halting. -/
def AnswersHaltStep (c : Instr) (s : State) (o : Option (State × Stage)) : Prop :=
  ∀ s' stage, o = some (s', stage) → HaltStep c s.halting s'.halting

section Answers

variable {c : Instr} {s : State}

theorem AnswersHaltStep.waits : AnswersHaltStep c s none := by
  intro s' stage h
  cases h

theorem AnswersHaltStep.of_haltStep {s' : State} {stage : Stage} (step : HaltStep c s.halting s'.halting) :
    AnswersHaltStep c s (some (s', stage)) := by
  rintro _ _ ⟨⟩
  exact step

/-- An answer with an effect beside the halting. -/
theorem AnswersHaltStep.beside {s' : State} {stage : Stage} (same : s'.halting = s.halting) :
    AnswersHaltStep c s (some (s', stage)) :=
  .of_haltStep (.beside same)

theorem AnswersHaltStep.unchanged {stage : Stage} : AnswersHaltStep c s (some (s, stage)) := .beside rfl

variable (s) (a : Args)

theorem appendTake_haltStep : AnswersHaltStep c s (appendTake a s) := by
  unfold appendTake
  split
  · exact .unchanged
  · split <;> exact .beside rfl

theorem discardTake_haltStep : AnswersHaltStep c s (discardTake a s) := .beside rfl

theorem commitTake_haltStep : AnswersHaltStep c s (commitTake a s) := by
  unfold commitTake
  split <;> exact .unchanged

theorem cancelTake_haltStep : AnswersHaltStep c s (cancelTake a s) := by
  unfold cancelTake
  split
  · exact .unchanged
  · split <;> exact .beside rfl

theorem queryTake_haltStep : AnswersHaltStep c s (queryTake a s) := by
  unfold queryTake
  split
  · exact .unchanged
  · split <;> exact .beside rfl

theorem suspendTake_haltStep : AnswersHaltStep c s (suspendTake a s) := by
  unfold suspendTake
  split
  · exact .unchanged
  · split <;> exact .beside rfl

theorem resumeTake_haltStep : AnswersHaltStep c s (resumeTake a s) := by
  unfold resumeTake
  split
  · exact .unchanged
  · split <;> exact .beside rfl

theorem cancelGroupTake_haltStep : AnswersHaltStep c s (cancelGroupTake a s) := by
  unfold cancelGroupTake
  split <;> exact .beside rfl

theorem setGroupTake_haltStep : AnswersHaltStep c s (setGroupTake a s) := by
  unfold setGroupTake
  split
  · split
    · exact .beside rfl
    · exact .waits
  · exact .unchanged

theorem startTake_haltStep (pins : Pins) : AnswersHaltStep c s (startTake pins a s) := by
  unfold startTake
  split
  · exact .beside (State.halting_congr (beginRunning_hc s pins) (beginRunning_drive s pins))
  · exact .unchanged

theorem stopTake_haltStep : AnswersHaltStep c s (stopTake a s) := by
  unfold stopTake
  split
  · exact .unchanged
  · exact .beside
      (State.halting_congr (endRunning_hc (s.withTb s.tb.stop)) (endRunning_drive (s.withTb s.tb.stop)))

theorem armSyncTake_haltStep (sync : Bool) : AnswersHaltStep c s (armSyncTake sync a s) := by
  unfold armSyncTake
  split <;> exact .beside rfl

/-- SET-TIME moves the tick last run down, and no line (R58). -/
theorem setTimeTake_haltStep : AnswersHaltStep c s (setTimeTake a s) := by
  unfold setTimeTake
  split
  · split
    · split
      · exact .of_haltStep (.of_hc rfl ⟨rfl, id⟩)
      · exact .unchanged
    · exact .waits
  · exact .unchanged

theorem setTrimTake_haltStep : AnswersHaltStep c s (setTrimTake a s) := by
  unfold setTrimTake
  split
  · exact .unchanged
  · split <;> exact .beside rfl

theorem fireCueTake_haltStep : AnswersHaltStep c s (fireCueTake a s) := by
  unfold fireCueTake
  split <;> exact .beside rfl

theorem configOutTake_haltStep : AnswersHaltStep c s (configOutTake a s) := by
  unfold configOutTake
  split
  · split
    · exact .unchanged
    · rename_i free
      exact .of_haltStep (.of_hc rfl (s.ou.configure_keepsLines _ _ _ _ (Bool.eq_false_iff.mpr free)))
  · exact .unchanged

theorem configInTake_haltStep : AnswersHaltStep c s (configInTake a s) := by
  unfold configInTake
  split <;> exact .beside rfl

theorem haltTake_haltStep (p : CmdStep) : AnswersHaltStep (.halt p) s (haltTake a s) := by
  refine .of_haltStep ?_
  obtain e | ⟨clear, e⟩ := haltEventTaken_halting_cases s .command <;> rw [e]
  · exact .beside rfl
  · exact .halts (.inr ⟨p, rfl⟩) clear ⟨.command, rfl⟩ rfl

theorem releaseTake_haltStep (p : CmdStep) : AnswersHaltStep (.release p) s (releaseTake a s) := by
  unfold releaseTake
  split
  · exact .unchanged
  · rename_i notLow
    have high : s.hc.haltnHigh = true := by simpa using notLow
    split
    · exact .unchanged
    · exact .of_haltStep (.releases ⟨p, rfl⟩ high rfl)

end Answers

/-! ## Host commands -/

/-- The halting changes at most once, by one answer of the handler. -/
def AsksOnce (handler : Handler) (v v' : Halting) : Prop :=
  v' = v ∨ ∃ a x x' stage, State.halting x = v ∧ handler a x = some (x', stage) ∧ v' = x'.halting

section Parts

variable (code : Byte) (handler : Handler) (s : State)

theorem commandWrite_halting : (commandWrite code s).halting = s.halting := by
  unfold commandWrite
  split <;> rfl

theorem commandComplete_halting : (commandComplete code s).halting = s.halting := by
  obtain e | ⟨a, r, -, e⟩ := commandComplete_cases code s <;> rw [e]
  rfl

theorem commandTake_asksOnce : AsksOnce handler s.halting (commandTake code handler s).halting := by
  obtain e | ⟨a, n, x', stage, -, answered, e⟩ := commandTake_cases code handler s <;> rw [e]
  · exact .inl rfl
  · exact .inr ⟨a, s, x', stage, rfl, answered, rfl⟩

theorem commandWhole_asksOnce : AsksOnce handler s.halting (commandWhole code handler s).halting := by
  unfold commandWhole
  split
  · rw [commandComplete_halting, ← commandWrite_halting code s]
    exact commandTake_asksOnce code handler _
  · exact .inl (commandWrite_halting code s)

/-- A part of a host command changes the halting only where its request is taken, and there as the handler does. -/
theorem runCommand_asksOnce (p : CmdStep) : AsksOnce handler s.halting (runCommand code handler p s).halting := by
  cases p with
  | take => exact commandTake_asksOnce code handler s
  | complete => exact .inl (commandComplete_halting code s)
  | write =>
    obtain e | ⟨port, -, e⟩ := serveWrite_cases 0x07 (commandWrite code) s <;> rw [runCommand, e]
    · exact .inl rfl
    · exact .inl (commandWrite_halting code _)
  | whole =>
    obtain e | ⟨port, -, e⟩ := serveWrite_cases 0x07 (commandWhole code handler) s <;> rw [runCommand, e]
    · exact .inl rfl
    · exact commandWhole_asksOnce code handler (s.withHp { s.hp with port := port })

variable {code handler}

/-- Every part of a host command is a step of the halting when its handler's answers are. -/
theorem runCommand_haltStep {c : Instr} (hh : ∀ s a, AnswersHaltStep c s (handler a s)) (p : CmdStep) :
    HaltStep c s.halting (runCommand code handler p s).halting := by
  obtain e | ⟨a, x, x', stage, before, answered, e⟩ := runCommand_asksOnce code handler s p <;> rw [e]
  · exact .beside rfl
  · exact before ▸ hh x a x' stage answered

end Parts

/-! ## Register writes -/

/-- Ahead of a register write at most an APPEND is taken (R67). -/
theorem beforeWrite_haltStep {c : Instr} (a : Addr) (s : State) : HaltStep c s.halting (beforeWrite a s).halting := by
  unfold beforeWrite
  split
  · exact runCommand_haltStep (code := 0x01) s appendTake_haltStep .take
  · exact .beside rfl

theorem registerWrite_haltStep {c : Instr} (a : Addr) (w : Word) (s : State) :
    HaltStep c s.halting (registerWrite a w s).halting := by
  unfold registerWrite
  split
  · exact .beside rfl
  · obtain e | ⟨p, -, e⟩ := serveWrite_cases a _ s <;> rw [e]
    · exact .beside rfl
    · exact beforeWrite_haltStep a (s.withHp { s.hp with port := p })

/-! ## Every command -/

/-- What every command does to the latch and to the lines under it. -/
theorem exec_haltStep {c : Instr} {s t : State} (h : exec c s = .next t) : HaltStep c s.halting t.halting := by
  have event : ∀ {f : State → State}, unlessInReset s f = .next t → HaltStep c s.halting (f s).halting →
      HaltStep c s.halting t.halting := by
    intro f h step
    obtain rfl | ⟨-, rfl⟩ := unlessInReset_eq h
    · exact .beside rfl
    · exact step
  have beside : ∀ {f : State → State}, unlessInReset s f = .next t → (∀ s, (f s).hc = s.hc) →
      (∀ s, (f s).drive = s.drive) → HaltStep c s.halting t.halting :=
    fun h hc drive => event h (.beside (State.halting_congr (hc s) (drive s)))
  have write : ∀ {a : Addr} {f : State → State}, unlessInReset s (serveWrite a f) = .next t →
      (∀ s, (f s).hc = s.hc) → (∀ s, (f s).drive = s.drive) → HaltStep c s.halting t.halting :=
    fun h hc drive => beside h (serveWrite_hc · _ hc) (serveWrite_drive · _ drive)
  have host : ∀ {code : Byte} {handler : Handler} {p : CmdStep},
      unlessInReset s (runCommand code handler p) = .next t → (∀ s a, AnswersHaltStep c s (handler a s)) →
      HaltStep c s.halting t.halting :=
    fun h hh => event h (runCommand_haltStep s hh _)
  cases c with
  | append p => exact host h appendTake_haltStep
  | discard p => exact host h discardTake_haltStep
  | commit p => exact host h commitTake_haltStep
  | commitStart => exact beside h commitStart_hc commitStart_drive
  | mergeCompletion => exact beside h mergeCompletion_hc mergeCompletion_drive
  | abort w => exact beside h (abortWrite_hc · w) (abortWrite_drive · w)
  | cancel p => exact host h cancelTake_haltStep
  | query p => exact host h queryTake_haltStep
  | suspend p => exact host h suspendTake_haltStep
  | resume p => exact host h resumeTake_haltStep
  | cancelGroup p => exact host h cancelGroupTake_haltStep
  | setGroup p => exact host h setGroupTake_haltStep
  | start p pins => exact host h fun s a => startTake_haltStep s a pins
  | stop p => exact host h stopTake_haltStep
  | armSync p sync => exact host h fun s a => armSyncTake_haltStep s a sync
  | setTime p => exact host h setTimeTake_haltStep
  | setTrim p => exact host h setTrimTake_haltStep
  | fireCue p => exact host h fireCueTake_haltStep
  | configOut p => exact host h configOutTake_haltStep
  | configIn p => exact host h configInTake_haltStep
  | halt p => exact host h fun s a => haltTake_haltStep s a p
  | release p => exact host h fun s a => releaseTake_haltStep s a p
  | badcmd w => exact beside h (badCommand_hc · w) (badCommand_drive · w)
  | softReset w pins => exact event h (softReset_haltStep s w pins)
  | haltEvent p => exact event h (haltEvent_haltStep s p)
  | haltnRise => exact event h (.keeps rfl (.refl s.ou))
  | haltGroupRequest => exact beside h haltGroupRequest_hc haltGroupRequest_drive
  | syncEdge pins => exact beside h (syncEdge_hc · pins) (syncEdge_drive · pins)
  | tickEvent => exact event h (.of_hc (tickEvent_hc s) (.of_eq (tickEvent_ou s)))
  | dispatch => exact beside h dispatch_hc dispatch_drive
  | triggerEvent pick => exact beside h (triggerEvent_hc · pick) (triggerEvent_drive · pick)
  | delivery => exact event h (delivery_haltStep s)
  | runDown => exact event h (runDown_haltStep s)
  | pulseEnd => exact event h (pulseEnd_haltStep s)
  | sample pins => exact beside h (sample_hc · pins) (sample_drive · pins)
  | confirmation pins => exact beside h (confirmation_hc · pins) (confirmation_drive · pins)
  | recordOffer b => exact beside h (recordOffer_hc · b) (recordOffer_drive · b)
  | outDirect w => exact event h (outDirect_haltStep s w)
  | pop w => exact write h (fun _ => rfl) fun _ => rfl
  | irqFlags w => exact write h (fun _ => rfl) fun _ => rfl
  | irqEnable w => exact write h (fun _ => rfl) fun _ => rfl
  | thresh w => exact write h (fun _ => rfl) fun _ => rfl
  | time0 => exact beside h time0Read_hc time0Read_drive
  | registerWrite a w => exact event h (registerWrite_haltStep a w s)
  | headerByte b => exact beside h (headerByte_hc · b) (headerByte_drive · b)
  | syncFall => exact beside h syncFall_hc syncFall_drive
  | powerOnReset haltn csn pins =>
    cases h
    exact powerOnReset_haltStep s haltn csn pins
  | resetnAsserted =>
    cases h
    exact .beside rfl
  | frameEnd =>
    cases h
    exact .beside rfl

end Sys2Proof.Machine

/-!
What a fall of HALTn, HALT and RELEASE answer, case by case (R165 to R168, R171; assumption logs 4, 13).
-/

namespace Sys2Proof.Machine

/-! ## The parts of a fall (R165, R166, R167) -/

section Falls

variable {s : State}

theorem latchHalt_eq (cause : HaltCause) :
    latchHalt cause s =
      { s with
        hc := { s.hc with latch := some cause }
        ou := s.ou.force
        eq := { s.eq with flags := { s.eq.flags with halt := true } } } := by
  simp only [latchHalt, State.withHc, State.withOu, State.withEq, EventQueue.raiseHalt]

/-- A halt with the latch CLEAR: latch, forcing and HALT flag in one step, the record and the group request handed
out (R166). -/
theorem haltEventTaken_eq (cause : HaltCause) (clear : s.hc.latch = none) :
    haltEventTaken cause s =
      { s with
        hc := { s.hc with latch := some cause }
        ou := s.ou.force
        eq := { s.eq with flags := { s.eq.flags with halt := true } }
        mail :=
          { s.mail with
            haltOffers := s.mail.haltOffers ++ [.halt s.tb.time cause]
            haltRequests := s.mail.haltRequests + 1 } } := by
  rw [haltEventTaken_clear cause clear, latchHalt_eq, State.withMail]

theorem recogniseFall_high (high : s.hc.haltnHigh = true) :
    recogniseFall s = { s with hc := ⟨s.hc.latch, false, s.hc.fallsOwed + 1⟩ } := if_pos high

/-- With HALTn low already there is no fall (assumption log 4). -/
theorem recogniseFall_low (low : s.hc.haltnHigh = false) : recogniseFall s = s := if_neg (by simp [low])

/-- A fall taken with the latch CLEAR halts with cause PIN (R166). -/
theorem takeFall_clear {n : Nat} (owed : s.hc.fallsOwed = n + 1) (clear : s.hc.latch = none) :
    takeFall s =
      { s with
        hc := ⟨some .pin, s.hc.haltnHigh, n⟩
        ou := s.ou.force
        eq := { s.eq with flags := { s.eq.flags with halt := true } }
        mail :=
          { s.mail with
            haltOffers := s.mail.haltOffers ++ [.halt s.tb.time .pin]
            haltRequests := s.mail.haltRequests + 1 } } := by
  rw [takeFall_owed owed, haltEventTaken_eq .pin (by simpa using clear)]
  rfl

/-- A fall taken with the latch LATCHED is owed no more, and nothing else (R167). -/
theorem takeFall_latched {n : Nat} {cause : HaltCause} (owed : s.hc.fallsOwed = n + 1)
    (latch : s.hc.latch = some cause) : takeFall s = { s with hc := ⟨some cause, s.hc.haltnHigh, n⟩ } := by
  rw [takeFall_owed owed, haltEventTaken_latched .pin (by simpa using latch), ← latch]
  rfl

end Falls

/-! ## The handlers of HALT and RELEASE (R168, R171) -/

section Handlers

variable {s : State}

theorem haltTake_latched (a : Args) {cause : HaltCause} (latch : s.hc.latch = some cause) :
    haltTake a s = answer { code := .ok, w1 := 1 } s := by
  rw [haltTake, haltEventTaken_latched .command latch, latch]
  rfl

theorem haltTake_clear (a : Args) (clear : s.hc.latch = none) :
    haltTake a s = answer { code := .ok } (haltEventTaken .command s) := by
  rw [haltTake, clear]
  rfl

theorem releaseTake_low (a : Args) (low : s.hc.haltnHigh = false) :
    releaseTake a s = answer { code := .haltActive } s := by
  simp [releaseTake, low]

theorem releaseTake_clear (a : Args) (high : s.hc.haltnHigh = true) (clear : s.hc.latch = none) :
    releaseTake a s = answer { code := .wrongState } s := by
  simp [releaseTake, high, clear]

theorem releaseTake_latched (a : Args) {cause : HaltCause} (high : s.hc.haltnHigh = true)
    (latch : s.hc.latch = some cause) :
    releaseTake a s =
      answer { code := .ok, w1 := word cause.code } ((s.withHc { s.hc with latch := none }).withOu s.ou.lift) := by
  simp [releaseTake, high, latch]

end Handlers

end Sys2Proof.Machine

/-!
The statements of the family "Halt and release".
-/

namespace Sys2Proof.Proofs

open Sys2Proof.Machine Sys2Proof.Safety Sys2Proof.Stated

/-! ## What every step keeps (R122, R164, R169) -/

/-- Settles O8: a step is a command on the rest of the queue, and every command keeps the halting sound. -/
theorem stepKeepsHaltSound : Obligations.StepKeepsHaltSound := by
  intro s t hs h
  unfold step at h
  split at h
  · injection h with h
    exact h ▸ hs
  · rename_i c rest _
    exact t.halting_sound_iff.mp ((exec_haltStep h).sound ((s.withPending rest).halting_sound_iff.mpr hs))

/-- Settles O13, by what one command can do to the halting. -/
theorem latchChangesOnlyByItsOwnEvents : Obligations.LatchChangesOnlyByItsOwnEvents := by
  intro c s t h changed
  cases exec_haltStep h with
  | keeps latch => exact absurd latch changed
  | halts own clear => exact .inl ⟨clear, own⟩
  | releases own high after => exact .inr (.inl ⟨congrArg Halting.latch after, high, own⟩)
  | resets own => exact .inr (.inr own)

/-! ## Halt events, HALT and RELEASE (R165 to R168, R171) -/

/-- Settles O54: the parts of a fall by the HALTn level, the falls owed and the latch, then HALT and RELEASE by what
their handlers answer. -/
theorem haltAndReleaseOutcomes : Obligations.HaltAndReleaseOutcomes := by
  refine ⟨?_, fun s p ht => ⟨fun low => ?_, fun high clear => ?_, fun c high latch => ?_⟩⟩
  · intro s forced released written
    obtain rfl : forced = s.ou.force := written
    refine ⟨fun high => ⟨?_, ?_⟩, fun low => ⟨?_, ?_⟩, fun none => ?_, fun n owed => ⟨fun clear => ?_, fun c latch => ?_⟩,
      ?_, fun p ht => ⟨fun c latch => ?_, fun clear => ?_⟩⟩
    · exact event_released released (recogniseFall_high high)
    · have recognised : (recogniseFall s).hp.inReset = false := by rwa [recogniseFall_high high]
      rw [show exec (.haltEvent .recognise) s = .next (recogniseFall s) from event_released released rfl]
      exact (event_released released (if_pos high)).trans (event_released (f := haltEvent .take) recognised rfl).symm
    · exact event_released released (recogniseFall_low low)
    · exact event_released released (if_neg (by simp [low]))
    · exact event_released released (takeFall_none none)
    · exact event_released released (takeFall_clear owed clear)
    · exact event_released released (takeFall_latched owed latch)
    · exact event_released released rfl
    · exact exec_whole_refused ht (haltTake_latched _ latch)
    · refine (exec_whole_answered ht (haltTake_clear (s := s.accepted p 0x60) _ clear)).trans ?_
      rw [haltEventTaken_eq .command (by simpa using clear)]
      rfl
  · exact exec_whole_refused ht (releaseTake_low _ low)
  · exact exec_whole_refused ht (releaseTake_clear _ high clear)
  · refine (exec_whole_answered ht (releaseTake_latched (s := s.accepted p 0x61) _ high latch)).trans ?_
    simp only [State.withHc, State.withOu, OutputUnit.lift]
    rfl

end Sys2Proof.Proofs

/-!
Host commands at the port and at the engine (R175, R176, R181 to R183, R187, R188): which handler a command runs, what
its parts answer, and the words of a frame.
-/

namespace Sys2Proof.Machine

open Sys2Proof.Stated

/-! ## Commands while RESETn is asserted (R176; assumption log 17) -/

/-- Every command but the release, the assertion and a rise of CSn is one that RESETn holds off. -/
theorem exec_gated {c : Instr} (notRelease : ∀ haltn csn pins, c ≠ .powerOnReset haltn csn pins)
    (notAssertion : c ≠ .resetnAsserted) (notFrameEnd : c ≠ .frameEnd) :
    ∃ f, ∀ s, exec c s = unlessInReset s f := by
  cases c with
  | powerOnReset haltn csn pins => exact absurd rfl (notRelease haltn csn pins)
  | resetnAsserted => exact absurd rfl notAssertion
  | frameEnd => exact absurd rfl notFrameEnd
  | _ => exact ⟨_, fun _ => rfl⟩

theorem outPin_asserted {s : State} (asserted : s.hp.inReset = true) (k : Fin 16) : s.outPin k = false := by
  rw [State.outPin, asserted, Bool.not_true, Bool.false_and]

/-! ## The parts of a host command (R181, R182, R183, R187) -/

/-- The command runs the handler under the code, part by part. -/
def Runs (c : CmdStep → Instr) (code : Byte) (handler : Handler) : Prop :=
  ∀ part s, exec (c part) s = unlessInReset s (runCommand code handler part)

/-- Each command of section 11.4 runs a handler of its own under its code. -/
theorem hostCommands_run {pins : Pins} {sync : Bool} {x : Byte × (CmdStep → Instr)} (hx : x ∈ hostCommands pins sync) :
    ∃ handler, Runs x.2 x.1 handler := by
  fin_cases hx <;> exact ⟨_, fun _ _ => rfl⟩

/-- No part of a host command is an edge of RESETn. -/
theorem hostCommands_gated {pins : Pins} {sync : Bool} {x : Byte × (CmdStep → Instr)} (hx : x ∈ hostCommands pins sync)
    (part : CmdStep) : (∀ haltn csn pins, x.2 part ≠ .powerOnReset haltn csn pins) ∧ x.2 part ≠ .resetnAsserted := by
  fin_cases hx <;> exact ⟨nofun, nofun⟩

/-- A part of a host command leaves RESETn as it is (R176). -/
theorem hostCommands_inReset {pins : Pins} {sync : Bool} {x : Byte × (CmdStep → Instr)}
    (hx : x ∈ hostCommands pins sync) {part : CmdStep} {s t : State} (h : exec (x.2 part) s = .next t) :
    t.hp.inReset = s.hp.inReset := by
  obtain ⟨notRelease, notAssertion⟩ := hostCommands_gated hx part
  obtain kept | ⟨haltn, csn, pins, own⟩ | ⟨own, -⟩ := (exec_driveStep h).inReset_cases
  · exact kept
  · exact absurd own (notRelease haltn csn pins)
  · exact absurd own notAssertion

section Parts

variable {c : CmdStep → Instr} {code : Byte} {handler : Handler} (runs : Runs c code handler) {s : State}
include runs

theorem Runs.part {part : CmdStep} (released : s.hp.inReset = false) :
    exec (c part) s = .next (runCommand code handler part s) :=
  (runs part s).trans (unlessInReset_released _ released)

/-- A COMMAND write that the port carries is accepted in IDLE (R181). -/
theorem Runs.write_accepted {p : Port} (ht : TakesCommand s p) : exec (c .write) s = .next (s.accepted p code) := by
  obtain ⟨⟨released, carried⟩, idle⟩ := ht
  rw [runs.part released, (runCommand_carried code handler carried).1]
  exact congrArg _ (commandWrite_idle (s := s.withHp { s.hp with port := p }) idle code)

/-- With the engine not IDLE a COMMAND write is refused, whole or on its own (R182). -/
theorem Runs.refused {p : Port} {part : CmdStep} (served : ServesWrite s 0x07 p) (taken : s.ce.engine ≠ .idle)
    (own : part = .write ∨ part = .whole) :
    exec (c part) s = .next ((atPort s p).withEq s.eq.raiseRej) := by
  have refused : commandWrite code (atPort s p) = (atPort s p).withEq s.eq.raiseRej :=
    commandWrite_busy (s := atPort s p) taken code
  have whole : commandWhole code handler (atPort s p) = commandWrite code (atPort s p) := by
    cases engine : s.ce.engine with
    | idle => exact absurd engine taken
    | busy | committing => simp only [commandWhole, atPort, engine]
  rw [runs.part served.1, ← refused]
  obtain rfl | rfl := own
  · exact congrArg _ (runCommand_carried code handler served.2).1
  · exact congrArg _ ((runCommand_carried code handler served.2).2.trans whole)

/-- A COMMAND write that the port cannot carry is no event (assumption logs 4, 6). -/
theorem Runs.not_carried {part : CmdStep} (notCarried : s.hp.port.admitWrite 0x07 = none)
    (own : part = .write ∨ part = .whole) : exec (c part) s = .next s := by
  have same : runCommand code handler part s = s := by
    obtain rfl | rfl := own
    · exact (runCommand_not_carried code handler notCarried).1
    · exact (runCommand_not_carried code handler notCarried).2
  rw [runs part s, unlessInReset, same, ite_self]

/-- The completion of the command in progress (R183). -/
theorem Runs.completes {a : Args} {r : Reply} (released : s.hp.inReset = false)
    (answered : s.ce.engine = .busy code a (.answered r)) : exec (c .complete) s = .next (complete code r s) := by
  rw [runs.part released, runCommand, commandComplete, answered]
  exact congrArg _ (if_pos rfl)

/-- A command accepted whole is taken and completed in the state in which it was accepted. -/
theorem Runs.whole_accepted {p : Port} (ht : TakesCommand s p) :
    exec (c .whole) s = .next (commandComplete code (commandTake code handler (s.accepted p code))) := by
  obtain ⟨⟨released, carried⟩, idle⟩ := ht
  have accepted : commandWrite code (s.withHp { s.hp with port := p }) = s.accepted p code :=
    commandWrite_idle (s := s.withHp { s.hp with port := p }) idle code
  rw [runs.part released, (runCommand_carried code handler carried).2, commandWhole, State.withHp_ce, idle, accepted]

end Parts

/-! ## Frames (R175, R188) -/

theorem headerByte_ready {s : State} (b : Byte) (ready : s.hp.port = .ready) :
    headerByte b s = atPort s (.frame (b.getLsbD 7) (b.getLsbD 6) (b.extractLsb' 0 6)) := by
  rw [headerByte, ready]
  rfl

theorem headerByte_not_ready {s : State} (b : Byte) (taken : s.hp.port ≠ .ready) : headerByte b s = s := by
  unfold headerByte
  split
  · rename_i ready
    exact absurd ready taken
  · rfl

/-- A write frame carries a write of its current address, and moves on from it (R175). -/
theorem Port.admitWrite_current (autoInc : Bool) (a : Addr) :
    (Port.frame false autoInc a).admitWrite a = some (.frame false autoInc (nextAddr autoInc a)) := by
  simp [Port.admitWrite]

/-- A write frame carries no write of another address (R175). -/
theorem Port.admitWrite_other {a cur : Addr} (autoInc : Bool) (other : a ≠ cur) :
    (Port.frame false autoInc cur).admitWrite a = none := by
  simp [Port.admitWrite, other.symm]

theorem State.readWord?_no_frame {s : State} (noFrame : ∀ autoInc a, s.hp.port ≠ .frame true autoInc a) :
    s.readWord? = none := by
  unfold State.readWord?
  split
  · rename_i autoInc a frame
    exact absurd frame (noFrame autoInc a)
  · rfl

/-- A read frame reaches TIME0 by auto-increment, or when it stands at it already (R175). -/
theorem time0Read_frame {s : State} {autoInc : Bool} {a : Addr} (frame : s.hp.port = .frame true autoInc a)
    (reaches : autoInc = true ∨ a = 0x17) : time0Read s = (s.readWords ((0x17 - a).toNat + 1)).2 := by
  have reached : (autoInc || a == 0x17) = true := by simpa using reaches
  simp only [time0Read, frame, reached, if_true]

end Sys2Proof.Machine

/-!
The resets (R12, R108, R137, R148, R162, R173, R185, R186): the halt actions on a store without entries, and what the
re-latch leaves of each block.
-/

namespace Sys2Proof.Machine

/-! ## Halt actions on a store without entries (R108, R118) -/

/-- No entry lies in the agenda, in a held list or in a parked set. -/
structure Store.Vacant (st : Store) : Prop where
  agenda : st.agenda = []
  held : st.held = Vector.replicate 12 []
  parked : st.parked = Vector.replicate 16 []

/-- The group record with its suspended flag set if the group is in the list and suspends at a halt. -/
def GroupRecord.haltedIn (gs : List (Fin 16)) (g : Fin 16) (r : GroupRecord) : GroupRecord :=
  { r with suspended := r.suspended || decide (g ∈ gs ∧ r.haltAction = .suspend) }

theorem GroupRecord.haltedIn_other {g i : Fin 16} (gs : List (Fin 16)) (r : GroupRecord) (other : i ≠ g) :
    r.haltedIn (g :: gs) i = r.haltedIn gs i := by
  simp [GroupRecord.haltedIn, other]

theorem GroupRecord.haltedIn_keeps {r : GroupRecord} (gs : List (Fin 16)) (g : Fin 16)
    (keeps : r.haltAction ≠ .suspend) : r.haltedIn gs g = r := by
  simp [GroupRecord.haltedIn, keeps]

theorem GroupRecord.haltedIn_suspends {r : GroupRecord} (gs : List (Fin 16)) (g : Fin 16)
    (suspends : r.haltAction = .suspend) :
    r.haltedIn (g :: gs) g = GroupRecord.haltedIn gs g { r with suspended := true } := by
  simp [GroupRecord.haltedIn, suspends]

/-- The store with the flags set that the halt actions of these groups set (R113, R118). -/
def Store.flagged (st : Store) (gs : List (Fin 16)) : Store :=
  { st with groups := mapBank st.groups (GroupRecord.haltedIn gs) }

@[simp] theorem Store.flagged_gens (st : Store) (gs : List (Fin 16)) : (st.flagged gs).gens = st.gens := by
  simp only [Store.flagged]
@[simp] theorem Store.flagged_free (st : Store) (gs : List (Fin 16)) : (st.flagged gs).free = st.free := by
  simp only [Store.flagged]
@[simp] theorem Store.flagged_reserved (st : Store) (gs : List (Fin 16)) : (st.flagged gs).reserved = st.reserved := by
  simp only [Store.flagged]
@[simp] theorem Store.flagged_agenda (st : Store) (gs : List (Fin 16)) : (st.flagged gs).agenda = st.agenda := by
  simp only [Store.flagged]
@[simp] theorem Store.flagged_held (st : Store) (gs : List (Fin 16)) : (st.flagged gs).held = st.held := by
  simp only [Store.flagged]
@[simp] theorem Store.flagged_parked (st : Store) (gs : List (Fin 16)) : (st.flagged gs).parked = st.parked := by
  simp only [Store.flagged]

theorem Store.flagged_group (st : Store) (gs : List (Fin 16)) (g : Fin 16) :
    (st.flagged gs).groups[g] = st.groups[g].haltedIn gs g := by
  rw [Store.flagged, getElem_fin_mapBank]

theorem Store.flagged_nil (st : Store) : st.flagged [] = st := by
  have same : (st.flagged []).groups = st.groups := bank_ext fun g => by
    rw [Store.flagged_group]
    simp [GroupRecord.haltedIn]
  exact congrArg (fun groups => { st with groups := groups }) same

/-- A group that does not suspend at a halt keeps its flag. -/
theorem Store.flagged_cons_keeps {st : Store} {g : Fin 16} (gs : List (Fin 16))
    (keeps : st.groups[g].haltAction ≠ .suspend) : st.flagged (g :: gs) = st.flagged gs := by
  have same : (st.flagged (g :: gs)).groups = (st.flagged gs).groups := bank_ext fun i => by
    rw [Store.flagged_group, Store.flagged_group]
    by_cases here : i = g
    · subst here
      rw [GroupRecord.haltedIn_keeps _ _ keeps, GroupRecord.haltedIn_keeps _ _ keeps]
    · exact GroupRecord.haltedIn_other gs _ here
  exact congrArg (fun groups => { st with groups := groups }) same

theorem Store.flagged_cons_suspends {st : Store} {g : Fin 16} (gs : List (Fin 16))
    (suspends : st.groups[g].haltAction = .suspend) : st.flagged (g :: gs) = (st.setSuspended g true).flagged gs := by
  have same : (st.flagged (g :: gs)).groups = ((st.setSuspended g true).flagged gs).groups := bank_ext fun i => by
    rw [Store.flagged_group, Store.flagged_group, Store.setSuspended, getElem_fin_set]
    by_cases here : i = g
    · subst here
      rw [if_pos rfl, GroupRecord.haltedIn_suspends gs i suspends]
    · rw [if_neg here, GroupRecord.haltedIn_other gs _ here]
  exact congrArg (fun groups => { st with groups := groups }) same

section Vacant

variable {st : Store} (vacant : st.Vacant)
include vacant

theorem Store.Vacant.flagged (gs : List (Fin 16)) : (st.flagged gs).Vacant :=
  ⟨by simp [vacant.agenda], by simp [vacant.held], by simp [vacant.parked]⟩

theorem Store.Vacant.held_at (i : Fin 12) : st.held[i] = [] := by simp [vacant.held]

theorem Store.Vacant.parked_at (g : Fin 16) : st.parked[g] = [] := by simp [vacant.parked]

theorem Store.Vacant.membersOf (g : Fin 16) : st.membersOf g = [] := by
  obtain ⟨agenda, held, parked⟩ := vacant
  simp [Store.membersOf, Store.pendingOf, Store.heldOf, Store.heldEntries, agenda, held, parked]

/-- The cancel of a group frees nothing. -/
theorem Store.Vacant.cancelGroup (reason : DoneReason) (g : Fin 16) : st.cancelGroup reason g = (st, []) := by
  have members := vacant.membersOf g
  obtain ⟨agenda, held, parked⟩ := vacant
  have heldKept : (mapBank st.held fun _ l => l.filter fun h => !h.live.inGroup g) = st.held :=
    bank_ext fun i => by simp [held]
  have parkedKept : st.parked.set g [] = st.parked := by simp [parked]
  rw [Store.cancelGroup, members, heldKept, parkedKept, agenda, List.filter_nil, ← agenda, Store.freeLives]

/-- The suspension of a group parks nothing. -/
theorem Store.Vacant.suspendGroup (now : Time) (g : Fin 16) : st.suspendGroup now g = st.setSuspended g true := by
  obtain ⟨agenda, held, parked⟩ := vacant
  unfold Store.suspendGroup
  split
  · rename_i suspended
    have same : (st.setSuspended g true).groups = st.groups := bank_ext fun i => by
      rw [Store.setSuspended, getElem_fin_set]
      split
      · rename_i here
        subst here
        rw [← suspended, Store.suspended]
      · rfl
    exact (congrArg (fun groups => { st with groups := groups }) same).symm
  · have parkedKept : st.parked.set g (st.parked[g] ++ []) = st.parked := by simp
    simp only [Store.pendingOf, agenda, List.filter_nil, List.map_nil, parkedKept]
    rw [← agenda]

/-- The halt actions set flags, and nothing else (R118). -/
theorem Store.Vacant.haltGroups (now : Time) (gs : List (Fin 16)) : st.haltGroups now gs = (st.flagged gs, []) := by
  induction gs generalizing st with
  | nil => rw [Store.haltGroups, Store.flagged_nil]
  | cons g gs ih =>
    cases action : st.groups[g].haltAction with
    | keep => rw [Store.haltGroups_keep now gs action, ih vacant, Store.flagged_cons_keeps gs (by rw [action]; nofun)]
    | cancel =>
      rw [Store.haltGroups_cancel now gs action, vacant.cancelGroup, ih vacant,
        Store.flagged_cons_keeps gs (by rw [action]; nofun)]
      rfl
    | suspend =>
      rw [Store.haltGroups_suspend now gs action, vacant.suspendGroup, Store.flagged_cons_suspends gs action]
      exact ih ⟨vacant.agenda, vacant.held, vacant.parked⟩

end Vacant

theorem Store.softReset_vacant (st : Store) : st.softReset.Vacant := ⟨rfl, rfl, rfl⟩

/-! ## The re-latch on a store without entries (R173) -/

/-- The groups whose halt actions a reset takes: all of them with HALTn low, none with HALTn high (R173). -/
def haltedAtReset (haltnHigh : Bool) : List (Fin 16) := if haltnHigh then [] else List.finRange 16

/-- The halt event of a reset, taken in its own step when HALTn is low; nothing when it is high (R173; assumption
log 13). -/
theorem relatch_vacant {s : State} (vacant : s.store.Vacant) :
    relatch s =
      { s with
        store := s.store.flagged (haltedAtReset s.hc.haltnHigh)
        ou := bif s.hc.haltnHigh then s.ou else s.ou.force
        eq := bif s.hc.haltnHigh then s.eq else (s.eq.raiseHalt.offer (.halt s.tb.time .pin)).1
        hc := bif s.hc.haltnHigh then s.hc else { s.hc with latch := some .pin } } := by
  cases level : s.hc.haltnHigh with
  | true =>
    rw [relatch_high level, haltedAtReset, if_pos rfl, Store.flagged_nil]
    rfl
  | false =>
    have walk := vacant.haltGroups (latchHalt .pin s).tb.time (List.finRange 16)
    rw [← (latchHalt_leavesPool .pin s).1] at walk
    have acted : applyHaltActions (latchHalt .pin s) =
        (latchHalt .pin s).withStore (s.store.flagged (haltedAtReset false)) := by
      rw [applyHaltActions, walk, offerStore, List.append_nil, (latchHalt_leavesPool .pin s).1]
      rfl
    rw [relatch_low level, acted]
    simp only [latchHalt, State.withStore, State.withEq, State.withOu, State.withHc, cond_false, level]

/-! ## The soft reset, block by block -/

theorem CommandEngine.softReset_eq (ce : CommandEngine) :
    ce.softReset =
      { ce with
        engine := .idle
        result :=
          ⟨match ce.engine with | .idle => 0 | .busy c _ _ => c | .committing _ => 0x03, { code := .reset }⟩
        staging := []
        handles := []
        hsel := 0 } := by
  cases engine : ce.engine <;> simp only [CommandEngine.softReset, endedCommand, engine, commitCode]

/-- A soft reset advances the generation of each slot that holds an entry; the re-latch advances none (R12). -/
theorem Store.softReset_flagged_gen (st : Store) (gs : List (Fin 16)) (k : Fin 128) :
    (st.softReset.flagged gs).gens[k] = if (st.find? k).isSome then st.gens[k] + 1 else st.gens[k] := by
  simp only [Store.flagged_gens]
  rw [Store.softReset, getElem_fin_mapBank, Store.isLive]

/-- The group records after a soft reset with its re-latch (R108, R173). -/
theorem Store.softReset_flagged_group (st : Store) (haltnHigh : Bool) (g : Fin 16) :
    (st.softReset.flagged (haltedAtReset haltnHigh)).groups[g].haltAction = st.groups[g].haltAction ∧
      ((st.softReset.flagged (haltedAtReset haltnHigh)).groups[g].suspended = true ↔
        haltnHigh = false ∧ st.groups[g].haltAction = .suspend) := by
  rw [Store.flagged_group, Store.softReset, getElem_fin_mapBank]
  cases haltnHigh <;> simp [GroupRecord.haltedIn, haltedAtReset]

/-- The halt forcing of a line that a soft reset has put at its safe level masks it if it is a halt member (R134). -/
theorem LineRecord.forced_atSafeLevel (l : LineRecord) :
    LineRecord.forced { l with level := l.safeLevel, pulse := none, masked := false, ending := false } =
      { l with level := l.safeLevel, pulse := none, masked := l.haltMember, ending := false } := by
  obtain ⟨mode, level, pulse, safeLevel, haltMember, masked, ending⟩ := l
  cases haltMember <;> rfl

/-- An output line after a soft reset with its re-latch (R137, R173). -/
theorem OutputUnit.softReset_relatched_line (u : OutputUnit) (haltnHigh : Bool) (k : Fin 16) :
    (bif haltnHigh then u.softReset else u.softReset.force).lines[k] =
      { u.lines[k] with
        level := u.lines[k].safeLevel
        pulse := none
        masked := !haltnHigh && u.lines[k].haltMember
        ending := false } := by
  cases haltnHigh with
  | true => exact u.softReset_line k
  | false =>
    rw [cond_false, OutputUnit.force_line, OutputUnit.softReset_line]
    exact u.lines[k].forced_atSafeLevel

/-- The registers of the Output Unit after a soft reset with its re-latch (R137, R173). -/
theorem OutputUnit.softReset_relatched_frame (u : OutputUnit) (haltnHigh : Bool) :
    (∀ k : Fin 16, (bif haltnHigh then u.softReset else u.softReset.force).direct.getLsbD k = u.lines[k].safeLevel) ∧
      (bif haltnHigh then u.softReset else u.softReset.force).lastTick = u.lastTick ∧
      (bif haltnHigh then u.softReset else u.softReset.force).forced = !haltnHigh := by
  have safe : ∀ k : Fin 16, u.softReset.direct.getLsbD k = u.lines[k].safeLevel := fun k => by
    simp [OutputUnit.softReset]
  have lastTick : u.softReset.lastTick = u.lastTick := by simp only [OutputUnit.softReset]
  have lifted : u.softReset.forced = false := by simp only [OutputUnit.softReset]
  cases haltnHigh with
  | true => exact ⟨safe, lastTick, lifted⟩
  | false =>
    rw [cond_false, OutputUnit.force_direct, OutputUnit.force_lastTick, OutputUnit.force_forced]
    exact ⟨safe, lastTick, rfl⟩

theorem InputUnit.softReset_line (u : InputUnit) (pins : Pins) (k : Fin 8) :
    (u.softReset pins).lines[k] =
      { u.lines[k] with accepted := pins.getLsbD k, candidate := none, spanStart := none, missed := false } := by
  rw [InputUnit.softReset, getElem_fin_mapBank]
  rfl

/-- The Event Queue after a soft reset with its re-latch: the HALT record is its one record (R162, R173). -/
theorem EventQueue.softReset_relatched (q : EventQueue) (haltnHigh : Bool) (r : EventRecord) :
    (bif haltnHigh then q.softReset else (q.softReset.raiseHalt.offer r).1) =
      { q with
        records := if haltnHigh then [] else [r]
        flags := ⟨!haltnHigh && decide (q.threshold = 1), false, false, false, !haltnHigh⟩ } := by
  cases haltnHigh with
  | true => rfl
  | false =>
    have room : q.softReset.raiseHalt.records.length < 63 := Nat.zero_lt_succ 62
    rw [cond_false, EventQueue.offer_stored r room]
    simp [EventQueue.softReset, EventQueue.raiseHalt, IrqBits.zero, eq_comm]

/-- The soft reset with its re-latch, in one step (R173, R185). -/
theorem relatch_softResetValues (pins : Pins) (s : State) :
    relatch (softResetValues pins s) =
      { s with
        store := s.store.softReset.flagged (haltedAtReset s.hc.haltnHigh)
        ce := s.ce.softReset
        ou := bif s.hc.haltnHigh then s.ou.softReset else s.ou.softReset.force
        iu := s.iu.softReset pins
        eq :=
          { s.eq with
            records := if s.hc.haltnHigh then [] else [.halt s.tb.time .pin]
            flags := ⟨!s.hc.haltnHigh && decide (s.eq.threshold = 1), false, false, false, !s.hc.haltnHigh⟩ }
        hc := { s.hc with latch := if s.hc.haltnHigh then none else some .pin } } := by
  rw [relatch_vacant (s := softResetValues pins s) s.store.softReset_vacant]
  simp only [softResetValues, EventQueue.softReset_relatched]
  cases s.hc.haltnHigh <;> rfl

end Sys2Proof.Machine

/-!
The register window as it is read (R84, R123, R154, R177, R178, R180, R183): the fields of a word, STATUS, the event
window for each kind of record, and the addresses that read 0.
-/

namespace Sys2Proof.Machine

/-! ## Numbers in words -/

theorem word_toNat {n : Nat} (fits : n < 2 ^ 16) : (word n).toNat = n := by
  rw [word, BitVec.toNat_ofNat, Nat.mod_eq_of_lt fits]

theorem bitNat_lt (b : Bool) : bitNat b < 2 := by cases b <;> decide

theorem bitNat_eq_one (b : Bool) : decide (bitNat b = 1) = b := by cases b <;> rfl

theorem ResultCode.toNat_lt (c : ResultCode) : c.toNat < 15 := by cases c <;> decide

theorem getLsbD_eq_div (w : Word) (i : Nat) : w.getLsbD i = decide (w.toNat / 2 ^ i % 2 = 1) := by
  rw [BitVec.getLsbD, Nat.testBit_eq_decide_div_mod_eq]

theorem extractLsb'_toNat_eq_div (w : Word) (i n : Nat) : (w.extractLsb' i n).toNat = w.toNat / 2 ^ i % 2 ^ n := by
  rw [BitVec.extractLsb'_toNat, Nat.shiftRight_eq_div_pow]

/-- A handle as its number, slot × 16 + generation (R11). -/
theorem Handle.toWord_toNat (h : Handle) : h.toWord.toNat = h.slot.val * 16 + h.gen.toNat := by
  have slot := h.slot.isLt
  have gen := h.gen.isLt
  exact word_toNat (by omega)

/-- A handle with a group number above it (R180). -/
theorem Handle.toWord_add_group (h : Handle) (g : Fin 16) :
    (h.toWord + word (4096 * g.val)).toNat = h.slot.val * 16 + h.gen.toNat + 4096 * g.val := by
  have slot := h.slot.isLt
  have gen := h.gen.isLt
  have group := g.isLt
  rw [BitVec.toNat_add, h.toWord_toNat, word_toNat (by omega)]
  omega

/-- The three words of a 48-bit value (R180). -/
theorem words_of_48 (x : BitVec 48) : x.extractLsb' 32 16 ++ x.extractLsb' 16 16 ++ x.extractLsb' 0 16 = x := by
  have high : x.extractLsb' 32 16 ++ x.extractLsb' 16 16 = x.extractLsb' 16 32 :=
    BitVec.extractLsb'_append_extractLsb'_eq_extractLsb' rfl
  have all : x.extractLsb' 16 32 ++ x.extractLsb' 0 16 = x.extractLsb' 0 48 :=
    BitVec.extractLsb'_append_extractLsb'_eq_extractLsb' rfl
  rw [high, all]
  exact BitVec.extractLsb'_eq_self

/-! ## STATUS (R178) -/

/-- The fields of a word that is made like STATUS. -/
theorem status_fields {w : Word} {engine staged clock trim latched cause level : Nat}
    (hengine : engine < 4) (hstaged : staged < 32) (hclock : clock < 4) (htrim : trim < 2)
    (hlatched : latched < 2) (hcause : cause < 4) (hlevel : level < 2)
    (value : w.toNat =
      engine + 4 * staged + 128 * clock + 512 * trim + 1024 * latched + 2048 * cause + 8192 * level) :
    (w.extractLsb' 0 2).toNat = engine ∧ (w.extractLsb' 2 5).toNat = staged ∧ (w.extractLsb' 7 2).toNat = clock ∧
      w.getLsbD 9 = decide (trim = 1) ∧ w.getLsbD 10 = decide (latched = 1) ∧ (w.extractLsb' 11 2).toNat = cause ∧
      w.getLsbD 13 = decide (level = 1) ∧ w.extractLsb' 14 2 = 0 := by
  have top : (w.extractLsb' 14 2).toNat = 0 := by rw [extractLsb'_toNat_eq_div, value]; omega
  simp only [extractLsb'_toNat_eq_div, getLsbD_eq_div, value, decide_eq_decide]
  refine ⟨?_, ?_, ?_, ?_, ?_, ?_, ?_, BitVec.eq_of_toNat_eq top⟩ <;> omega

theorem Engine.code_eq (e : Engine) : e.code = match e with | .idle => 0 | .busy .. => 1 | .committing _ => 2 := by
  cases e <;> rfl

theorem Engine.code_lt (e : Engine) : e.code < 4 := by cases e <;> simp [Engine.code]

theorem Clock.code_eq (c : Clock) : c.code = match c with | .stopped => 0 | .armed _ => 1 | .running _ => 2 := by
  cases c <;> rfl

theorem Clock.code_lt (c : Clock) : c.code < 4 := by cases c <;> simp [Clock.code]

/-- The cause field of STATUS, 0 while the latch is CLEAR (R178). -/
def latchCode (latch : Option HaltCause) : Nat := (latch.map HaltCause.code).getD 0

theorem latchCode_eq (latch : Option HaltCause) :
    latchCode latch = match latch with | none => 0 | some .pin => 1 | some .command => 2 := by
  obtain _ | _ | _ := latch <;> rfl

theorem latchCode_lt (latch : Option HaltCause) : latchCode latch < 4 := by
  obtain _ | _ | _ := latch <;> decide

/-- The number that STATUS shows (R178). -/
def State.statusNumber (s : State) : Nat :=
  s.ce.engine.code + 4 * s.ce.staging.length + 128 * s.tb.clock.code + 512 * bitNat s.tb.pendingTrim.isSome +
    1024 * bitNat s.hc.latch.isSome + 2048 * latchCode s.hc.latch + 8192 * bitNat s.hc.haltnHigh

theorem State.readReg_status_eq (s : State) : s.readReg 0x01 = word s.statusNumber := by
  have shown : s.readReg 0x01 = s.status := rfl
  rw [shown, State.status, State.statusNumber]
  cases s.hc.latch <;> rfl

theorem State.statusNumber_lt {s : State} (fits : s.ce.staging.length ≤ 16) : s.statusNumber < 2 ^ 16 := by
  have engine := s.ce.engine.code_lt
  have clock := s.tb.clock.code_lt
  have trim := bitNat_lt s.tb.pendingTrim.isSome
  have latched := bitNat_lt s.hc.latch.isSome
  have cause := latchCode_lt s.hc.latch
  have level := bitNat_lt s.hc.haltnHigh
  rw [State.statusNumber]
  omega

/-- STATUS, field by field (R178). -/
theorem State.readReg_status {s : State} (fits : s.ce.staging.length ≤ 16) :
    ((s.readReg 0x01).extractLsb' 0 2).toNat =
        (match s.ce.engine with | .idle => 0 | .busy .. => 1 | .committing _ => 2) ∧
      ((s.readReg 0x01).extractLsb' 2 5).toNat = s.ce.staging.length ∧
      ((s.readReg 0x01).extractLsb' 7 2).toNat =
        (match s.tb.clock with | .stopped => 0 | .armed _ => 1 | .running _ => 2) ∧
      (s.readReg 0x01).getLsbD 9 = s.tb.pendingTrim.isSome ∧ (s.readReg 0x01).getLsbD 10 = s.hc.latch.isSome ∧
      ((s.readReg 0x01).extractLsb' 11 2).toNat =
        (match s.hc.latch with | none => 0 | some .pin => 1 | some .command => 2) ∧
      (s.readReg 0x01).getLsbD 13 = s.hc.haltnHigh ∧ (s.readReg 0x01).extractLsb' 14 2 = 0 := by
  have value : (s.readReg 0x01).toNat = s.statusNumber := by
    rw [s.readReg_status_eq, word_toNat (State.statusNumber_lt fits)]
  have fields := status_fields s.ce.engine.code_lt (by omega) s.tb.clock.code_lt (bitNat_lt s.tb.pendingTrim.isSome)
    (bitNat_lt s.hc.latch.isSome) (latchCode_lt s.hc.latch) (bitNat_lt s.hc.haltnHigh) value
  simp only [bitNat_eq_one] at fields
  rw [Engine.code_eq, Clock.code_eq, latchCode_eq] at fields
  exact fields

/-! ## The event window (R154, R180) -/

/-- The window shows the words of the record at the head, and 0 when the queue is empty (R154). -/
theorem State.readReg_window (s : State) {n : Nat} (hn : n < 8) :
    s.readReg (BitVec.ofNat 6 (0x38 + n)) = (s.eq.records.head?.map (·.window n)).getD 0 := by
  have shown : s.readReg (BitVec.ofNat 6 (0x38 + n)) =
      match s.eq.records with
      | r :: _ => r.window n
      | [] => 0 := by
    interval_cases n <;> rfl
  rw [shown]
  cases s.eq.records <;> rfl

section Word0

variable {h : Handle} {g : Fin 16} {tag : BitVec 8} {time width : Time} {k : Fin 8} {n : Nat} {flag level : Bool}

/-- A tag above the low byte of a word (R180). -/
theorem tagged_word_toNat (low : Nat) (fits : low < 2 ^ 8) :
    (word (low + 256 * tag.toNat)).toNat = low + 256 * tag.toNat := by
  have above := tag.isLt
  exact word_toNat (by omega)

theorem EventRecord.word0_fired :
    (EventRecord.fired h g tag time flag).word0.toNat = 1 + 16 * bitNat flag + 256 * tag.toNat := by
  have bit := bitNat_lt flag
  exact tagged_word_toNat (1 + 16 * bitNat flag) (by omega)

theorem EventRecord.word0_late :
    (EventRecord.late h g tag time n flag).word0.toNat = 2 + 16 * bitNat flag + 256 * tag.toNat := by
  have bit := bitNat_lt flag
  exact tagged_word_toNat (2 + 16 * bitNat flag) (by omega)

theorem EventRecord.word0_skipped : (EventRecord.skipped h g tag time n).word0.toNat = 3 + 256 * tag.toNat :=
  tagged_word_toNat 3 (by decide)

theorem EventRecord.word0_done {reason : DoneReason} :
    (EventRecord.done h g tag reason n flag).word0.toNat =
      4 + 16 * bitNat flag + 64 * (match reason with | .finished => 1 | .cancelled => 2 | .halted => 3) +
        256 * tag.toNat := by
  have bit := bitNat_lt flag
  cases reason with
  | finished => exact tagged_word_toNat (4 + 16 * bitNat flag + 64 * 1) (by omega)
  | cancelled => exact tagged_word_toNat (4 + 16 * bitNat flag + 64 * 2) (by omega)
  | halted => exact tagged_word_toNat (4 + 16 * bitNat flag + 64 * 3) (by omega)

theorem EventRecord.word0_edge :
    (EventRecord.edge k level time flag).word0.toNat = 5 + 16 * bitNat flag + 32 * bitNat level := by
  cases flag <;> cases level <;> rfl

theorem EventRecord.word0_span :
    (EventRecord.span k level time width flag).word0.toNat = 6 + 16 * bitNat flag + 32 * bitNat level := by
  cases flag <;> cases level <;> rfl

theorem EventRecord.word0_halt {cause : HaltCause} :
    (EventRecord.halt time cause).word0.toNat = 7 + 64 * (match cause with | .pin => 1 | .command => 2) := by
  cases cause <;> rfl

end Word0

/-- EVW1 to EVW3 make up the time of the record (R180). -/
theorem EventRecord.window_time (r : EventRecord) : r.window 3 ++ r.window 2 ++ r.window 1 = r.timeField :=
  words_of_48 r.timeField

/-- EVW4 to EVW6 make up the quantity of the record (R180). -/
theorem EventRecord.window_quantity (r : EventRecord) : r.window 6 ++ r.window 5 ++ r.window 4 = r.quantity :=
  words_of_48 r.quantity

/-! ## The addresses of the window (R177) -/

/-- The addresses that are no registers, and those that are only written. -/
theorem State.readReg_unreadable (s : State) {a : Addr}
    (h : a = 0x02 ∨ a = 0x07 ∨ a = 0x34 ∨ a = 0x37 ∨ (0x1A ≤ a.toNat ∧ a.toNat ≤ 0x1F) ∨
      (0x31 ≤ a.toNat ∧ a.toNat ≤ 0x33)) : s.readReg a = 0 := by
  have listed : ∀ a : Addr, (a = 0x02 ∨ a = 0x07 ∨ a = 0x34 ∨ a = 0x37 ∨ (0x1A ≤ a.toNat ∧ a.toNat ≤ 0x1F) ∨
      (0x31 ≤ a.toNat ∧ a.toNat ≤ 0x33)) →
      a ∈ [0x02, 0x07, 0x34, 0x37, 0x1A, 0x1B, 0x1C, 0x1D, 0x1E, 0x1F, 0x31, 0x32, 0x33] := by decide
  have h' := listed a h
  fin_cases h' <;> rfl

theorem State.readReg_composer (s : State) {n : Nat} (hn : n ≤ 16) {a : Addr} (h : a.toNat = 0x20 + n) :
    s.readReg a = s.ce.composer.read n := by
  obtain rfl : a = BitVec.ofNat 6 (0x20 + n) := BitVec.eq_of_toNat_eq (by rw [h, BitVec.toNat_ofNat]; omega)
  interval_cases n <;> rfl

/-- With no record in the queue the event window reads 0 (R154). -/
theorem State.readReg_window_empty {s : State} (empty : s.eq.records = []) {a : Addr} (h : 0x38 ≤ a.toNat) :
    s.readReg a = 0 := by
  have top := a.isLt
  have address : a = BitVec.ofNat 6 (0x38 + (a.toNat - 0x38)) :=
    BitVec.eq_of_toNat_eq (by rw [BitVec.toNat_ofNat]; omega)
  rw [address, s.readReg_window (by omega), empty]
  rfl

section Registers

variable {s : State}

/-- RESULT0 (R183). -/
theorem State.readReg_result0 (s : State) :
    (s.readReg 0x08).toNat = s.ce.result.reply.code.toNat + 256 * s.ce.result.command.toNat := by
  have code := s.ce.result.reply.code.toNat_lt
  have command := s.ce.result.command.isLt
  exact word_toNat (by omega)

/-- POOL (R178). -/
theorem State.readReg_pool (free : s.store.free.length < 256) (agenda : s.store.agenda.length < 256) :
    (s.readReg 0x0F).toNat = s.store.free.length + 256 * s.store.agenda.length :=
  word_toNat (by omega)

/-- HSEL, with the number of handles above it (R84). -/
theorem State.readReg_hsel (fits : s.ce.handles.length ≤ 16) :
    (s.readReg 0x10).toNat = s.ce.hsel.toNat + 256 * s.ce.handles.length := by
  have hsel := s.ce.hsel.isLt
  exact word_toNat (by omega)

/-- HANDLE below the number of handles (R84). -/
theorem State.readReg_handle {h : Handle} (selected : s.ce.handles[s.ce.hsel.toNat]? = some h) :
    (s.readReg 0x11).toNat = h.slot.val * 16 + h.gen.toNat := by
  have shown : s.readReg 0x11 = s.ce.handleAt := rfl
  rw [shown, CommandEngine.handleAt, selected]
  exact h.toWord_toNat

/-- HANDLE at or above the number of handles (R84). -/
theorem State.readReg_handle_none (above : s.ce.handles.length ≤ s.ce.hsel.toNat) : s.readReg 0x11 = 0xFFFF := by
  have shown : s.readReg 0x11 = s.ce.handleAt := rfl
  rw [shown, CommandEngine.handleAt, List.getElem?_eq_none above]

/-- The levels of the output lines (R123). -/
theorem State.readReg_levels (s : State) (k : Fin 16) : (s.readReg 0x13).getLsbD k = s.ou.lines[k].level := by
  have shown : s.readReg 0x13 = BitVec.ofFnLE fun k : Fin 16 => s.ou.lines[k].level := rfl
  rw [shown]
  simp

/-- The accepted input levels, with the missed flags above them (R178). -/
theorem State.readReg_inputs (s : State) (k : Fin 8) :
    (s.readReg 0x14).getLsbD k = s.iu.lines[k].accepted ∧
      (s.readReg 0x14).getLsbD (8 + k.val) = s.iu.lines[k].missed := by
  have shown : s.readReg 0x14 =
      (BitVec.ofFnLE fun k : Fin 8 => s.iu.lines[k].missed) ++
        (BitVec.ofFnLE fun k : Fin 8 => s.iu.lines[k].accepted) := rfl
  have below := k.isLt
  rw [shown, BitVec.getLsbD_append, BitVec.getLsbD_append]
  simp [below]

/-- COUNT (R178). -/
theorem State.readReg_count (fits : s.eq.records.length ≤ 64) : (s.readReg 0x35).toNat = s.eq.records.length :=
  word_toNat (by omega)

end Registers

end Sys2Proof.Machine

/-!
The statements of the family "The host port and the command engine".
-/

namespace Sys2Proof.Proofs

open Sys2Proof.Machine Sys2Proof.Safety Sys2Proof.Stated

/-- Settles O17: every command that is left is held off by RESETn. -/
theorem nothingTakenWhileResetAsserted : Obligations.NothingTakenWhileResetAsserted := by
  intro s asserted
  refine ⟨fun c notRelease notAssertion notFrameEnd => ?_, outPin_asserted asserted, ?_⟩
  · obtain ⟨f, gated⟩ := exec_gated notRelease notAssertion notFrameEnd
    rw [gated, unlessInReset_asserted f asserted]
  · rw [State.irqAsserted, asserted, Bool.not_true, Bool.false_and]

/-- Settles O18, by the engine's state and by whether the port carries the write. -/
theorem commandWriteAcceptedOrRefused : Obligations.CommandWriteAcceptedOrRefused := by
  intro pins sync x hx s
  obtain ⟨handler, runs⟩ := hostCommands_run hx
  exact ⟨fun p ht => runs.write_accepted ht, fun p served taken part own => runs.refused served taken own,
    fun notCarried part own => runs.not_carried notCarried own⟩

/-- Settles O19: the taking and the completion of a whole command start where the parts before them end. -/
theorem commandIsItsThreeParts : Obligations.CommandIsItsThreeParts := by
  intro pins sync x hx s
  obtain ⟨handler, runs⟩ := hostCommands_run hx
  refine ⟨fun a r released answered => runs.completes released answered, fun p ht => ?_⟩
  have written := runs.write_accepted ht
  have released := (hostCommands_inReset hx written).trans ht.1.1
  have taken := runs.part (part := .take) released
  have released' := (hostCommands_inReset hx taken).trans released
  rw [written, thenDo, taken, thenDo, runs.part released', runs.whole_accepted ht]
  rfl

/-- Settles O56: the reset values hold no entry, so the re-latch sets flags in the store; then block by block. -/
theorem softResetOutcomes : Obligations.SoftResetOutcomes := by
  intro s p w pins served reset
  refine ⟨relatch (softResetValues pins (atPort s p)), ?_, ?_⟩
  · have effect : softReset w pins = serveWrite 0x02 fun s => relatch (softResetValues pins s) :=
      funext fun s => if_pos reset
    exact (congrArg (unlessInReset s) effect).trans (write_served _ served)
  · obtain ⟨direct, lastTick, forced⟩ := s.ou.softReset_relatched_frame s.hc.haltnHigh
    have emptied := s.store.softReset_vacant.flagged (haltedAtReset s.hc.haltnHigh)
    rw [relatch_softResetValues]
    refine ⟨rfl, rfl, rfl, rfl, s.ce.softReset_eq, s.store.softReset.flagged_free _,
      s.store.softReset.flagged_reserved _, emptied.agenda, emptied.held_at, emptied.parked_at,
      s.store.softReset_flagged_gen _, s.store.softReset_flagged_group s.hc.haltnHigh,
      s.ou.softReset_relatched_line s.hc.haltnHigh, direct, lastTick, forced, s.iu.softReset_line pins, rfl, rfl, rfl,
      rfl, rfl⟩

/-- Settles O58: the port by the frame in progress, then the words of a read frame. -/
theorem portFrames : Obligations.PortFrames := by
  refine ⟨fun s b => ⟨fun released ready => ?_, fun released taken => ?_, rfl⟩,
    fun a cur autoInc => ⟨Port.admitWrite_current autoInc a, Port.admitWrite_other autoInc, rfl, rfl, rfl, rfl⟩,
    fun s autoInc a frame => ⟨fun other => ?_, ?_, fun released reaches => ?_⟩, fun s => State.readWord?_no_frame⟩
  · exact event_released released (headerByte_ready b ready)
  · exact event_released released (headerByte_not_ready b taken)
  · rw [State.readWord?_frame frame, State.afterRead_other other]
    rfl
  · rintro rfl
    rw [State.readWord?_frame frame]
    rfl
  · exact event_released released (time0Read_frame frame reaches)

/-- Settles O60, register by register, and the event window kind by kind. -/
theorem registerReads : Obligations.RegisterReads := by
  refine ⟨fun s => ⟨rfl, State.readReg_status, rfl, rfl, rfl, rfl, s.readReg_result0, rfl, rfl, rfl, rfl, rfl, rfl,
    State.readReg_pool, State.readReg_hsel, fun _ => State.readReg_handle, State.readReg_handle_none, rfl,
    s.readReg_levels, s.readReg_inputs, State.readReg_count, fun _ hn _ h => s.readReg_composer hn h,
    fun _ => s.readReg_unreadable, fun empty _ => State.readReg_window_empty empty⟩, fun s r rest w head shown => ?_⟩
  have window : ∀ n < 8, w n = r.window n := fun n hn => by
    rw [shown n hn, s.readReg_window hn, head]
    rfl
  rw [window 0 (by decide), window 1 (by decide), window 2 (by decide), window 3 (by decide), window 4 (by decide),
    window 5 (by decide), window 6 (by decide), window 7 (by decide), r.window_time, r.window_quantity]
  refine ⟨?_, ?_, ?_, ?_, ?_, ?_, ?_, ?_⟩
  · rintro h g tag due m rfl
    exact ⟨EventRecord.word0_fired, rfl, rfl, h.toWord_add_group g⟩
  · rintro h g tag due n m rfl
    exact ⟨EventRecord.word0_late, rfl, rfl, h.toWord_add_group g⟩
  · rintro h g tag due n rfl
    exact ⟨EventRecord.word0_skipped, rfl, rfl, h.toWord_add_group g⟩
  · rintro h g tag reason n reheld rfl
    exact ⟨EventRecord.word0_done, rfl, rfl, h.toWord_add_group g⟩
  · rintro k v t m rfl
    exact ⟨EventRecord.word0_edge, rfl, rfl, word_toNat (by omega)⟩
  · rintro k v t width m rfl
    exact ⟨EventRecord.word0_span, rfl, rfl, word_toNat (by omega)⟩
  · rintro t cause rfl
    exact ⟨EventRecord.word0_halt, rfl, rfl, rfl⟩
  · rintro n rfl
    exact ⟨rfl, rfl, rfl, rfl⟩

end Sys2Proof.Proofs

/-!
The queue of waiting commands, which no command touches (assumption log 22).
-/

namespace Sys2Proof.Machine

/-! ## Events that leave the queue alone -/

/-- Whatever the event does, it does it beside the queue of waiting commands. -/
def LeavesQueue (f : State → State) : Prop := ∀ s, (f s).pending = s.pending

theorem LeavesQueue.comp {f g : State → State} (hg : LeavesQueue g) (hf : LeavesQueue f) :
    LeavesQueue fun s => g (f s) :=
  fun s => (hg (f s)).trans (hf s)

/-- A served write leaves the queue alone when its effect does. -/
theorem LeavesQueue.serveWrite {f : State → State} (hf : LeavesQueue f) (a : Addr) :
    LeavesQueue (serveWrite a f) := by
  intro s
  obtain e | ⟨p, -, e⟩ := serveWrite_cases a f s <;> rw [e]
  exact hf (s.withHp { s.hp with port := p })

/-! ## At the Schedule Store -/

theorem commitStart_leavesQueue : LeavesQueue commitStart := by
  intro s
  unfold commitStart
  split
  · split
    · unfold commitStartTaken
      split
      · rfl
      · split <;> rfl
    · rfl
  · rfl

theorem mergeCompletion_leavesQueue : LeavesQueue mergeCompletion := by
  intro s
  unfold mergeCompletion
  split <;> rfl

theorem abandon_leavesQueue (code : ResultCode) : LeavesQueue (abandon code) := by
  intro s
  unfold abandon
  split <;> rfl

theorem abortWrite_leavesQueue (w : Word) : LeavesQueue (abortWrite w) := by
  intro s
  unfold abortWrite
  split
  · exact (abandon_leavesQueue .aborted).serveWrite 0x02 s
  · rfl

theorem applyHaltActions_leavesQueue : LeavesQueue applyHaltActions := by
  intro s
  simp [applyHaltActions]

theorem haltGroupRequest_leavesQueue : LeavesQueue haltGroupRequest := by
  intro s
  unfold haltGroupRequest
  split
  · rfl
  · rw [abandon_leavesQueue, applyHaltActions_leavesQueue]
    rfl

theorem dispatch_leavesQueue : LeavesQueue dispatch := by
  intro s
  unfold dispatch
  split <;> rfl

theorem triggerEvent_leavesQueue (pick : TriggerPick) : LeavesQueue (triggerEvent pick) := by
  intro s
  cases pick <;> simp only [triggerEvent] <;> split <;> rfl

/-! ## At the Timebase and the Input Unit -/

theorem sample_leavesQueue (pins : Pins) : LeavesQueue (sample pins) := by
  intro s
  obtain ⟨-, e⟩ | ⟨T, -, e⟩ := sample_cases pins s <;> rw [e]
  rfl

theorem confirmation_leavesQueue (pins : Pins) : LeavesQueue (confirmation pins) := by
  intro s
  unfold confirmation
  split
  · split <;> rfl
  · rfl

theorem beginRunning_leavesQueue (pins : Pins) : LeavesQueue (beginRunning pins) :=
  fun s => sample_leavesQueue pins (s.withTb s.tb.boundary)

theorem endRunning_leavesQueue : LeavesQueue endRunning := by
  intro s
  obtain ⟨-, e⟩ | ⟨-, e⟩ := endRunning_cases s <;> rw [e] <;> rfl

theorem syncEdge_leavesQueue (pins : Pins) : LeavesQueue (syncEdge pins) := by
  intro s
  unfold syncEdge
  split
  · exact beginRunning_leavesQueue pins s
  · rfl

theorem syncFall_leavesQueue : LeavesQueue syncFall := by
  intro s
  unfold syncFall
  split <;> rfl

theorem tickEvent_leavesQueue : LeavesQueue tickEvent := by
  intro s
  unfold tickEvent
  split
  · split <;> rfl
  · rfl

theorem time0Read_leavesQueue : LeavesQueue time0Read := by
  intro s
  rw [time0Read_eq]
  split <;> rfl

/-! ## At the Output Unit -/

theorem delivery_leavesQueue : LeavesQueue delivery := by
  intro s
  unfold delivery
  split <;> rfl

theorem runDown_leavesQueue : LeavesQueue runDown := by
  intro s
  obtain ⟨-, e⟩ | ⟨T, -, e⟩ := runDown_cases s <;> rw [e]
  rfl

/-- The ends of pulses come behind the run-down that waits, or without it (R131). -/
theorem pulseEnd_leavesQueue : LeavesQueue pulseEnd := by
  intro s
  obtain ⟨r, rfl | rfl, e⟩ := pulseEnd_cases s <;> rw [e]
  · rfl
  · exact runDown_leavesQueue s

/-! ## At the Event Queue and the host port -/

theorem recordOffer_leavesQueue (b : Offerer) : LeavesQueue (recordOffer b) := by
  intro s
  cases b <;> simp only [recordOffer] <;> split <;> rfl

theorem headerByte_leavesQueue (b : Byte) : LeavesQueue (headerByte b) := by
  intro s
  unfold headerByte
  split <;> rfl

theorem badCommand_leavesQueue (w : Word) : LeavesQueue (badCommand w) := by
  intro s
  unfold badCommand
  split
  · rfl
  · refine LeavesQueue.serveWrite (fun s => ?_) 0x07 s
    split <;> rfl

/-! ## Halt events and resets -/

theorem latchHalt_leavesQueue (cause : HaltCause) : LeavesQueue (latchHalt cause) := by
  intro s
  simp only [latchHalt, State.withEq_pending, State.withOu_pending, State.withHc_pending]

theorem haltEventTaken_leavesQueue (cause : HaltCause) : LeavesQueue (haltEventTaken cause) := by
  intro s
  cases latch : s.hc.latch with
  | some c => rw [haltEventTaken_latched cause latch]
  | none =>
    rw [haltEventTaken_clear cause latch, State.withMail_pending, latchHalt_leavesQueue]

theorem recogniseFall_leavesQueue : LeavesQueue recogniseFall := by
  intro s
  unfold recogniseFall
  split <;> rfl

theorem takeFall_leavesQueue : LeavesQueue takeFall := by
  intro s
  cases owed : s.hc.fallsOwed with
  | zero => rw [takeFall_none owed]
  | succ n =>
    rw [takeFall_owed owed]
    exact haltEventTaken_leavesQueue .pin (s.withHc { s.hc with fallsOwed := n })

theorem haltEvent_leavesQueue (p : FallStep) : LeavesQueue (haltEvent p) := by
  intro s
  cases p with
  | whole =>
    simp only [haltEvent]
    split
    · exact takeFall_leavesQueue.comp recogniseFall_leavesQueue s
    · rfl
  | recognise => exact recogniseFall_leavesQueue s
  | take => exact takeFall_leavesQueue s

/-- The halt event that a reset takes in its own step stores its record in the Event Queue, which is not the queue of
waiting commands (R173). -/
theorem relatch_leavesQueue : LeavesQueue relatch := by
  intro s
  cases level : s.hc.haltnHigh with
  | true => rw [relatch_high level]
  | false =>
    rw [relatch_low level, State.withEq_pending, applyHaltActions_leavesQueue, latchHalt_leavesQueue]

theorem softResetValues_leavesQueue (pins : Pins) : LeavesQueue (softResetValues pins) := by
  intro s
  simp only [softResetValues]

theorem softReset_leavesQueue (w : Word) (pins : Pins) : LeavesQueue (softReset w pins) := by
  intro s
  unfold softReset
  split
  · exact (relatch_leavesQueue.comp (softResetValues_leavesQueue pins)).serveWrite 0x02 s
  · rfl

theorem powerOnReset_leavesQueue (haltn csn : Bool) (pins : Pins) : LeavesQueue (powerOnReset haltn csn pins) := by
  intro s
  rw [powerOnReset, relatch_leavesQueue]

/-! ## The handlers of the host commands -/

/-- A handler's answer in the state `s`, if it gives one, leaves the queue as `s` has it. -/
def AnswersBesideQueue (s : State) (o : Option (State × Stage)) : Prop :=
  ∀ s' stage, o = some (s', stage) → s'.pending = s.pending

section Answers

variable {s : State}

theorem AnswersBesideQueue.waits : AnswersBesideQueue s none := by
  intro s' stage h
  cases h

theorem AnswersBesideQueue.beside {s' : State} {stage : Stage} (same : s'.pending = s.pending) :
    AnswersBesideQueue s (some (s', stage)) := by
  rintro _ _ ⟨⟩
  exact same

variable (s) (a : Args)

theorem appendTake_besideQueue : AnswersBesideQueue s (appendTake a s) := by
  unfold appendTake
  split
  · exact .beside rfl
  · split <;> exact .beside rfl

theorem discardTake_besideQueue : AnswersBesideQueue s (discardTake a s) := .beside rfl

theorem commitTake_besideQueue : AnswersBesideQueue s (commitTake a s) := by
  unfold commitTake
  split <;> exact .beside rfl

theorem cancelTake_besideQueue : AnswersBesideQueue s (cancelTake a s) := by
  unfold cancelTake
  split
  · exact .beside rfl
  · split <;> exact .beside rfl

theorem queryTake_besideQueue : AnswersBesideQueue s (queryTake a s) := by
  unfold queryTake
  split
  · exact .beside rfl
  · split <;> exact .beside rfl

theorem suspendTake_besideQueue : AnswersBesideQueue s (suspendTake a s) := by
  unfold suspendTake
  split
  · exact .beside rfl
  · split <;> exact .beside rfl

theorem resumeTake_besideQueue : AnswersBesideQueue s (resumeTake a s) := by
  unfold resumeTake
  split
  · exact .beside rfl
  · split <;> exact .beside rfl

theorem cancelGroupTake_besideQueue : AnswersBesideQueue s (cancelGroupTake a s) := by
  unfold cancelGroupTake
  split <;> exact .beside rfl

theorem setGroupTake_besideQueue : AnswersBesideQueue s (setGroupTake a s) := by
  unfold setGroupTake
  split
  · split
    · exact .beside rfl
    · exact .waits
  · exact .beside rfl

theorem startTake_besideQueue (pins : Pins) : AnswersBesideQueue s (startTake pins a s) := by
  unfold startTake
  split
  · exact .beside (beginRunning_leavesQueue pins s)
  · exact .beside rfl

theorem stopTake_besideQueue : AnswersBesideQueue s (stopTake a s) := by
  unfold stopTake
  split
  · exact .beside rfl
  · exact .beside (endRunning_leavesQueue (s.withTb s.tb.stop))

theorem armSyncTake_besideQueue (sync : Bool) : AnswersBesideQueue s (armSyncTake sync a s) := by
  unfold armSyncTake
  split <;> exact .beside rfl

theorem setTimeTake_besideQueue : AnswersBesideQueue s (setTimeTake a s) := by
  unfold setTimeTake
  split
  · split
    · split <;> exact .beside rfl
    · exact .waits
  · exact .beside rfl

theorem setTrimTake_besideQueue : AnswersBesideQueue s (setTrimTake a s) := by
  unfold setTrimTake
  split
  · exact .beside rfl
  · split <;> exact .beside rfl

theorem fireCueTake_besideQueue : AnswersBesideQueue s (fireCueTake a s) := by
  unfold fireCueTake
  split <;> exact .beside rfl

theorem configOutTake_besideQueue : AnswersBesideQueue s (configOutTake a s) := by
  unfold configOutTake
  split
  · split <;> exact .beside rfl
  · exact .beside rfl

theorem configInTake_besideQueue : AnswersBesideQueue s (configInTake a s) := by
  unfold configInTake
  split <;> exact .beside rfl

theorem haltTake_besideQueue : AnswersBesideQueue s (haltTake a s) := 
  .beside (haltEventTaken_leavesQueue .command s)

theorem releaseTake_besideQueue : AnswersBesideQueue s (releaseTake a s) := by
  unfold releaseTake
  split
  · exact .beside rfl
  · split <;> exact .beside rfl

end Answers

/-! ## Host commands and register writes -/

section Parts

variable (code : Byte)

theorem commandWrite_leavesQueue : LeavesQueue (commandWrite code) := by
  intro s
  unfold commandWrite
  split <;> rfl

theorem commandComplete_leavesQueue : LeavesQueue (commandComplete code) := by
  intro s
  obtain e | ⟨a, r, -, e⟩ := commandComplete_cases code s <;> rw [e]
  rfl

variable {handler : Handler} (hh : ∀ s a, AnswersBesideQueue s (handler a s))
include hh

theorem commandTake_leavesQueue : LeavesQueue (commandTake code handler) := by
  intro s
  obtain e | ⟨a, n, s', stage, -, answered, e⟩ := commandTake_cases code handler s <;> rw [e]
  exact hh s a s' stage answered

theorem commandWhole_leavesQueue : LeavesQueue (commandWhole code handler) := by
  intro s
  unfold commandWhole
  split
  · rw [commandComplete_leavesQueue, commandTake_leavesQueue code hh, commandWrite_leavesQueue]
  · exact commandWrite_leavesQueue code s

/-- Every part of a host command leaves the queue alone when its handler's answers do. -/
theorem runCommand_leavesQueue (p : CmdStep) : LeavesQueue (runCommand code handler p) := by
  cases p with
  | whole => exact (commandWhole_leavesQueue code hh).serveWrite 0x07
  | write => exact (commandWrite_leavesQueue code).serveWrite 0x07
  | take => exact commandTake_leavesQueue code hh
  | complete => exact commandComplete_leavesQueue code

end Parts

/-- Ahead of a register write at most an APPEND is taken (R67). -/
theorem beforeWrite_leavesQueue (a : Addr) : LeavesQueue (beforeWrite a) := by
  intro s
  unfold beforeWrite
  split
  · exact commandTake_leavesQueue 0x01 appendTake_besideQueue s
  · rfl

theorem registerWrite_leavesQueue (a : Addr) (w : Word) : LeavesQueue (registerWrite a w) := by
  intro s
  unfold registerWrite
  split
  · rfl
  · refine LeavesQueue.serveWrite (fun s => ?_) a s
    rw [State.withCe_pending, beforeWrite_leavesQueue]

/-! ## Every command -/

theorem exec_pending {c : Instr} {s t : State} (h : exec c s = .next t) : t.pending = s.pending := by
  have event : ∀ {f : State → State}, unlessInReset s f = .next t → LeavesQueue f → t.pending = s.pending := by
    intro f h leaves
    obtain rfl | ⟨-, rfl⟩ := unlessInReset_eq h
    · rfl
    · exact leaves s
  have write : ∀ {a : Addr} {f : State → State}, unlessInReset s (serveWrite a f) = .next t → LeavesQueue f →
      t.pending = s.pending :=
    fun h leaves => event h (leaves.serveWrite _)
  have host : ∀ {code : Byte} {handler : Handler} {p : CmdStep},
      unlessInReset s (runCommand code handler p) = .next t → (∀ s a, AnswersBesideQueue s (handler a s)) →
      t.pending = s.pending :=
    fun h hh => event h (runCommand_leavesQueue _ hh _)
  cases c with
  | append p => exact host h appendTake_besideQueue
  | discard p => exact host h discardTake_besideQueue
  | commit p => exact host h commitTake_besideQueue
  | commitStart => exact event h commitStart_leavesQueue
  | mergeCompletion => exact event h mergeCompletion_leavesQueue
  | abort w => exact event h (abortWrite_leavesQueue w)
  | cancel p => exact host h cancelTake_besideQueue
  | query p => exact host h queryTake_besideQueue
  | suspend p => exact host h suspendTake_besideQueue
  | resume p => exact host h resumeTake_besideQueue
  | cancelGroup p => exact host h cancelGroupTake_besideQueue
  | setGroup p => exact host h setGroupTake_besideQueue
  | start p pins => exact host h fun s a => startTake_besideQueue s a pins
  | stop p => exact host h stopTake_besideQueue
  | armSync p sync => exact host h fun s a => armSyncTake_besideQueue s a sync
  | setTime p => exact host h setTimeTake_besideQueue
  | setTrim p => exact host h setTrimTake_besideQueue
  | fireCue p => exact host h fireCueTake_besideQueue
  | configOut p => exact host h configOutTake_besideQueue
  | configIn p => exact host h configInTake_besideQueue
  | halt p => exact host h haltTake_besideQueue
  | release p => exact host h releaseTake_besideQueue
  | badcmd w => exact event h (badCommand_leavesQueue w)
  | softReset w pins => exact event h (softReset_leavesQueue w pins)
  | haltEvent p => exact event h (haltEvent_leavesQueue p)
  | haltnRise => exact event h fun _ => rfl
  | haltGroupRequest => exact event h haltGroupRequest_leavesQueue
  | syncEdge pins => exact event h (syncEdge_leavesQueue pins)
  | tickEvent => exact event h tickEvent_leavesQueue
  | dispatch => exact event h dispatch_leavesQueue
  | triggerEvent pick => exact event h (triggerEvent_leavesQueue pick)
  | delivery => exact event h delivery_leavesQueue
  | runDown => exact event h runDown_leavesQueue
  | pulseEnd => exact event h pulseEnd_leavesQueue
  | sample pins => exact event h (sample_leavesQueue pins)
  | confirmation pins => exact event h (confirmation_leavesQueue pins)
  | recordOffer b => exact event h (recordOffer_leavesQueue b)
  | outDirect w => exact write h fun _ => rfl
  | pop w => exact write h fun _ => rfl
  | irqFlags w => exact write h fun _ => rfl
  | irqEnable w => exact write h fun _ => rfl
  | thresh w => exact write h fun _ => rfl
  | time0 => exact event h time0Read_leavesQueue
  | registerWrite a w => exact event h (registerWrite_leavesQueue a w)
  | headerByte b => exact event h (headerByte_leavesQueue b)
  | syncFall => exact event h syncFall_leavesQueue
  | powerOnReset haltn csn pins =>
    cases h
    exact powerOnReset_leavesQueue haltn csn pins s
  | resetnAsserted =>
    cases h
    rfl
  | frameEnd =>
    cases h
    rfl

end Sys2Proof.Machine

/-!
The power-on reset with its re-latch, in one state (R173, R174, R176, R188).
-/

namespace Sys2Proof.Machine

theorem Store.reset_vacant : Store.reset.Vacant := ⟨rfl, rfl, rfl⟩

/-- Every group keeps at a halt behind a power-on reset, so the re-latch sets no flag (R108, R118). -/
theorem Store.reset_flagged (gs : List (Fin 16)) : Store.reset.flagged gs = Store.reset := by
  have keeps : ∀ g : Fin 16, Store.reset.groups[g].haltAction ≠ .suspend := fun g => by simp [Store.reset]
  induction gs with
  | nil => exact Store.reset.flagged_nil
  | cons g gs ih => rw [Store.flagged_cons_keeps gs (keeps g), ih]

/-- No line is in the halt set behind a power-on reset, so the forcing moves none (R134, R137). -/
theorem OutputUnit.reset_force : OutputUnit.reset.force = { OutputUnit.reset with forced := true } := by
  have same : OutputUnit.reset.force.lines = OutputUnit.reset.lines := bank_ext fun k => by
    rw [OutputUnit.force_line]
    simp [OutputUnit.reset, LineRecord.forced]
  exact congrArg (fun lines => { OutputUnit.reset with lines := lines, forced := true }) same

/-- The HALT record is the first in the queue, and the threshold of 1 is reached with it (R159, R162, R174). -/
theorem EventQueue.reset_offer_halt (r : EventRecord) :
    (EventQueue.reset.raiseHalt.offer r).1 =
      { EventQueue.reset with records := [r], flags := ⟨true, false, false, false, true⟩ } := by
  have room : EventQueue.reset.raiseHalt.records.length < 63 := Nat.zero_lt_succ 62
  rw [EventQueue.offer_stored r room]
  rfl

section PowerOn

variable (csn : Bool) (pins : Pins) (s : State)

/-- A release with HALTn high leaves the power-on values (R188). -/
theorem powerOnReset_high :
    powerOnReset true csn pins s =
      { State.reset with
        iu := InputUnit.reset pins
        hp := ⟨if csn then .ready else .waitHigh, false⟩
        pending := s.pending } :=
  relatch_high rfl

/-- A release with HALTn low takes the halt event of cause PIN in its own step (R174). -/
theorem powerOnReset_low :
    powerOnReset false csn pins s =
      { State.reset with
        iu := InputUnit.reset pins
        hp := ⟨if csn then .ready else .waitHigh, false⟩
        pending := s.pending
        hc := ⟨some .pin, false, 0⟩
        ou := { OutputUnit.reset with forced := true }
        eq :=
          { EventQueue.reset with
            records := [.halt 0 .pin]
            flags := ⟨true, false, false, false, true⟩ } } := by
  rw [powerOnReset, relatch_vacant Store.reset_vacant]
  simp only [State.reset, cond_false, Store.reset_flagged, OutputUnit.reset_force, EventQueue.reset_offer_halt,
    Timebase.reset]

theorem resetnAsserted_eq :
    resetnAsserted s = { s with hp := ⟨if s.hp.port = .ready then .ready else .waitHigh, true⟩ } := by
  cases port : s.hp.port <;> simp [resetnAsserted, State.withHp, port]

end PowerOn

end Sys2Proof.Machine

/-!
The statements of the family "The machine as a whole and its reset pins".
-/

namespace Sys2Proof.Proofs

open Sys2Proof.Machine

/-- Settles O1, by the two forms of the queue. -/
theorem stepTakesFrontCommand : Obligations.StepTakesFrontCommand := by
  refine ⟨fun c rest s front => ?_, fun s empty => ?_⟩
  · rw [step, front]
    rfl
  · rw [step, empty]

/-- Settles O2: command by command, every event and every handler leaves the queue alone. -/
theorem execLeavesQueueAlone : Obligations.ExecLeavesQueueAlone :=
  fun _ _ _ => exec_pending

/-- Settles O57: the release by the level of HALTn, then the assertion. -/
theorem powerOnResetOutcomes : Obligations.PowerOnResetOutcomes :=
  fun s csn pins =>
    ⟨congrArg Host.Outcome.next (powerOnReset_high csn pins s),
      congrArg Host.Outcome.next (powerOnReset_low csn pins s),
      congrArg Host.Outcome.next (resetnAsserted_eq s)⟩

end Sys2Proof.Proofs
